-- ==== Sys2Proof/Word.lean ====
section
/-! DEFINITION. The block's number widths (00_scope.md R10, R13): 32-bit registers and addresses, 16-bit
ring indices, capacities and tags, 8-bit bytes. Every value is unsigned. -/

namespace Sys2Proof

/-- A register, an address, a descriptor word or a command word: 32 bits (R10). -/
abbrev Word := BitVec 32

/-- A ring index, a ring capacity or a completion tag: 16 bits (R10). -/
abbrev Half := BitVec 16

/-- A byte of memory, a DMX value or a node identifier: 8 bits (R10). -/
abbrev Byte := BitVec 8

end Sys2Proof
end

