-- ==== Sys2Proof/Config.lean ====
section
/-! DEFINITION. What an implementation of the block fixes (00_scope.md R9) and the values the spec leaves
free (10_state.md R80). The free values are opaque: nothing can be proved about which value they are. -/

namespace Sys2Proof

/-- One region of addresses `base .. base + size - 1`. -/
structure Region where
  base : Nat
  size : Nat
deriving DecidableEq, Repr

/-- The parameters of R9. `DMX_CHANNELS` is fixed at 512 by the source and is no field. `memMap` is MEM_VALID
as a list of the regions in which it is true. -/
structure Params where
  rxUnit : Nat
  txUnit : Nat
  ringMax : Nat
  evqDepth : Nat
  maxNodes : Nat
  memMap : List Region
  blockBase : Word
deriving DecidableEq, Repr

namespace Config

/-- DMX_CHANNELS (R9): the source fixes it at 512. -/
def dmxChannels : Nat := 512

/-- The parameters `State.reset` starts with: the set-up of 95_test_vectors.md section 0, whose values are
those R9 suggests. DESIGN CHOICE, unsafe (log entries 1 to 3): the spec leaves each of them to the platform.
No step changes `State.params`, and a statement about every state holds for every parameter. -/
def resetParams : Params where
  rxUnit := 128
  txUnit := 1518
  ringMax := 1024
  evqDepth := 64
  maxNodes := 16
  memMap := [⟨0, 0x10000⟩]
  blockBase := 0x00010000

/-- What a byte of system memory that nothing has written reads as. DESIGN CHOICE, unsafe (log entry 7):
R461 makes the contents at power-on an input of the model, and `State.mem` can list any of them. -/
def unlistedByte : Byte := 0

/-- The `n`-th transmission outcome that `Env.txOutcomes` does not supply: true = sent (41_dma_agents.md R274).
Free value (log entry 5). -/
opaque txOutcome : Nat → Bool

/-- The `n`-th RADIO answer that `Env.radioAcks` does not supply: true = success (R280). Free value
(log entry 6). -/
opaque radioAck : Nat → Bool

/-- The `n`-th choice among several enabled agents when no input decides it (R283). Free value (log entry 4). -/
opaque pickAgent : Nat → Nat

end Config

end Sys2Proof
end

