-- ==== Sys2Proof/Syntax.lean ====
section
/-! DEFINITION. The instructions of the block: the nine commands of 30_encoding.md R142 with the operands
R144 gives each, and the three Art-Net opcodes of R175. One constructor for each row of the opcode table. -/

namespace Sys2Proof

/-- ARG0..ARG5 as one group: the operand registers (10_state.md R56) and the arguments PEND latches (R61). -/
structure Args where
  a0 : Word
  a1 : Word
  a2 : Word
  a3 : Word
  a4 : Word
  a5 : Word
deriving DecidableEq, Repr

/-- Six arguments of zero: the reset value of ARG0..ARG5 (R461). -/
def Args.zero : Args := ⟨0, 0, 0, 0, 0, 0⟩

/-- A command word as R141 divides it: `OP` in bits 7:0 and `RSVD` in bits 31:8. -/
structure CommandWord where
  op : Byte
  rsvd : BitVec 24
deriving DecidableEq, Repr

/-- The instructions. A command carries exactly the operands that R144 says it reads. An Art-Net opcode
carries none: it acts on the frame that the pending DECODE command names (43_artnet_decoder.md R342). -/
inductive Instr where
  /-- INIT (R202): the two capacities and the four region bases. -/
  | init (rxCap txCap rxDesc txDesc rxBuf txBuf : Word)
  /-- READ (R210): destination address and `max_len`. -/
  | read (dest maxLen : Word)
  /-- WRITE (R220): source address, length, completion tag. -/
  | write (src len : Word) (tag : Half)
  /-- SET_RX_CB (R230): bit 0 of ARG0. -/
  | setRxCb (enable : Bool)
  /-- SET_TX_WAKEUP (R231): bit 0 of ARG0, and the threshold. -/
  | setTxWakeup (enable : Bool) (threshold : Word)
  /-- SERVICE as a command (R240). -/
  | service
  /-- CLASSIFY (R310): frame address and length. -/
  | classify (frame len : Word)
  /-- DECODE (R341): frame address and length. -/
  | decode (frame len : Word)
  /-- DISPATCH (R381). -/
  | dispatch
  /-- OpPoll (R350): the Poll path of DECODE. -/
  | opPoll
  /-- OpDmx (R344): the DMX path of DECODE. -/
  | opDmx
  /-- OpAddress (R351): the Address path of DECODE. -/
  | opAddress
deriving DecidableEq, Repr

end Sys2Proof
end

