-- ==== Sys2Proof/WellFormed.lean ====
section
/-! DEFINITION. The checks on raw terms: the legality of a command word (30_encoding.md R141), the ranges of
the parameters (00_scope.md R9) and the length of a frame WIRE may offer (41_dma_agents.md R260). An `Instr`
needs no check of its own: its operands have exactly the widths R144 gives them. -/

namespace Sys2Proof

/-- The command opcodes of R142. -/
def commandOps : List Byte := [0x01, 0x02, 0x03, 0x04, 0x05, 0x06, 0x10, 0x11, 0x12]

/-- R141: a word is legal iff RSVD = 0 and OP is in the table of R142. -/
def CommandWord.wf (c : CommandWord) : Bool := c.rsvd == 0 && commandOps.contains c.op

/-- R9: every parameter is within its range. A parameter outside it is not a legal model instance
(93_implementation_defined.md section 1.3). -/
def Params.wf (p : Params) : Bool :=
  p.rxUnit % 4 == 0 && decide (4 ≤ p.rxUnit) && decide (p.rxUnit ≤ 8188)
    && decide (1 ≤ p.txUnit) && decide (p.txUnit ≤ 16383)
    && decide (2 ≤ p.ringMax) && decide (p.ringMax ≤ 65535)
    && decide (1 ≤ p.evqDepth) && decide (p.evqDepth ≤ 65535)
    && decide (1 ≤ p.maxNodes) && decide (p.maxNodes ≤ 128)
    && p.blockBase.toNat % 4096 == 0

/-- R260: the length WIRE may offer, 1 to 8191 bytes. -/
def frameWf (frame : List Byte) : Bool := decide (1 ≤ frame.length) && decide (frame.length ≤ 8191)

end Sys2Proof
end

