-- ==== Sys2Proof/Decode.lean ====
section
/-! DEFINITION. Decoding and encoding (30_encoding.md R141 to R144, R174, R175). A command is seven
little-endian words, the command word and ARG0..ARG5 as PEND latches them; an Art-Net opcode is the two
bytes `f[50], f[51]` of a frame. The layout of a command as bytes is the model's (log entry 17): the block
takes the word from CMD and the arguments from ARG0..ARG5. -/

namespace Sys2Proof

/-! ### Byte order (20_memory.md R104) -/

/-- Byte `k` of a word: bits `8k+7 : 8k`. -/
def byteOf (v : Word) (k : Nat) : Byte := BitVec.ofNat 8 (v.toNat >>> (8 * k))

/-- The four bytes of a word in the order `MemWrite32` stores them (R104). -/
def wordBytes (v : Word) : List Byte := [byteOf v 0, byteOf v 1, byteOf v 2, byteOf v 3]

/-- `b0 | b1<<8 | b2<<16 | b3<<24` (R104). -/
def leWord (b0 b1 b2 b3 : Byte) : Word :=
  b0.setWidth 32 ||| (b1.setWidth 32 <<< 8) ||| (b2.setWidth 32 <<< 16) ||| (b3.setWidth 32 <<< 24)

/-- The word whose first byte is byte `k` of a list; a missing byte counts as 0. -/
def wordAt (bs : List Byte) (k : Nat) : Word :=
  leWord (bs.getD k 0) (bs.getD (k + 1) 0) (bs.getD (k + 2) 0) (bs.getD (k + 3) 0)

/-! ### Decoding -/

/-- Why a word or a byte string is no instruction. -/
inductive DecodeReject where
  /-- Bits 31:8 of a command word are not 0 (R141). -/
  | reservedBits
  /-- The OP of a command word is not in the table of R142 (R143). -/
  | unknownOp
  /-- An opcode pair R175 does not name: ArtNetKind OTHER. -/
  | unknownOpcode
  /-- A byte string that is neither an opcode nor a command with its arguments. -/
  | badLength
deriving DecidableEq, Repr

/-- Decoding of a command word with its latched arguments (R141 to R144, R201): the whole word is matched,
and of the arguments exactly the fields R144 lists are read. -/
def decodeCommand (w : Word) (a : Args) : Except DecodeReject Instr :=
  if w >>> 8 ≠ 0 then .error .reservedBits
  else if w = 0x01 then .ok (.init a.a0 a.a1 a.a2 a.a3 a.a4 a.a5)
  else if w = 0x02 then .ok (.read a.a0 a.a1)
  else if w = 0x03 then .ok (.write a.a0 a.a1 (a.a2.setWidth 16))
  else if w = 0x04 then .ok (.setRxCb (a.a0.getLsbD 0))
  else if w = 0x05 then .ok (.setTxWakeup (a.a0.getLsbD 0) a.a1)
  else if w = 0x06 then .ok .service
  else if w = 0x10 then .ok (.classify a.a0 a.a1)
  else if w = 0x11 then .ok (.decode a.a0 a.a1)
  else if w = 0x12 then .ok .dispatch
  else .error .unknownOp

/-- Decoding of an Art-Net opcode `f[50] | f[51] << 8` (R174, R175). -/
def decodeOpcode (op : Half) : Except DecodeReject Instr :=
  if op = 0x2000 then .ok .opPoll
  else if op = 0x5000 then .ok .opDmx
  else if op = 0x6000 then .ok .opAddress
  else .error .unknownOpcode

/-- Decoding of any byte string: two bytes are an Art-Net opcode, 28 bytes are a command word and
ARG0..ARG5, any other length is rejected. -/
def decode (bs : List Byte) : Except DecodeReject Instr :=
  if bs.length = 2 then
    decodeOpcode ((bs.getD 0 0).setWidth 16 ||| ((bs.getD 1 0).setWidth 16 <<< 8))
  else if bs.length = 28 then
    decodeCommand (wordAt bs 0)
      ⟨wordAt bs 4, wordAt bs 8, wordAt bs 12, wordAt bs 16, wordAt bs 20, wordAt bs 24⟩
  else .error .badLength

/-! ### Encoding -/

/-- The command word of R142; for an Art-Net opcode, its value of R175. -/
def Instr.opWord : Instr → Word
  | .init _ _ _ _ _ _ => 0x01
  | .read _ _ => 0x02
  | .write _ _ _ => 0x03
  | .setRxCb _ => 0x04
  | .setTxWakeup _ _ => 0x05
  | .service => 0x06
  | .classify _ _ => 0x10
  | .decode _ _ => 0x11
  | .dispatch => 0x12
  | .opPoll => 0x2000
  | .opDmx => 0x5000
  | .opAddress => 0x6000

/-- Whether the instruction is an Art-Net opcode (R175) and not a command word (R142). -/
def Instr.isOpcode : Instr → Bool
  | .init _ _ _ _ _ _ => false
  | .read _ _ => false
  | .write _ _ _ => false
  | .setRxCb _ => false
  | .setTxWakeup _ _ => false
  | .service => false
  | .classify _ _ => false
  | .decode _ _ => false
  | .dispatch => false
  | .opPoll => true
  | .opDmx => true
  | .opAddress => true

/-- ARG0..ARG5 as HOST writes them for the instruction (R144, R147): an operand the command does not have is 0. -/
def Instr.operandWords : Instr → Args
  | .init rc tc rd td rb tb => ⟨rc, tc, rd, td, rb, tb⟩
  | .read d m => ⟨d, m, 0, 0, 0, 0⟩
  | .write a n t => ⟨a, n, t.setWidth 32, 0, 0, 0⟩
  | .setRxCb e => ⟨if e then 1 else 0, 0, 0, 0, 0, 0⟩
  | .setTxWakeup e t => ⟨if e then 1 else 0, t, 0, 0, 0, 0⟩
  | .service => Args.zero
  | .classify f n => ⟨f, n, 0, 0, 0, 0⟩
  | .decode f n => ⟨f, n, 0, 0, 0, 0⟩
  | .dispatch => Args.zero
  | .opPoll => Args.zero
  | .opDmx => Args.zero
  | .opAddress => Args.zero

/-- The bytes of ARG0..ARG5 in order. -/
def argBytes (a : Args) : List Byte :=
  wordBytes a.a0 ++ wordBytes a.a1 ++ wordBytes a.a2 ++ wordBytes a.a3 ++ wordBytes a.a4 ++ wordBytes a.a5

/-- The bytes of an instruction: the opcode's two, or the command word and its arguments. -/
def encode (i : Instr) : List Byte :=
  if i.isOpcode then [byteOf i.opWord 0, byteOf i.opWord 1]
  else wordBytes i.opWord ++ argBytes i.operandWords

/-! ### The host's numbering of the opcode table -/

/-- The `n` low bytes of a number, least significant first. -/
def natBytes : Nat → Nat → List Byte
  | 0, _ => []
  | n + 1, w => BitVec.ofNat 8 w :: natBytes n (w / 256)

/-- The instruction decoded from a row's bits: a 16-bit row is an Art-Net opcode, a 32-bit row a command word
whose operand words are all zero. -/
def decodeTableWord (nbits w : Nat) : Option Instr :=
  if 2 ^ nbits ≤ w then none
  else if nbits = 16 then (decode (natBytes 2 w)).toOption
  else if nbits = 32 then (decode (natBytes 4 w ++ List.replicate 24 0)).toOption
  else none

end Sys2Proof
end

