-- ==== Sys2Proof/Machine/State.lean ====
section
/-! DEFINITION. The state of the block (10_state.md R30), the reasons a step can stop, and the state after
reset (70_reset_and_hazards.md R461). A register with named bits is held as those bits: every other bit of it
reads 0 and ignores writes (R77), so it needs no storage (log entry 18). -/

namespace Sys2Proof.Machine

/-- Why the machine stops with a fault. A BusFault itself is no stop: it is recorded in the state (R425). -/
inductive Fault where
  /-- Raised by `step` when FAULT = 1 and the environment offers nothing more: no agent of the block takes
  another step (R76, 93_implementation_defined.md section 1.4 `stuck`). Safe. -/
  | stopped
deriving DecidableEq, Repr

/-- Why the model refuses a step. -/
inductive Refusal where
  /-- Raised by `exec` for an instruction without a meaning. No arm raises it. Safe. -/
  | notModelled (mnemonic : String)
  /-- Raised by `step` when a parameter is outside its range of R9: not a legal model instance. Safe. -/
  | illegalParams
  /-- Raised by `step` when WIRE offers a frame of 0 or more than 8191 bytes (R260). Safe. -/
  | illegalFrame
  /-- Raised by `step` when HOST accesses a register by a byte or at an offset that is not 4-aligned (R77). Safe. -/
  | registerAccess
  /-- Raised by `step` when HOST accesses a memory word that is not aligned: no HOST step of R282. Safe. -/
  | hostMemoryAccess
deriving DecidableEq, Repr

/-- The agents of the block that take steps of their own (R3). -/
inductive Agent where
  | ce
  | rxdma
  | txdma
deriving DecidableEq, Repr

/-- One move of the environment (R282, R260, R460), or one choice of the interleaving (R283). -/
inductive Input where
  /-- The next step is this agent's. -/
  | turn (a : Agent)
  /-- HOST reads 32 bits at a system address (a register or memory). -/
  | hostRead32 (addr : Word)
  /-- HOST writes 32 bits at a system address. -/
  | hostWrite32 (addr value : Word)
  /-- HOST reads one byte of system memory. -/
  | hostRead8 (addr : Word)
  /-- HOST writes one byte of system memory. -/
  | hostWrite8 (addr : Word) (value : Byte)
  /-- WIRE delivers a frame. -/
  | arrive (frame : List Byte)
  /-- The platform drives the reset input. -/
  | reset
deriving DecidableEq, Repr

/-- RXDMA_ST (R65). -/
inductive RxDma where
  | idle
  | busy (frame : List Byte) (off : Nat)
deriving DecidableEq, Repr

/-- ENGSTAT.FSRC (R53): the agent whose step raised the fault. -/
inductive FaultSource where
  | none
  | ce
  | rxdma
  | txdma
deriving DecidableEq, Repr

/-- The status codes of R146. -/
inductive Status where
  | ok
  | empty
  | tooSmall
  | rxError
  | busy
  | invalidSize
  | param
  | noInit
  | illegalCmd
deriving DecidableEq, Repr

/-- RSR (R36). -/
structure Rsr where
  bna : Bool
  received : Bool
  rxovr : Bool
deriving DecidableEq, Repr

/-- The stored bits of TSR (R37); its bit 3 reads TXGO. -/
structure Tsr where
  ubr : Bool
  rle : Bool
  txcomp : Bool
deriving DecidableEq, Repr

/-- The five interrupt sources, the bits of ISR (R42) and of IMR (R45). -/
structure IrqBits where
  rcomp : Bool
  rxubr : Bool
  rlex : Bool
  tcomp : Bool
  rovr : Bool
deriving DecidableEq, Repr

/-- The receive ring: RXCAP, RX_TAIL, RXPTR, RXDBASE, RXBBASE, RBQB, RXDMA_ST (R46, R48, R40, R52, R38, R65). -/
structure RxRing where
  cap : Half
  tail : Half
  ptr : Half
  dbase : Word
  bbase : Word
  qbase : Word
  dma : RxDma
deriving DecidableEq, Repr

/-- The transmit ring: TXCAP, TX_HEAD, TX_TAIL, TXPTR, TXDBASE, TXBBASE, TBQB, TXGO, TAG (R47, R49, R50, R41,
R52, R39, R66, R64). -/
structure TxRing where
  cap : Half
  head : Half
  tail : Half
  ptr : Half
  dbase : Word
  bbase : Word
  qbase : Word
  go : Bool
  tags : List Half
deriving DecidableEq, Repr

/-- NCR (R34), RSR, TSR, ISR and IMR. -/
structure Net where
  rxen : Bool
  txen : Bool
  rsr : Rsr
  tsr : Tsr
  isr : IrqBits
  imr : IrqBits
deriving DecidableEq, Repr

/-- CBSTAT (R51). -/
structure Callbacks where
  rxCbEn : Bool
  txwEn : Bool
  txwThr : Half
deriving DecidableEq, Repr

/-- ENGSTAT (R53) with FAULT (R76), and FAULTADDR (R83). -/
structure Engine where
  initDone : Bool
  fault : Bool
  fsrc : FaultSource
  fop : Byte
  faultAddr : Word
deriving DecidableEq, Repr

/-- RES0..RES3 (R57). -/
structure Results where
  r0 : Word
  r1 : Word
  r2 : Word
  r3 : Word
deriving DecidableEq, Repr

/-- Four results of 0: what a command that names no result writes (R57). -/
def Results.zero : Results := ⟨0, 0, 0, 0⟩

/-- A latched command (R61): the command word and its six arguments. -/
structure Pending where
  word : Word
  args : Args
deriving DecidableEq, Repr

/-- ARG0..ARG5, RES0..RES3, CMDSTAT and PEND (R56, R57, R55, R61). -/
structure CommandPort where
  args : Args
  res : Results
  busy : Bool
  cmdOvr : Bool
  status : Status
  lastop : Byte
  pend : Option Pending
deriving DecidableEq, Repr

/-- EVQ (R62), oldest event first, and EVQ_STAT.OVF (R59). -/
structure Events where
  queue : List Word
  ovf : Bool
deriving DecidableEq, Repr

/-- SUBUNI, POLLCFG.UNICAST_MASK, DISPCFG.BASE, DISPCFG.COUNT, FWD and PIPE (R67, R68, R69, R72, R73). -/
structure NodeConfig where
  subuni : Byte
  unicastMask : Byte
  base : BitVec 10
  count : Byte
  fwd : List Word
  pipe : List Word
deriving DecidableEq, Repr

/-- DMXBUF (R70) and DMXLEN (R71). -/
structure Dmx where
  buf : List Byte
  len : BitVec 10
deriving DecidableEq, Repr

/-- One entry of RADIO_OUT (R75). -/
structure RadioEntry where
  pipe : Word
  record : Word
  ack : Bool
deriving DecidableEq, Repr

/-- WIRE_TX and RADIO_OUT (R75), oldest first. -/
structure Outputs where
  wireTx : List (List Byte)
  radioOut : List RadioEntry
deriving DecidableEq, Repr

/-- The MODEL's own part: the environment's moves and draws still to come (R80), the counters that index the
free values, and what HOST's last read returned (log entries 4, 5, 6, 12). -/
structure Env where
  inputs : List Input
  txOutcomes : List Bool
  radioAcks : List Bool
  txDraws : Nat
  radioDraws : Nat
  turns : Nat
  hostData : Word
deriving DecidableEq, Repr

/-- The state of the block (R30) with system memory (R101), the parameters (R9) and the environment (R80). -/
structure State where
  params : Params
  mem : List Host.Cell
  rx : RxRing
  tx : TxRing
  net : Net
  cb : Callbacks
  eng : Engine
  cmd : CommandPort
  ev : Events
  cfg : NodeConfig
  dmx : Dmx
  dispFail : Word
  out : Outputs
  env : Env
deriving DecidableEq, Repr

/-- No interrupt source. -/
def IrqBits.none : IrqBits := ⟨false, false, false, false, false⟩

/-- No receive status. -/
def Rsr.none : Rsr := ⟨false, false, false⟩

/-- No transmit status. -/
def Tsr.none : Tsr := ⟨false, false, false⟩

/-- An environment that offers nothing more: the model's choice for `State.reset` (log entry 4). -/
def Env.none : Env := ⟨[], [], [], 0, 0, 0, 0⟩

/-- The reset values of R461 for the parameters `p`. Reset does not touch system memory (R460), and the
environment is not the block's: both are kept as given. -/
def State.resetWith (p : Params) (mem : List Host.Cell) (env : Env) : State where
  params := p
  mem := mem
  rx := ⟨0, 0, 0, 0, 0, 0, .idle⟩
  tx := ⟨0, 0, 0, 0, 0, 0, 0, false, []⟩
  net := ⟨false, false, Rsr.none, Tsr.none, IrqBits.none, IrqBits.none⟩
  cb := ⟨false, false, 0⟩
  eng := ⟨false, false, .none, 0, 0⟩
  cmd := ⟨Args.zero, Results.zero, false, false, .ok, 0, none⟩
  ev := ⟨[], false⟩
  cfg := ⟨0, 0, 0, 0, List.replicate p.maxNodes 0, List.replicate p.maxNodes 0⟩
  dmx := ⟨List.replicate Config.dmxChannels 0, 0⟩
  dispFail := 0
  out := ⟨[], []⟩
  env := env

/-- The machine right after reset (R461), with the parameters of log entry 1, no memory byte listed and an
environment that offers nothing. -/
def State.reset : State := State.resetWith Config.resetParams [] Env.none

end Sys2Proof.Machine
end

