-- ==== Sys2Proof/Machine/Flags.lean ====
section
/-! DEFINITION. Status, mask and control bits: the words registers read as (10_state.md R34 to R59), the
write-1-to-clear rule, the error conditions SERVICE derives (40_descriptor_ring.md R241, R243), IRQ_PENDING
(R82), and the codes of 30_encoding.md R146. -/

namespace Sys2Proof.Machine

/-- A word with bit `k` equal to `b` and every other bit 0. -/
def bitAt (b : Bool) (k : Nat) : Word := if b then (1 : Word) <<< k else 0

/-! ### Interrupt bits: ISR, IMR, IER, IDR (R42 to R45) -/

/-- ISR and IMR as words: bits 1, 2, 5, 7 and 10. -/
def IrqBits.word (b : IrqBits) : Word :=
  bitAt b.rcomp 1 ||| bitAt b.rxubr 2 ||| bitAt b.rlex 5 ||| bitAt b.tcomp 7 ||| bitAt b.rovr 10

/-- The five bits of a written word; the mask 0x4A6 of R43. -/
def IrqBits.ofWord (v : Word) : IrqBits :=
  ⟨v.getLsbD 1, v.getLsbD 2, v.getLsbD 5, v.getLsbD 7, v.getLsbD 10⟩

/-- Bitwise or: `IMR | v` of an IER write (R43). -/
def IrqBits.or (a b : IrqBits) : IrqBits :=
  ⟨a.rcomp || b.rcomp, a.rxubr || b.rxubr, a.rlex || b.rlex, a.tcomp || b.tcomp, a.rovr || b.rovr⟩

/-- Bitwise and-not: `IMR & ~v` of an IDR write (R44), and the write-1-to-clear of ISR (R42). -/
def IrqBits.clear (a b : IrqBits) : IrqBits :=
  ⟨a.rcomp && !b.rcomp, a.rxubr && !b.rxubr, a.rlex && !b.rlex, a.tcomp && !b.tcomp, a.rovr && !b.rovr⟩

/-- `(a & b) != 0` (R45). -/
def IrqBits.meets (a b : IrqBits) : Bool :=
  (a.rcomp && b.rcomp) || (a.rxubr && b.rxubr) || (a.rlex && b.rlex) || (a.tcomp && b.tcomp)
    || (a.rovr && b.rovr)

/-- IMR after INIT: 0x4A4, that is RXUBR, RLEX, TCOMP and ROVR (R203). -/
def IrqBits.initMask : IrqBits := ⟨false, true, true, true, true⟩

/-- IRQ_PENDING (R82). -/
def State.irqPending (s : State) : Bool := s.net.isr.meets s.net.imr && s.eng.initDone

/-! ### RSR and TSR (R36, R37) -/

/-- RSR as a word: BNA, REC, RXOVR in bits 0 to 2. -/
def Rsr.word (r : Rsr) : Word := bitAt r.bna 0 ||| bitAt r.received 1 ||| bitAt r.rxovr 2

/-- Write-1-to-clear of RSR. -/
def Rsr.clear (r : Rsr) (v : Word) : Rsr :=
  ⟨r.bna && !v.getLsbD 0, r.received && !v.getLsbD 1, r.rxovr && !v.getLsbD 2⟩

/-- The bits UBR, RLE and TXCOMP of TSR: `TSR & 0x23` (R241). -/
def Tsr.word (t : Tsr) : Word := bitAt t.ubr 0 ||| bitAt t.rle 1 ||| bitAt t.txcomp 5

/-- Write-1-to-clear of TSR; its bit 3 is read-only. -/
def Tsr.clear (t : Tsr) (v : Word) : Tsr :=
  ⟨t.ubr && !v.getLsbD 0, t.rle && !v.getLsbD 1, t.txcomp && !v.getLsbD 5⟩

/-- What TSR reads: the stored bits and TXGO in bit 3 (R37). -/
def tsrWord (t : Tsr) (go : Bool) : Word := t.word ||| bitAt go 3

/-- `rx_err` (R241, R243): RXUBR, ROVR, BNA or RXOVR. -/
def rxError (isr : IrqBits) (rsr : Rsr) : Bool := isr.rxubr || isr.rovr || rsr.bna || rsr.rxovr

/-- `tx_err` (R241): RLEX or RLE. -/
def txError (isr : IrqBits) (tsr : Tsr) : Bool := isr.rlex || tsr.rle

/-- `rcomp` (R241): RCOMP or REC. -/
def rxComplete (isr : IrqBits) (rsr : Rsr) : Bool := isr.rcomp || rsr.received

/-! ### Control and status registers as words -/

/-- NCR (R34): RXEN in bit 2, TXEN in bit 3; TSTART reads 0. -/
def ncrWord (n : Net) : Word := bitAt n.rxen 2 ||| bitAt n.txen 3

/-- CBSTAT (R51). -/
def Callbacks.word (c : Callbacks) : Word :=
  bitAt c.rxCbEn 0 ||| bitAt c.txwEn 1 ||| (c.txwThr.setWidth 32 <<< 16)

/-- The codes of ENGSTAT.FSRC (R53). -/
def FaultSource.code : FaultSource → Word
  | .none => 0
  | .ce => 1
  | .rxdma => 2
  | .txdma => 3

/-- ENGSTAT (R53). -/
def Engine.word (e : Engine) : Word :=
  bitAt e.initDone 0 ||| bitAt e.fault 1 ||| (e.fsrc.code <<< 4) ||| (e.fop.setWidth 32 <<< 8)

/-- The status codes (R146). -/
def Status.code : Status → Byte
  | .ok => 0
  | .empty => 1
  | .tooSmall => 2
  | .rxError => 3
  | .busy => 4
  | .invalidSize => 5
  | .param => 6
  | .noInit => 7
  | .illegalCmd => 8

/-- CMDSTAT (R55). -/
def CommandPort.statusWord (c : CommandPort) : Word :=
  bitAt c.busy 0 ||| bitAt c.cmdOvr 1 ||| (c.status.code.setWidth 32 <<< 8) ||| (c.lastop.setWidth 32 <<< 16)

/-- EVQ_STAT (R59): COUNT in bits 15:0, OVF in bit 16. -/
def Events.statusWord (e : Events) : Word :=
  (BitVec.ofNat 16 e.queue.length).setWidth 32 ||| bitAt e.ovf 16

/-- DISPCFG (R69): BASE in bits 9:0, COUNT in bits 23:16. -/
def dispcfgWord (c : NodeConfig) : Word := c.base.setWidth 32 ||| (c.count.setWidth 32 <<< 16)

/-- HOST_IRQ (R81): an event is waiting. -/
def State.hostIrq (s : State) : Bool := !s.ev.queue.isEmpty

end Sys2Proof.Machine
end

