-- ==== Sys2Proof/Machine/Ops.lean ====
section
/-! DEFINITION. The operations every meaning is written over: system memory (00_scope.md R15, R16), events and
outputs (R17), taking a BusFault (60_exceptions.md R425), reset as the one way back (70_reset_and_hazards.md
R460), and the completion of a command (10_state.md R61). -/

namespace Sys2Proof.Machine

/-! ### Named updates of the state -/

/-- The state with another system memory. -/
def State.withMem (s : State) (m : List Host.Cell) : State := { s with mem := m }

/-- The state with another receive ring. -/
def State.withRx (s : State) (r : RxRing) : State := { s with rx := r }

/-- The state with another transmit ring. -/
def State.withTx (s : State) (t : TxRing) : State := { s with tx := t }

/-- The state with other network control and status registers. -/
def State.withNet (s : State) (n : Net) : State := { s with net := n }

/-- The state with another CBSTAT. -/
def State.withCb (s : State) (c : Callbacks) : State := { s with cb := c }

/-- The state with another engine status. -/
def State.withEng (s : State) (e : Engine) : State := { s with eng := e }

/-- The state with another command port. -/
def State.withCmd (s : State) (c : CommandPort) : State := { s with cmd := c }

/-- The state with another event queue. -/
def State.withEv (s : State) (e : Events) : State := { s with ev := e }

/-- The state with another protocol configuration. -/
def State.withCfg (s : State) (c : NodeConfig) : State := { s with cfg := c }

/-- The state with another canonical DMX buffer. -/
def State.withDmx (s : State) (d : Dmx) : State := { s with dmx := d }

/-- The state with another DISP_FAIL. -/
def State.withDispFail (s : State) (v : Word) : State := { s with dispFail := v }

/-- The state with other output lists. -/
def State.withOut (s : State) (o : Outputs) : State := { s with out := o }

/-- The state with another environment. -/
def State.withEnv (s : State) (e : Env) : State := { s with env := e }

/-! ### Steps that may end in a BusFault -/

/-- A part of a step: it gives a value and a state, or it ends at the failing address of a BusFault with the
state it has made so far (R425: every update before the failing access stays made). -/
abbrev Op (α : Type) := EStateM Word State α

/-- The current state. -/
def current : Op State := fun s => .ok s s

/-- An update of the state. -/
def update (f : State → State) : Op Unit := fun s => .ok () (f s)

/-- `raise BusFault(a)` (R18). -/
def busFault {α : Type} (a : Word) : Op α := fun s => .error a s

/-- `for i in start .. start + n - 1: body(i)`. -/
def forRange (body : Nat → Op Unit) : Nat → Nat → Op Unit
  | _, 0 => pure ()
  | i, n + 1 => do
    body i
    forRange body (i + 1) n

/-! ### System memory as data -/

/-- The byte at an address. -/
def readCell : List Host.Cell → Nat → Byte
  | [], _ => Config.unlistedByte
  | (k, b) :: m, a => if a = k then b else readCell m a

/-- The memory with the byte at an address replaced, in canonical form: rising addresses, and no entry equal
to what an unlisted address reads as. -/
def writeCell : List Host.Cell → Nat → Byte → List Host.Cell
  | [], a, b => if b = Config.unlistedByte then [] else [(a, b)]
  | (k, c) :: m, a, b =>
    if a < k then (if b = Config.unlistedByte then (k, c) :: m else (a, b) :: (k, c) :: m)
    else if a = k then (if b = Config.unlistedByte then m else (a, b) :: m)
    else (k, c) :: writeCell m a b

/-- Every entry is at or above `lo`, addresses rise strictly and stay below 2^32, and no entry is equal to what
an unlisted address reads as. -/
def risingFrom : Nat → List Host.Cell → Bool
  | _, [] => true
  | lo, (k, b) :: m => decide (lo ≤ k) && decide (k < 2 ^ 32) && (b != Config.unlistedByte) && risingFrom (k + 1) m

/-- The canonical form of system memory. -/
def Memory.wf (m : List Host.Cell) : Bool := risingFrom 0 m

/-- The byte of system memory at an address. -/
def State.byte (s : State) (a : Word) : Byte := readCell s.mem a.toNat

/-- The `n` bytes at `a, a+1, ...`, addresses modulo 2^32 (R15). -/
def readBytes (m : List Host.Cell) (a : Word) : Nat → List Byte
  | 0 => []
  | n + 1 => readCell m a.toNat :: readBytes m (a + 1) n

/-- The memory after the bytes are written at `a, a+1, ...` in increasing order (R15). -/
def writeBytes (m : List Host.Cell) (a : Word) : List Byte → List Host.Cell
  | [] => m
  | b :: bs => writeBytes (writeCell m a.toNat b) (a + 1) bs

/-- The little-endian word at an address (R104). -/
def readWord (m : List Host.Cell) (a : Word) : Word := wordAt (readBytes m a 4) 0

/-- The memory after a little-endian word is written (R104). -/
def writeWord (m : List Host.Cell) (a v : Word) : List Host.Cell := writeBytes m a (wordBytes v)

/-! ### Checked accesses (R15) -/

/-- MEM_VALID (R9): the address lies in one of the regions. -/
def memValid (p : Params) (a : Word) : Bool :=
  p.memMap.any fun r => decide (r.base ≤ a.toNat) && decide (a.toNat < r.base + r.size)

/-- The lower of two addresses, one of them perhaps absent. -/
def lowerOf (x : Word) : Option Word → Word
  | none => x
  | some y => if x.toNat < y.toNat then x else y

/-- The lowest of the addresses `a .. a+n-1` for which MEM_VALID fails. An access that wraps past 2^32 - 1 is
ordered by address, not by offset (log entry 9). -/
def lowestInvalid (p : Params) (a : Word) : Nat → Option Word
  | 0 => none
  | n + 1 =>
    if memValid p a then lowestInvalid p (a + 1) n else some (lowerOf a (lowestInvalid p (a + 1) n))

/-- The check before an access: BusFault at the lowest failing address, or nothing. -/
def checkAccess (a : Word) (n : Nat) : Op Unit := fun s =>
  match lowestInvalid s.params a n with
  | none => .ok () s
  | some x => busFault x s

/-- `MemRead(a, n)`. -/
def memRead (a : Word) (n : Nat) : Op (List Byte) := do
  checkAccess a n
  let s ← current
  pure (readBytes s.mem a n)

/-- `MemRead(a, 1)`. -/
def memReadByte (a : Word) : Op Byte := do
  checkAccess a 1
  let s ← current
  pure (s.byte a)

/-- `MemWrite(a, n, bytes)`. -/
def memWrite (a : Word) (bs : List Byte) : Op Unit := do
  checkAccess a bs.length
  update fun s => s.withMem (writeBytes s.mem a bs)

/-- `MemRead32(a)`. -/
def memRead32 (a : Word) : Op Word := do
  checkAccess a 4
  let s ← current
  pure (readWord s.mem a)

/-- `MemWrite32(a, v)`. -/
def memWrite32 (a v : Word) : Op Unit := do
  checkAccess a 4
  update fun s => s.withMem (writeWord s.mem a v)

/-- `Copy(dst, src, n)` (R16): byte by byte, in ascending order. -/
def copy (dst src : Word) : Nat → Op Unit
  | 0 => pure ()
  | n + 1 => do
    let b ← memReadByte src
    memWrite dst [b]
    copy (dst + 1) (src + 1) n

/-! ### Events and outputs (R17) -/

/-- `Emit(e)` on the queue (R63): append, or drop and set OVF. -/
def Events.push (depth : Nat) (q : Events) (e : Word) : Events :=
  if q.queue.length < depth then { q with queue := q.queue ++ [e] } else { q with ovf := true }

/-- `Emit(e)`. -/
def emit (e : Word) : Op Unit := update fun s => s.withEv (s.ev.push s.params.evqDepth e)

/-- `WireSend(bytes)`: append a frame to WIRE_TX (R75). -/
def wireSend (bs : List Byte) : Op Unit :=
  update fun s => s.withOut { s.out with wireTx := s.out.wireTx ++ [bs] }

/-- The next transmission outcome (R274), and the environment after it: the next one supplied, else a free
value. -/
def Env.drawTx (e : Env) : Bool × Env :=
  match e.txOutcomes with
  | b :: bs => (b, { e with txOutcomes := bs })
  | [] => (Config.txOutcome e.txDraws, { e with txDraws := e.txDraws + 1 })

/-- The next RADIO answer (R280), and the environment after it: the next one supplied, else a free value. -/
def Env.drawAck (e : Env) : Bool × Env :=
  match e.radioAcks with
  | b :: bs => (b, { e with radioAcks := bs })
  | [] => (Config.radioAck e.radioDraws, { e with radioDraws := e.radioDraws + 1 })

/-- `draw TX_OUTCOME` (R272). -/
def drawTxOutcome : Op Bool := fun s => .ok s.env.drawTx.1 (s.withEnv s.env.drawTx.2)

/-- `RadioSend(pipe, rec)` on the state: the triple joins RADIO_OUT with its answer. -/
def State.radioSent (s : State) (pipe record : Word) : State :=
  (s.withOut { s.out with radioOut := s.out.radioOut ++ [⟨pipe, record, s.env.drawAck.1⟩] }).withEnv s.env.drawAck.2

/-- `RadioSend(pipe, rec) -> ack` (R17). -/
def radioSend (pipe record : Word) : Op Bool := fun s => .ok s.env.drawAck.1 (s.radioSent pipe record)

/-! ### Taking the block's exception, and leaving it -/

/-- BusFault (R425): FAULT is set, the agent, the command and the failing address are recorded. Everything
else stays as the step left it; of a command, PEND and BUSY among it. -/
def State.takeBusFault (s : State) (src : FaultSource) (fop : Byte) (a : Word) : State :=
  s.withEng { s.eng with fault := true, fsrc := src, fop := fop, faultAddr := a }

/-- Reset (R460, R461), the only way to leave the FAULT state: every piece of the block's state at its reset
value, system memory untouched. -/
def State.resetBlock (s : State) : State := State.resetWith s.params s.mem s.env

/-! ### Running a command -/

/-- Completion of a command (R61, R200): RES0..RES3, STATUS and LASTOP are written, PEND empties, BUSY clears. -/
def State.complete (s : State) (op : Byte) (status : Status) (res : Results) : State :=
  s.withCmd { s.cmd with res := res, status := status, lastop := op, pend := none, busy := false }

/-- A command's body with its completion, or with the BusFault that ended it (R200, R425). -/
def runCommand (op : Byte) (body : Op (Status × Results)) (s : State) : Host.Outcome State Fault Refusal :=
  match body s with
  | .ok r s' => .next (s'.complete op r.1 r.2)
  | .error a s' => .next (s'.takeBusFault .ce op a)

/-- A step of an agent that is no command: its state, or the BusFault that ended it. -/
def runAgent (src : FaultSource) (fop : Byte) (body : Op Unit) (s : State) : Host.Outcome State Fault Refusal :=
  match body s with
  | .ok _ s' => .next s'
  | .error a s' => .next (s'.takeBusFault src fop a)

end Sys2Proof.Machine
end

