-- ==== Sys2Proof/Machine/Operands.lean ====
section
/-! DEFINITION. Operand forms: ring indices and descriptor addresses (00_scope.md R11, R12; 40_descriptor_ring.md
opening), the fields of the descriptor words (30_encoding.md R150 to R157), event and record words (R160 to
R165), the bytes of a frame (42_frame_classifier.md R300), and the frame a DECODE command names. -/

namespace Sys2Proof.Machine

/-! ### Ring arithmetic -/

/-- `inc(i) = (i + 1) mod N` (R11). -/
def ringInc (n i : Nat) : Nat := (i + 1) % n

/-- `count(head, tail) = (head + N - tail) mod N` (R11). -/
def ringCount (n head tail : Nat) : Nat := (head + n - tail) % n

/-- The number of TX descriptors WRITE has filled and SERVICE has not reported. -/
def TxRing.count (t : TxRing) : Nat := ringCount t.cap.toNat t.head.toNat t.tail.toNat

/-- `free_tx = (TXCAP - 1) - count(TX_HEAD, TX_TAIL)` (R12). -/
def TxRing.free (t : TxRing) : Nat := t.cap.toNat - 1 - t.count

/-- TAG[i] (R64); an index outside the array reads 0 (log entry 10). -/
def TxRing.tag (t : TxRing) (i : Nat) : Half := t.tags.getD i 0

/-- Descriptor `i` of an array is at `base + 8*i` (20_memory.md R102). -/
def descAddr (base : Word) (i : Nat) : Word := base + BitVec.ofNat 32 (8 * i)

/-- `RXD(i)`. -/
def RxRing.desc (r : RxRing) (i : Nat) : Word := descAddr r.dbase i

/-- `TXD(i)`. -/
def TxRing.desc (t : TxRing) (i : Nat) : Word := descAddr t.dbase i

/-- Buffer `i` of an area of units (R102). -/
def bufferAddr (base : Word) (unit i : Nat) : Word := base + BitVec.ofNat 32 (i * unit)

/-! ### RX descriptor words (R150, R151) -/

/-- OWN: bit 0 of word 0. -/
def rxOwn (w0 : Word) : Bool := w0.getLsbD 0

/-- WRAP: bit 1 of word 0. -/
def rxWrap (w0 : Word) : Bool := w0.getLsbD 1

/-- `addr(w0) = w0 & 0xFFFFFFFC`. -/
def rxAddr (w0 : Word) : Word := w0 &&& 0xFFFFFFFC

/-- LEN: bits 12:0 of word 1. -/
def rxLen (w1 : Word) : Nat := w1.toNat % 2 ^ 13

/-- SOF: bit 14 of word 1. -/
def rxSof (w1 : Word) : Bool := w1.getLsbD 14

/-- EOF: bit 15 of word 1. -/
def rxEof (w1 : Word) : Bool := w1.getLsbD 15

/-- Word 0 as INIT and the RX ring reset write it (R205): OWN = 0, WRAP on the last descriptor. -/
def rxInitWord0 (bbase : Word) (unit n i : Nat) : Word :=
  rxAddr (bufferAddr bbase unit i) ||| (if i + 1 = n then 2 else 0)

/-- Word 1 as RXDMA writes it (R263): LEN on an EOF descriptor, SOF on the first. -/
def rxFillWord1 (len : Nat) (first eof : Bool) : Word :=
  (if eof then BitVec.ofNat 32 len else 0) ||| bitAt first 14 ||| bitAt eof 15

/-- `UsedBytes(w1, nf)` (R212) of the `nf`-th descriptor of a frame, counting from 1. -/
def usedBytes (unit : Nat) (w1 : Word) (nf : Nat) : Nat :=
  if rxEof w1 then (if rxLen w1 ≤ unit * (nf - 1) then 0 else min (rxLen w1 - unit * (nf - 1)) unit) else unit

/-! ### TX descriptor words (R155, R156) -/

/-- USED: bit 31 of word 1. -/
def txUsed (w1 : Word) : Bool := w1.getLsbD 31

/-- WRAP: bit 30 of word 1. -/
def txWrap (w1 : Word) : Bool := w1.getLsbD 30

/-- LEN: bits 13:0 of word 1. -/
def txLen (w1 : Word) : Nat := w1.toNat % 2 ^ 14

/-- Word 1 as INIT and the TX ring reset write it (R205): USED = 1, WRAP on the last descriptor. -/
def txInitWord1 (n i : Nat) : Word := 0x80000000 ||| (if i + 1 = n then 0x40000000 else 0)

/-- Word 1 as WRITE writes it (R221): LEN, LAST = 1, USED = 0, RLE = 0, WRAP on the last descriptor. -/
def txWriteWord1 (len : Word) (n i : Nat) : Word :=
  len ||| 0x8000 ||| (if i + 1 = n then 0x40000000 else 0)

/-! ### Event and record words (R160, R161, R165) -/

/-- RX_READY. -/
def evRxReady : Word := 0x1

/-- TX_DONE: TXSTAT in bits 7:4 (1 = ABORTED), TAG in bits 23:8. -/
def evTxDone (aborted : Bool) (tag : Half) : Word := 0x2 ||| bitAt aborted 4 ||| (tag.setWidth 32 <<< 8)

/-- TX_WAKEUP: FREE in bits 31:16. -/
def evTxWakeup (free : Nat) : Word := 0x3 ||| (BitVec.ofNat 32 free <<< 16)

/-- POLL_REPLY_REQ: MODE in bit 4 (1 = unicast), SRC in bit 5 (1 = Address). -/
def evPollReply (unicast address : Bool) : Word := 0x4 ||| bitAt unicast 4 ||| bitAt address 5

/-- A command record (R165): KIND in bits 7:0, DEST in bits 15:8, VAL in bits 23:16. -/
def recordWord (kind dest val : Nat) : Word :=
  BitVec.ofNat 32 kind + (BitVec.ofNat 32 dest <<< 8) + (BitVec.ofNat 32 val <<< 16)

/-! ### Frames -/

/-- `f[k] = MemRead(fr + k, 1)` (R300). -/
def frameByte (fr : Word) (k : Nat) : Op Byte := memReadByte (fr + BitVec.ofNat 32 k)

/-- The latched arguments of the pending command (R61); with none pending, the ARG registers a CMD write would
latch now (R54). -/
def State.latched (s : State) : Args :=
  match s.cmd.pend with
  | some p => p.args
  | none => s.cmd.args

/-- The frame a DECODE command names: ARG0 is its address, ARG1 its length (R341). -/
def State.frameOf (s : State) : Word × Nat := (s.latched.a0, s.latched.a1.toNat)

end Sys2Proof.Machine
end

