-- ==== Sys2Proof/Machine/Classifier.lean ====
section
/-! DEFINITION. The frame classifier (42_frame_classifier.md) and the CLASSIFY command. -/

namespace Sys2Proof.Machine

/-- EthernetKind (30_encoding.md R179). -/
inductive EthernetKind where
  | unknown
  | ipv4
  | arp
deriving DecidableEq, Repr

/-- IpProto (R179). -/
inductive IpProto where
  | none
  | udp
  | icmp
  | other
deriving DecidableEq, Repr

/-- ArtNetKind (R179). -/
inductive ArtNetKind where
  | none
  | dmx
  | poll
  | address
  | other
deriving DecidableEq, Repr

/-- What the classifier answers: the two header kinds, and the opcode if one was read (R302, R303, R305). -/
structure FrameClass where
  eth : EthernetKind
  ip : IpProto
  opcode : Option Half
deriving DecidableEq, Repr

/-- The codes of EthernetKind (R179). -/
def ethernetCode : EthernetKind → Word
  | .unknown => 0
  | .ipv4 => 1
  | .arp => 2

/-- The codes of IpProto (R179). -/
def ipCode : IpProto → Word
  | .none => 0
  | .udp => 1
  | .icmp => 2
  | .other => 3

/-- The codes of ArtNetKind (R179). -/
def artNetCode : ArtNetKind → Word
  | .none => 0
  | .dmx => 1
  | .poll => 2
  | .address => 3
  | .other => 4

/-- The opcode word (R179): VALID in bit 16, the opcode in bits 15:0. -/
def opcodeWord : Option Half → Word
  | none => 0
  | some op => 0x10000 ||| op.setWidth 32

/-- ArtNetKind of an opcode (R306): the kind is taken from the two opcode bytes, as the decoder reads them. -/
def artNetKind : Option Half → ArtNetKind
  | none => .none
  | some op =>
    match decodeOpcode op with
    | .ok .opDmx => .dmx
    | .ok .opPoll => .poll
    | .ok .opAddress => .address
    | _ => .other

/-- EthernetKind of an EtherType (R302). -/
def ethernetKind (hi lo : Byte) : EthernetKind :=
  if hi = 0x08 ∧ lo = 0x00 then .ipv4 else if hi = 0x08 ∧ lo = 0x06 then .arp else .unknown

/-- IpProto of a protocol byte (R303). -/
def ipProto (pr : Byte) : IpProto := if pr = 17 then .udp else if pr = 1 then .icmp else .other

/-- ARTNET_ID (R307): "Art-Net" and a zero byte. -/
def artNetId : List Byte := [0x41, 0x72, 0x74, 0x2D, 0x4E, 0x65, 0x74, 0x00]

/-- Comparison of `f[k], f[k+1], ...` with the identifier, in order, stopping at the first mismatch (R307). -/
def matchId (fr : Word) : Nat → List Byte → Op Bool
  | _, [] => pure true
  | k, b :: bs => do
    let x ← frameByte fr k
    if x = b then matchId fr (k + 1) bs else pure false

/-- The two opcode bytes `f[50] | f[51] << 8` (R174). -/
def opcodeOf (lo hi : Byte) : Half := lo.setWidth 16 ||| (hi.setWidth 16 <<< 8)

/-- `artnet_opcode` (R305) of a frame that has a UDP payload. -/
def artNetOpcode (fr : Word) (len : Nat) : Op (Option Half) := do
  if len < 52 then pure none
  else do
    let same ← matchId fr 42 artNetId
    if same then do
      let lo ← frameByte fr 50
      let hi ← frameByte fr 51
      pure (some (opcodeOf lo hi))
    else pure none

/-- `Classify(fr, len)` (R307). -/
def classifyFrame (fr : Word) (len : Nat) : Op FrameClass := do
  if len < 14 then pure ⟨.unknown, .none, none⟩
  else do
    let hi ← frameByte fr 12
    let lo ← frameByte fr 13
    if ethernetKind hi lo ≠ .ipv4 then pure ⟨ethernetKind hi lo, .none, none⟩
    else if len < 24 then pure ⟨.ipv4, .other, none⟩
    else do
      let pr ← frameByte fr 23
      if ipProto pr ≠ .udp ∨ len ≤ 42 then pure ⟨.ipv4, ipProto pr, none⟩
      else do
        let op ← artNetOpcode fr len
        pure ⟨.ipv4, .udp, op⟩

/-- RES of CLASSIFY (R310). -/
def classResults (c : FrameClass) : Results :=
  ⟨ethernetCode c.eth, ipCode c.ip, opcodeWord c.opcode, artNetCode (artNetKind c.opcode)⟩

/-- CLASSIFY (R310). -/
def classifyBody (fr len : Word) : Op (Status × Results) := do
  let c ← classifyFrame fr len.toNat
  pure (.ok, classResults c)

/-- CLASSIFY (R310, R311). -/
def execClassify (fr len : Word) (s : State) : Host.Outcome State Fault Refusal :=
  runCommand 0x10 (classifyBody fr len) s

end Sys2Proof.Machine
end

