-- ==== Sys2Proof/Machine/ArtNet.lean ====
section
/-! DEFINITION. The Art-Net decoder (43_artnet_decoder.md): the three opcode paths, and the DECODE command that
classifies a frame and takes the path its opcode selects. -/

namespace Sys2Proof.Machine

/-- DecodeOutcome (30_encoding.md R180). -/
inductive DecodeOutcome where
  | notArtNet
  | malformed
  | dmxApplied
  | dmxOtherUniverse
  | pollReplyRequested
  | addressReplyRequested
  | opcodeIgnored
deriving DecidableEq, Repr

/-- The codes of DecodeOutcome (R180). -/
def outcomeCode : DecodeOutcome → Word
  | .notArtNet => 0
  | .malformed => 1
  | .dmxApplied => 2
  | .dmxOtherUniverse => 3
  | .pollReplyRequested => 4
  | .addressReplyRequested => 5
  | .opcodeIgnored => 6

/-- RES of DECODE (R341): outcome, channel bytes copied, reply word, ArtNetKind. -/
def decodeResults (out : DecodeOutcome) (copied : Nat) (unicast : Bool) (kind : ArtNetKind) : Results :=
  ⟨outcomeCode out, BitVec.ofNat 32 copied, bitAt unicast 0, artNetCode kind⟩

/-- `DMXBUF[j] <- b` (R345). -/
def setChannel (j : Nat) (b : Byte) : Op Unit := update fun s => s.withDmx { s.dmx with buf := s.dmx.buf.set j b }

/-- `DMXBUF[j] <- f[60 + j]` (R345). -/
def applyChannel (fr : Word) (j : Nat) : Op Unit := do
  let b ← frameByte fr (60 + j)
  setChannel j b

/-- `DmxApply(fr, n)` (R345). -/
def dmxApply (fr : Word) (n : Nat) : Op Unit := do
  forRange (applyChannel fr) 0 n
  update fun s => s.withDmx { s.dmx with len := BitVec.ofNat 10 n }

/-- The declared length `f[58] << 8 | f[59]` (R346). -/
def dmxDeclared (hi lo : Byte) : Nat := hi.toNat * 256 + lo.toNat

/-- `min(L, 512)` (R344). -/
def dmxCount (hi lo : Byte) : Nat := min (dmxDeclared hi lo) Config.dmxChannels

/-- `DecodeDmx(fr, len)` (R344). -/
def decodeDmx (fr : Word) (len : Nat) : Op Results := do
  if len < 60 then pure (decodeResults .malformed 0 false .dmx)
  else do
    let uni ← frameByte fr 56
    let s ← current
    if uni ≠ s.cfg.subuni then pure (decodeResults .dmxOtherUniverse 0 false .dmx)
    else do
      let hi ← frameByte fr 58
      let lo ← frameByte fr 59
      if len < 60 + dmxCount hi lo then pure (decodeResults .malformed 0 false .dmx)
      else do
        dmxApply fr (dmxCount hi lo)
        pure (decodeResults .dmxApplied (dmxCount hi lo) false .dmx)

/-- The reply-mode flag of a Poll (R350): unicast iff a flag selected by UNICAST_MASK is set. -/
def pollUnicast (flags mask : Byte) : Bool := flags &&& mask != 0

/-- `DecodePoll(fr, len)` (R350). -/
def decodePoll (fr : Word) (len : Nat) : Op Results := do
  if len < 55 then pure (decodeResults .malformed 0 false .poll)
  else do
    let flags ← frameByte fr 54
    let s ← current
    emit (evPollReply (pollUnicast flags s.cfg.unicastMask) false)
    pure (decodeResults .pollReplyRequested 0 (pollUnicast flags s.cfg.unicastMask) .poll)

/-- `DecodeAddress()` (R351): a unicast reply request, whatever the payload holds. -/
def decodeAddress : Op Results := do
  emit (evPollReply true true)
  pure (decodeResults .addressReplyRequested 0 true .address)

/-- A path of DECODE as the body of the command: its status is always OK (R341). -/
def okBody (body : Op Results) : Op (Status × Results) := do
  let r ← body
  pure (.ok, r)

/-- `DECODE()` after the classification (R342). -/
def decodeBy (c : FrameClass) (fr : Word) (len : Nat) : Op Results :=
  if c.ip ≠ .udp ∨ len ≤ 42 then pure (decodeResults .notArtNet 0 false .none)
  else if c.opcode = none then pure (decodeResults .malformed 0 false .none)
  else match artNetKind c.opcode with
    | .dmx => decodeDmx fr len
    | .poll => decodePoll fr len
    | .address => decodeAddress
    | .none => pure (decodeResults .opcodeIgnored 0 false .none)
    | .other => pure (decodeResults .opcodeIgnored 0 false .other)

/-- `DECODE()` (R342). -/
def decodeFrame (fr : Word) (len : Nat) : Op Results := do
  let c ← classifyFrame fr len
  decodeBy c fr len

/-- DECODE (R341 to R343). -/
def execDecode (fr len : Word) (s : State) : Host.Outcome State Fault Refusal :=
  runCommand 0x11 (okBody (decodeFrame fr len.toNat)) s

/-- OpPoll (R350): what DECODE does with a Poll, on the frame the pending command names. -/
def execOpPoll (s : State) : Host.Outcome State Fault Refusal :=
  runCommand 0x11 (okBody (decodePoll s.frameOf.1 s.frameOf.2)) s

/-- OpDmx (R344): what DECODE does with a DMX frame, on the frame the pending command names. -/
def execOpDmx (s : State) : Host.Outcome State Fault Refusal :=
  runCommand 0x11 (okBody (decodeDmx s.frameOf.1 s.frameOf.2)) s

/-- OpAddress (R351): what DECODE does with an Address request. -/
def execOpAddress (s : State) : Host.Outcome State Fault Refusal := runCommand 0x11 (okBody decodeAddress) s

end Sys2Proof.Machine
end

