-- ==== Sys2Proof/Machine/Channels.lean ====
section
/-! DEFINITION. The channel dispatcher (44_channel_dispatcher.md) and the DISPATCH command. -/

namespace Sys2Proof.Machine

/-- `rescale(x, in_lo, in_hi, out_lo, out_hi)` (R384), truncating division on naturals. -/
def rescale (x inLo inHi outLo outHi : Nat) : Nat := (x - inLo) * (outHi - outLo) / (inHi - inLo) + outLo

/-- Target `k` of FWD[n] (R72, R385): byte `k` of the word. -/
def forwardTarget (fwd : Word) (k : Nat) : Nat := (byteOf fwd k).toNat

/-- `MapValue(i, v)` (R383): the record of node `i` for the channel value `v`, none for 61 to 100. -/
def mapValue (fwd : Word) (i v : Nat) : Option Word :=
  if v ≤ 10 then some (recordWord 0 i 0)
  else if v ≤ 20 then some (recordWord 1 i 0)
  else if v ≤ 60 then some (recordWord 2 i (forwardTarget fwd ((v - 21) / 10)))
  else if v ≤ 100 then none
  else if v ≤ 230 then some (recordWord 3 i (rescale (v - 101) 0 129 0 255))
  else some (recordWord 4 i 0)

/-- `DMXBUF[k]` (R70). -/
def Dmx.channel (d : Dmx) (k : Nat) : Byte := d.buf.getD k 0

/-- FWD[n] (R72). -/
def NodeConfig.fwdOf (c : NodeConfig) (n : Nat) : Word := c.fwd.getD n 0

/-- PIPE[n] (R73). -/
def NodeConfig.pipeOf (c : NodeConfig) (n : Nat) : Word := c.pipe.getD n 0

/-- One send that RADIO answered with failure: DISP_FAIL counts it modulo 2^32 (R386). -/
def countFailure (ack : Bool) : Op Unit := if ack then pure () else update fun s => s.withDispFail (s.dispFail + 1)

/-- What one node adds to the counts of records sent and of sends that failed (R382). -/
def dispatchNode (i : Nat) : Op (Nat × Nat) := do
  let s ← current
  match mapValue (s.cfg.fwdOf i) i (s.dmx.channel (s.cfg.base.toNat + i)).toNat with
  | none => pure (0, 0)
  | some record => do
    let ack ← radioSend (s.cfg.pipeOf i) record
    countFailure ack
    pure (1, if ack then 0 else 1)

/-- The nodes `i .. i + n - 1` in order: records sent, and sends that failed (R382). -/
def dispatchNodes : Nat → Nat → Op (Nat × Nat)
  | _, 0 => pure (0, 0)
  | i, n + 1 => do
    let a ← dispatchNode i
    let r ← dispatchNodes (i + 1) n
    pure (a.1 + r.1, a.2 + r.2)

/-- The range check of R382. -/
def dispatchBad (p : Params) (c : NodeConfig) : Bool :=
  decide (p.maxNodes < c.count.toNat) || decide (Config.dmxChannels < c.base.toNat + c.count.toNat)

/-- DISPATCH (R382). -/
def dispatchBody : Op (Status × Results) := do
  let s ← current
  if dispatchBad s.params s.cfg then pure (.param, Results.zero)
  else do
    let r ← dispatchNodes 0 s.cfg.count.toNat
    pure (.ok, ⟨BitVec.ofNat 32 r.1, BitVec.ofNat 32 r.2, 0, 0⟩)

/-- DISPATCH (R380 to R388). -/
def execDispatch (s : State) : Host.Outcome State Fault Refusal := runCommand 0x12 dispatchBody s

end Sys2Proof.Machine
end

