-- ==== Sys2Proof/Machine/Rings.lean ====
section
/-! DEFINITION. The descriptor-ring commands (40_descriptor_ring.md): INIT, READ, WRITE, SET_RX_CB,
SET_TX_WAKEUP and SERVICE, over the shared ring operations of R205, R206, R244, R245 and R247. -/

namespace Sys2Proof.Machine

/-! ### Descriptors (R205, R206) -/

/-- `RxDescInit(i)` (R205). -/
def rxDescInit (i : Nat) : Op Unit := do
  let s ← current
  memWrite32 (s.rx.desc i) (rxInitWord0 s.rx.bbase s.params.rxUnit s.rx.cap.toNat i)
  memWrite32 (s.rx.desc i + 4) 0

/-- `TxDescInit(i)` (R205). -/
def txDescInit (i : Nat) : Op Unit := do
  let s ← current
  memWrite32 (s.tx.desc i) (bufferAddr s.tx.bbase s.params.txUnit i)
  memWrite32 (s.tx.desc i + 4) (txInitWord1 s.tx.cap.toNat i)

/-- Release of RX descriptor `p` (R206): OWN is cleared, WRAP and ADDR stay. -/
def releaseDesc (p : Nat) : Op Unit := do
  let s ← current
  let w0 ← memRead32 (s.rx.desc p)
  memWrite32 (s.rx.desc p) (w0 &&& 0xFFFFFFFE)

/-- `ReleaseRun(t, n)` (R206): `t`, then `inc_R(t)`, and so on, `n` in all. -/
def releaseRun (t : Nat) : Nat → Op Unit
  | 0 => pure ()
  | n + 1 => do
    releaseDesc t
    let s ← current
    releaseRun (ringInc s.rx.cap.toNat t) n

/-- `RX_TAIL <- i`. -/
def setRxTail (i : Nat) : Op Unit := update fun s => s.withRx { s.rx with tail := BitVec.ofNat 16 i }

/-- `TX_TAIL <- i`. -/
def setTxTail (i : Nat) : Op Unit := update fun s => s.withTx { s.tx with tail := BitVec.ofNat 16 i }

/-! ### INIT (R203) -/

/-- The capacity check of R203. -/
def initCapsBad (p : Params) (rc tc : Word) : Bool :=
  decide (rc.toNat ≤ 1) || decide (tc.toNat ≤ 1) || decide (p.ringMax < rc.toNat) || decide (p.ringMax < tc.toNat)

/-- The alignment check of R203. -/
def initBasesBad (rd td rb tb : Word) : Bool :=
  rd.toNat % 4 != 0 || td.toNat % 4 != 0 || rb.toNat % 4 != 0 || tb.toNat % 4 != 0

/-- INIT before the descriptors: both DMA agents stop, the capacities and bases are recorded (R203). -/
def State.initStart (s : State) (rc tc rd td rb tb : Word) : State :=
  ((s.withNet { s.net with rxen := false, txen := false }).withRx
    { s.rx with dma := .idle, cap := rc.setWidth 16, dbase := rd, bbase := rb }).withTx
    { s.tx with go := false, cap := tc.setWidth 16, dbase := td, bbase := tb }

/-- INIT after the descriptors: indices, tags, queue bases, callbacks, events, status, masks, enables (R203). -/
def State.initFinish (s : State) (rc tc rd td rb tb : Word) : State :=
  (((((s.withRx ⟨rc.setWidth 16, 0, 0, rd, rb, rd, s.rx.dma⟩).withTx
    ⟨tc.setWidth 16, 0, 0, 0, td, tb, td, s.tx.go, List.replicate tc.toNat 0⟩).withCb
    ⟨false, false, 0⟩).withEv ⟨[], false⟩).withNet
    ⟨true, true, Rsr.none, Tsr.none, IrqBits.none, IrqBits.initMask⟩).withEng { s.eng with initDone := true }

/-- INIT (R203). -/
def initBody (rc tc rd td rb tb : Word) : Op (Status × Results) := do
  let s ← current
  if initCapsBad s.params rc tc then pure (.param, Results.zero)
  else if initBasesBad rd td rb tb then pure (.param, Results.zero)
  else do
    update fun s => s.initStart rc tc rd td rb tb
    forRange rxDescInit 0 rc.toNat
    forRange txDescInit 0 tc.toNat
    update fun s => s.initFinish rc tc rd td rb tb
    pure (.ok, Results.zero)

/-- INIT (R202 to R205). -/
def execInit (rc tc rd td rb tb : Word) (s : State) : Host.Outcome State Fault Refusal :=
  runCommand 0x01 (initBody rc tc rd td rb tb) s

/-! ### READ (R211) -/

/-- The scan state of R211: `T`, `p`, `in_frame`, `nf`, `copied`, `released`. -/
structure Scan where
  t : Nat
  p : Nat
  inFrame : Bool
  nf : Nat
  copied : Nat
  released : Nat
deriving DecidableEq, Repr

/-- The scan at RX_TAIL before any descriptor is examined. -/
def scanStart (tail : Nat) : Scan := ⟨tail, tail, false, 0, 0, 0⟩

/-- A SOF begins a new frame: what the scan held of a stale one is released (R211). -/
def scanSof (w1 : Word) (sc : Scan) : Op Scan :=
  if rxSof w1 then do
    releaseRun sc.t sc.nf
    pure ⟨sc.p, sc.p, true, 0, 0, sc.released + sc.nf⟩
  else pure sc

/-- The results of READ: bytes written, total frame length, descriptors released (R145). -/
def readResults (copied total released : Nat) : Results :=
  ⟨BitVec.ofNat 32 copied, BitVec.ofNat 32 total, BitVec.ofNat 32 released, 0⟩

/-- The scan of R211 over at most `k` further descriptors. -/
def readScan (dest : Word) (maxLen n : Nat) : Nat → Scan → Op (Status × Results)
  | 0, sc => do
    releaseRun sc.t sc.nf
    setRxTail ((sc.t + sc.nf) % n)
    pure (.rxError, readResults 0 0 (sc.released + sc.nf))
  | k + 1, sc => do
    let s ← current
    let w0 ← memRead32 (s.rx.desc sc.p)
    if rxOwn w0 = false then do
      setRxTail sc.t
      pure (.empty, readResults 0 0 sc.released)
    else do
      let w1 ← memRead32 (s.rx.desc sc.p + 4)
      let sc ← scanSof w1 sc
      if sc.inFrame = false then do
        releaseRun sc.p 1
        readScan dest maxLen n k
          { sc with t := ringInc n sc.p, p := ringInc n sc.p, released := sc.released + 1 }
      else do
        let c := min (usedBytes s.params.rxUnit w1 (sc.nf + 1)) (maxLen - sc.copied)
        copy (dest + BitVec.ofNat 32 sc.copied) (rxAddr w0) c
        if rxEof w1 then do
          releaseRun sc.t (sc.nf + 1)
          setRxTail (ringInc n sc.p)
          pure (if sc.copied + c = rxLen w1 then .ok else .tooSmall,
            readResults (sc.copied + c) (rxLen w1) (sc.released + (sc.nf + 1)))
        else
          readScan dest maxLen n k
            { sc with p := ringInc n sc.p, nf := sc.nf + 1, copied := sc.copied + c }

/-- READ (R211). -/
def readBody (dest maxLen : Word) : Op (Status × Results) := do
  let s ← current
  if s.eng.initDone = false then pure (.noInit, Results.zero)
  else if maxLen = 0 then pure (.param, Results.zero)
  else readScan dest maxLen.toNat s.rx.cap.toNat s.rx.cap.toNat (scanStart s.rx.tail.toNat)

/-- READ (R210 to R216). -/
def execRead (dest maxLen : Word) (s : State) : Host.Outcome State Fault Refusal :=
  runCommand 0x02 (readBody dest maxLen) s

/-! ### WRITE (R221) -/

/-- TSTART: step 4 of R35, and WRITE's start of transmission (R222). -/
def State.tstart (s : State) : State := if s.net.txen then s.withTx { s.tx with go := true } else s

/-- WRITE after the size and space checks: `h` is the descriptor it fills (R221). -/
def writeFill (src len : Word) (tag : Half) (h : Nat) : Op (Status × Results) := do
  let s ← current
  let buf ← memRead32 (s.tx.desc h)
  copy buf src len.toNat
  update fun s => s.withTx { s.tx with tags := s.tx.tags.set h tag }
  memWrite32 (s.tx.desc h + 4) (txWriteWord1 len s.tx.cap.toNat h)
  update fun s => s.withTx { s.tx with head := BitVec.ofNat 16 (ringInc s.tx.cap.toNat h) }
  update State.tstart
  pure (.ok, ⟨BitVec.ofNat 32 h, 0, 0, 0⟩)

/-- WRITE (R221). -/
def writeBody (src len : Word) (tag : Half) : Op (Status × Results) := do
  let s ← current
  if s.eng.initDone = false then pure (.noInit, Results.zero)
  else if len = 0 ∨ s.params.txUnit < len.toNat then pure (.invalidSize, Results.zero)
  else if s.tx.count = s.tx.cap.toNat - 1 then pure (.busy, Results.zero)
  else writeFill src len tag s.tx.head.toNat

/-- WRITE (R220 to R223). -/
def execWrite (src len : Word) (tag : Half) (s : State) : Host.Outcome State Fault Refusal :=
  runCommand 0x03 (writeBody src len tag) s

/-! ### Callback registration (R230, R231) -/

/-- Emit one event if the condition holds; the number of events emitted. -/
def emitIf (c : Bool) (e : Word) : Op Nat := if c then (do emit e; pure 1) else pure 0

/-- SET_RX_CB (R230): the callback's enable and the RCOMP interrupt source follow ARG0 bit 0. -/
def setRxCbBody (enable : Bool) : Op (Status × Results) := do
  let s ← current
  if s.eng.initDone = false then pure (.noInit, Results.zero)
  else do
    update fun s => (s.withCb { s.cb with rxCbEn := enable }).withNet
      { s.net with imr := { s.net.imr with rcomp := enable } }
    pure (.ok, Results.zero)

/-- SET_RX_CB (R230). -/
def execSetRxCb (enable : Bool) (s : State) : Host.Outcome State Fault Refusal :=
  runCommand 0x04 (setRxCbBody enable) s

/-- SET_TX_WAKEUP (R231, R232). -/
def setTxWakeupBody (enable : Bool) (thr : Word) : Op (Status × Results) := do
  let s ← current
  if s.eng.initDone = false then pure (.noInit, Results.zero)
  else if enable then
    if thr = 0 ∨ s.tx.cap.toNat - 1 < thr.toNat then pure (.param, Results.zero)
    else do
      update fun s => s.withCb { s.cb with txwEn := true, txwThr := thr.setWidth 16 }
      let _ ← emitIf (decide (thr.toNat ≤ s.tx.free)) (evTxWakeup s.tx.free)
      pure (.ok, Results.zero)
  else do
    update fun s => s.withCb { s.cb with txwEn := false, txwThr := 0 }
    pure (.ok, Results.zero)

/-- SET_TX_WAKEUP (R231). -/
def execSetTxWakeup (enable : Bool) (thr : Word) (s : State) : Host.Outcome State Fault Refusal :=
  runCommand 0x05 (setTxWakeupBody enable thr) s

/-! ### SERVICE (R241) -/

/-- The receive side stopped, before its descriptors are rewritten (R245). -/
def State.rxStopped (s : State) : State :=
  (s.withNet { s.net with rxen := false }).withRx { s.rx with dma := .idle }

/-- The receive side started again at descriptor 0 (R245). -/
def State.rxRestarted (s : State) : State :=
  (s.withRx { s.rx with tail := 0, ptr := 0, qbase := s.rx.dbase }).withNet { s.net with rxen := true }

/-- `RxRingReset()` (R245). -/
def rxRingReset : Op Unit := do
  update State.rxStopped
  let s ← current
  forRange rxDescInit 0 s.rx.cap.toNat
  update State.rxRestarted

/-- The loop of `TxCompleteWalk()` (R244) from index `p`: where it stops and how many events it emitted. The
fuel is TXCAP: within the ring the walk takes fewer steps (log entry 10). -/
def txWalk : Nat → Nat → Op (Nat × Nat)
  | 0, p => pure (p, 0)
  | fuel + 1, p => do
    let s ← current
    if p = s.tx.head.toNat then pure (p, 0)
    else do
      let w1 ← memRead32 (s.tx.desc p + 4)
      if txUsed w1 = false then pure (p, 0)
      else do
        emit (evTxDone false (s.tx.tag p))
        let r ← txWalk fuel (ringInc s.tx.cap.toNat p)
        pure (r.1, r.2 + 1)

/-- `TxCompleteWalk()` (R244); the number of events emitted. -/
def txCompleteWalk : Op Nat := do
  let s ← current
  let r ← txWalk s.tx.cap.toNat s.tx.tail.toNat
  setTxTail r.1
  pure r.2

/-- The loop of `TxRingReset()` that reports every pending frame ABORTED (R247), from index `p`. -/
def txAbort : Nat → Nat → Op Nat
  | 0, _ => pure 0
  | fuel + 1, p => do
    let s ← current
    if p = s.tx.head.toNat then pure 0
    else do
      emit (evTxDone true (s.tx.tag p))
      let n ← txAbort fuel (ringInc s.tx.cap.toNat p)
      pure (n + 1)

/-- `TxDescInit(i); TAG[i] <- 0` (R247). -/
def txDescReset (i : Nat) : Op Unit := do
  txDescInit i
  update fun s => s.withTx { s.tx with tags := s.tx.tags.set i 0 }

/-- The transmit side stopped, before its pending frames are reported (R247). -/
def State.txStopped (s : State) : State :=
  (s.withNet { s.net with txen := false }).withTx { s.tx with go := false }

/-- The transmit side enabled again with an empty ring (R247). -/
def State.txRestarted (s : State) : State :=
  (s.withTx { s.tx with head := 0, tail := 0, ptr := 0, qbase := s.tx.dbase }).withNet { s.net with txen := true }

/-- `TxRingReset()` (R247); the number of events emitted. -/
def txRingReset : Op Nat := do
  update State.txStopped
  let s ← current
  let n ← txAbort s.tx.cap.toNat s.tx.tail.toNat
  forRange txDescReset 0 s.tx.cap.toNat
  update State.txRestarted
  pure n

/-- The receive ring reset, if a receive error was captured (R241). -/
def rxResetIf (c : Bool) : Op Unit := if c then rxRingReset else pure ()

/-- The transmit ring reset, if a transmit error was captured; the number of events emitted (R241). -/
def txResetIf (c : Bool) : Op Nat := if c then txRingReset else pure 0

/-- ISR, RSR, TSR.UBR, TSR.RLE and TSR.TXCOMP cleared (R241, R242). -/
def State.clearStatus (s : State) : State :=
  s.withNet { s.net with rsr := Rsr.none, tsr := Tsr.none, isr := IrqBits.none }

/-- The wakeup condition of R248. -/
def wakeupDue (cb : Callbacks) (free0 free1 : Nat) : Bool :=
  cb.txwEn && decide (free0 < cb.txwThr.toNat) && decide (cb.txwThr.toNat ≤ free1)

/-- `SERVICE_body()` (R241): the captured ISR, RSR and TSR, and the number of events emitted. -/
def serviceBody : Op Results := do
  let s ← current
  update State.clearStatus
  rxResetIf (rxError s.net.isr s.net.rsr)
  let n1 ← emitIf (rxComplete s.net.isr s.net.rsr && s.cb.rxCbEn) evRxReady
  let n2 ← txCompleteWalk
  let n3 ← txResetIf (txError s.net.isr s.net.tsr)
  let t ← current
  let n4 ← emitIf (wakeupDue t.cb s.tx.free t.tx.free) (evTxWakeup t.tx.free)
  pure ⟨s.net.isr.word, s.net.rsr.word, s.net.tsr.word, BitVec.ofNat 32 (n1 + n2 + n3 + n4)⟩

/-- SERVICE as a command (R240). -/
def serviceCommand : Op (Status × Results) := do
  let s ← current
  if s.eng.initDone = false then pure (.noInit, Results.zero)
  else do
    let r ← serviceBody
    pure (.ok, r)

/-- SERVICE as a command (R240). -/
def execService (s : State) : Host.Outcome State Fault Refusal := runCommand 0x06 serviceCommand s

end Sys2Proof.Machine
end

