-- ==== Sys2Proof/Machine/Dispatch.lean ====
section
/-! DEFINITION. The meaning of each instruction, one arm per constructor. -/

namespace Sys2Proof.Machine

def exec (i : Instr) (s : State) : Host.Outcome State Fault Refusal :=
  match i with
  | .init rc tc rd td rb tb => Sys2Proof.Machine.execInit rc tc rd td rb tb s
  | .read dest maxLen => Sys2Proof.Machine.execRead dest maxLen s
  | .write src len tag => Sys2Proof.Machine.execWrite src len tag s
  | .setRxCb enable => Sys2Proof.Machine.execSetRxCb enable s
  | .setTxWakeup enable thr => Sys2Proof.Machine.execSetTxWakeup enable thr s
  | .service => Sys2Proof.Machine.execService s
  | .classify fr len => Sys2Proof.Machine.execClassify fr len s
  | .decode fr len => Sys2Proof.Machine.execDecode fr len s
  | .dispatch => Sys2Proof.Machine.execDispatch s
  | .opPoll => Sys2Proof.Machine.execOpPoll s
  | .opDmx => Sys2Proof.Machine.execOpDmx s
  | .opAddress => Sys2Proof.Machine.execOpAddress s

end Sys2Proof.Machine
end

