-- ==== Sys2Proof/Machine/Dma.lean ====
section
/-! DEFINITION. The DMA agents and the wire (41_dma_agents.md): frame arrival (R260, R261), the RXDMA step
(R262, R263) and the TXDMA step (R272). -/

namespace Sys2Proof.Machine

/-- `Arrive(F)` (R260): dropped, or an overrun (R261), or the frame RXDMA receives. -/
def State.arrive (s : State) (frame : List Byte) : State :=
  if s.eng.fault || !s.net.rxen then s
  else if s.rx.dma ≠ .idle then
    s.withNet { s.net with rsr := { s.net.rsr with rxovr := true }, isr := { s.net.isr with rovr := true } }
  else s.withRx { s.rx with dma := .busy frame 0 }

/-- Buffer not available (R262): BNA and RXUBR, and the rest of the frame is dropped. -/
def State.bufferNotAvailable (s : State) : State :=
  (s.withNet { s.net with rsr := { s.net.rsr with bna := true }, isr := { s.net.isr with rxubr := true } }).withRx
    { s.rx with dma := .idle }

/-- RXPTR or TXPTR after a descriptor: 0 at WRAP, else one more modulo 2^16 (R263, R272). -/
def nextPtr (wrap : Bool) (ptr : Half) : Half := if wrap then 0 else ptr + 1

/-- The end of RxFill (R263, R264): at the frame's end RXDMA is idle and REC and RCOMP are set, else the offset
advances. -/
def State.rxAdvance (s : State) (frame : List Byte) (next : Nat) (eof : Bool) : State :=
  if eof then
    (s.withRx { s.rx with dma := .idle }).withNet
      { s.net with rsr := { s.net.rsr with received := true }, isr := { s.net.isr with rcomp := true } }
  else s.withRx { s.rx with dma := .busy frame next }

/-- `RxFill(a, w0)` (R263): buffer bytes, then word 1, then word 0 with OWN = 1. -/
def rxFill (a w0 : Word) (frame : List Byte) (off : Nat) : Op Unit := do
  let s ← current
  let n := min s.params.rxUnit (frame.length - off)
  let eof := decide (off + n = frame.length)
  memWrite (rxAddr w0) ((frame.drop off).take n)
  memWrite32 (a + 4) (rxFillWord1 frame.length (off == 0) eof)
  memWrite32 a (w0 ||| 1)
  update fun s => s.withRx { s.rx with ptr := nextPtr (rxWrap w0) s.rx.ptr }
  update fun s => s.rxAdvance frame (off + n) eof

/-- `RXDMA_step()` (R262): one descriptor. -/
def rxdmaStep : Op Unit := do
  let s ← current
  match s.rx.dma with
  | .idle => pure ()
  | .busy frame off => do
    let a := descAddr s.rx.qbase s.rx.ptr.toNat
    let w0 ← memRead32 a
    if rxOwn w0 then update State.bufferNotAvailable else rxFill a w0 frame off

/-- TXDMA met a USED descriptor (R272): it stops, and UBR is set. -/
def State.txStopUsed (s : State) : State :=
  (s.withTx { s.tx with go := false }).withNet { s.net with tsr := { s.net.tsr with ubr := true } }

/-- A frame was sent (R272, R273): TXPTR advances, TXCOMP and TCOMP are set. -/
def State.txSent (s : State) (w1 : Word) : State :=
  (s.withTx { s.tx with ptr := nextPtr (txWrap w1) s.tx.ptr }).withNet
    { s.net with tsr := { s.net.tsr with txcomp := true }, isr := { s.net.isr with tcomp := true } }

/-- Retry limit exceeded (R272): RLE and RLEX are set, and TXDMA stops. -/
def State.txFailed (s : State) : State :=
  (s.withTx { s.tx with go := false }).withNet
    { s.net with tsr := { s.net.tsr with rle := true }, isr := { s.net.isr with rlex := true } }

/-- The two ends of a transmission attempt at the descriptor `a` (R272). -/
def txAttempt (a w1 buf : Word) (sent : Bool) : Op Unit :=
  if sent then do
    let bs ← memRead buf (txLen w1)
    wireSend bs
    memWrite32 (a + 4) (w1 ||| 0x80000000)
    update fun s => s.txSent w1
  else do
    memWrite32 (a + 4) (w1 ||| 0x20000000)
    update State.txFailed

/-- `TXDMA_step()` (R272): one descriptor. -/
def txdmaStep : Op Unit := do
  let s ← current
  let a := descAddr s.tx.qbase s.tx.ptr.toNat
  let w1 ← memRead32 (a + 4)
  if txUsed w1 then update State.txStopUsed
  else do
    let buf ← memRead32 a
    let sent ← drawTxOutcome
    txAttempt a w1 buf sent

end Sys2Proof.Machine
end

