-- ==== Sys2Proof/Machine/HostBus.lean ====
section
/-! DEFINITION. HOST's accesses (41_dma_agents.md R282): the register map (10_state.md R33), what each register
reads and what a write to it does (R34 to R74, R77), and system memory. -/

namespace Sys2Proof.Machine

/-- The registers of R33. -/
inductive Reg where
  | ncr
  | rsr
  | tsr
  | rbqb
  | tbqb
  | rxptr
  | txptr
  | isr
  | ier
  | idr
  | imr
  | rxcap
  | txcap
  | rxtail
  | txhead
  | txtail
  | cbstat
  | rxdbase
  | txdbase
  | rxbbase
  | txbbase
  | engstat
  | faultaddr
  | cmd
  | cmdstat
  | arg (k : Nat)
  | res (k : Nat)
  | evqData
  | evqStat
  | evqPop
  | subuni
  | pollcfg
  | dispcfg
  | dispFail
  | dmxlen
  | fwd (n : Nat)
  | pipe (n : Nat)
  | dmxbuf (j : Nat)
deriving DecidableEq, Repr

/-- The registers at fixed offsets (R33). -/
def fixedRegs : List (Nat × Reg) :=
  [(0x000, .ncr), (0x008, .rsr), (0x00C, .tsr), (0x010, .rbqb), (0x014, .tbqb), (0x018, .rxptr),
   (0x01C, .txptr), (0x020, .isr), (0x024, .ier), (0x028, .idr), (0x02C, .imr), (0x040, .rxcap),
   (0x044, .txcap), (0x048, .rxtail), (0x04C, .txhead), (0x050, .txtail), (0x054, .cbstat),
   (0x058, .rxdbase), (0x05C, .txdbase), (0x060, .rxbbase), (0x064, .txbbase), (0x068, .engstat),
   (0x06C, .faultaddr), (0x100, .cmd), (0x104, .cmdstat), (0x140, .evqData), (0x144, .evqStat),
   (0x148, .evqPop), (0x180, .subuni), (0x184, .pollcfg), (0x188, .dispcfg), (0x18C, .dispFail),
   (0x190, .dmxlen)]

/-- The register at a 4-aligned offset, if the map of R33 has one there. -/
def regAt (p : Params) (off : Nat) : Option Reg :=
  match fixedRegs.find? fun e => e.1 == off with
  | some e => some e.2
  | none =>
    if 0x110 ≤ off ∧ off < 0x128 then some (.arg ((off - 0x110) / 4))
    else if 0x130 ≤ off ∧ off < 0x140 then some (.res ((off - 0x130) / 4))
    else if 0x200 ≤ off ∧ off < 0x200 + 4 * p.maxNodes then some (.fwd ((off - 0x200) / 4))
    else if 0x400 ≤ off ∧ off < 0x400 + 4 * p.maxNodes then some (.pipe ((off - 0x400) / 4))
    else if 0x800 ≤ off ∧ off < 0xA00 then some (.dmxbuf ((off - 0x800) / 4))
    else none

/-- ARGk (R56). -/
def argOf (a : Args) : Nat → Word
  | 0 => a.a0
  | 1 => a.a1
  | 2 => a.a2
  | 3 => a.a3
  | 4 => a.a4
  | _ => a.a5

/-- ARG0..ARG5 after `ARGk <- v` (R56). -/
def setArg (a : Args) (k : Nat) (v : Word) : Args :=
  match k with
  | 0 => { a with a0 := v }
  | 1 => { a with a1 := v }
  | 2 => { a with a2 := v }
  | 3 => { a with a3 := v }
  | 4 => { a with a4 := v }
  | _ => { a with a5 := v }

/-- RESk (R57). -/
def resOf (r : Results) : Nat → Word
  | 0 => r.r0
  | 1 => r.r1
  | 2 => r.r2
  | _ => r.r3

/-- What HOST reads from a register (R34 to R74, R77). No read changes anything; a write-only register reads 0. -/
def readReg (s : State) : Reg → Word
  | .ncr => ncrWord s.net
  | .rsr => s.net.rsr.word
  | .tsr => tsrWord s.net.tsr s.tx.go
  | .rbqb => s.rx.qbase
  | .tbqb => s.tx.qbase
  | .rxptr => s.rx.ptr.setWidth 32
  | .txptr => s.tx.ptr.setWidth 32
  | .isr => s.net.isr.word
  | .ier => 0
  | .idr => 0
  | .imr => s.net.imr.word
  | .rxcap => s.rx.cap.setWidth 32
  | .txcap => s.tx.cap.setWidth 32
  | .rxtail => s.rx.tail.setWidth 32
  | .txhead => s.tx.head.setWidth 32
  | .txtail => s.tx.tail.setWidth 32
  | .cbstat => s.cb.word
  | .rxdbase => s.rx.dbase
  | .txdbase => s.tx.dbase
  | .rxbbase => s.rx.bbase
  | .txbbase => s.tx.bbase
  | .engstat => s.eng.word
  | .faultaddr => s.eng.faultAddr
  | .cmd => 0
  | .cmdstat => s.cmd.statusWord
  | .arg k => argOf s.cmd.args k
  | .res k => resOf s.cmd.res k
  | .evqData => s.ev.queue.headD 0
  | .evqStat => s.ev.statusWord
  | .evqPop => 0
  | .subuni => s.cfg.subuni.setWidth 32
  | .pollcfg => s.cfg.unicastMask.setWidth 32
  | .dispcfg => dispcfgWord s.cfg
  | .dispFail => s.dispFail
  | .dmxlen => s.dmx.len.setWidth 32
  | .fwd n => s.cfg.fwdOf n
  | .pipe n => s.cfg.pipeOf n
  | .dmxbuf j => wordAt s.dmx.buf (4 * j)

/-- Steps 1 to 3 of an NCR write (R35). -/
def State.ncrSet (s : State) (v : Word) : State :=
  ((s.withRx { s.rx with dma := if s.net.rxen && !v.getLsbD 2 then .idle else s.rx.dma }).withTx
    { s.tx with go := s.tx.go && v.getLsbD 3 }).withNet
    { s.net with rxen := v.getLsbD 2, txen := v.getLsbD 3 }

/-- A HOST write to NCR (R35): steps 1 to 3, then TSTART if bit 9 is set. -/
def State.ncrWrite (s : State) (v : Word) : State :=
  if v.getLsbD 9 then (s.ncrSet v).tstart else s.ncrSet v

/-- A HOST write to CMD (R54): the command is latched with its arguments, or the write is ignored, with
CMD_OVR if a command is pending. -/
def State.issue (s : State) (w : Word) : State :=
  match s.cmd.pend with
  | none => if s.eng.fault then s else s.withCmd { s.cmd with pend := some ⟨w, s.cmd.args⟩, busy := true }
  | some _ => s.withCmd { s.cmd with cmdOvr := true }

/-- The state after HOST writes a register (R34 to R74, R77). A write to a read-only register is ignored. -/
def writeReg (s : State) (v : Word) : Reg → State
  | .ncr => s.ncrWrite v
  | .rsr => s.withNet { s.net with rsr := s.net.rsr.clear v }
  | .tsr => s.withNet { s.net with tsr := s.net.tsr.clear v }
  | .rbqb => s.withRx { s.rx with qbase := v &&& 0xFFFFFFFC }
  | .tbqb => s.withTx { s.tx with qbase := v &&& 0xFFFFFFFC }
  | .rxptr => s
  | .txptr => s
  | .isr => s.withNet { s.net with isr := s.net.isr.clear (IrqBits.ofWord v) }
  | .ier => s.withNet { s.net with imr := s.net.imr.or (IrqBits.ofWord v) }
  | .idr => s.withNet { s.net with imr := s.net.imr.clear (IrqBits.ofWord v) }
  | .imr => s
  | .rxcap => s
  | .txcap => s
  | .rxtail => s
  | .txhead => s
  | .txtail => s
  | .cbstat => s
  | .rxdbase => s
  | .txdbase => s
  | .rxbbase => s
  | .txbbase => s
  | .engstat => s
  | .faultaddr => s
  | .cmd => s.issue v
  | .cmdstat => s.withCmd { s.cmd with cmdOvr := s.cmd.cmdOvr && !v.getLsbD 1 }
  | .arg k => s.withCmd { s.cmd with args := setArg s.cmd.args k v }
  | .res _ => s
  | .evqData => s
  | .evqStat => s.withEv { s.ev with ovf := s.ev.ovf && !v.getLsbD 16 }
  | .evqPop => s.withEv { s.ev with queue := s.ev.queue.tail }
  | .subuni => s.withCfg { s.cfg with subuni := v.setWidth 8 }
  | .pollcfg => s.withCfg { s.cfg with unicastMask := v.setWidth 8 }
  | .dispcfg => s.withCfg { s.cfg with base := v.setWidth 10, count := (v >>> 16).setWidth 8 }
  | .dispFail => s.withDispFail 0
  | .dmxlen => s
  | .fwd n => s.withCfg { s.cfg with fwd := s.cfg.fwd.set n v }
  | .pipe n => s.withCfg { s.cfg with pipe := s.cfg.pipe.set n v }
  | .dmxbuf _ => s

/-- What a read at a register offset gives: 0 where the map has no register (R33). -/
def readOffset (s : State) (off : Nat) : Word :=
  match regAt s.params off with
  | some r => readReg s r
  | none => 0

/-- The state after a write at a register offset: unchanged where the map has no register (R33). -/
def writeOffset (s : State) (off : Nat) (v : Word) : State :=
  match regAt s.params off with
  | some r => writeReg s v r
  | none => s

/-- The register offset of a system address, if it lies in the block's 4 KiB window at BLOCK_BASE (R33, R9; the
window's size is log entry 3). -/
def regOffset (p : Params) (addr : Word) : Option Nat :=
  if p.blockBase.toNat ≤ addr.toNat ∧ addr.toNat < p.blockBase.toNat + 4096 then
    some (addr.toNat - p.blockBase.toNat)
  else none

/-- The state in which HOST's last read returned `v` (log entry 12). -/
def State.returned (s : State) (v : Word) : State := s.withEnv { s.env with hostData := v }

/-- HOST reads 32 bits: a register (R77) or an aligned word of memory (R282). -/
def hostRead32 (addr : Word) (s : State) : Host.Outcome State Fault Refusal :=
  match regOffset s.params addr with
  | some off => if off % 4 = 0 then .next (s.returned (readOffset s off)) else .refused .registerAccess
  | none => if addr.toNat % 4 = 0 then .next (s.returned (readWord s.mem addr)) else .refused .hostMemoryAccess

/-- HOST writes 32 bits: a register (R77) or an aligned word of memory (R282). -/
def hostWrite32 (addr v : Word) (s : State) : Host.Outcome State Fault Refusal :=
  match regOffset s.params addr with
  | some off => if off % 4 = 0 then .next (writeOffset s off v) else .refused .registerAccess
  | none => if addr.toNat % 4 = 0 then .next (s.withMem (writeWord s.mem addr v)) else .refused .hostMemoryAccess

/-- HOST reads one byte of memory (R282); a byte view of a register is refused (R77, R104). -/
def hostRead8 (addr : Word) (s : State) : Host.Outcome State Fault Refusal :=
  match regOffset s.params addr with
  | some _ => .refused .registerAccess
  | none => .next (s.returned ((s.byte addr).setWidth 32))

/-- HOST writes one byte of memory (R282); a byte view of a register is refused (R77, R104). -/
def hostWrite8 (addr : Word) (v : Byte) (s : State) : Host.Outcome State Fault Refusal :=
  match regOffset s.params addr with
  | some _ => .refused .registerAccess
  | none => .next (s.withMem (writeCell s.mem addr.toNat v))

end Sys2Proof.Machine
end

