-- ==== Sys2Proof/Machine/Engine.lean ====
section
/-! DEFINITION. Who steps and what the step does: the command engine's step (40_descriptor_ring.md R200), the
DMA agents' turns (41_dma_agents.md R262, R270), the environment's moves (R260, R282, R460), and the choice of
the next step (R283). Also how a word is placed where the block's next step runs it. -/

namespace Sys2Proof.Machine

/-! ### The command engine (R200, R201) -/

/-- Execution of a pending command (R201): the decoded command runs; an illegal word completes with
ILLEGAL_CMD and changes nothing else (R143). -/
def runPending (p : Pending) (s : State) : Host.Outcome State Fault Refusal :=
  match Sys2Proof.decodeCommand p.word p.args with
  | .ok i => exec i s
  | .error _ => .next (s.complete (p.word.setWidth 8) .illegalCmd Results.zero)

/-- SERVICE as the CE's own step (R200, R240): it writes no RES and no CMDSTAT. -/
def autonomousService (s : State) : Host.Outcome State Fault Refusal :=
  runAgent .ce 0x06 (do let _ ← serviceBody; pure ()) s

/-- `CE_step()` (R200). -/
def ceStep (s : State) : Host.Outcome State Fault Refusal :=
  if s.irqPending then autonomousService s
  else match s.cmd.pend with
    | some p => runPending p s
    | none => .next s

/-! ### Turns of the block's agents -/

/-- Whether an agent's step is enabled (R200, R262, R270). -/
def State.enabled (s : State) : Agent → Bool
  | .ce => !s.eng.fault && (s.irqPending || s.cmd.pend.isSome)
  | .rxdma => !s.eng.fault && decide (s.rx.dma ≠ .idle)
  | .txdma => !s.eng.fault && s.tx.go && s.net.txen

/-- An agent's step. -/
def agentStep (a : Agent) (s : State) : Host.Outcome State Fault Refusal :=
  match a with
  | .ce => ceStep s
  | .rxdma => runAgent .rxdma 0 rxdmaStep s
  | .txdma => runAgent .txdma 0 txdmaStep s

/-- An agent's turn: its step if it is enabled, else no step. -/
def takeTurn (a : Agent) (s : State) : Host.Outcome State Fault Refusal :=
  if s.enabled a then agentStep a s else .next s

/-- The agents whose step is enabled. -/
def State.ready (s : State) : List Agent := [Agent.ce, .rxdma, .txdma].filter s.enabled

/-- One of several enabled agents, by a free value (R283, log entry 4). -/
def chosen (agents : List Agent) (turns : Nat) : Agent :=
  agents.getD (Config.pickAgent turns % agents.length) .ce

/-- A step with no input left: the one enabled agent's, or a free choice among several; the block idles when none
is enabled (R444), and is stuck when it has faulted (R425). -/
def freeStep (s : State) : Host.Outcome State Fault Refusal :=
  match s.ready with
  | [] => if s.eng.fault then .fault .stopped else .next s
  | [a] => takeTurn a s
  | agents => takeTurn (chosen agents s.env.turns) (s.withEnv { s.env with turns := s.env.turns + 1 })

/-- One move of the environment (R282, R260, R460), or an agent's turn. -/
def applyInput (i : Input) (s : State) : Host.Outcome State Fault Refusal :=
  match i with
  | .turn a => takeTurn a s
  | .hostRead32 addr => hostRead32 addr s
  | .hostWrite32 addr v => hostWrite32 addr v s
  | .hostRead8 addr => hostRead8 addr s
  | .hostWrite8 addr v => hostWrite8 addr v s
  | .arrive frame => if frameWf frame then .next (s.arrive frame) else .refused .illegalFrame
  | .reset => .next s.resetBlock

/-- The state with the first input taken. -/
def State.withInputs (s : State) (inputs : List Input) : State := s.withEnv { s.env with inputs := inputs }

/-- One step of the whole: the next input if there is one, else a step of the block's own (R283). -/
def nextStep (s : State) : Host.Outcome State Fault Refusal :=
  if !s.params.wf then .refused .illegalParams
  else match s.env.inputs with
    | i :: rest => applyInput i (s.withInputs rest)
    | [] => freeStep s

/-! ### Placing a word where the next step runs it (log entry 14) -/

/-- The command is latched in PEND, BUSY is set, and nothing stands before the command engine: no fault, no
pending interrupt. -/
def State.latch (s : State) (w : Word) (a : Args) : State :=
  ((s.withCmd { s.cmd with pend := some ⟨w, a⟩, busy := true }).withEng { s.eng with fault := false }).withNet
    { s.net with isr := if s.irqPending then s.net.isr.clear s.net.imr else s.net.isr }

/-- The next step is the command engine's: where another agent or an input could step first, the engine's turn
is put before it. -/
def State.giveTurn (s : State) : State :=
  if s.env.inputs = [] ∧ s.ready = [.ce] then s else s.withInputs (.turn .ce :: s.env.inputs)

/-- A frame of 60 bytes that the classifier takes for Art-Net with this opcode (R307), every byte it does not
read 0. -/
def opcodeFrame (op : Half) : List Byte :=
  List.replicate 12 0 ++ [0x08, 0x00] ++ List.replicate 9 0 ++ [17] ++ List.replicate 18 0 ++ artNetId
    ++ [byteOf (op.setWidth 32) 0, byteOf (op.setWidth 32) 1] ++ List.replicate 8 0

/-- A command word with operands of zero, placed. -/
def State.placeCommand (s : State) (w : Word) : State := (s.latch w Args.zero).giveTurn

/-- An Art-Net opcode, placed: a frame with it at the address ARG0 holds, named by a pending DECODE. -/
def State.placeOpcode (s : State) (op : Half) : State :=
  ((s.withMem (writeBytes s.mem s.cmd.args.a0 (opcodeFrame op))).latch 0x11
    { Args.zero with a0 := s.cmd.args.a0, a1 := 60 }).giveTurn

end Sys2Proof.Machine
end

