-- ==== Sys2Proof/Machine/Step.lean ====
section
/-! DEFINITION. The step of the whole machine, and where a test places an instruction's word. -/

namespace Sys2Proof.Machine

/-- One atomic step of one agent or of the environment (20_memory.md R109, 41_dma_agents.md R283). -/
def step (s : State) : Host.Outcome State Fault Refusal := nextStep s

/-- The state in which the next step runs the instruction whose bits are `w`: a 16-bit row is an Art-Net opcode
in a frame that a pending DECODE names, any other row a command word in PEND with operands of zero. -/
def State.withFetchWord (s : State) (nbits w : Nat) : State :=
  if nbits = 16 then s.placeOpcode (BitVec.ofNat 16 w) else s.placeCommand (BitVec.ofNat 32 w)

end Sys2Proof.Machine
end

