-- ==== Sys2Proof/Machine/Runs.lean ====
section
/-! DEFINITION. Runs without an end (41_dma_agents.md R283): an interleaving of the agents' turns and the
environment's moves, weak fairness of the three agents, and HOST's duties in a run (70_reset_and_hazards.md R470 to
R488). `State.env.inputs` says which moves come next for a finite part of a run; here the moves are a sequence
without an end, offered one at a time, so that what a fair run must come to (R492) can be said of `step`. -/

namespace Sys2Proof.Machine

/-! ### Runs and fairness (R283) -/

/-- A run: in state `states n` the move `moves n` is taken, and the step leads to `states (n + 1)`. A move is the
turn of an agent of the block or a move of the environment, so every interleaving of R283 is a run. -/
def IsRun (states : Nat → State) (moves : Nat → Input) : Prop :=
  ∀ n, step ((states n).withInputs [moves n]) = .next (states (n + 1))

/-- Weak fairness of the CE, RXDMA and TXDMA (R283): an agent whose step stays enabled eventually takes it. -/
def WeaklyFair (states : Nat → State) (moves : Nat → Input) : Prop :=
  ∀ (a : Agent) (n : Nat), (∀ m, n ≤ m → (states m).enabled a = true) → ∃ m, n ≤ m ∧ moves m = .turn a

/-! ### HOST's duties (R470 to R488) -/

/-- The `n` addresses from `a` and the `m` addresses from `b`, both modulo 2^32, have one in common. -/
def rangesMeet (a : Word) (n : Nat) (b : Word) (m : Nat) : Bool :=
  n != 0 && m != 0 && (decide ((b - a).toNat < n) || decide ((a - b).toNat < m))

/-- The two descriptor arrays (20_memory.md R102), by base and size; of size 0 before INIT. -/
def State.descArrays (s : State) : List (Word × Nat) :=
  [(s.rx.dbase, 8 * s.rx.cap.toNat), (s.tx.dbase, 8 * s.tx.cap.toNat)]

/-- The four ring regions (R102). -/
def State.ringRegions (s : State) : List (Word × Nat) :=
  s.descArrays ++ [(s.rx.bbase, s.rx.cap.toNat * s.params.rxUnit), (s.tx.bbase, s.tx.cap.toNat * s.params.txUnit)]

/-- None of the `n` addresses from `a` lies in one of the regions. -/
def avoids (regions : List (Word × Nat)) (a : Word) (n : Nat) : Bool :=
  regions.all fun r => !rangesMeet r.1 r.2 a n

/-- Regions that lie pairwise apart, start 4-aligned and are MEM_VALID throughout: what HOST reserves before INIT
(R470 step 2). -/
def reservable (p : Params) : List (Word × Nat) → Bool
  | [] => true
  | r :: rs => avoids rs r.1 r.2 && r.1.toNat % 4 == 0 && (lowestInvalid p r.1 r.2).isNone && reservable p rs

/-- HOST's duty for the operands of a command it issues: INIT's four regions (R470), and the ranges that READ,
WRITE, CLASSIFY and DECODE are given (R481). -/
def commandObeys (s : State) (w : Word) (a : Args) : Bool :=
  if w = 0x01 then
    reservable s.params [(a.a2, 8 * a.a0.toNat), (a.a3, 8 * a.a1.toNat), (a.a4, a.a0.toNat * s.params.rxUnit),
      (a.a5, a.a1.toNat * s.params.txUnit)]
  else if w = 0x02 then avoids s.ringRegions a.a0 a.a1.toNat
  else if w = 0x03 ∨ w = 0x10 ∨ w = 0x11 then avoids s.descArrays a.a0 a.a1.toNat
  else true

/-- HOST's duty for a register write: CMD only while no command is pending (R480), and with legal operands; the
configuration only between two commands, a queue base only with its own array's base while its agent is disabled
(R482); no status bit cleared (R483); NCR only for KICK_TX, and not before INIT (R484, 30_encoding.md R147). -/
def registerObeys (s : State) (v : Word) : Reg → Bool
  | .cmd => !s.cmd.busy && commandObeys s v s.cmd.args
  | .subuni => !s.cmd.busy
  | .pollcfg => !s.cmd.busy
  | .dispcfg => !s.cmd.busy
  | .fwd _ => !s.cmd.busy
  | .pipe _ => !s.cmd.busy
  | .rbqb => !s.net.rxen && v == s.rx.dbase
  | .tbqb => !s.net.txen && v == s.tx.dbase
  | .rsr => false
  | .tsr => false
  | .isr => false
  | .ncr => s.eng.initDone && v == 0x20C
  | _ => true

/-- HOST's duty at one move: a register write as above, and no write to the ring regions (R481). The turns, the
arrivals and reset are not HOST's, and a read has no effect (R481). -/
def hostObeys (s : State) : Input → Bool
  | .hostWrite32 addr v =>
    match regOffset s.params addr with
    | some off =>
      match regAt s.params off with
      | some r => registerObeys s v r
      | none => true
    | none => avoids s.ringRegions addr 4
  | .hostWrite8 addr _ => avoids s.ringRegions addr 1
  | .turn _ => true
  | .hostRead32 _ => true
  | .hostRead8 _ => true
  | .arrive _ => true
  | .reset => true

end Sys2Proof.Machine
end

