-- ==== Sys2Proof/Safety.lean ====
section
/-! DEFINITION. The terms claims are stated in: when an access can be made, when two ranges of memory lie apart,
what the classifier answers for a frame as a plain function of its bytes, what one SERVICE emits, and the invariants
of the machine. -/

namespace Sys2Proof.Machine

/-! ### Ranges of memory -/

/-- MEM_VALID holds for each of the `n` addresses from `a` (00_scope.md R15). -/
def AccessValid (p : Params) (a : Word) (n : Nat) : Prop :=
  ∀ j, j < n → memValid p (a + BitVec.ofNat 32 j) = true

/-- The address is none of the `n` addresses from `a`. -/
def Outside (a : Word) (n : Nat) (x : Word) : Prop := ∀ j, j < n → x ≠ a + BitVec.ofNat 32 j

/-- No address of the first range is one of the second. -/
def Apart (a : Word) (n : Nat) (b : Word) (m : Nat) : Prop := ∀ i, i < n → Outside b m (a + BitVec.ofNat 32 i)

/-- The address is the lowest of the `n` addresses from `a` that fail MEM_VALID (R15); which is lowest when they wrap
past 2^32 - 1 is log entry 9. -/
def LowestInvalid (p : Params) (a : Word) (n : Nat) (x : Word) : Prop :=
  memValid p x = false ∧ (∃ j, j < n ∧ x = a + BitVec.ofNat 32 j)
    ∧ ∀ j, j < n → memValid p (a + BitVec.ofNat 32 j) = false → x.toNat ≤ (a + BitVec.ofNat 32 j).toNat

/-- Every word of the receive descriptor array can be accessed. -/
def RxArrayValid (s : State) : Prop := ∀ i, i < s.rx.cap.toNat → AccessValid s.params (s.rx.desc i) 8

/-- Every word of the transmit descriptor array can be accessed. -/
def TxArrayValid (s : State) : Prop := ∀ i, i < s.tx.cap.toNat → AccessValid s.params (s.tx.desc i) 8

/-- The two descriptor arrays lie apart (20_memory.md R102). -/
def ArraysApart (s : State) : Prop := Apart s.rx.dbase (8 * s.rx.cap.toNat) s.tx.dbase (8 * s.tx.cap.toNat)

/-! ### Frames (42_frame_classifier.md R302 to R305) -/

/-- The bytes of a frame at an address, by offset. -/
def State.frame (s : State) (fr : Word) (k : Nat) : Byte := s.byte (fr + BitVec.ofNat 32 k)

/-- EthernetKind of a frame (R302). -/
def headerEth (f : Nat → Byte) (len : Nat) : EthernetKind :=
  if len < 14 then .unknown else ethernetKind (f 12) (f 13)

/-- IpProto of a frame (R303). -/
def headerIp (f : Nat → Byte) (len : Nat) : IpProto :=
  if headerEth f len ≠ .ipv4 then .none else if len < 24 then .other else ipProto (f 23)

/-- Whether the classifier reads `f[k]` of a frame (R300, R307): the EtherType of a frame of at least 14 bytes; the
protocol byte of an IPv4 frame of at least 24; of a UDP frame of at least 52, each identifier byte up to the first that
differs, and the two opcode bytes after the whole identifier. -/
def headerReads (f : Nat → Byte) (len k : Nat) : Bool :=
  if k = 12 ∨ k = 13 then decide (14 ≤ len)
  else if k = 23 then decide (headerEth f len = .ipv4 ∧ 24 ≤ len)
  else if 42 ≤ k ∧ k < 52 then
    decide (headerIp f len = .udp ∧ 52 ≤ len) && (List.range (min (k - 42) 8)).all fun j => f (42 + j) == artNetId.getD j 0
  else false

/-- The bytes the classifier reads can be read; the others need not be (R300). -/
def HeaderValid (s : State) (fr : Word) (len : Nat) : Prop :=
  ∀ k, k < 52 → headerReads (s.frame fr) len k = true → memValid s.params (fr + BitVec.ofNat 32 k) = true

/-- The bytes `f[42..49]` are the identifier (R305). -/
def hasArtNetId (f : Nat → Byte) : Bool :=
  f 42 == 0x41 && f 43 == 0x72 && f 44 == 0x74 && f 45 == 0x2D && f 46 == 0x4E && f 47 == 0x65 && f 48 == 0x74
    && f 49 == 0x00

/-- The Art-Net opcode of a frame, if it has one (R304, R305). -/
def headerOpcode (f : Nat → Byte) (len : Nat) : Option Half :=
  if headerIp f len = .udp ∧ 52 ≤ len ∧ hasArtNetId f = true then some (opcodeOf (f 50) (f 51)) else none

/-! ### Events -/

/-- The queue after several events in order (10_state.md R63). -/
def Events.pushAll (depth : Nat) (q : Events) (es : List Word) : Events := es.foldl (Events.push depth) q

/-- TX_DONE for the `n` descriptors from index `p` of the ring, in ring order (R244, R247). -/
def doneEvents (t : TxRing) (aborted : Bool) (p n : Nat) : List Word :=
  (List.range n).map fun k => evTxDone aborted (t.tag ((p + k) % t.cap.toNat))

/-- The first `n` pending descriptors are USED and the next one, if one is pending, is not: what the completion
walk of R244 reports. -/
def SentRun (s : State) (n : Nat) : Prop :=
  n ≤ s.tx.count
    ∧ (∀ k, k < n → txUsed (readWord s.mem (s.tx.desc ((s.tx.tail.toNat + k) % s.tx.cap.toNat) + 4)) = true)
    ∧ (n < s.tx.count →
        txUsed (readWord s.mem (s.tx.desc ((s.tx.tail.toNat + n) % s.tx.cap.toNat) + 4)) = false)

/-- The free count after a SERVICE that reports `n` sent frames (R12, R248): all but one with a transmit error. -/
def freeAfter (s : State) (n : Nat) : Nat :=
  if s.net.isr.rlex || s.net.tsr.rle then s.tx.cap.toNat - 1 else s.tx.free + n

/-- The events one SERVICE emits when the first `n` pending frames are sent, in order: RX_READY for a captured
receive-complete condition (R246), OK for each sent frame (R244), ABORTED for every other pending frame if a transmit
error was captured (R247), and TX_WAKEUP if the threshold is newly reached (R248). -/
def serviceEvents (s : State) (n : Nat) : List Word :=
  (if (s.net.isr.rcomp || s.net.rsr.received) && s.cb.rxCbEn then [(0x1 : Word)] else [])
    ++ doneEvents s.tx false s.tx.tail.toNat n
    ++ (if s.net.isr.rlex || s.net.tsr.rle then
          doneEvents s.tx true ((s.tx.tail.toNat + n) % s.tx.cap.toNat) (s.tx.count - n) else [])
    ++ (if s.cb.txwEn ∧ s.tx.free < s.cb.txwThr.toNat ∧ s.cb.txwThr.toNat ≤ freeAfter s n then
          [(0x3 : Word) ||| (BitVec.ofNat 32 (freeAfter s n) <<< 16)] else [])

/-! ### Whose step is next -/

/-- The next step is the turn of agent `a`, and the block has not faulted. -/
def TurnOf (a : Agent) (s : State) (rest : List Input) : Prop :=
  s.params.wf = true ∧ s.eng.fault = false ∧ s.env.inputs = .turn a :: rest

/-! ### Runs (41_dma_agents.md R283, 70_reset_and_hazards.md R492) -/

/-- A command is pending and the command engine's step would run it: the block has not faulted, and SERVICE is not
due (R200). -/
def State.commandReady (s : State) : Bool := !s.eng.fault && !s.irqPending && s.cmd.pend.isSome

/-- Fairness of the command step: if a pending command is ready again and again, some turn of the command engine finds
it ready (log entry 21). -/
def CommandStepFair (states : Nat → State) (moves : Nat → Input) : Prop :=
  ∀ n, (∀ m, n ≤ m → ∃ k, m ≤ k ∧ (states k).commandReady = true) →
    ∃ m, n ≤ m ∧ moves m = .turn .ce ∧ (states m).commandReady = true

/-- From some state of the run on, no step raises IRQ_PENDING anew. -/
def InterruptsCease (states : Nat → State) : Prop :=
  ∃ n, ∀ m, n ≤ m → (states m).irqPending = false → (states (m + 1)).irqPending = false

/-! ### The ownership protocol (20_memory.md R102, R114, 70_reset_and_hazards.md R471) -/

/-- The transmit ring as the ownership protocol has it (10_state.md R79, R114, 41_dma_agents.md R273), `c` frames being
sent and not yet reported: TXDMA's place is `c` descriptors after TX_TAIL, the descriptors from there to TX_HEAD and no
others are the hardware's, each names its own buffer, WRAP is on the last; and with a frame to send TXDMA is running,
or has recorded its failure. -/
def TxProtocol (s : State) (c : Nat) : Prop :=
  2 ≤ s.tx.cap.toNat ∧ s.tx.head.toNat < s.tx.cap.toNat ∧ s.tx.tail.toNat < s.tx.cap.toNat
    ∧ s.tx.tags.length = s.tx.cap.toNat ∧ s.tx.qbase = s.tx.dbase ∧ c ≤ s.tx.count
    ∧ s.tx.ptr.toNat = (s.tx.tail.toNat + c) % s.tx.cap.toNat
    ∧ (∀ k, k < s.tx.cap.toNat →
        txUsed (readWord s.mem (s.tx.desc ((s.tx.tail.toNat + k) % s.tx.cap.toNat) + 4))
          = (decide (k < c) || decide (s.tx.count ≤ k)))
    ∧ (∀ i, i < s.tx.cap.toNat → txWrap (readWord s.mem (s.tx.desc i + 4)) = decide (i + 1 = s.tx.cap.toNat)
        ∧ readWord s.mem (s.tx.desc i) = bufferAddr s.tx.bbase s.params.txUnit i)
    ∧ s.net.txen = true ∧ (c < s.tx.count → s.tx.go = true ∨ s.net.isr.rlex = true)

/-- The receive ring's own place and layout: RXPTR and RX_TAIL inside the ring, RXDMA on INIT's array, and each
descriptor names its own buffer, with WRAP on the last (R102, 40_descriptor_ring.md R205). -/
def RxLayout (s : State) : Prop :=
  2 ≤ s.rx.cap.toNat ∧ s.rx.tail.toNat < s.rx.cap.toNat ∧ s.rx.ptr.toNat < s.rx.cap.toNat ∧ s.rx.qbase = s.rx.dbase
    ∧ ∀ i, i < s.rx.cap.toNat → readWord s.mem (s.rx.desc i) &&& 0xFFFFFFFE
        = rxInitWord0 s.rx.bbase s.params.rxUnit s.rx.cap.toNat i

/-- What HOST's duties keep true of the rings (R471) while no fault has stopped the block: the operands of the pending
command are legal, and after a successful INIT the four regions lie apart and can be accessed, and both rings are as the
protocol has them. -/
def RingProtocol (s : State) : Prop :=
  s.eng.fault = false →
    (∀ p, s.cmd.pend = some p → commandObeys s p.word p.args = true)
    ∧ (s.eng.initDone = true → reservable s.params s.ringRegions = true ∧ RxLayout s ∧ ∃ c, TxProtocol s c)

/-! ### Invariants -/

/-- System memory is in its canonical form. -/
def MemoryCanonical (s : State) : Prop := Memory.wf s.mem = true

/-- The queue bases are 4-aligned (R38, R39) and so are the four region bases INIT recorded (R107), the tables and
the canonical buffer have their sizes (R70, R72, R73), DMXLEN is at most 512 (R71), BUSY says whether a command is
pending (R55, R61), and the event queue holds at most EVQ_DEPTH events (R62). -/
def RegisterShape (s : State) : Prop :=
  s.rx.qbase.toNat % 4 = 0 ∧ s.tx.qbase.toNat % 4 = 0
    ∧ s.rx.dbase.toNat % 4 = 0 ∧ s.tx.dbase.toNat % 4 = 0 ∧ s.rx.bbase.toNat % 4 = 0 ∧ s.tx.bbase.toNat % 4 = 0
    ∧ s.cfg.fwd.length = s.params.maxNodes ∧ s.cfg.pipe.length = s.params.maxNodes
    ∧ s.dmx.buf.length = Config.dmxChannels ∧ s.dmx.len.toNat ≤ Config.dmxChannels
    ∧ s.cmd.busy = s.cmd.pend.isSome
    ∧ s.ev.queue.length ≤ s.params.evqDepth

/-- While RXDMA receives a frame, RXEN is 1, the frame has 1 to 8191 bytes and the offset is inside it (R65,
R262). -/
def RxDmaOk (s : State) : Prop :=
  match s.rx.dma with
  | .idle => True
  | .busy frame off => s.net.rxen = true ∧ off < frame.length ∧ frame.length ≤ 8191

/-- After a successful INIT, and while no fault has stopped the block: both capacities are in `2 .. RING_MAX`,
every index is inside its ring (R48, R79), and TAG has one entry for each TX descriptor (R64). -/
def RingsOk (s : State) : Prop :=
  s.eng.fault = false → s.eng.initDone = true →
    2 ≤ s.rx.cap.toNat ∧ s.rx.cap.toNat ≤ s.params.ringMax ∧ s.rx.tail.toNat < s.rx.cap.toNat
      ∧ 2 ≤ s.tx.cap.toNat ∧ s.tx.cap.toNat ≤ s.params.ringMax
      ∧ s.tx.head.toNat < s.tx.cap.toNat ∧ s.tx.tail.toNat < s.tx.cap.toNat
      ∧ s.tx.tags.length = s.tx.cap.toNat

/-- With FAULT = 0 nothing is recorded (R53, R83); with FAULT = 1 an agent and an address that fails MEM_VALID
are (R425). -/
def FaultRecordOk (s : State) : Prop :=
  (s.eng.fault = false → s.eng.fsrc = .none ∧ s.eng.fop = 0 ∧ s.eng.faultAddr = 0)
    ∧ (s.eng.fault = true → s.eng.fsrc ≠ .none ∧ memValid s.params s.eng.faultAddr = false)

end Sys2Proof.Machine
end

