-- ==== Sys2Proof/Certificates/Slice0/Obligations.lean ====
section
/-! DEFINITION. The statements for the provers. Each docstring names the rules of spec/ it formalises; where a
statement rests on a choice of the model, it names the log entry. A statement about exec gives the next state in
full, or the fields and the bytes of memory that the instruction leaves alone. -/

open Sys2Proof Sys2Proof.Machine

/-! ### Encoding -/

/-- Decoding an encoded instruction gives it back, with every operand at every value (30_encoding.md R141, R142,
R144, R175). The layout of a command as seven little-endian words is the model's choice (log entry 17). -/
def Obligations.DecodeAfterEncodeIsIdentity : Prop :=
  ∀ i : Instr, decode (encode i) = .ok i

/-- The words of R142 and R175, written out, decode to the instructions they stand for. -/
def Obligations.TableWordsDecode : Prop :=
  decodeTableWord 32 0x00000001 = some (.init 0 0 0 0 0 0)
    ∧ decodeTableWord 32 0x00000002 = some (.read 0 0)
    ∧ decodeTableWord 32 0x00000003 = some (.write 0 0 0)
    ∧ decodeTableWord 32 0x00000004 = some (.setRxCb false)
    ∧ decodeTableWord 32 0x00000005 = some (.setTxWakeup false 0)
    ∧ decodeTableWord 32 0x00000006 = some .service
    ∧ decodeTableWord 32 0x00000010 = some (.classify 0 0)
    ∧ decodeTableWord 32 0x00000011 = some (.decode 0 0)
    ∧ decodeTableWord 32 0x00000012 = some .dispatch
    ∧ decodeTableWord 16 0x2000 = some .opPoll
    ∧ decodeTableWord 16 0x5000 = some .opDmx
    ∧ decodeTableWord 16 0x6000 = some .opAddress

/-! ### The command engine's step -/

/-- Executing an illegal word changes no state but the completion writes (R143). -/
def Obligations.IllegalWordOnlyCompletes : Prop :=
  ∀ (s : State) (rest : List Input) (p : Pending),
    TurnOf .ce s rest → s.irqPending = false → s.cmd.pend = some p →
    CommandWord.wf ⟨p.word.setWidth 8, (p.word >>> 8).setWidth 24⟩ = false →
    step s = .next ((s.withInputs rest).withCmd
      { s.cmd with res := Results.zero, status := .illegalCmd, lastop := p.word.setWidth 8, pend := none, busy := false })

/-- A step runs the decoded command: on the command engine's turn, with no interrupt pending, the step is exec of
the instruction the pending word and its latched arguments decode to (40_descriptor_ring.md R200, R201). The step
takes the turn off the inputs and adds nothing else. -/
def Obligations.StepRunsPendingCommand : Prop :=
  ∀ (s : State) (rest : List Input) (p : Pending) (i : Instr),
    TurnOf .ce s rest → s.irqPending = false → s.cmd.pend = some p → decodeCommand p.word p.args = .ok i →
    step s = exec i (s.withInputs rest)

/-- A step runs the decoded Art-Net opcode: when the pending command is DECODE and the frame it names holds an
opcode, the step is exec of the instruction that opcode decodes to (42_frame_classifier.md R305, R306,
43_artnet_decoder.md R342). -/
def Obligations.StepRunsArtNetOpcode : Prop :=
  ∀ (s : State) (rest : List Input) (p : Pending) (op : Half) (i : Instr),
    TurnOf .ce s rest → s.irqPending = false → s.cmd.pend = some p → p.word = 0x11 →
    HeaderValid s p.args.a0 p.args.a1.toNat →
    headerOpcode (s.frame p.args.a0) p.args.a1.toNat = some op → decodeOpcode op = .ok i →
    step s = exec i (s.withInputs rest)

/-- With IRQ_PENDING the command engine's step is SERVICE, run on its own before any pending command: the command
stays latched, no RES and no CMDSTAT field changes, and IRQ_PENDING is false afterwards (R200, R240,
60_exceptions.md R433 to R435). -/
def Obligations.ServiceRunsBeforeTheCommand : Prop :=
  ∀ (s : State) (rest : List Input), TurnOf .ce s rest → s.irqPending = true →
    step s = autonomousService (s.withInputs rest)
      ∧ ∀ t, step s = .next t → t.cmd = s.cmd ∧ t.irqPending = false

/-- Every command that ends without a BusFault completes: PEND empties, BUSY clears, LASTOP is the command's
opcode, ARG0..ARG5 and CMD_OVR stay (10_state.md R61, R55, R56). The Art-Net opcodes complete the DECODE command
they belong to, which is the model's choice (log entry 13). -/
def Obligations.CommandsCompleteThePort : Prop :=
  ∀ (i : Instr) (s t : State), s.eng.fault = false → exec i s = .next t → t.eng.fault = false →
    t.cmd.pend = none ∧ t.cmd.busy = false ∧ t.cmd.args = s.cmd.args ∧ t.cmd.cmdOvr = s.cmd.cmdOvr
      ∧ t.cmd.lastop = (if i.isOpcode then 0x11 else i.opWord.setWidth 8)

/-! ### INIT -/

/-- A command turned away changes nothing but the completion writes (60_exceptions.md R423). NOINIT: the five ring
commands before INIT (70_reset_and_hazards.md R463). PARAM: INIT with a capacity of at most 1 or above RING_MAX, or a
base that is not 4-aligned (R203, R204); READ with `max_len` 0 after INIT (R211); DISPATCH with COUNT above MAX_NODES,
or BASE + COUNT above 512, which sends nothing (R382, R388). WRITE checks the size before the space: a length of 0 or
above TX_UNIT gives INVALID_SIZE even when the ring is full, and a full ring gives BUSY otherwise (R221, R223, R422). -/
def Obligations.CommandsTurnedAwayOnlyComplete : Prop :=
  (∀ s : State, s.eng.initDone = false →
    (∀ dest maxLen, exec (.read dest maxLen) s = .next (s.complete 0x02 .noInit Results.zero))
    ∧ (∀ src len tag, exec (.write src len tag) s = .next (s.complete 0x03 .noInit Results.zero))
    ∧ (∀ e, exec (.setRxCb e) s = .next (s.complete 0x04 .noInit Results.zero))
    ∧ (∀ e thr, exec (.setTxWakeup e thr) s = .next (s.complete 0x05 .noInit Results.zero))
    ∧ exec .service s = .next (s.complete 0x06 .noInit Results.zero))
  ∧ (∀ (s : State) (rc tc rd td rb tb : Word),
    (rc.toNat ≤ 1 ∨ tc.toNat ≤ 1 ∨ s.params.ringMax < rc.toNat ∨ s.params.ringMax < tc.toNat
      ∨ rd.toNat % 4 ≠ 0 ∨ td.toNat % 4 ≠ 0 ∨ rb.toNat % 4 ≠ 0 ∨ tb.toNat % 4 ≠ 0) →
    exec (.init rc tc rd td rb tb) s = .next (s.complete 0x01 .param Results.zero))
  ∧ (∀ (s : State) (dest : Word), s.eng.initDone = true →
    exec (.read dest 0) s = .next (s.complete 0x02 .param Results.zero))
  ∧ (∀ s : State, (s.params.maxNodes < s.cfg.count.toNat ∨ 512 < s.cfg.base.toNat + s.cfg.count.toNat) →
    exec .dispatch s = .next (s.complete 0x12 .param Results.zero))
  ∧ (∀ (s : State) (src len : Word) (tag : Half), s.eng.initDone = true →
    (len = 0 ∨ s.params.txUnit < len.toNat →
      exec (.write src len tag) s = .next (s.complete 0x03 .invalidSize Results.zero))
    ∧ (len ≠ 0 → len.toNat ≤ s.params.txUnit →
        (s.tx.head.toNat + s.tx.cap.toNat - s.tx.tail.toNat) % s.tx.cap.toNat = s.tx.cap.toNat - 1 →
        exec (.write src len tag) s = .next (s.complete 0x03 .busy Results.zero)))

/-- INIT completes with OK on good parameters and accessible descriptor arrays, leaves the registers as R203 says,
and writes no byte outside the two descriptor arrays (R202, R203). -/
def Obligations.InitCompletes : Prop :=
  ∀ (s : State) (rc tc rd td rb tb : Word),
    s.params.wf = true → 1 < rc.toNat → 1 < tc.toNat → rc.toNat ≤ s.params.ringMax → tc.toNat ≤ s.params.ringMax →
    rd.toNat % 4 = 0 → td.toNat % 4 = 0 → rb.toNat % 4 = 0 → tb.toNat % 4 = 0 →
    (∀ i, i < rc.toNat → AccessValid s.params (descAddr rd i) 8) →
    (∀ i, i < tc.toNat → AccessValid s.params (descAddr td i) 8) →
    ∃ m, exec (.init rc tc rd td rb tb) s = .next
        (State.complete
          { s with
            mem := m
            rx := ⟨rc.setWidth 16, 0, 0, rd, rb, rd, .idle⟩
            tx := ⟨tc.setWidth 16, 0, 0, 0, td, tb, td, false, List.replicate tc.toNat 0⟩
            net := ⟨true, true, Rsr.none, Tsr.none, IrqBits.none, ⟨false, true, true, true, true⟩⟩
            cb := ⟨false, false, 0⟩
            ev := ⟨[], false⟩
            eng := { s.eng with initDone := true } }
          0x01 .ok Results.zero)
      ∧ ∀ x, (∀ i, i < rc.toNat → Outside (descAddr rd i) 8 x) → (∀ i, i < tc.toNat → Outside (descAddr td i) 8 x) →
          readCell m x.toNat = s.byte x

/-- INIT on good parameters writes every descriptor as R205 says, when the two arrays can be accessed and lie apart:
RX descriptors hardware-owned with WRAP on the last, TX descriptors USED with WRAP on the last. -/
def Obligations.InitWritesTheDescriptors : Prop :=
  ∀ (s : State) (rc tc rd td rb tb : Word),
    s.params.wf = true → Memory.wf s.mem = true →
    1 < rc.toNat → 1 < tc.toNat → rc.toNat ≤ s.params.ringMax → tc.toNat ≤ s.params.ringMax →
    rd.toNat % 4 = 0 → td.toNat % 4 = 0 → rb.toNat % 4 = 0 → tb.toNat % 4 = 0 →
    (∀ i, i < rc.toNat → AccessValid s.params (descAddr rd i) 8) →
    (∀ i, i < tc.toNat → AccessValid s.params (descAddr td i) 8) →
    Apart rd (8 * rc.toNat) td (8 * tc.toNat) →
    ∃ t, exec (.init rc tc rd td rb tb) s = .next t ∧ t.cmd.status = .ok
    ∧ (∀ i, i < rc.toNat →
      readWord t.mem (descAddr rd i)
          = ((rb + BitVec.ofNat 32 (i * s.params.rxUnit)) &&& 0xFFFFFFFC) ||| (if i = rc.toNat - 1 then 0x2 else 0)
        ∧ readWord t.mem (descAddr rd i + 4) = 0)
    ∧ (∀ i, i < tc.toNat →
      readWord t.mem (descAddr td i) = tb + BitVec.ofNat 32 (i * s.params.txUnit)
        ∧ readWord t.mem (descAddr td i + 4) = 0x80000000 ||| (if i = tc.toNat - 1 then 0x40000000 else 0))

/-- INIT re-initialises the rings and nothing else, completed or faulted: the protocol configuration, DMXBUF,
DMXLEN, DISP_FAIL, CMD_OVR, ARG0..ARG5 and the outputs stay, and without a fault FAULT, FSRC, FOP and FAULTADDR do
(70_reset_and_hazards.md R464). -/
def Obligations.InitKeepsTheConfiguration : Prop :=
  ∀ (s t : State) (rc tc rd td rb tb : Word), exec (.init rc tc rd td rb tb) s = .next t →
    t.cfg = s.cfg ∧ t.dmx = s.dmx ∧ t.dispFail = s.dispFail ∧ t.out = s.out ∧ t.params = s.params ∧ t.env = s.env
      ∧ t.cmd.cmdOvr = s.cmd.cmdOvr ∧ t.cmd.args = s.cmd.args
      ∧ (s.eng.fault = false → t.eng.fault = false → t.eng = { s.eng with initDone := t.eng.initDone })
      ∧ ∀ x, (∀ i, i < rc.toNat → Outside (descAddr rd i) 8 x) → (∀ i, i < tc.toNat → Outside (descAddr td i) 8 x) →
          t.byte x = s.byte x

/-! ### READ -/

/-- READ at a hardware-owned descriptor before any EOF gives EMPTY (R211, R214). At RX_TAIL nothing changes. After
`o` orphans and `h` descriptors of a frame without its EOF, the orphans are released and RX_TAIL passes them; the frame
in progress keeps its descriptors, with RX_TAIL at its SOF; the bytes copied of it stay at `dest`; nothing else
changes. -/
def Obligations.ReadStopsAtHardwareOwnedDescriptor : Prop :=
  (∀ (s : State) (dest maxLen : Word),
    s.eng.initDone = true → maxLen ≠ 0 → s.rx.tail.toNat < s.rx.cap.toNat →
    AccessValid s.params (s.rx.desc s.rx.tail.toNat) 4 →
    (readWord s.mem (s.rx.desc s.rx.tail.toNat)).getLsbD 0 = false →
    exec (.read dest maxLen) s = .next (s.complete 0x02 .empty Results.zero))
  ∧ (∀ (s : State) (dest maxLen : Word) (o h c : Nat) (d w0 w1 : Nat → Word),
    s.params.wf = true → Memory.wf s.mem = true → s.eng.initDone = true → maxLen ≠ 0 →
    s.rx.tail.toNat < s.rx.cap.toNat → o + h < s.rx.cap.toNat →
    (∀ k, d k = s.rx.desc ((s.rx.tail.toNat + k) % s.rx.cap.toNat)) →
    (∀ k, w0 k = readWord s.mem (d k)) → (∀ k, w1 k = readWord s.mem (d k + 4)) →
    (∀ k, k ≤ o + h → AccessValid s.params (d k) 8) →
    (∀ k, k ≤ o + h → (w0 k).getLsbD 0 = decide (k < o + h)) →
    (∀ k, k < o + h → (w1 k).getLsbD 14 = decide (k = o)) →
    (∀ k, o ≤ k → k < o + h → (w1 k).getLsbD 15 = false) →
    c = min (s.params.rxUnit * h) maxLen.toNat → AccessValid s.params dest c →
    (∀ k, o ≤ k → k < o + h → AccessValid s.params (w0 k &&& 0xFFFFFFFC) s.params.rxUnit) →
    (∀ k, o ≤ k → k < o + h → Apart dest c (w0 k &&& 0xFFFFFFFC) s.params.rxUnit) →
    (∀ k, k ≤ o + h → Apart dest c (d k) 8) →
    (∀ k j, o ≤ k → k < o + h → j < o → Apart (w0 k &&& 0xFFFFFFFC) s.params.rxUnit (d j) 4) →
    ∃ m, exec (.read dest maxLen) s = .next
        (State.complete
          { s with
            mem := m
            rx := { s.rx with tail := BitVec.ofNat 16 ((s.rx.tail.toNat + o) % s.rx.cap.toNat) } }
          0x02 .empty ⟨0, 0, BitVec.ofNat 32 o, 0⟩)
      ∧ (∀ k j, k < h → j < s.params.rxUnit → s.params.rxUnit * k + j < c →
          readCell m (dest + BitVec.ofNat 32 (s.params.rxUnit * k + j)).toNat
            = s.byte ((w0 (o + k) &&& 0xFFFFFFFC) + BitVec.ofNat 32 j))
      ∧ (∀ k, k < o → readWord m (d k) = w0 k &&& 0xFFFFFFFE)
      ∧ ∀ x, Outside dest c x → (∀ k, k < o → Outside (d k) 4 x) → readCell m x.toNat = s.byte x)

/-- READ of a frame that one descriptor holds completes with OK: the frame's bytes are copied to `dest`, the
descriptor is released, RX_TAIL advances, and nothing else changes (R206, R211, R213). -/
def Obligations.ReadCompletesOneDescriptorFrame : Prop :=
  ∀ (s : State) (dest maxLen w0 w1 : Word) (len : Nat),
    Memory.wf s.mem = true → s.eng.initDone = true → s.rx.tail.toNat < s.rx.cap.toNat →
    AccessValid s.params (s.rx.desc s.rx.tail.toNat) 8 →
    w0 = readWord s.mem (s.rx.desc s.rx.tail.toNat) → w1 = readWord s.mem (s.rx.desc s.rx.tail.toNat + 4) →
    w0.getLsbD 0 = true → w1.getLsbD 14 = true → w1.getLsbD 15 = true → len = w1.toNat % 2 ^ 13 →
    len ≤ s.params.rxUnit → len ≤ maxLen.toNat → maxLen ≠ 0 →
    AccessValid s.params dest len → AccessValid s.params (w0 &&& 0xFFFFFFFC) len →
    Apart dest len (w0 &&& 0xFFFFFFFC) len → Apart dest len (s.rx.desc s.rx.tail.toNat) 8 →
    ∃ m, exec (.read dest maxLen) s = .next
        (State.complete
          { s with
            mem := m
            rx := { s.rx with tail := BitVec.ofNat 16 ((s.rx.tail.toNat + 1) % s.rx.cap.toNat) } }
          0x02 .ok ⟨BitVec.ofNat 32 len, BitVec.ofNat 32 len, 1, 0⟩)
      ∧ (∀ j, j < len → readCell m (dest + BitVec.ofNat 32 j).toNat
            = s.byte ((w0 &&& 0xFFFFFFFC) + BitVec.ofNat 32 j))
      ∧ readWord m (s.rx.desc s.rx.tail.toNat) = w0 &&& 0xFFFFFFFE
      ∧ ∀ x, Outside dest len x → Outside (s.rx.desc s.rx.tail.toNat) 4 x → readCell m x.toNat = s.byte x

/-- READ of a frame that `n` descriptors hold, after `o` orphans and `h` descriptors of a stale frame that never got
its EOF (`o` and `h` may be 0): `used` bytes of the frame as R212 counts them, at most `max_len`, come to `dest` byte
for byte from the start, for the new SOF wins over the stale one; the status is OK if they are as many as LEN says,
else TOO_SMALL; all `o + h + n` descriptors are released, RX_TAIL advances past them, and nothing else changes, the
stale frame's bytes beyond the new copy staying at `dest` (R206, R211 to R213, R216). As RXDMA spreads a frame (R265)
`used` is LEN. Descriptor `k` of the scan is ring index `(RX_TAIL + k) mod N_RX`, across the wrap too. -/
def Obligations.ReadReassemblesFrameByteForByte : Prop :=
  ∀ (s : State) (dest maxLen : Word) (o h n len used copied touched : Nat) (d w0 w1 : Nat → Word),
    s.params.wf = true → Memory.wf s.mem = true → s.eng.initDone = true → maxLen ≠ 0 →
    s.rx.tail.toNat < s.rx.cap.toNat → 1 ≤ n → o + h + n ≤ s.rx.cap.toNat →
    (∀ k, d k = s.rx.desc ((s.rx.tail.toNat + k) % s.rx.cap.toNat)) →
    (∀ k, w0 k = readWord s.mem (d k)) → (∀ k, w1 k = readWord s.mem (d k + 4)) →
    (∀ k, k < o + h + n → AccessValid s.params (d k) 8) →
    (∀ k, k < o + h + n → (w0 k).getLsbD 0 = true) →
    (∀ k, k < o + h + n → (w1 k).getLsbD 14 = (decide (0 < h ∧ k = o) || decide (k = o + h))) →
    (∀ k, o ≤ k → k < o + h + n → (w1 k).getLsbD 15 = decide (k = o + h + n - 1)) →
    len = (w1 (o + h + n - 1)).toNat % 2 ^ 13 →
    used = s.params.rxUnit * (n - 1)
      + (if len ≤ s.params.rxUnit * (n - 1) then 0 else min (len - s.params.rxUnit * (n - 1)) s.params.rxUnit) →
    copied = min used maxLen.toNat → touched = max copied (min (s.params.rxUnit * h) maxLen.toNat) →
    AccessValid s.params dest touched →
    (∀ k, o ≤ k → k < o + h → AccessValid s.params (w0 k &&& 0xFFFFFFFC) s.params.rxUnit) →
    (∀ k j, k < n → j < s.params.rxUnit → s.params.rxUnit * k + j < copied →
      memValid s.params ((w0 (o + h + k) &&& 0xFFFFFFFC) + BitVec.ofNat 32 j) = true) →
    (∀ k, o ≤ k → k < o + h + n → Apart dest touched (w0 k &&& 0xFFFFFFFC) s.params.rxUnit) →
    (∀ k, k < o + h + n → Apart dest touched (d k) 8) →
    (∀ k j, o ≤ k → k < o + h + n → j < o + h → Apart (w0 k &&& 0xFFFFFFFC) s.params.rxUnit (d j) 4) →
    ∃ m, exec (.read dest maxLen) s = .next
        (State.complete
          { s with
            mem := m
            rx := { s.rx with tail := BitVec.ofNat 16 ((s.rx.tail.toNat + (o + h + n)) % s.rx.cap.toNat) } }
          0x02 (if copied = len then .ok else .tooSmall)
          ⟨BitVec.ofNat 32 copied, BitVec.ofNat 32 len, BitVec.ofNat 32 (o + h + n), 0⟩)
      ∧ (∀ k j, k < n → j < s.params.rxUnit → s.params.rxUnit * k + j < copied →
          readCell m (dest + BitVec.ofNat 32 (s.params.rxUnit * k + j)).toNat
            = s.byte ((w0 (o + h + k) &&& 0xFFFFFFFC) + BitVec.ofNat 32 j))
      ∧ (∀ k j, k < h → j < s.params.rxUnit → copied ≤ s.params.rxUnit * k + j →
          s.params.rxUnit * k + j < touched →
          readCell m (dest + BitVec.ofNat 32 (s.params.rxUnit * k + j)).toNat
            = s.byte ((w0 (o + k) &&& 0xFFFFFFFC) + BitVec.ofNat 32 j))
      ∧ (∀ k, k < o + h + n → readWord m (d k) = w0 k &&& 0xFFFFFFFE)
      ∧ ∀ x, Outside dest touched x → (∀ k, k < o + h + n → Outside (d k) 4 x) → readCell m x.toNat = s.byte x

/-- Starvation guard: when every descriptor is software-owned and none carries EOF, READ gives RX_ERROR after one
full traversal, every descriptor is released, and RX_TAIL ends at its starting value (R211, R215). -/
def Obligations.ReadTraversalErrorReleasesEveryDescriptor : Prop :=
  ∀ (s : State) (dest maxLen : Word),
    s.params.wf = true → Memory.wf s.mem = true → s.eng.initDone = true → s.rx.tail.toNat < s.rx.cap.toNat →
    maxLen ≠ 0 → RxArrayValid s → AccessValid s.params dest maxLen.toNat →
    (∀ i, i < s.rx.cap.toNat → (readWord s.mem (s.rx.desc i)).getLsbD 0 = true) →
    (∀ i, i < s.rx.cap.toNat → (readWord s.mem (s.rx.desc i + 4)).getLsbD 15 = false) →
    (∀ i, i < s.rx.cap.toNat →
      AccessValid s.params (readWord s.mem (s.rx.desc i) &&& 0xFFFFFFFC) s.params.rxUnit) →
    (∀ i, i < s.rx.cap.toNat → Apart dest maxLen.toNat (s.rx.desc i) 8) →
    ∃ m, exec (.read dest maxLen) s = .next
        (State.complete { s with mem := m } 0x02 .rxError ⟨0, 0, s.rx.cap.setWidth 32, 0⟩)
      ∧ (∀ i, i < s.rx.cap.toNat → readWord m (s.rx.desc i) = readWord s.mem (s.rx.desc i) &&& 0xFFFFFFFE)
      ∧ ∀ x, Outside dest maxLen.toNat x → (∀ i, i < s.rx.cap.toNat → Outside (s.rx.desc i) 4 x) →
          readCell m x.toNat = s.byte x

/-- What READ leaves alone, whatever it finds and however it ends: every register but RX_TAIL, the command port's
completion fields and the fault record; and every byte outside the `max_len` bytes at `dest` and outside word 0 of
the RX descriptors (R210, R211, R216). -/
def Obligations.ReadFrame : Prop :=
  ∀ (s t : State) (dest maxLen : Word), exec (.read dest maxLen) s = .next t →
    t.params = s.params ∧ t.tx = s.tx ∧ t.net = s.net ∧ t.cb = s.cb ∧ t.ev = s.ev ∧ t.cfg = s.cfg ∧ t.dmx = s.dmx
      ∧ t.dispFail = s.dispFail ∧ t.out = s.out ∧ t.env = s.env ∧ t.rx = { s.rx with tail := t.rx.tail }
      ∧ t.cmd.args = s.cmd.args ∧ t.cmd.cmdOvr = s.cmd.cmdOvr ∧ t.eng.initDone = s.eng.initDone
      ∧ (s.rx.tail.toNat < s.rx.cap.toNat →
          ∀ x, Outside dest maxLen.toNat x → (∀ i, i < s.rx.cap.toNat → Outside (s.rx.desc i) 4 x) →
            t.byte x = s.byte x)

/-! ### WRITE -/

/-- WRITE completes with OK when INIT was done, the length is in `1 .. TX_UNIT`, a descriptor is free and every
byte it touches can be accessed: the frame is copied to the head descriptor's buffer, word 1 is LEN, LAST, USED = 0
and WRAP on the last descriptor, the tag is recorded, TX_HEAD advances, and TXGO is set if TXEN is (R220 to R222). -/
def Obligations.WriteCompletes : Prop :=
  ∀ (s : State) (src len : Word) (tag : Half) (buf : Word),
    s.params.wf = true → Memory.wf s.mem = true → s.eng.initDone = true →
    len ≠ 0 → len.toNat ≤ s.params.txUnit →
    s.tx.head.toNat < s.tx.cap.toNat →
    (s.tx.head.toNat + s.tx.cap.toNat - s.tx.tail.toNat) % s.tx.cap.toNat ≠ s.tx.cap.toNat - 1 →
    AccessValid s.params (s.tx.desc s.tx.head.toNat) 8 → buf = readWord s.mem (s.tx.desc s.tx.head.toNat) →
    AccessValid s.params src len.toNat → AccessValid s.params buf len.toNat →
    Apart buf len.toNat src len.toNat → Apart buf len.toNat (s.tx.desc s.tx.head.toNat) 8 →
    ∃ m, exec (.write src len tag) s = .next
        (State.complete
          { s with
            mem := m
            tx := { s.tx with
              head := BitVec.ofNat 16 ((s.tx.head.toNat + 1) % s.tx.cap.toNat)
              tags := s.tx.tags.set s.tx.head.toNat tag
              go := s.tx.go || s.net.txen } }
          0x03 .ok ⟨s.tx.head.setWidth 32, 0, 0, 0⟩)
      ∧ (∀ j, j < len.toNat → readCell m (buf + BitVec.ofNat 32 j).toNat = s.byte (src + BitVec.ofNat 32 j))
      ∧ readWord m (s.tx.desc s.tx.head.toNat + 4)
          = len ||| 0x8000 ||| (if s.tx.head.toNat = s.tx.cap.toNat - 1 then 0x40000000 else 0)
      ∧ ∀ x, Outside buf len.toNat x → Outside (s.tx.desc s.tx.head.toNat + 4) 4 x → readCell m x.toNat = s.byte x

/-- What WRITE leaves alone, however it ends: every register but TX_HEAD, TAG, TXGO, the completion fields and the
fault record; and every byte outside the head descriptor's buffer and its word 1 (R220, R221). -/
def Obligations.WriteFrame : Prop :=
  ∀ (s t : State) (src len : Word) (tag : Half), exec (.write src len tag) s = .next t →
    t.params = s.params ∧ t.rx = s.rx ∧ t.net = s.net ∧ t.cb = s.cb ∧ t.ev = s.ev ∧ t.cfg = s.cfg ∧ t.dmx = s.dmx
      ∧ t.dispFail = s.dispFail ∧ t.out = s.out ∧ t.env = s.env
      ∧ t.tx = { s.tx with head := t.tx.head, tags := t.tx.tags, go := t.tx.go }
      ∧ t.cmd.args = s.cmd.args ∧ t.cmd.cmdOvr = s.cmd.cmdOvr ∧ t.eng.initDone = s.eng.initDone
      ∧ ∀ x, Outside (readWord s.mem (s.tx.desc s.tx.head.toNat)) len.toNat x →
          Outside (s.tx.desc s.tx.head.toNat + 4) 4 x → t.byte x = s.byte x

/-! ### Callback registration -/

/-- Callback registration after INIT. SET_RX_CB sets RX_CB_EN and IMR.RCOMP to bit 0 of ARG0, gives OK, and changes
nothing else (R230). SET_TX_WAKEUP: a threshold in `1 .. N_TX - 1` arms the wakeup and emits TX_WAKEUP at once if that
many descriptors are free; any other threshold gives PARAM; disabling ignores ARG1 (R231, R232). -/
def Obligations.CallbackRegistrationsTakeEffect : Prop :=
  (∀ (s : State) (e : Bool), s.eng.initDone = true →
    exec (.setRxCb e) s = .next
      (State.complete
        { s with cb := { s.cb with rxCbEn := e }, net := { s.net with imr := { s.net.imr with rcomp := e } } }
        0x04 .ok Results.zero))
  ∧ (∀ (s : State) (thr : Word), s.eng.initDone = true →
    (1 ≤ thr.toNat → thr.toNat ≤ s.tx.cap.toNat - 1 →
      exec (.setTxWakeup true thr) s = .next
        (State.complete
          { s with
            cb := { s.cb with txwEn := true, txwThr := thr.setWidth 16 }
            ev := s.ev.pushAll s.params.evqDepth
              (if thr.toNat ≤ s.tx.free then [(0x3 : Word) ||| (BitVec.ofNat 32 s.tx.free <<< 16)] else []) }
          0x05 .ok Results.zero))
    ∧ (thr = 0 ∨ s.tx.cap.toNat - 1 < thr.toNat →
        exec (.setTxWakeup true thr) s = .next (s.complete 0x05 .param Results.zero))
    ∧ exec (.setTxWakeup false thr) s = .next
        (State.complete { s with cb := { s.cb with txwEn := false, txwThr := 0 } } 0x05 .ok Results.zero))

/-! ### SERVICE -/

/-- SERVICE with no error captured: the status bits are cleared; RX_READY is emitted if a receive-complete
condition was captured and the callback is enabled; each of the `n` sent frames at the tail is reported in ring
order and TX_TAIL advances by `n`; TX_WAKEUP is emitted if the threshold is newly reached; nothing else changes. As
a command it returns the captured bits and the number of events; on its own it writes no RES and no CMDSTAT (R240 to
R242, R244, R246, R248). -/
def Obligations.ServiceReportsSentFrames : Prop :=
  ∀ (s u : State) (n : Nat) (events : List Word),
    s.eng.initDone = true → s.tx.head.toNat < s.tx.cap.toNat → s.tx.tail.toNat < s.tx.cap.toNat → TxArrayValid s →
    (s.net.isr.rxubr || s.net.isr.rovr || s.net.rsr.bna || s.net.rsr.rxovr) = false →
    (s.net.isr.rlex || s.net.tsr.rle) = false →
    SentRun s n → events = serviceEvents s n →
    u = { s with
      tx := { s.tx with tail := BitVec.ofNat 16 ((s.tx.tail.toNat + n) % s.tx.cap.toNat) }
      net := { s.net with rsr := Rsr.none, tsr := Tsr.none, isr := IrqBits.none }
      ev := s.ev.pushAll s.params.evqDepth events } →
    exec .service s = .next
        (u.complete 0x06 .ok ⟨s.net.isr.word, s.net.rsr.word, s.net.tsr.word, BitVec.ofNat 32 events.length⟩)
      ∧ autonomousService s = .next u

/-- SERVICE on a receive error alone (buffer not available or overrun, R243) resets the receive ring (R245): every
descriptor is rewritten hardware-owned from the recorded bases, RX_TAIL and RXPTR are 0, RBQB is RXDBASE, RXDMA is
idle, RXEN is 1, and no other byte of memory changes. RX_READY is emitted all the same (R246), and the `n` frames that
the completion walk then finds sent are reported (R244, R248): with the two arrays apart, those sent before. As a
command SERVICE returns the captured bits and the number of events; on its own it writes no RES and no CMDSTAT
(R240). -/
def Obligations.ReceiveErrorResetsReceiveRing : Prop :=
  ∀ s : State,
    s.params.wf = true → Memory.wf s.mem = true → s.eng.initDone = true →
    s.tx.head.toNat < s.tx.cap.toNat → s.tx.tail.toNat < s.tx.cap.toNat → RxArrayValid s → TxArrayValid s →
    (s.net.isr.rxubr || s.net.isr.rovr || s.net.rsr.bna || s.net.rsr.rxovr) = true →
    (s.net.isr.rlex || s.net.tsr.rle) = false →
    ∃ (m : List Host.Cell) (n : Nat) (u : State),
      u = { s with
        mem := m
        rx := { s.rx with tail := 0, ptr := 0, qbase := s.rx.dbase, dma := .idle }
        tx := { s.tx with tail := BitVec.ofNat 16 ((s.tx.tail.toNat + n) % s.tx.cap.toNat) }
        net := { s.net with rxen := true, rsr := Rsr.none, tsr := Tsr.none, isr := IrqBits.none }
        ev := s.ev.pushAll s.params.evqDepth (serviceEvents s n) }
      ∧ exec .service s = .next
        (u.complete 0x06 .ok
          ⟨s.net.isr.word, s.net.rsr.word, s.net.tsr.word, BitVec.ofNat 32 (serviceEvents s n).length⟩)
      ∧ autonomousService s = .next u
      ∧ SentRun (s.withMem m) n ∧ (ArraysApart s → SentRun s n)
      ∧ (∀ i, i < s.rx.cap.toNat →
          readWord m (s.rx.desc i)
              = ((s.rx.bbase + BitVec.ofNat 32 (i * s.params.rxUnit)) &&& 0xFFFFFFFC)
                ||| (if i = s.rx.cap.toNat - 1 then 0x2 else 0)
            ∧ readWord m (s.rx.desc i + 4) = 0)
      ∧ ∀ x, (∀ i, i < s.rx.cap.toNat → Outside (s.rx.desc i) 8 x) → readCell m x.toNat = s.byte x

/-- SERVICE on a transmit error, with a receive error or without: a captured receive error resets the receive ring
first (R245, R249); then the sent frames at the tail are reported OK, every other pending frame gets exactly one
TX_DONE with ABORTED, in ring order; then the transmit ring is reset: every descriptor USED, TAG all 0, TX_HEAD,
TX_TAIL and TXPTR 0, TBQB = TXDBASE, TXGO 0, TXEN 1; RX_READY comes before and TX_WAKEUP after as at every SERVICE
(R241, R244, R246 to R248). As a command SERVICE returns the captured bits and the number of events; on its own it
writes no RES and no CMDSTAT (R240). -/
def Obligations.TransmitErrorAbortsPendingFrames : Prop :=
  ∀ (s : State) (rxErr : Bool),
    s.params.wf = true → Memory.wf s.mem = true → s.eng.initDone = true →
    s.tx.head.toNat < s.tx.cap.toNat → s.tx.tail.toNat < s.tx.cap.toNat → s.tx.tags.length = s.tx.cap.toNat →
    rxErr = (s.net.isr.rxubr || s.net.isr.rovr || s.net.rsr.bna || s.net.rsr.rxovr) →
    (rxErr = true → RxArrayValid s) → TxArrayValid s → (s.net.isr.rlex || s.net.tsr.rle) = true →
    ∃ (m1 m : List Host.Cell) (n : Nat) (u : State),
      u = { s with
        mem := m
        rx := if rxErr then { s.rx with tail := 0, ptr := 0, qbase := s.rx.dbase, dma := .idle } else s.rx
        tx := { s.tx with
          head := 0, tail := 0, ptr := 0, qbase := s.tx.dbase, go := false
          tags := List.replicate s.tx.cap.toNat 0 }
        net := { s.net with
          rxen := s.net.rxen || rxErr, txen := true, rsr := Rsr.none, tsr := Tsr.none, isr := IrqBits.none }
        ev := s.ev.pushAll s.params.evqDepth (serviceEvents s n) }
      ∧ exec .service s = .next
        (u.complete 0x06 .ok
          ⟨s.net.isr.word, s.net.rsr.word, s.net.tsr.word, BitVec.ofNat 32 (serviceEvents s n).length⟩)
      ∧ autonomousService s = .next u
      ∧ SentRun (s.withMem m1) n ∧ (rxErr = false ∨ ArraysApart s → SentRun s n)
      ∧ (rxErr = false → m1 = s.mem)
      ∧ (rxErr = true →
          (∀ i, i < s.rx.cap.toNat →
            readWord m1 (s.rx.desc i)
                = ((s.rx.bbase + BitVec.ofNat 32 (i * s.params.rxUnit)) &&& 0xFFFFFFFC)
                  ||| (if i = s.rx.cap.toNat - 1 then 0x2 else 0)
              ∧ readWord m1 (s.rx.desc i + 4) = 0)
          ∧ ∀ x, (∀ i, i < s.rx.cap.toNat → Outside (s.rx.desc i) 8 x) → readCell m1 x.toNat = s.byte x)
      ∧ (∀ i, i < s.tx.cap.toNat →
          readWord m (s.tx.desc i) = s.tx.bbase + BitVec.ofNat 32 (i * s.params.txUnit)
            ∧ readWord m (s.tx.desc i + 4) = 0x80000000 ||| (if i = s.tx.cap.toNat - 1 then 0x40000000 else 0))
      ∧ ∀ x, (∀ i, i < s.tx.cap.toNat → Outside (s.tx.desc i) 8 x) → readCell m x.toNat = readCell m1 x.toNat

/-- What SERVICE does and leaves alone, as a command or on its own and however it ends. After INIT, ISR, RSR and the
captured TSR bits are clear and IRQ_PENDING is false (R241, R242, 60_exceptions.md R435). IMR, the configuration,
the canonical buffer, DISP_FAIL, the outputs, CBSTAT, ARG0..ARG5, CMD_OVR, the capacities and the recorded bases
stay, and so does every byte of memory outside the two descriptor arrays (R245, R247). -/
def Obligations.ServiceFrame : Prop :=
  ∀ s t : State, (exec .service s = .next t ∨ autonomousService s = .next t) →
    t.params = s.params ∧ t.cb = s.cb ∧ t.cfg = s.cfg ∧ t.dmx = s.dmx ∧ t.dispFail = s.dispFail ∧ t.out = s.out
      ∧ t.env = s.env ∧ t.cmd.args = s.cmd.args ∧ t.cmd.cmdOvr = s.cmd.cmdOvr ∧ t.eng.initDone = s.eng.initDone
      ∧ t.rx.cap = s.rx.cap ∧ t.rx.dbase = s.rx.dbase ∧ t.rx.bbase = s.rx.bbase
      ∧ t.tx.cap = s.tx.cap ∧ t.tx.dbase = s.tx.dbase ∧ t.tx.bbase = s.tx.bbase ∧ t.net.imr = s.net.imr
      ∧ (s.eng.initDone = true → t.net.isr = IrqBits.none ∧ t.net.rsr = Rsr.none ∧ t.net.tsr = Tsr.none
          ∧ t.irqPending = false)
      ∧ ∀ x, (∀ i, i < s.rx.cap.toNat → Outside (s.rx.desc i) 8 x) →
          (∀ i, i < s.tx.cap.toNat → Outside (s.tx.desc i) 8 x) → t.byte x = s.byte x

/-! ### CLASSIFY -/

/-- CLASSIFY completes with OK whenever the header bytes it reads are accessible, and its four results are the
EthernetKind of R302, the IpProto of R303, the opcode word of R305 and the ArtNetKind of R306; it changes nothing
else (R300 to R311). -/
def Obligations.ClassifyGivesTheThreeLevels : Prop :=
  ∀ (s : State) (fr len : Word), HeaderValid s fr len.toNat →
    exec (.classify fr len) s = .next (s.complete 0x10 .ok
      ⟨ethernetCode (headerEth (s.frame fr) len.toNat), ipCode (headerIp (s.frame fr) len.toNat),
        opcodeWord (headerOpcode (s.frame fr) len.toNat),
        artNetCode (artNetKind (headerOpcode (s.frame fr) len.toNat))⟩)

/-- For every frame of at least 52 bytes whose bytes `f[42..49]` are not exactly the identifier, CLASSIFY gives
RES2 = 0 and RES3 = 0, whatever `f[50..51]` hold (42_frame_classifier.md R312). -/
def Obligations.WrongIdentifierGivesNoOpcode : Prop :=
  ∀ (s t : State) (fr len : Word), s.eng.fault = false → 52 ≤ len.toNat →
    (s.frame fr 42, s.frame fr 43, s.frame fr 44, s.frame fr 45, s.frame fr 46, s.frame fr 47, s.frame fr 48,
        s.frame fr 49) ≠ (0x41, 0x72, 0x74, 0x2D, 0x4E, 0x65, 0x74, 0x00) →
    exec (.classify fr len) s = .next t → t.eng.fault = false → t.cmd.res.r2 = 0 ∧ t.cmd.res.r3 = 0

/-! ### DECODE and the Art-Net opcodes -/

/-- DECODE's silent discards: a frame that is not IPv4, not UDP or has no UDP payload is NOT_ARTNET; one without the
identifier and opcode is MALFORMED; a valid identifier with another opcode is OPCODE_IGNORED. Each gives OK, emits
nothing and changes nothing but the completion writes (43_artnet_decoder.md R342, R343, R354). -/
def Obligations.DecodeDiscardsSilently : Prop :=
  ∀ (s : State) (fr len : Word), HeaderValid s fr len.toNat →
    (headerIp (s.frame fr) len.toNat ≠ .udp ∨ len.toNat ≤ 42 →
      exec (.decode fr len) s = .next (s.complete 0x11 .ok ⟨0, 0, 0, 0⟩))
    ∧ (headerIp (s.frame fr) len.toNat = .udp → 42 < len.toNat → headerOpcode (s.frame fr) len.toNat = none →
        exec (.decode fr len) s = .next (s.complete 0x11 .ok ⟨1, 0, 0, 0⟩))
    ∧ (∀ op, headerOpcode (s.frame fr) len.toNat = some op → op ≠ 0x2000 → op ≠ 0x5000 → op ≠ 0x6000 →
        exec (.decode fr len) s = .next (s.complete 0x11 .ok ⟨6, 0, 0, 4⟩))

/-- A DMX frame for this node's universe: `n = min(L, 512)` channel bytes, `L` big-endian, are copied to
DMXBUF[0..n-1], the other channels keep their values, DMXLEN becomes `n`, and nothing else changes (R342, R344 to
R347). It is so for DECODE on a frame whose opcode is OpDmx; and for OpDmx as an instruction, which by the model's
choice (log entry 13) runs on the frame the latched arguments name and completes as DECODE. -/
def Obligations.DmxFrameFillsTheBuffer : Prop :=
  ∀ (s t : State) (fr len : Word) (n : Nat),
    s.dmx.buf.length = 512 → 60 ≤ len.toNat →
    (∀ k, k ∈ [56, 58, 59] → memValid s.params (fr + BitVec.ofNat 32 k) = true) →
    s.frame fr 56 = s.cfg.subuni →
    n = min ((s.frame fr 58).toNat * 256 + (s.frame fr 59).toNat) 512 → 60 + n ≤ len.toNat →
    AccessValid s.params (fr + 60) n →
    t = State.complete
      { s with dmx := ⟨readBytes s.mem (fr + 60) n ++ s.dmx.buf.drop n, BitVec.ofNat 10 n⟩ }
      0x11 .ok ⟨2, BitVec.ofNat 32 n, 0, 1⟩ →
    (s.latched.a0 = fr → s.latched.a1 = len → exec .opDmx s = .next t)
    ∧ (HeaderValid s fr len.toNat → headerOpcode (s.frame fr) len.toNat = some 0x5000 → exec (.decode fr len) s = .next t)

/-- A DMX frame that is too short for its header, or for the channel bytes it declares, is MALFORMED; one for
another universe is DMX_OTHER_UNIVERSE. Neither changes anything but the completion writes (R344, R347). That OpDmx
as an instruction runs on the frame the latched arguments name, also with no DECODE pending, and completes as DECODE
with LASTOP 0x11, is the model's choice (log entry 13). -/
def Obligations.DmxFrameDiscarded : Prop :=
  ∀ (s : State) (fr len : Word), s.latched.a0 = fr → s.latched.a1 = len →
    (len.toNat < 60 → exec .opDmx s = .next (s.complete 0x11 .ok ⟨1, 0, 0, 1⟩))
    ∧ (60 ≤ len.toNat → memValid s.params (fr + 56) = true → s.frame fr 56 ≠ s.cfg.subuni →
        exec .opDmx s = .next (s.complete 0x11 .ok ⟨3, 0, 0, 1⟩))
    ∧ (60 ≤ len.toNat → memValid s.params (fr + 56) = true → memValid s.params (fr + 58) = true →
        memValid s.params (fr + 59) = true → s.frame fr 56 = s.cfg.subuni →
        len.toNat < 60 + min ((s.frame fr 58).toNat * 256 + (s.frame fr 59).toNat) 512 →
        exec .opDmx s = .next (s.complete 0x11 .ok ⟨1, 0, 0, 1⟩))

/-- A Poll of at least 55 bytes emits one reply request, unicast iff a flag that UNICAST_MASK selects is set, and
reports it in RES2; a shorter one is MALFORMED and emits nothing (R350, R353). An Address request emits one unicast
reply request, whatever the frame holds (R351). Nothing else changes (R354). That OpPoll and OpAddress as instructions
run on the frame the latched arguments name, also with no DECODE pending, and complete as DECODE with LASTOP 0x11, is
the model's choice (log entry 13). -/
def Obligations.PollAndAddressRequestReplies : Prop :=
  (∀ (s : State) (fr len : Word), s.latched.a0 = fr → s.latched.a1 = len →
    (55 ≤ len.toNat → memValid s.params (fr + 54) = true →
      exec .opPoll s = .next
        (State.complete
          (s.withEv (s.ev.push s.params.evqDepth (if s.frame fr 54 &&& s.cfg.unicastMask ≠ 0 then 0x14 else 0x04)))
          0x11 .ok ⟨4, 0, if s.frame fr 54 &&& s.cfg.unicastMask ≠ 0 then 1 else 0, 2⟩))
    ∧ (len.toNat < 55 → exec .opPoll s = .next (s.complete 0x11 .ok ⟨1, 0, 0, 2⟩)))
  ∧ (∀ s : State, exec .opAddress s = .next
    (State.complete (s.withEv (s.ev.push s.params.evqDepth 0x34)) 0x11 .ok ⟨5, 0, 1, 3⟩))

/-- What CLASSIFY, DECODE and the three opcodes leave alone, however they end: all of memory, both rings, the
network registers, CBSTAT, the configuration, DISP_FAIL and the outputs. CLASSIFY, OpPoll and OpAddress leave the
canonical buffer, and CLASSIFY and OpDmx the event queue (R300, R340, R354). -/
def Obligations.FrameCommandsFrame : Prop :=
  ∀ (i : Instr) (s t : State),
    ((∃ fr len, i = .classify fr len) ∨ (∃ fr len, i = .decode fr len) ∨ i = .opPoll ∨ i = .opDmx ∨ i = .opAddress) →
    exec i s = .next t →
    t.mem = s.mem ∧ t.params = s.params ∧ t.rx = s.rx ∧ t.tx = s.tx ∧ t.net = s.net ∧ t.cb = s.cb ∧ t.cfg = s.cfg
      ∧ t.dispFail = s.dispFail ∧ t.out = s.out ∧ t.env = s.env ∧ t.cmd.args = s.cmd.args
      ∧ t.cmd.cmdOvr = s.cmd.cmdOvr ∧ t.eng.initDone = s.eng.initDone
      ∧ ((∃ fr len, i = .classify fr len) ∨ i = .opPoll ∨ i = .opAddress → t.dmx = s.dmx)
      ∧ ((∃ fr len, i = .classify fr len) ∨ i = .opDmx → t.ev = s.ev)

/-! ### DISPATCH -/

/-- The range table of R383, at every value: which record a channel value gives, with the record word of R165, the
target byte of FWD by the band (R385), and the rescaled value of R384, which fits in 8 bits. -/
def Obligations.RangeTableMapsEveryValue : Prop :=
  ∀ (fwd : Word) (i v : Nat),
    (v ≤ 10 → mapValue fwd i v = some (recordWord 0 i 0))
    ∧ (11 ≤ v → v ≤ 20 → mapValue fwd i v = some (recordWord 1 i 0))
    ∧ (∀ k, k < 4 → 21 + 10 * k ≤ v → v ≤ 30 + 10 * k →
        mapValue fwd i v = some (recordWord 2 i ((fwd >>> (8 * k)).toNat % 256)))
    ∧ (61 ≤ v → v ≤ 100 → mapValue fwd i v = none)
    ∧ (101 ≤ v → v ≤ 230 → mapValue fwd i v = some (recordWord 3 i ((v - 101) * 255 / 129))
        ∧ (v - 101) * 255 / 129 ≤ 255)
    ∧ (231 ≤ v → v ≤ 255 → mapValue fwd i v = some (recordWord 4 i 0))

/-- DISPATCH with COUNT at most MAX_NODES and BASE + COUNT at most 512 completes with OK: it sends the records of
the nodes that have one, in node order, each to the pipe of its node; RADIO answers each (41_dma_agents.md R280); RES0
counts the records, RES1 and DISP_FAIL the failures; and nothing else changes (R380 to R388). That the answers come
first from `State.env.radioAcks`, which is then dropped, and that `radioDraws` counts the rest, is the model's form of
R280's free input (log entry 6). -/
def Obligations.DispatchSendsTheRecords : Prop :=
  ∀ (s : State) (sends : List (Word × Word)),
    s.cfg.count.toNat ≤ s.params.maxNodes → s.cfg.base.toNat + s.cfg.count.toNat ≤ 512 →
    sends = (List.range s.cfg.count.toNat).filterMap
      (fun i => (mapValue (s.cfg.fwd.getD i 0) i (s.dmx.buf.getD (s.cfg.base.toNat + i) 0).toNat).map
        fun record => (s.cfg.pipe.getD i 0, record)) →
    ∃ (acks : List Bool) (e : Env),
      acks.length = sends.length
      ∧ (∀ k, k < sends.length → k < s.env.radioAcks.length → acks[k]? = s.env.radioAcks[k]?)
      ∧ e.inputs = s.env.inputs ∧ e.txOutcomes = s.env.txOutcomes ∧ e.txDraws = s.env.txDraws
      ∧ e.turns = s.env.turns ∧ e.hostData = s.env.hostData ∧ e.radioAcks = s.env.radioAcks.drop sends.length
      ∧ e.radioDraws = s.env.radioDraws + (sends.length - s.env.radioAcks.length)
      ∧ exec .dispatch s = .next
        (State.complete
          { s with
            out := { s.out with
              radioOut := s.out.radioOut ++ List.zipWith (fun p a => ⟨p.1, p.2, a⟩) sends acks }
            dispFail := s.dispFail + BitVec.ofNat 32 (acks.count false)
            env := e }
          0x12 .ok ⟨BitVec.ofNat 32 sends.length, BitVec.ofNat 32 (acks.count false), 0, 0⟩)

/-! ### The wire and the DMA agents -/

/-- Frame arrival: no change after a fault or while RXEN is 0; an overrun while RXDMA is busy, which sets RXOVR and
ROVR and nothing else, the frame in progress among it; else RXDMA receives it (41_dma_agents.md R260, R261). -/
def Obligations.FrameArrival : Prop :=
  ∀ (s : State) (frame : List Byte) (rest : List Input),
    s.params.wf = true → s.env.inputs = .arrive frame :: rest → 1 ≤ frame.length → frame.length ≤ 8191 →
    (s.eng.fault = true ∨ s.net.rxen = false → step s = .next (s.withInputs rest))
    ∧ (s.eng.fault = false → s.net.rxen = true → s.rx.dma ≠ .idle →
        step s = .next ((s.withInputs rest).withNet
          { s.net with rsr := { s.net.rsr with rxovr := true }, isr := { s.net.isr with rovr := true } }))
    ∧ (s.eng.fault = false → s.net.rxen = true → s.rx.dma = .idle →
        step s = .next ((s.withInputs rest).withRx { s.rx with dma := .busy frame 0 }))

/-- RXDMA takes one descriptor. It fills a hardware-owned one: at most RX_UNIT bytes of the frame to its buffer, LEN,
SOF and EOF to word 1, OWN to word 0, RXPTR onward or to 0 at WRAP; at the frame's end it is idle and REC and RCOMP are
set (R262 to R264). At a software-owned one it sets BNA and RXUBR and becomes idle, and RXPTR and memory stay (R262).
Nothing else changes. -/
def Obligations.RxdmaTakesOneDescriptor : Prop :=
  (∀ (s : State) (rest : List Input) (frame : List Byte) (off n : Nat) (a w0 : Word) (eof : Bool),
    TurnOf .rxdma s rest → Memory.wf s.mem = true → s.rx.dma = .busy frame off → off < frame.length →
    a = s.rx.qbase + BitVec.ofNat 32 (8 * s.rx.ptr.toNat) → w0 = readWord s.mem a → w0.getLsbD 0 = false →
    n = min s.params.rxUnit (frame.length - off) → eof = decide (off + n = frame.length) →
    AccessValid s.params a 8 → AccessValid s.params (w0 &&& 0xFFFFFFFC) n → Apart (w0 &&& 0xFFFFFFFC) n a 8 →
    ∃ m, step s = .next
        { s with
          mem := m
          rx := { s.rx with
            ptr := if w0.getLsbD 1 then 0 else s.rx.ptr + 1
            dma := if eof then .idle else .busy frame (off + n) }
          net := if eof then
              { s.net with rsr := { s.net.rsr with received := true }, isr := { s.net.isr with rcomp := true } }
            else s.net
          env := { s.env with inputs := rest } }
      ∧ readBytes m (w0 &&& 0xFFFFFFFC) n = (frame.drop off).take n
      ∧ readWord m (a + 4) = (if eof then BitVec.ofNat 32 frame.length else 0)
          ||| (if off = 0 then 0x4000 else 0) ||| (if eof then 0x8000 else 0)
      ∧ readWord m a = w0 ||| 1
      ∧ ∀ x, Outside (w0 &&& 0xFFFFFFFC) n x → Outside a 8 x → readCell m x.toNat = s.byte x)
  ∧ (∀ (s : State) (rest : List Input) (frame : List Byte) (off : Nat) (a : Word),
    TurnOf .rxdma s rest → s.rx.dma = .busy frame off → a = s.rx.qbase + BitVec.ofNat 32 (8 * s.rx.ptr.toNat) →
    AccessValid s.params a 4 → (readWord s.mem a).getLsbD 0 = true →
    step s = .next
      { s with
        rx := { s.rx with dma := .idle }
        net := { s.net with rsr := { s.net.rsr with bna := true }, isr := { s.net.isr with rxubr := true } }
        env := { s.env with inputs := rest } })

/-- TXDMA takes one descriptor. At a hardware-owned one, for either outcome the environment draws: sent, the buffer's
LEN bytes join WIRE_TX, USED is set, TXPTR moves on or to 0 at WRAP, TXCOMP and TCOMP are set; not sent, the
descriptor's RLE is set, TXGO clears, RLE and RLEX are set; one outcome is drawn (R272 to R275; that it is drawn from
`State.env` is log entry 5). At a USED one it clears TXGO and sets UBR, and TXPTR, memory and ISR stay (R272, R276).
Nothing else changes. -/
def Obligations.TxdmaTakesOneDescriptor : Prop :=
  (∀ (s : State) (rest : List Input) (a w1 buf : Word),
    TurnOf .txdma s rest → Memory.wf s.mem = true → s.tx.go = true → s.net.txen = true →
    a = s.tx.qbase + BitVec.ofNat 32 (8 * s.tx.ptr.toNat) → AccessValid s.params a 8 →
    w1 = readWord s.mem (a + 4) → w1.getLsbD 31 = false → buf = readWord s.mem a →
    AccessValid s.params buf (w1.toNat % 2 ^ 14) →
    ∃ m, (s.env.drawTx.1 = true → step s = .next
          { s with
            mem := m
            tx := { s.tx with ptr := if w1.getLsbD 30 then 0 else s.tx.ptr + 1 }
            net := { s.net with tsr := { s.net.tsr with txcomp := true }, isr := { s.net.isr with tcomp := true } }
            out := { s.out with wireTx := s.out.wireTx ++ [readBytes s.mem buf (w1.toNat % 2 ^ 14)] }
            env := { s.env.drawTx.2 with inputs := rest } }
          ∧ readWord m (a + 4) = w1 ||| 0x80000000)
      ∧ (s.env.drawTx.1 = false → step s = .next
          { s with
            mem := m
            tx := { s.tx with go := false }
            net := { s.net with tsr := { s.net.tsr with rle := true }, isr := { s.net.isr with rlex := true } }
            env := { s.env.drawTx.2 with inputs := rest } }
          ∧ readWord m (a + 4) = w1 ||| 0x20000000)
      ∧ ∀ x, Outside (a + 4) 4 x → readCell m x.toNat = s.byte x)
  ∧ (∀ (s : State) (rest : List Input) (a : Word),
    TurnOf .txdma s rest → s.tx.go = true → s.net.txen = true →
    a = s.tx.qbase + BitVec.ofNat 32 (8 * s.tx.ptr.toNat) → AccessValid s.params (a + 4) 4 →
    (readWord s.mem (a + 4)).getLsbD 31 = true →
    step s = .next
      { s with
        tx := { s.tx with go := false }
        net := { s.net with tsr := { s.net.tsr with ubr := true } }
        env := { s.env with inputs := rest } })

/-! ### BusFault and reset -/

/-- Every memory primitive of the block faults exactly when a byte of the access fails MEM_VALID, and names the lowest
failing address (00_scope.md R15); which is lowest when the access wraps is log entry 9. A read gives the bytes and
changes nothing; a write writes all its bytes, or, failing, none. -/
def Obligations.CheckedAccessesFaultAtTheLowestFailingAddress : Prop :=
  ∀ (s : State) (a : Word),
    (memValid s.params a = true → memReadByte a s = .ok (s.byte a) s)
    ∧ (memValid s.params a = false → memReadByte a s = .error a s)
    ∧ (∀ n, (AccessValid s.params a n → memRead a n s = .ok (readBytes s.mem a n) s)
      ∧ (¬ AccessValid s.params a n → ∃ x, LowestInvalid s.params a n x ∧ memRead a n s = .error x s))
    ∧ (AccessValid s.params a 4 → memRead32 a s = .ok (readWord s.mem a) s)
    ∧ (¬ AccessValid s.params a 4 → ∃ x, LowestInvalid s.params a 4 x ∧ memRead32 a s = .error x s)
    ∧ (∀ bs : List Byte,
      (AccessValid s.params a bs.length → memWrite a bs s = .ok () (s.withMem (writeBytes s.mem a bs)))
      ∧ (¬ AccessValid s.params a bs.length →
          ∃ x, LowestInvalid s.params a bs.length x ∧ memWrite a bs s = .error x s))
    ∧ (∀ v : Word,
      (AccessValid s.params a 4 → memWrite32 a v s = .ok () (s.withMem (writeWord s.mem a v)))
      ∧ (¬ AccessValid s.params a 4 → ∃ x, LowestInvalid s.params a 4 x ∧ memWrite32 a v s = .error x s))

/-- A BusFault is recorded: FAULT is set, FAULTADDR fails MEM_VALID, and FSRC and FOP name who made the access: 1 (CE)
and the opcode of the command, 1 and 0x06 for SERVICE on its own, 2 (RXDMA) and 0, 3 (TXDMA) and 0. RES, STATUS,
LASTOP, PEND and BUSY are as before the step (60_exceptions.md R425, 10_state.md R53, R83). A DMA agent whose
descriptor cannot be read ends there: nothing but the record changes. That OpPoll, OpDmx and OpAddress as instructions
record DECODE's FOP, 0x11, whatever command is pending, is the model's choice (log entry 13). -/
def Obligations.BusFaultIsRecorded : Prop :=
  (∀ (i : Instr) (s t : State), s.eng.fault = false → exec i s = .next t → t.eng.fault = true →
    t.eng = ⟨t.eng.initDone, true, .ce, if i.isOpcode then 0x11 else i.opWord.setWidth 8, t.eng.faultAddr⟩
      ∧ memValid s.params t.eng.faultAddr = false ∧ t.cmd = s.cmd)
  ∧ (∀ (s t : State) (rest : List Input), TurnOf .ce s rest → s.irqPending = true → step s = .next t →
    t.eng.fault = true →
    t.eng = ⟨s.eng.initDone, true, .ce, 0x06, t.eng.faultAddr⟩
      ∧ memValid s.params t.eng.faultAddr = false ∧ t.cmd = s.cmd)
  ∧ (∀ (s t : State) (rest : List Input), TurnOf .rxdma s rest → step s = .next t → t.eng.fault = true →
    t.eng = ⟨s.eng.initDone, true, .rxdma, 0, t.eng.faultAddr⟩
      ∧ memValid s.params t.eng.faultAddr = false ∧ t.cmd = s.cmd)
  ∧ (∀ (s t : State) (rest : List Input), TurnOf .txdma s rest → step s = .next t → t.eng.fault = true →
    t.eng = ⟨s.eng.initDone, true, .txdma, 0, t.eng.faultAddr⟩
      ∧ memValid s.params t.eng.faultAddr = false ∧ t.cmd = s.cmd)
  ∧ (∀ (s : State) (rest : List Input) (frame : List Byte) (off : Nat) (a : Word),
    TurnOf .rxdma s rest → s.rx.dma = .busy frame off → a = s.rx.qbase + BitVec.ofNat 32 (8 * s.rx.ptr.toNat) →
    ¬ AccessValid s.params a 4 →
    ∃ x, LowestInvalid s.params a 4 x
      ∧ step s = .next ((s.withInputs rest).withEng ⟨s.eng.initDone, true, .rxdma, 0, x⟩))
  ∧ (∀ (s : State) (rest : List Input) (a : Word),
    TurnOf .txdma s rest → s.tx.go = true → s.net.txen = true →
    a = s.tx.qbase + BitVec.ofNat 32 (8 * s.tx.ptr.toNat) → ¬ AccessValid s.params (a + 4) 4 →
    ∃ x, LowestInvalid s.params (a + 4) 4 x
      ∧ step s = .next ((s.withInputs rest).withEng ⟨s.eng.initDone, true, .txdma, 0, x⟩))

/-- After a BusFault no agent steps: a turn, and a frame that arrives, change nothing (10_state.md R76, R260). Only
reset clears FAULT, FSRC, FOP and FAULTADDR: any other step of a faulted block leaves the engine's status as it is
(R76, R83, R425, R427). With no input left `step` answers the fault `stopped`: that is the model's form of `stuck`
(93_implementation_defined.md section 1.4, log entry 8). -/
def Obligations.FaultStopsTheBlockUntilReset : Prop :=
  (∀ (s : State) (rest : List Input), s.params.wf = true → s.eng.fault = true →
    (∀ a, s.env.inputs = .turn a :: rest → step s = .next (s.withInputs rest))
    ∧ (∀ frame, frameWf frame = true → s.env.inputs = .arrive frame :: rest → step s = .next (s.withInputs rest))
    ∧ (s.env.inputs = [] → step s = .fault .stopped))
  ∧ (∀ s t : State, s.eng.fault = true → s.env.inputs.head? ≠ some .reset → step s = .next t → t.eng = s.eng)

/-- Reset puts every register at 0 as HOST reads it, empties PEND, EVQ, TAG and the output lists, makes RXDMA idle,
and does not touch system memory (70_reset_and_hazards.md R460, R461). That it keeps the parameters and the
environment's lists and counters, which are no state of the block, is the model's choice (log entry 19). -/
def Obligations.ResetZeroesEveryRegister : Prop :=
  ∀ (s : State) (rest : List Input), s.params.wf = true → s.env.inputs = .reset :: rest →
    ∃ t, step s = .next t ∧ t.mem = s.mem ∧ t.params = s.params ∧ t.env = { s.env with inputs := rest }
      ∧ (∀ off, readOffset t off = 0)
      ∧ t.cmd.pend = none ∧ t.ev.queue = [] ∧ t.tx.tags = [] ∧ t.tx.go = false ∧ t.rx.dma = .idle
      ∧ t.out = ⟨[], []⟩ ∧ t.eng.fault = false ∧ t.dmx.buf = List.replicate 512 0
      ∧ t.cfg.fwd = List.replicate s.params.maxNodes 0 ∧ t.cfg.pipe = List.replicate s.params.maxNodes 0

/-! ### HOST's accesses -/

/-- A CMD write latches the command with the six arguments of that moment and sets BUSY, when none is pending and
the block has not faulted; with a command pending it sets CMD_OVR only; on a faulted block with none pending it is
ignored. CMD reads 0 (10_state.md R54). -/
def Obligations.CmdWriteLatchesOrOverruns : Prop :=
  ∀ (s : State) (w : Word),
    (s.cmd.pend = none → s.eng.fault = false →
      writeOffset s 0x100 w = s.withCmd { s.cmd with pend := some ⟨w, s.cmd.args⟩, busy := true })
    ∧ (s.cmd.pend = none → s.eng.fault = true → writeOffset s 0x100 w = s)
    ∧ (s.cmd.pend ≠ none → writeOffset s 0x100 w = s.withCmd { s.cmd with cmdOvr := true })
    ∧ readOffset s 0x100 = 0

/-- A HOST write to NCR: RXEN and TXEN take bits 2 and 3; clearing RXEN drops the frame RXDMA receives; clearing
TXEN clears TXGO; bit 9 sets TXGO if the new TXEN is 1; no other state changes (10_state.md R35). That it is so of a
faulted block too is the model's reading (log entry 20). -/
def Obligations.NcrWriteStartsAndStopsDma : Prop :=
  ∀ (s : State) (v : Word), writeOffset s 0x000 v =
    { s with
      rx := { s.rx with dma := if s.net.rxen = true ∧ v.getLsbD 2 = false then .idle else s.rx.dma }
      tx := { s.tx with go := v.getLsbD 3 && (s.tx.go || v.getLsbD 9) }
      net := { s.net with rxen := v.getLsbD 2, txen := v.getLsbD 3 } }

/-- IER sets and IDR clears bits of IMR within the mask 0x4A6, as IMR reads; both change IMR alone and read 0
(10_state.md R43, R44). -/
def Obligations.InterruptEnableAndDisableWrites : Prop :=
  ∀ (s : State) (v : Word),
    readOffset (writeOffset s 0x024 v) 0x02C = readOffset s 0x02C ||| (v &&& 0x4A6)
    ∧ readOffset (writeOffset s 0x028 v) 0x02C = readOffset s 0x02C &&& ~~~(v &&& 0x4A6)
    ∧ writeOffset s 0x024 v = s.withNet { s.net with imr := (writeOffset s 0x024 v).net.imr }
    ∧ writeOffset s 0x028 v = s.withNet { s.net with imr := (writeOffset s 0x028 v).net.imr }
    ∧ readOffset s 0x024 = 0 ∧ readOffset s 0x028 = 0

/-- Writing 1 clears a status bit, writing 0 leaves it: RSR, TSR (but its read-only bit 3), ISR, CMDSTAT bit 1 and
EVQ_STAT bit 16, as HOST reads them (10_state.md R36, R37, R42, R55, R59). Any write to DISP_FAIL sets it to 0 (R74).
Each write changes these bits and nothing else. -/
def Obligations.StatusRegisterWritesClear : Prop :=
  ∀ (s : State) (v : Word),
    readOffset (writeOffset s 0x008 v) 0x008 = readOffset s 0x008 &&& ~~~v
    ∧ writeOffset s 0x008 v = s.withNet { s.net with rsr :=
        ⟨s.net.rsr.bna && !v.getLsbD 0, s.net.rsr.received && !v.getLsbD 1, s.net.rsr.rxovr && !v.getLsbD 2⟩ }
    ∧ readOffset (writeOffset s 0x00C v) 0x00C = readOffset s 0x00C &&& ~~~(v &&& 0x23)
    ∧ writeOffset s 0x00C v = s.withNet { s.net with tsr :=
        ⟨s.net.tsr.ubr && !v.getLsbD 0, s.net.tsr.rle && !v.getLsbD 1, s.net.tsr.txcomp && !v.getLsbD 5⟩ }
    ∧ readOffset (writeOffset s 0x020 v) 0x020 = readOffset s 0x020 &&& ~~~v
    ∧ writeOffset s 0x020 v = s.withNet { s.net with isr :=
        ⟨s.net.isr.rcomp && !v.getLsbD 1, s.net.isr.rxubr && !v.getLsbD 2, s.net.isr.rlex && !v.getLsbD 5,
          s.net.isr.tcomp && !v.getLsbD 7, s.net.isr.rovr && !v.getLsbD 10⟩ }
    ∧ readOffset (writeOffset s 0x104 v) 0x104 = readOffset s 0x104 &&& ~~~(v &&& 0x2)
    ∧ writeOffset s 0x104 v = s.withCmd { s.cmd with cmdOvr := s.cmd.cmdOvr && !v.getLsbD 1 }
    ∧ readOffset (writeOffset s 0x144 v) 0x144 = readOffset s 0x144 &&& ~~~(v &&& 0x10000)
    ∧ writeOffset s 0x144 v = s.withEv { s.ev with ovf := s.ev.ovf && !v.getLsbD 16 }
    ∧ writeOffset s 0x18C v = { s with dispFail := 0 } ∧ readOffset s 0x18C = s.dispFail

/-- The configuration registers read back what was written to their defined bits, and 0 elsewhere; a write changes that
register and nothing else (10_state.md R38, R39, R56, R67 to R69, R72, R73, R77). -/
def Obligations.ConfigurationRegistersReadBack : Prop :=
  ∀ (s : State) (v : Word),
    readOffset (writeOffset s 0x010 v) 0x010 = v &&& 0xFFFFFFFC
    ∧ writeOffset s 0x010 v = s.withRx { s.rx with qbase := v &&& 0xFFFFFFFC } ∧ readOffset s 0x010 = s.rx.qbase
    ∧ readOffset (writeOffset s 0x014 v) 0x014 = v &&& 0xFFFFFFFC
    ∧ writeOffset s 0x014 v = s.withTx { s.tx with qbase := v &&& 0xFFFFFFFC } ∧ readOffset s 0x014 = s.tx.qbase
    ∧ (∀ k, k < 6 → readOffset (writeOffset s (0x110 + 4 * k) v) (0x110 + 4 * k) = v)
    ∧ writeOffset s 0x110 v = s.withCmd { s.cmd with args := { s.cmd.args with a0 := v } }
    ∧ writeOffset s 0x114 v = s.withCmd { s.cmd with args := { s.cmd.args with a1 := v } }
    ∧ writeOffset s 0x118 v = s.withCmd { s.cmd with args := { s.cmd.args with a2 := v } }
    ∧ writeOffset s 0x11C v = s.withCmd { s.cmd with args := { s.cmd.args with a3 := v } }
    ∧ writeOffset s 0x120 v = s.withCmd { s.cmd with args := { s.cmd.args with a4 := v } }
    ∧ writeOffset s 0x124 v = s.withCmd { s.cmd with args := { s.cmd.args with a5 := v } }
    ∧ readOffset (writeOffset s 0x180 v) 0x180 = v &&& 0xFF
    ∧ writeOffset s 0x180 v = s.withCfg { s.cfg with subuni := v.setWidth 8 }
    ∧ readOffset (writeOffset s 0x184 v) 0x184 = v &&& 0xFF
    ∧ writeOffset s 0x184 v = s.withCfg { s.cfg with unicastMask := v.setWidth 8 }
    ∧ readOffset (writeOffset s 0x188 v) 0x188 = v &&& 0x00FF03FF
    ∧ writeOffset s 0x188 v = s.withCfg { s.cfg with base := v.setWidth 10, count := (v >>> 16).setWidth 8 }
    ∧ (∀ n, s.params.wf = true → s.cfg.fwd.length = s.params.maxNodes → n < s.params.maxNodes →
        readOffset (writeOffset s (0x200 + 4 * n) v) (0x200 + 4 * n) = v
        ∧ writeOffset s (0x200 + 4 * n) v = s.withCfg { s.cfg with fwd := s.cfg.fwd.set n v })
    ∧ (∀ n, s.params.wf = true → s.cfg.pipe.length = s.params.maxNodes → n < s.params.maxNodes →
        readOffset (writeOffset s (0x400 + 4 * n) v) (0x400 + 4 * n) = v
        ∧ writeOffset s (0x400 + 4 * n) v = s.withCfg { s.cfg with pipe := s.cfg.pipe.set n v })

/-- The status registers read the state they stand for, each bit at its place and every bit they do not name 0: NCR, RSR,
TSR, ISR and IMR (10_state.md R34, R36, R37, R42, R45, R77), CBSTAT, ENGSTAT and FAULTADDR (R51, R53, R83), CMDSTAT
with the codes of 30_encoding.md R146 (R55), and EVQ_STAT (R59). The words of ISR, RSR and TSR that SERVICE captures are
those HOST reads, without TXGO. -/
def Obligations.StatusRegistersReadTheirBits : Prop :=
  ∀ s : State,
    readOffset s 0x000 = (if s.net.rxen then (0x4 : Word) else 0) ||| (if s.net.txen then (0x8 : Word) else 0)
    ∧ readOffset s 0x008 = (if s.net.rsr.bna then (0x1 : Word) else 0) ||| (if s.net.rsr.received then (0x2 : Word) else 0)
        ||| (if s.net.rsr.rxovr then (0x4 : Word) else 0)
    ∧ readOffset s 0x00C = (if s.net.tsr.ubr then (0x1 : Word) else 0) ||| (if s.net.tsr.rle then (0x2 : Word) else 0)
        ||| (if s.tx.go then (0x8 : Word) else 0) ||| (if s.net.tsr.txcomp then (0x20 : Word) else 0)
    ∧ readOffset s 0x020 = (if s.net.isr.rcomp then (0x2 : Word) else 0) ||| (if s.net.isr.rxubr then (0x4 : Word) else 0)
        ||| (if s.net.isr.rlex then (0x20 : Word) else 0) ||| (if s.net.isr.tcomp then (0x80 : Word) else 0)
        ||| (if s.net.isr.rovr then (0x400 : Word) else 0)
    ∧ readOffset s 0x02C = (if s.net.imr.rcomp then (0x2 : Word) else 0) ||| (if s.net.imr.rxubr then (0x4 : Word) else 0)
        ||| (if s.net.imr.rlex then (0x20 : Word) else 0) ||| (if s.net.imr.tcomp then (0x80 : Word) else 0)
        ||| (if s.net.imr.rovr then (0x400 : Word) else 0)
    ∧ s.net.isr.word = readOffset s 0x020 ∧ s.net.rsr.word = readOffset s 0x008
    ∧ s.net.tsr.word = readOffset s 0x00C &&& 0x23
    ∧ readOffset s 0x054 = (if s.cb.rxCbEn then (0x1 : Word) else 0) ||| (if s.cb.txwEn then (0x2 : Word) else 0)
        ||| (s.cb.txwThr.setWidth 32 <<< 16)
    ∧ readOffset s 0x068 = (if s.eng.initDone then (0x1 : Word) else 0) ||| (if s.eng.fault then (0x2 : Word) else 0)
        ||| (match s.eng.fsrc with | .none => (0 : Word) | .ce => 0x10 | .rxdma => 0x20 | .txdma => 0x30)
        ||| (s.eng.fop.setWidth 32 <<< 8)
    ∧ readOffset s 0x06C = s.eng.faultAddr
    ∧ readOffset s 0x104 = (if s.cmd.busy then (0x1 : Word) else 0) ||| (if s.cmd.cmdOvr then (0x2 : Word) else 0)
        ||| (match s.cmd.status with
          | .ok => (0 : Word) | .empty => 0x100 | .tooSmall => 0x200 | .rxError => 0x300 | .busy => 0x400
          | .invalidSize => 0x500 | .param => 0x600 | .noInit => 0x700 | .illegalCmd => 0x800)
        ||| (s.cmd.lastop.setWidth 32 <<< 16)
    ∧ (s.ev.queue.length < 65536 →
        readOffset s 0x144 = BitVec.ofNat 32 s.ev.queue.length ||| (if s.ev.ovf then (0x10000 : Word) else 0))

/-- The registers of the rings, the results and the canonical buffer read the state they stand for: RXPTR and TXPTR
(10_state.md R40, R41), the capacities, indices and bases (R46 to R50, R52), RES0 to RES3 (R57), DMXLEN and the words of
DMXBUF, four channels each, the lowest in the low byte (R70, R71). -/
def Obligations.RingAndResultRegistersRead : Prop :=
  ∀ s : State,
    readOffset s 0x018 = s.rx.ptr.setWidth 32 ∧ readOffset s 0x01C = s.tx.ptr.setWidth 32
    ∧ readOffset s 0x040 = s.rx.cap.setWidth 32 ∧ readOffset s 0x044 = s.tx.cap.setWidth 32
    ∧ readOffset s 0x048 = s.rx.tail.setWidth 32 ∧ readOffset s 0x04C = s.tx.head.setWidth 32
    ∧ readOffset s 0x050 = s.tx.tail.setWidth 32
    ∧ readOffset s 0x058 = s.rx.dbase ∧ readOffset s 0x05C = s.tx.dbase
    ∧ readOffset s 0x060 = s.rx.bbase ∧ readOffset s 0x064 = s.tx.bbase
    ∧ readOffset s 0x130 = s.cmd.res.r0 ∧ readOffset s 0x134 = s.cmd.res.r1
    ∧ readOffset s 0x138 = s.cmd.res.r2 ∧ readOffset s 0x13C = s.cmd.res.r3
    ∧ readOffset s 0x190 = s.dmx.len.setWidth 32
    ∧ ∀ j, s.params.wf = true → j < 128 → readOffset s (0x800 + 4 * j)
        = (s.dmx.buf.getD (4 * j) 0).setWidth 32 ||| ((s.dmx.buf.getD (4 * j + 1) 0).setWidth 32 <<< 8)
          ||| ((s.dmx.buf.getD (4 * j + 2) 0).setWidth 32 <<< 16)
          ||| ((s.dmx.buf.getD (4 * j + 3) 0).setWidth 32 <<< 24)

/-- The event queue is read oldest first: EVQ_DATA gives the oldest entry or 0, EVQ_POP removes it and nothing else,
EVQ_STAT counts the entries; an event emitted into a full queue is dropped and sets OVF (10_state.md R58 to R60,
R63). `emit` is the one operation that emits. -/
def Obligations.EventQueueIsAFifo : Prop :=
  (∀ s : State, readOffset s 0x140 = s.ev.queue.headD 0)
  ∧ (∀ (s : State) (v : Word), writeOffset s 0x148 v = s.withEv { s.ev with queue := s.ev.queue.drop 1 })
  ∧ (∀ s : State, readOffset s 0x148 = 0)
  ∧ (∀ s : State, s.ev.queue.length < 65536 → (readOffset s 0x144).toNat % 65536 = s.ev.queue.length)
  ∧ (∀ (depth : Nat) (q : Events) (e : Word),
      (q.queue.length < depth → q.push depth e = ⟨q.queue ++ [e], q.ovf⟩)
      ∧ (depth ≤ q.queue.length → q.push depth e = ⟨q.queue, true⟩))
  ∧ (∀ (s : State) (e : Word), emit e s = .ok () (s.withEv (s.ev.push s.params.evqDepth e)))

/-- HOST's accesses at BLOCK_BASE + `off` (10_state.md R33, R77, 41_dma_agents.md R282). A 32-bit read of a 4-aligned
offset returns what the register reads and changes nothing; a 32-bit write has the register's effect and no other; any
other width or alignment is refused. A write to a read-only register, and to an offset the map does not have, changes
nothing; an offset the map does not have reads 0. That the window is 4096 bytes is log entry 3, that an
access of another width or alignment is refused is log entry 15, and `hostData`, which holds the value read, is the
model's own field (log entry 12). -/
def Obligations.HostRegisterAccesses : Prop :=
  (∀ (s : State) (rest : List Input) (addr : Word) (off : Nat),
    s.params.wf = true → addr.toNat = s.params.blockBase.toNat + off → off < 4096 →
    (off % 4 = 0 → s.env.inputs = .hostRead32 addr :: rest →
      step s = .next { s with env := { s.env with inputs := rest, hostData := readOffset s off } })
    ∧ (∀ v, off % 4 = 0 → s.env.inputs = .hostWrite32 addr v :: rest →
      step s = .next (writeOffset (s.withInputs rest) off v))
    ∧ (off % 4 ≠ 0 → s.env.inputs = .hostRead32 addr :: rest → step s = .refused .registerAccess)
    ∧ (∀ v, off % 4 ≠ 0 → s.env.inputs = .hostWrite32 addr v :: rest → step s = .refused .registerAccess)
    ∧ (s.env.inputs = .hostRead8 addr :: rest → step s = .refused .registerAccess)
    ∧ (∀ b, s.env.inputs = .hostWrite8 addr b :: rest → step s = .refused .registerAccess))
  ∧ (∀ (s : State) (v : Word) (off : Nat), off % 4 = 0 →
    off ∉ [0x000, 0x008, 0x00C, 0x010, 0x014, 0x020, 0x024, 0x028, 0x100, 0x104, 0x110, 0x114, 0x118, 0x11C, 0x120,
      0x124, 0x144, 0x148, 0x180, 0x184, 0x188, 0x18C] →
    ¬ (0x200 ≤ off ∧ off < 0x200 + 4 * s.params.maxNodes) → ¬ (0x400 ≤ off ∧ off < 0x400 + 4 * s.params.maxNodes) →
    writeOffset s off v = s)
  ∧ (∀ (s : State) (off : Nat), off % 4 = 0 →
    off ∉ [0x000, 0x008, 0x00C, 0x010, 0x014, 0x018, 0x01C, 0x020, 0x02C, 0x040, 0x044, 0x048, 0x04C, 0x050, 0x054,
      0x058, 0x05C, 0x060, 0x064, 0x068, 0x06C, 0x104, 0x110, 0x114, 0x118, 0x11C, 0x120, 0x124, 0x130, 0x134, 0x138,
      0x13C, 0x140, 0x144, 0x180, 0x184, 0x188, 0x18C, 0x190] →
    ¬ (0x200 ≤ off ∧ off < 0x200 + 4 * s.params.maxNodes) → ¬ (0x400 ≤ off ∧ off < 0x400 + 4 * s.params.maxNodes) →
    ¬ (0x800 ≤ off ∧ off < 0xA00) → readOffset s off = 0)

/-- HOST's accesses of system memory, at any address outside the register window (41_dma_agents.md R282, 20_memory.md
R104, R110). A read of a byte or of an aligned word returns it, little-endian, and changes nothing; a write of a byte
or of an aligned word changes those bytes, byte 0 of a word at the lowest address, and no other byte and no register; a
word that is not aligned is refused. The window's size is log entry 3, and that HOST's own accesses are not checked by
MEM_VALID is the model's reading (log entry 11). That a word that is not aligned is refused is the model's reading of
R282 (log entry 15), and `hostData`, which holds the value read, is the model's own field (log entry 12). -/
def Obligations.HostMemoryAccesses : Prop :=
  ∀ (s : State) (rest : List Input) (addr : Word),
    s.params.wf = true → Memory.wf s.mem = true →
    (addr.toNat < s.params.blockBase.toNat ∨ s.params.blockBase.toNat + 4096 ≤ addr.toNat) →
    (addr.toNat % 4 = 0 → s.env.inputs = .hostRead32 addr :: rest →
      step s = .next { s with env := { s.env with inputs := rest, hostData := readWord s.mem addr } })
    ∧ (s.env.inputs = .hostRead8 addr :: rest →
      step s = .next { s with env := { s.env with inputs := rest, hostData := (s.byte addr).setWidth 32 } })
    ∧ (∀ v : Word, addr.toNat % 4 = 0 → s.env.inputs = .hostWrite32 addr v :: rest →
      ∃ m, step s = .next ((s.withInputs rest).withMem m) ∧ readWord m addr = v
        ∧ readCell m addr.toNat = v.setWidth 8 ∧ readCell m (addr + 1).toNat = (v >>> 8).setWidth 8
        ∧ readCell m (addr + 2).toNat = (v >>> 16).setWidth 8 ∧ readCell m (addr + 3).toNat = (v >>> 24).setWidth 8
        ∧ ∀ x, Outside addr 4 x → readCell m x.toNat = s.byte x)
    ∧ (∀ b : Byte, s.env.inputs = .hostWrite8 addr b :: rest →
      ∃ m, step s = .next ((s.withInputs rest).withMem m) ∧ readCell m addr.toNat = b
        ∧ ∀ x, x ≠ addr → readCell m x.toNat = s.byte x)
    ∧ (addr.toNat % 4 ≠ 0 → s.env.inputs = .hostRead32 addr :: rest → step s = .refused .hostMemoryAccess)
    ∧ (∀ v, addr.toNat % 4 ≠ 0 → s.env.inputs = .hostWrite32 addr v :: rest → step s = .refused .hostMemoryAccess)

/-! ### Whole-machine rules -/

/-- IMR changes only through IER, IDR, INIT, SET_RX_CB and reset (60_exceptions.md R431). A step leaves it, whichever
agent's or the environment's, unless its input is reset or a HOST write to IER or IDR, or the command engine could run
a pending INIT or SET_RX_CB in it. And exec of any instruction but those two leaves it. -/
def Obligations.ImrChangesOnlyThroughItsWriters : Prop :=
  (∀ s t : State, s.env.inputs.head? ≠ some .reset →
    (∀ addr v, s.env.inputs.head? = some (.hostWrite32 addr v) →
      regOffset s.params addr ≠ some 0x024 ∧ regOffset s.params addr ≠ some 0x028) →
    (s.irqPending = true ∨ (∃ i rest, s.env.inputs = i :: rest ∧ i ≠ .turn .ce)
      ∨ ∀ p, s.cmd.pend = some p → p.word ≠ 0x01 ∧ p.word ≠ 0x04) →
    step s = .next t → t.net.imr = s.net.imr)
  ∧ (∀ (i : Instr) (s t : State), (∀ rc tc rd td rb tb, i ≠ .init rc tc rd td rb tb) → (∀ e, i ≠ .setRxCb e) →
    exec i s = .next t → t.net.imr = s.net.imr)

/-- WIRE_TX and RADIO_OUT only ever grow: every step but reset leaves the earlier entries as they are (10_state.md
R75). -/
def Obligations.OutputListsOnlyGrow : Prop :=
  ∀ s t : State, s.env.inputs.head? ≠ some .reset → step s = .next t →
    s.out.wireTx <+: t.out.wireTx ∧ s.out.radioOut <+: t.out.radioOut

/-- Every step keeps system memory in its canonical form. The form is the model's (log entry 7). -/
def Obligations.StepKeepsMemoryCanonical : Prop :=
  ∀ s t : State, MemoryCanonical s → step s = .next t → MemoryCanonical t

/-- Every step keeps the shape of the registers: queue bases and recorded bases 4-aligned, table and buffer sizes,
DMXLEN, BUSY with PEND, and the event queue within its depth (10_state.md R38, R39, R55, R61, R62, R70 to R73,
20_memory.md R107). -/
def Obligations.StepKeepsRegisterShape : Prop :=
  ∀ s t : State, RegisterShape s → step s = .next t → RegisterShape t

/-- Every step keeps RXDMA's state legal and the ring indices inside their rings (10_state.md R48, R64, R65, R79). -/
def Obligations.StepKeepsRingsInRange : Prop :=
  ∀ s t : State, RxDmaOk s → RingsOk s → step s = .next t → RxDmaOk t ∧ RingsOk t

/-- Every step whose move HOST's duties allow keeps the ownership protocol of the rings: after a successful INIT
`count ≤ N_TX - 1` and TXPTR is inside the ring, TXDMA visits the descriptors in the order WRITE fills them, exactly the
descriptors from TXPTR to TX_HEAD are the hardware's, and every descriptor names its own buffer (10_state.md R79,
20_memory.md R102, R114, 41_dma_agents.md R273, 70_reset_and_hazards.md R471, R481). INIT establishes it, since before
INIT it asks nothing of the rings. How the duties are read is log entry 22. -/
def Obligations.StepKeepsRingProtocol : Prop :=
  ∀ s t : State, MemoryCanonical s → RingProtocol s →
    (∀ i, s.env.inputs.head? = some i → hostObeys s i = true) → step s = .next t → RingProtocol t

/-- Every step keeps the fault record: nothing recorded while FAULT = 0, an agent and a failing address while
FAULT = 1; and no step changes the parameters (10_state.md R53, R83, 60_exceptions.md R425, R427). -/
def Obligations.StepKeepsFaultRecord : Prop :=
  ∀ s t : State, FaultRecordOk s → step s = .next t → FaultRecordOk t ∧ t.params = s.params

/-- The state after reset satisfies every invariant above. Its parameters are the model's choice (log entry 1). -/
def Obligations.ResetStateSatisfiesTheInvariants : Prop :=
  MemoryCanonical State.reset ∧ RegisterShape State.reset ∧ RxDmaOk State.reset ∧ RingsOk State.reset
    ∧ RingProtocol State.reset ∧ FaultRecordOk State.reset ∧ State.reset.params.wf = true

/-! ### Fair runs (70_reset_and_hazards.md R492) -/

/-- In a fair run every issued command completes, or a BusFault stops the block: some turn of the command engine
executes the command, and PEND is then empty and BUSY 0 (R492, R61). Beside weak fairness one premise is the model's
(log entry 21), since SERVICE goes before a pending command at every turn (R200): either the command step is treated
fairly too, under traffic that never ends, or IRQ_PENDING is not raised anew for ever. -/
def Obligations.FairRunCompletesEveryCommand : Prop :=
  ∀ (states : Nat → State) (moves : Nat → Input) (n : Nat) (p : Pending),
    IsRun states moves → WeaklyFair states moves → (CommandStepFair states moves ∨ InterruptsCease states) →
    (∀ m, n ≤ m → moves m ≠ .reset) → (states n).cmd.pend = some p →
    (∃ m, n ≤ m ∧ (states m).eng.fault = true)
    ∨ ∃ m, n ≤ m ∧ moves m = .turn .ce ∧ (states m).cmd.pend = some p
        ∧ runPending p ((states m).withInputs []) = .next (states (m + 1))
        ∧ (states (m + 1)).cmd.pend = none ∧ (states (m + 1)).cmd.busy = false

/-- In a fair run every enabled ISR condition is eventually serviced, or a BusFault stops the block: with IRQ_PENDING,
while HOST obeys its duties (R483 among them) and disables no source, some turn of the command engine is SERVICE, every
condition that was set is still set in what it captures, and IRQ_PENDING is false after it (R492, R200, R434, R435).
How the duties of R470 to R488 are read is log entry 22. -/
def Obligations.FairRunServicesEveryInterrupt : Prop :=
  ∀ (states : Nat → State) (moves : Nat → Input) (n : Nat),
    IsRun states moves → WeaklyFair states moves →
    (∀ m, n ≤ m → moves m ≠ .reset ∧ hostObeys (states m) (moves m) = true
      ∧ ∀ addr v, moves m = .hostWrite32 addr v → regOffset (states m).params addr ≠ some 0x028) →
    (states n).irqPending = true →
    (∃ m, n ≤ m ∧ (states m).eng.fault = true)
    ∨ ∃ m, n ≤ m ∧ moves m = .turn .ce ∧ (states m).irqPending = true
        ∧ (states n).net.isr.or (states m).net.isr = (states m).net.isr
        ∧ autonomousService ((states m).withInputs []) = .next (states (m + 1))
        ∧ (states (m + 1)).irqPending = false

/-- In a fair run every frame handed to TXDMA is eventually sent and reported OK, or reported ABORTED, or a BusFault
stops the block (R492, R244, R247, R274). The frame is the one at ring index `i`, pending and not sent in state `n`,
in a ring as the ownership protocol has it (R471), with the sources TCOMP and RLEX enabled as INIT leaves them. From
there on HOST obeys its duties (log entry 22) and disables no source, and no INIT discards the frame (R204). Then some turn of the command engine is a SERVICE whose events report the frame with its tag: OK, after
a TXDMA step put its bytes on the wire, or ABORTED for a captured transmit error. -/
def Obligations.FairRunReportsEveryFrame : Prop :=
  ∀ (states : Nat → State) (moves : Nat → Input) (n c k i : Nat),
    IsRun states moves → WeaklyFair states moves →
    (∀ m, n ≤ m → moves m ≠ .reset ∧ hostObeys (states m) (moves m) = true
      ∧ (∀ addr v, moves m = .hostWrite32 addr v → regOffset (states m).params addr ≠ some 0x028)
      ∧ ∀ p, (states m).cmd.pend = some p → p.word ≠ 0x01) →
    MemoryCanonical (states n) → RingProtocol (states n) → (states n).eng.initDone = true →
    (states n).net.imr.tcomp = true → (states n).net.imr.rlex = true →
    TxProtocol (states n) c → c ≤ k → k < (states n).tx.count →
    i = ((states n).tx.tail.toNat + k) % (states n).tx.cap.toNat →
    (∃ m, n ≤ m ∧ (states m).eng.fault = true)
    ∨ ∃ m sent q, n ≤ m ∧ moves m = .turn .ce
        ∧ SentRun (states m) sent ∧ q < (states m).tx.count
        ∧ i = ((states m).tx.tail.toNat + q) % (states m).tx.cap.toNat
        ∧ (states m).tx.tag i = (states n).tx.tag i
        ∧ (states (m + 1)).ev = (states m).ev.pushAll (states m).params.evqDepth (serviceEvents (states m) sent)
        ∧ (sent ≤ q → ((states m).net.isr.rlex || (states m).net.tsr.rle) = true)
        ∧ (q < sent → ∃ j, n ≤ j ∧ j < m ∧ moves j = .turn .txdma ∧ (states j).tx.ptr.toNat = i
            ∧ (states (j + 1)).out.wireTx = (states j).out.wireTx
              ++ [readBytes (states j).mem (readWord (states j).mem ((states j).tx.desc i))
                ((readWord (states j).mem ((states j).tx.desc i + 4)).toNat % 2 ^ 14)])
end

