-- ==== Sys2Proof/Laws/State.lean ====
section
/-! SUPPORT. One lemma for each field of the state under each named update: no later proof unfolds an update. -/

namespace Sys2Proof.Machine

variable (s : State)

/-! ### withMem -/

@[simp] theorem State.withMem_params (v : List Host.Cell) : (s.withMem v).params = s.params := rfl
@[simp] theorem State.withMem_mem (v : List Host.Cell) : (s.withMem v).mem = v := rfl
@[simp] theorem State.withMem_rx (v : List Host.Cell) : (s.withMem v).rx = s.rx := rfl
@[simp] theorem State.withMem_tx (v : List Host.Cell) : (s.withMem v).tx = s.tx := rfl
@[simp] theorem State.withMem_net (v : List Host.Cell) : (s.withMem v).net = s.net := rfl
@[simp] theorem State.withMem_cb (v : List Host.Cell) : (s.withMem v).cb = s.cb := rfl
@[simp] theorem State.withMem_eng (v : List Host.Cell) : (s.withMem v).eng = s.eng := rfl
@[simp] theorem State.withMem_cmd (v : List Host.Cell) : (s.withMem v).cmd = s.cmd := rfl
@[simp] theorem State.withMem_ev (v : List Host.Cell) : (s.withMem v).ev = s.ev := rfl
@[simp] theorem State.withMem_cfg (v : List Host.Cell) : (s.withMem v).cfg = s.cfg := rfl
@[simp] theorem State.withMem_dmx (v : List Host.Cell) : (s.withMem v).dmx = s.dmx := rfl
@[simp] theorem State.withMem_dispFail (v : List Host.Cell) : (s.withMem v).dispFail = s.dispFail := rfl
@[simp] theorem State.withMem_out (v : List Host.Cell) : (s.withMem v).out = s.out := rfl
@[simp] theorem State.withMem_env (v : List Host.Cell) : (s.withMem v).env = s.env := rfl
@[simp] theorem State.withMem_twice (v w : List Host.Cell) : (s.withMem v).withMem w = s.withMem w := rfl
@[simp] theorem State.withMem_self : s.withMem s.mem = s := rfl

/-! ### withRx -/

@[simp] theorem State.withRx_params (v : RxRing) : (s.withRx v).params = s.params := rfl
@[simp] theorem State.withRx_mem (v : RxRing) : (s.withRx v).mem = s.mem := rfl
@[simp] theorem State.withRx_rx (v : RxRing) : (s.withRx v).rx = v := rfl
@[simp] theorem State.withRx_tx (v : RxRing) : (s.withRx v).tx = s.tx := rfl
@[simp] theorem State.withRx_net (v : RxRing) : (s.withRx v).net = s.net := rfl
@[simp] theorem State.withRx_cb (v : RxRing) : (s.withRx v).cb = s.cb := rfl
@[simp] theorem State.withRx_eng (v : RxRing) : (s.withRx v).eng = s.eng := rfl
@[simp] theorem State.withRx_cmd (v : RxRing) : (s.withRx v).cmd = s.cmd := rfl
@[simp] theorem State.withRx_ev (v : RxRing) : (s.withRx v).ev = s.ev := rfl
@[simp] theorem State.withRx_cfg (v : RxRing) : (s.withRx v).cfg = s.cfg := rfl
@[simp] theorem State.withRx_dmx (v : RxRing) : (s.withRx v).dmx = s.dmx := rfl
@[simp] theorem State.withRx_dispFail (v : RxRing) : (s.withRx v).dispFail = s.dispFail := rfl
@[simp] theorem State.withRx_out (v : RxRing) : (s.withRx v).out = s.out := rfl
@[simp] theorem State.withRx_env (v : RxRing) : (s.withRx v).env = s.env := rfl
@[simp] theorem State.withRx_twice (v w : RxRing) : (s.withRx v).withRx w = s.withRx w := rfl
@[simp] theorem State.withRx_self : s.withRx s.rx = s := rfl

/-! ### withTx -/

@[simp] theorem State.withTx_params (v : TxRing) : (s.withTx v).params = s.params := rfl
@[simp] theorem State.withTx_mem (v : TxRing) : (s.withTx v).mem = s.mem := rfl
@[simp] theorem State.withTx_rx (v : TxRing) : (s.withTx v).rx = s.rx := rfl
@[simp] theorem State.withTx_tx (v : TxRing) : (s.withTx v).tx = v := rfl
@[simp] theorem State.withTx_net (v : TxRing) : (s.withTx v).net = s.net := rfl
@[simp] theorem State.withTx_cb (v : TxRing) : (s.withTx v).cb = s.cb := rfl
@[simp] theorem State.withTx_eng (v : TxRing) : (s.withTx v).eng = s.eng := rfl
@[simp] theorem State.withTx_cmd (v : TxRing) : (s.withTx v).cmd = s.cmd := rfl
@[simp] theorem State.withTx_ev (v : TxRing) : (s.withTx v).ev = s.ev := rfl
@[simp] theorem State.withTx_cfg (v : TxRing) : (s.withTx v).cfg = s.cfg := rfl
@[simp] theorem State.withTx_dmx (v : TxRing) : (s.withTx v).dmx = s.dmx := rfl
@[simp] theorem State.withTx_dispFail (v : TxRing) : (s.withTx v).dispFail = s.dispFail := rfl
@[simp] theorem State.withTx_out (v : TxRing) : (s.withTx v).out = s.out := rfl
@[simp] theorem State.withTx_env (v : TxRing) : (s.withTx v).env = s.env := rfl
@[simp] theorem State.withTx_twice (v w : TxRing) : (s.withTx v).withTx w = s.withTx w := rfl
@[simp] theorem State.withTx_self : s.withTx s.tx = s := rfl

/-! ### withNet -/

@[simp] theorem State.withNet_params (v : Net) : (s.withNet v).params = s.params := rfl
@[simp] theorem State.withNet_mem (v : Net) : (s.withNet v).mem = s.mem := rfl
@[simp] theorem State.withNet_rx (v : Net) : (s.withNet v).rx = s.rx := rfl
@[simp] theorem State.withNet_tx (v : Net) : (s.withNet v).tx = s.tx := rfl
@[simp] theorem State.withNet_net (v : Net) : (s.withNet v).net = v := rfl
@[simp] theorem State.withNet_cb (v : Net) : (s.withNet v).cb = s.cb := rfl
@[simp] theorem State.withNet_eng (v : Net) : (s.withNet v).eng = s.eng := rfl
@[simp] theorem State.withNet_cmd (v : Net) : (s.withNet v).cmd = s.cmd := rfl
@[simp] theorem State.withNet_ev (v : Net) : (s.withNet v).ev = s.ev := rfl
@[simp] theorem State.withNet_cfg (v : Net) : (s.withNet v).cfg = s.cfg := rfl
@[simp] theorem State.withNet_dmx (v : Net) : (s.withNet v).dmx = s.dmx := rfl
@[simp] theorem State.withNet_dispFail (v : Net) : (s.withNet v).dispFail = s.dispFail := rfl
@[simp] theorem State.withNet_out (v : Net) : (s.withNet v).out = s.out := rfl
@[simp] theorem State.withNet_env (v : Net) : (s.withNet v).env = s.env := rfl
@[simp] theorem State.withNet_twice (v w : Net) : (s.withNet v).withNet w = s.withNet w := rfl
@[simp] theorem State.withNet_self : s.withNet s.net = s := rfl

/-! ### withCb -/

@[simp] theorem State.withCb_params (v : Callbacks) : (s.withCb v).params = s.params := rfl
@[simp] theorem State.withCb_mem (v : Callbacks) : (s.withCb v).mem = s.mem := rfl
@[simp] theorem State.withCb_rx (v : Callbacks) : (s.withCb v).rx = s.rx := rfl
@[simp] theorem State.withCb_tx (v : Callbacks) : (s.withCb v).tx = s.tx := rfl
@[simp] theorem State.withCb_net (v : Callbacks) : (s.withCb v).net = s.net := rfl
@[simp] theorem State.withCb_cb (v : Callbacks) : (s.withCb v).cb = v := rfl
@[simp] theorem State.withCb_eng (v : Callbacks) : (s.withCb v).eng = s.eng := rfl
@[simp] theorem State.withCb_cmd (v : Callbacks) : (s.withCb v).cmd = s.cmd := rfl
@[simp] theorem State.withCb_ev (v : Callbacks) : (s.withCb v).ev = s.ev := rfl
@[simp] theorem State.withCb_cfg (v : Callbacks) : (s.withCb v).cfg = s.cfg := rfl
@[simp] theorem State.withCb_dmx (v : Callbacks) : (s.withCb v).dmx = s.dmx := rfl
@[simp] theorem State.withCb_dispFail (v : Callbacks) : (s.withCb v).dispFail = s.dispFail := rfl
@[simp] theorem State.withCb_out (v : Callbacks) : (s.withCb v).out = s.out := rfl
@[simp] theorem State.withCb_env (v : Callbacks) : (s.withCb v).env = s.env := rfl
@[simp] theorem State.withCb_twice (v w : Callbacks) : (s.withCb v).withCb w = s.withCb w := rfl
@[simp] theorem State.withCb_self : s.withCb s.cb = s := rfl

/-! ### withEng -/

@[simp] theorem State.withEng_params (v : Engine) : (s.withEng v).params = s.params := rfl
@[simp] theorem State.withEng_mem (v : Engine) : (s.withEng v).mem = s.mem := rfl
@[simp] theorem State.withEng_rx (v : Engine) : (s.withEng v).rx = s.rx := rfl
@[simp] theorem State.withEng_tx (v : Engine) : (s.withEng v).tx = s.tx := rfl
@[simp] theorem State.withEng_net (v : Engine) : (s.withEng v).net = s.net := rfl
@[simp] theorem State.withEng_cb (v : Engine) : (s.withEng v).cb = s.cb := rfl
@[simp] theorem State.withEng_eng (v : Engine) : (s.withEng v).eng = v := rfl
@[simp] theorem State.withEng_cmd (v : Engine) : (s.withEng v).cmd = s.cmd := rfl
@[simp] theorem State.withEng_ev (v : Engine) : (s.withEng v).ev = s.ev := rfl
@[simp] theorem State.withEng_cfg (v : Engine) : (s.withEng v).cfg = s.cfg := rfl
@[simp] theorem State.withEng_dmx (v : Engine) : (s.withEng v).dmx = s.dmx := rfl
@[simp] theorem State.withEng_dispFail (v : Engine) : (s.withEng v).dispFail = s.dispFail := rfl
@[simp] theorem State.withEng_out (v : Engine) : (s.withEng v).out = s.out := rfl
@[simp] theorem State.withEng_env (v : Engine) : (s.withEng v).env = s.env := rfl
@[simp] theorem State.withEng_twice (v w : Engine) : (s.withEng v).withEng w = s.withEng w := rfl
@[simp] theorem State.withEng_self : s.withEng s.eng = s := rfl

/-! ### withCmd -/

@[simp] theorem State.withCmd_params (v : CommandPort) : (s.withCmd v).params = s.params := rfl
@[simp] theorem State.withCmd_mem (v : CommandPort) : (s.withCmd v).mem = s.mem := rfl
@[simp] theorem State.withCmd_rx (v : CommandPort) : (s.withCmd v).rx = s.rx := rfl
@[simp] theorem State.withCmd_tx (v : CommandPort) : (s.withCmd v).tx = s.tx := rfl
@[simp] theorem State.withCmd_net (v : CommandPort) : (s.withCmd v).net = s.net := rfl
@[simp] theorem State.withCmd_cb (v : CommandPort) : (s.withCmd v).cb = s.cb := rfl
@[simp] theorem State.withCmd_eng (v : CommandPort) : (s.withCmd v).eng = s.eng := rfl
@[simp] theorem State.withCmd_cmd (v : CommandPort) : (s.withCmd v).cmd = v := rfl
@[simp] theorem State.withCmd_ev (v : CommandPort) : (s.withCmd v).ev = s.ev := rfl
@[simp] theorem State.withCmd_cfg (v : CommandPort) : (s.withCmd v).cfg = s.cfg := rfl
@[simp] theorem State.withCmd_dmx (v : CommandPort) : (s.withCmd v).dmx = s.dmx := rfl
@[simp] theorem State.withCmd_dispFail (v : CommandPort) : (s.withCmd v).dispFail = s.dispFail := rfl
@[simp] theorem State.withCmd_out (v : CommandPort) : (s.withCmd v).out = s.out := rfl
@[simp] theorem State.withCmd_env (v : CommandPort) : (s.withCmd v).env = s.env := rfl
@[simp] theorem State.withCmd_twice (v w : CommandPort) : (s.withCmd v).withCmd w = s.withCmd w := rfl
@[simp] theorem State.withCmd_self : s.withCmd s.cmd = s := rfl

/-! ### withEv -/

@[simp] theorem State.withEv_params (v : Events) : (s.withEv v).params = s.params := rfl
@[simp] theorem State.withEv_mem (v : Events) : (s.withEv v).mem = s.mem := rfl
@[simp] theorem State.withEv_rx (v : Events) : (s.withEv v).rx = s.rx := rfl
@[simp] theorem State.withEv_tx (v : Events) : (s.withEv v).tx = s.tx := rfl
@[simp] theorem State.withEv_net (v : Events) : (s.withEv v).net = s.net := rfl
@[simp] theorem State.withEv_cb (v : Events) : (s.withEv v).cb = s.cb := rfl
@[simp] theorem State.withEv_eng (v : Events) : (s.withEv v).eng = s.eng := rfl
@[simp] theorem State.withEv_cmd (v : Events) : (s.withEv v).cmd = s.cmd := rfl
@[simp] theorem State.withEv_ev (v : Events) : (s.withEv v).ev = v := rfl
@[simp] theorem State.withEv_cfg (v : Events) : (s.withEv v).cfg = s.cfg := rfl
@[simp] theorem State.withEv_dmx (v : Events) : (s.withEv v).dmx = s.dmx := rfl
@[simp] theorem State.withEv_dispFail (v : Events) : (s.withEv v).dispFail = s.dispFail := rfl
@[simp] theorem State.withEv_out (v : Events) : (s.withEv v).out = s.out := rfl
@[simp] theorem State.withEv_env (v : Events) : (s.withEv v).env = s.env := rfl
@[simp] theorem State.withEv_twice (v w : Events) : (s.withEv v).withEv w = s.withEv w := rfl
@[simp] theorem State.withEv_self : s.withEv s.ev = s := rfl

/-! ### withCfg -/

@[simp] theorem State.withCfg_params (v : NodeConfig) : (s.withCfg v).params = s.params := rfl
@[simp] theorem State.withCfg_mem (v : NodeConfig) : (s.withCfg v).mem = s.mem := rfl
@[simp] theorem State.withCfg_rx (v : NodeConfig) : (s.withCfg v).rx = s.rx := rfl
@[simp] theorem State.withCfg_tx (v : NodeConfig) : (s.withCfg v).tx = s.tx := rfl
@[simp] theorem State.withCfg_net (v : NodeConfig) : (s.withCfg v).net = s.net := rfl
@[simp] theorem State.withCfg_cb (v : NodeConfig) : (s.withCfg v).cb = s.cb := rfl
@[simp] theorem State.withCfg_eng (v : NodeConfig) : (s.withCfg v).eng = s.eng := rfl
@[simp] theorem State.withCfg_cmd (v : NodeConfig) : (s.withCfg v).cmd = s.cmd := rfl
@[simp] theorem State.withCfg_ev (v : NodeConfig) : (s.withCfg v).ev = s.ev := rfl
@[simp] theorem State.withCfg_cfg (v : NodeConfig) : (s.withCfg v).cfg = v := rfl
@[simp] theorem State.withCfg_dmx (v : NodeConfig) : (s.withCfg v).dmx = s.dmx := rfl
@[simp] theorem State.withCfg_dispFail (v : NodeConfig) : (s.withCfg v).dispFail = s.dispFail := rfl
@[simp] theorem State.withCfg_out (v : NodeConfig) : (s.withCfg v).out = s.out := rfl
@[simp] theorem State.withCfg_env (v : NodeConfig) : (s.withCfg v).env = s.env := rfl
@[simp] theorem State.withCfg_twice (v w : NodeConfig) : (s.withCfg v).withCfg w = s.withCfg w := rfl
@[simp] theorem State.withCfg_self : s.withCfg s.cfg = s := rfl

/-! ### withDmx -/

@[simp] theorem State.withDmx_params (v : Dmx) : (s.withDmx v).params = s.params := rfl
@[simp] theorem State.withDmx_mem (v : Dmx) : (s.withDmx v).mem = s.mem := rfl
@[simp] theorem State.withDmx_rx (v : Dmx) : (s.withDmx v).rx = s.rx := rfl
@[simp] theorem State.withDmx_tx (v : Dmx) : (s.withDmx v).tx = s.tx := rfl
@[simp] theorem State.withDmx_net (v : Dmx) : (s.withDmx v).net = s.net := rfl
@[simp] theorem State.withDmx_cb (v : Dmx) : (s.withDmx v).cb = s.cb := rfl
@[simp] theorem State.withDmx_eng (v : Dmx) : (s.withDmx v).eng = s.eng := rfl
@[simp] theorem State.withDmx_cmd (v : Dmx) : (s.withDmx v).cmd = s.cmd := rfl
@[simp] theorem State.withDmx_ev (v : Dmx) : (s.withDmx v).ev = s.ev := rfl
@[simp] theorem State.withDmx_cfg (v : Dmx) : (s.withDmx v).cfg = s.cfg := rfl
@[simp] theorem State.withDmx_dmx (v : Dmx) : (s.withDmx v).dmx = v := rfl
@[simp] theorem State.withDmx_dispFail (v : Dmx) : (s.withDmx v).dispFail = s.dispFail := rfl
@[simp] theorem State.withDmx_out (v : Dmx) : (s.withDmx v).out = s.out := rfl
@[simp] theorem State.withDmx_env (v : Dmx) : (s.withDmx v).env = s.env := rfl
@[simp] theorem State.withDmx_twice (v w : Dmx) : (s.withDmx v).withDmx w = s.withDmx w := rfl
@[simp] theorem State.withDmx_self : s.withDmx s.dmx = s := rfl

/-! ### withDispFail -/

@[simp] theorem State.withDispFail_params (v : Word) : (s.withDispFail v).params = s.params := rfl
@[simp] theorem State.withDispFail_mem (v : Word) : (s.withDispFail v).mem = s.mem := rfl
@[simp] theorem State.withDispFail_rx (v : Word) : (s.withDispFail v).rx = s.rx := rfl
@[simp] theorem State.withDispFail_tx (v : Word) : (s.withDispFail v).tx = s.tx := rfl
@[simp] theorem State.withDispFail_net (v : Word) : (s.withDispFail v).net = s.net := rfl
@[simp] theorem State.withDispFail_cb (v : Word) : (s.withDispFail v).cb = s.cb := rfl
@[simp] theorem State.withDispFail_eng (v : Word) : (s.withDispFail v).eng = s.eng := rfl
@[simp] theorem State.withDispFail_cmd (v : Word) : (s.withDispFail v).cmd = s.cmd := rfl
@[simp] theorem State.withDispFail_ev (v : Word) : (s.withDispFail v).ev = s.ev := rfl
@[simp] theorem State.withDispFail_cfg (v : Word) : (s.withDispFail v).cfg = s.cfg := rfl
@[simp] theorem State.withDispFail_dmx (v : Word) : (s.withDispFail v).dmx = s.dmx := rfl
@[simp] theorem State.withDispFail_dispFail (v : Word) : (s.withDispFail v).dispFail = v := rfl
@[simp] theorem State.withDispFail_out (v : Word) : (s.withDispFail v).out = s.out := rfl
@[simp] theorem State.withDispFail_env (v : Word) : (s.withDispFail v).env = s.env := rfl
@[simp] theorem State.withDispFail_twice (v w : Word) : (s.withDispFail v).withDispFail w = s.withDispFail w := rfl
@[simp] theorem State.withDispFail_self : s.withDispFail s.dispFail = s := rfl

/-! ### withOut -/

@[simp] theorem State.withOut_params (v : Outputs) : (s.withOut v).params = s.params := rfl
@[simp] theorem State.withOut_mem (v : Outputs) : (s.withOut v).mem = s.mem := rfl
@[simp] theorem State.withOut_rx (v : Outputs) : (s.withOut v).rx = s.rx := rfl
@[simp] theorem State.withOut_tx (v : Outputs) : (s.withOut v).tx = s.tx := rfl
@[simp] theorem State.withOut_net (v : Outputs) : (s.withOut v).net = s.net := rfl
@[simp] theorem State.withOut_cb (v : Outputs) : (s.withOut v).cb = s.cb := rfl
@[simp] theorem State.withOut_eng (v : Outputs) : (s.withOut v).eng = s.eng := rfl
@[simp] theorem State.withOut_cmd (v : Outputs) : (s.withOut v).cmd = s.cmd := rfl
@[simp] theorem State.withOut_ev (v : Outputs) : (s.withOut v).ev = s.ev := rfl
@[simp] theorem State.withOut_cfg (v : Outputs) : (s.withOut v).cfg = s.cfg := rfl
@[simp] theorem State.withOut_dmx (v : Outputs) : (s.withOut v).dmx = s.dmx := rfl
@[simp] theorem State.withOut_dispFail (v : Outputs) : (s.withOut v).dispFail = s.dispFail := rfl
@[simp] theorem State.withOut_out (v : Outputs) : (s.withOut v).out = v := rfl
@[simp] theorem State.withOut_env (v : Outputs) : (s.withOut v).env = s.env := rfl
@[simp] theorem State.withOut_twice (v w : Outputs) : (s.withOut v).withOut w = s.withOut w := rfl
@[simp] theorem State.withOut_self : s.withOut s.out = s := rfl

/-! ### withEnv -/

@[simp] theorem State.withEnv_params (v : Env) : (s.withEnv v).params = s.params := rfl
@[simp] theorem State.withEnv_mem (v : Env) : (s.withEnv v).mem = s.mem := rfl
@[simp] theorem State.withEnv_rx (v : Env) : (s.withEnv v).rx = s.rx := rfl
@[simp] theorem State.withEnv_tx (v : Env) : (s.withEnv v).tx = s.tx := rfl
@[simp] theorem State.withEnv_net (v : Env) : (s.withEnv v).net = s.net := rfl
@[simp] theorem State.withEnv_cb (v : Env) : (s.withEnv v).cb = s.cb := rfl
@[simp] theorem State.withEnv_eng (v : Env) : (s.withEnv v).eng = s.eng := rfl
@[simp] theorem State.withEnv_cmd (v : Env) : (s.withEnv v).cmd = s.cmd := rfl
@[simp] theorem State.withEnv_ev (v : Env) : (s.withEnv v).ev = s.ev := rfl
@[simp] theorem State.withEnv_cfg (v : Env) : (s.withEnv v).cfg = s.cfg := rfl
@[simp] theorem State.withEnv_dmx (v : Env) : (s.withEnv v).dmx = s.dmx := rfl
@[simp] theorem State.withEnv_dispFail (v : Env) : (s.withEnv v).dispFail = s.dispFail := rfl
@[simp] theorem State.withEnv_out (v : Env) : (s.withEnv v).out = s.out := rfl
@[simp] theorem State.withEnv_env (v : Env) : (s.withEnv v).env = v := rfl
@[simp] theorem State.withEnv_twice (v w : Env) : (s.withEnv v).withEnv w = s.withEnv w := rfl
@[simp] theorem State.withEnv_self : s.withEnv s.env = s := rfl

/-- The byte of memory an update of another field leaves alone, and the byte after an update of memory. -/
@[simp] theorem State.withMem_byte (m : List Host.Cell) (a : Word) : (s.withMem m).byte a = readCell m a.toNat := rfl

end Sys2Proof.Machine
end

