-- ==== Sys2Proof/Laws/Op.lean ====
section
/-! SUPPORT. How a part of a step runs: the laws of `Op`, and the one notion every frame and every invariant is
proved with: a property of the state that holds before holds after, whether the part ends or faults. -/

namespace Sys2Proof.Machine

variable {α β : Type}

/-! ### Running -/

@[simp] theorem Op.pure_run (a : α) (s : State) : (pure a : Op α) s = .ok a s := rfl

@[simp] theorem current_run (s : State) : current s = .ok s s := rfl

@[simp] theorem update_run (f : State → State) (s : State) : update f s = .ok () (f s) := rfl

@[simp] theorem busFault_run (a : Word) (s : State) : (busFault a : Op α) s = .error a s := rfl

/-- Sequencing: the second part runs from where the first ended, unless the first faulted. -/
theorem Op.bind_run (x : Op α) (f : α → Op β) (s : State) :
    (x >>= f) s = match x s with
      | .ok a t => f a t
      | .error e t => .error e t := by
  change EStateM.bind x f s = _
  unfold EStateM.bind
  cases x s <;> rfl

/-- Sequencing after a part that ended. -/
theorem Op.bind_ok {x : Op α} {s t : State} {a : α} (f : α → Op β) (h : x s = .ok a t) :
    (x >>= f) s = f a t := by rw [Op.bind_run, h]

/-- Sequencing after a part that faulted. -/
theorem Op.bind_error {x : Op α} {s t : State} {e : Word} (f : α → Op β) (h : x s = .error e t) :
    (x >>= f) s = .error e t := by rw [Op.bind_run, h]

@[simp] theorem Op.current_bind (f : State → Op β) (s : State) : (current >>= f) s = f s s := rfl

@[simp] theorem Op.update_bind (g : State → State) (f : Unit → Op β) (s : State) :
    (update g >>= f) s = f () (g s) := rfl

@[simp] theorem Op.pure_bind_run (a : α) (f : α → Op β) (s : State) : ((pure a : Op α) >>= f) s = f a s := rfl

/-- A sequence ended: both parts did. -/
theorem Op.bind_eq_ok {x : Op α} {f : α → Op β} {s u : State} {b : β} (h : (x >>= f) s = .ok b u) :
    ∃ a t, x s = .ok a t ∧ f a t = .ok b u := by
  rw [Op.bind_run] at h
  cases hx : x s with
  | ok a t => rw [hx] at h; exact ⟨a, t, rfl, h⟩
  | error e t => rw [hx] at h; cases h

/-- A sequence faulted: the first part did, or it ended and the second part did. -/
theorem Op.bind_eq_error {x : Op α} {f : α → Op β} {s u : State} {e : Word} (h : (x >>= f) s = .error e u) :
    x s = .error e u ∨ ∃ a t, x s = .ok a t ∧ f a t = .error e u := by
  rw [Op.bind_run] at h
  cases hx : x s with
  | ok a t => rw [hx] at h; exact .inr ⟨a, t, rfl, h⟩
  | error e' t => rw [hx] at h; cases h; exact .inl rfl

/-! ### What a part keeps -/

/-- The state a part leaves, ended or faulted. -/
def Op.final {α : Type} (r : EStateM.Result Word State α) : State :=
  match r with
  | .ok _ t => t
  | .error _ t => t

@[simp] theorem Op.final_ok (a : α) (t : State) : Op.final (.ok a t : EStateM.Result Word State α) = t := rfl

@[simp] theorem Op.final_error (e : Word) (t : State) :
    Op.final (.error e t : EStateM.Result Word State α) = t := rfl

/-- The part keeps the property: it holds after whenever it holds before. -/
def Op.Preserves {α : Type} (I : State → Prop) (op : Op α) : Prop := ∀ s, I s → I (Op.final (op s))

variable {I : State → Prop}

theorem Op.Preserves.ok {op : Op α} (h : Op.Preserves I op) {s t : State} {a : α} (hs : I s)
    (hr : op s = .ok a t) : I t := by have := h s hs; rwa [hr] at this

theorem Op.Preserves.error {op : Op α} (h : Op.Preserves I op) {s t : State} {e : Word} (hs : I s)
    (hr : op s = .error e t) : I t := by have := h s hs; rwa [hr] at this

theorem preserves_pure (a : α) : Op.Preserves I (pure a : Op α) := fun _ hs => hs

theorem preserves_current : Op.Preserves I current := fun _ hs => hs

theorem preserves_busFault (a : Word) : Op.Preserves I (busFault a : Op α) := fun _ hs => hs

theorem preserves_update {f : State → State} (h : ∀ s, I s → I (f s)) : Op.Preserves I (update f) := h

theorem preserves_bind {x : Op α} {f : α → Op β} (hx : Op.Preserves I x) (hf : ∀ a, Op.Preserves I (f a)) :
    Op.Preserves I (x >>= f) := by
  intro s hs
  have h1 := hx s hs
  rw [Op.bind_run]
  cases hr : x s with
  | ok a t => rw [hr] at h1; exact hf a t h1
  | error e t => rw [hr] at h1; exact h1

/-- A sequence whose second part may use that the first part gave its argument. -/
theorem preserves_bind_from {x : Op α} {f : α → Op β} (hx : Op.Preserves I x)
    (hf : ∀ a s t, x s = .ok a t → Op.Preserves I (f a)) : Op.Preserves I (x >>= f) := by
  intro s hs
  have h1 := hx s hs
  rw [Op.bind_run]
  cases hr : x s with
  | ok a t => rw [hr] at h1; exact hf a s t hr t h1
  | error e t => rw [hr] at h1; exact h1

/-- After `current`, the rest may use that its argument is the state it runs from. -/
theorem preserves_current_bind {f : State → Op β} (hf : ∀ s, I s → I (Op.final (f s s))) :
    Op.Preserves I (current >>= f) := hf

theorem preserves_ite {c : Prop} [Decidable c] {x y : Op α} (hx : Op.Preserves I x) (hy : Op.Preserves I y) :
    Op.Preserves I (if c then x else y) := by split <;> assumption

theorem preserves_forRange {body : Nat → Op Unit} (h : ∀ i, Op.Preserves I (body i)) :
    ∀ n i, Op.Preserves I (forRange body i n)
  | 0, _ => preserves_pure ()
  | n + 1, i => preserves_bind (h i) fun _ => preserves_forRange h n (i + 1)

end Sys2Proof.Machine
end

