-- ==== Sys2Proof/Laws/Memory.lean ====
section
/-! SUPPORT. System memory as data: reading after writing, the canonical form, and byte order. -/

namespace Sys2Proof.Machine

/-! ### One byte -/

/-- The canonical form from a lower bound holds from any bound below it. -/
theorem risingFrom_mono {m : List Host.Cell} {lo lo' : Nat} (h : risingFrom lo m = true) (hle : lo' ≤ lo) :
    risingFrom lo' m = true := by
  cases m with
  | nil => rfl
  | cons c m =>
    obtain ⟨k, b⟩ := c
    simp only [risingFrom, Bool.and_eq_true, decide_eq_true_eq] at h ⊢
    exact ⟨⟨⟨Nat.le_trans hle h.1.1.1, h.1.1.2⟩, h.1.2⟩, h.2⟩

/-- Below its lower bound a canonical memory lists nothing. -/
theorem readCell_of_lt {m : List Host.Cell} {lo a : Nat} (h : risingFrom lo m = true) (ha : a < lo) :
    readCell m a = Config.unlistedByte := by
  induction m generalizing lo with
  | nil => rfl
  | cons c m ih =>
    obtain ⟨k, b⟩ := c
    simp only [risingFrom, Bool.and_eq_true, decide_eq_true_eq] at h
    have : a ≠ k := by omega
    simp only [readCell, this, if_false]
    exact ih h.2 (by omega)

/-- Writing one byte keeps the canonical form, from any bound at or below the address. -/
theorem writeCell_risingFrom {m : List Host.Cell} {lo a : Nat} {b : Byte} (h : risingFrom lo m = true)
    (hlo : lo ≤ a) (ha : a < 2 ^ 32) : risingFrom lo (writeCell m a b) = true := by
  induction m generalizing lo with
  | nil =>
    unfold writeCell
    split
    · rfl
    · simp_all [risingFrom]
  | cons c m ih =>
    obtain ⟨k, d⟩ := c
    have h0 := h
    simp only [risingFrom, Bool.and_eq_true, decide_eq_true_eq, bne_iff_ne] at h
    unfold writeCell
    split
    · split
      · exact h0
      · simp only [risingFrom, Bool.and_eq_true, decide_eq_true_eq, bne_iff_ne]
        refine ⟨⟨⟨hlo, ha⟩, by assumption⟩, ⟨⟨by omega, h.1.1.2⟩, h.1.2⟩, h.2⟩
    · split
      · split
        · exact risingFrom_mono h.2 (by omega)
        · subst a
          simp only [risingFrom, Bool.and_eq_true, decide_eq_true_eq, bne_iff_ne]
          refine ⟨⟨⟨hlo, ha⟩, by assumption⟩, h.2⟩
      · simp only [risingFrom, Bool.and_eq_true, decide_eq_true_eq, bne_iff_ne]
        refine ⟨⟨⟨h.1.1.1, h.1.1.2⟩, h.1.2⟩, ih h.2 (by omega)⟩

/-- Every write of a byte keeps the canonical form. -/
theorem writeCell_wf {m : List Host.Cell} {a : Nat} {b : Byte} (h : Memory.wf m = true) (ha : a < 2 ^ 32) :
    Memory.wf (writeCell m a b) = true := writeCell_risingFrom h (Nat.zero_le a) ha

/-- A byte written is read back. -/
theorem readCell_writeCell_same {m : List Host.Cell} {lo a : Nat} {b : Byte} (h : risingFrom lo m = true) :
    readCell (writeCell m a b) a = b := by
  induction m generalizing lo with
  | nil =>
    unfold writeCell
    split
    · next hb => exact hb.symm
    · simp [readCell]
  | cons c m ih =>
    obtain ⟨k, d⟩ := c
    simp only [risingFrom, Bool.and_eq_true, decide_eq_true_eq] at h
    unfold writeCell
    split
    · next hlt =>
      split
      · next hb =>
        subst hb
        have hne : a ≠ k := by omega
        simp only [readCell, hne, if_false]
        exact readCell_of_lt h.2 (by omega)
      · simp [readCell]
    · split
      · next heq =>
        subst heq
        split
        · next hb =>
          subst hb
          exact readCell_of_lt h.2 (by omega)
        · simp [readCell]
      · next hne =>
        simp only [readCell, hne, if_false]
        exact ih h.2

/-- A write of one byte leaves every other address alone, in canonical form or not. -/
theorem readCell_writeCell_other {m : List Host.Cell} {a x : Nat} {b : Byte} (h : x ≠ a) :
    readCell (writeCell m a b) x = readCell m x := by
  induction m with
  | nil =>
    unfold writeCell
    split <;> simp [readCell, h]
  | cons c m ih =>
    obtain ⟨k, d⟩ := c
    unfold writeCell
    split
    · split
      · rfl
      · simp [readCell, h]
    · split
      · next heq =>
        subst heq
        split <;> simp [readCell, h]
      · simp only [readCell, ih]

/-! ### Several bytes -/

@[simp] theorem readBytes_zero (m : List Host.Cell) (a : Word) : readBytes m a 0 = [] := rfl

@[simp] theorem readBytes_succ (m : List Host.Cell) (a : Word) (n : Nat) :
    readBytes m a (n + 1) = readCell m a.toNat :: readBytes m (a + 1) n := rfl

@[simp] theorem writeBytes_nil (m : List Host.Cell) (a : Word) : writeBytes m a [] = m := rfl

@[simp] theorem writeBytes_cons (m : List Host.Cell) (a : Word) (b : Byte) (bs : List Byte) :
    writeBytes m a (b :: bs) = writeBytes (writeCell m a.toNat b) (a + 1) bs := rfl

@[simp] theorem readBytes_length (m : List Host.Cell) (a : Word) (n : Nat) : (readBytes m a n).length = n := by
  induction n generalizing a with
  | zero => rfl
  | succ n ih => simp [ih]

/-- Byte `j` of a read is the byte at `a + j`. -/
theorem readBytes_getElem? (m : List Host.Cell) (a : Word) (n j : Nat) (h : j < n) :
    (readBytes m a n)[j]? = some (readCell m (a + BitVec.ofNat 32 j).toNat) := by
  induction n generalizing a j with
  | zero => omega
  | succ n ih =>
    cases j with
    | zero => simp
    | succ j =>
      have : a + BitVec.ofNat 32 (j + 1) = a + 1 + BitVec.ofNat 32 j := by
        rw [BitVec.ofNat_add, BitVec.add_assoc, BitVec.add_comm (BitVec.ofNat 32 j)]; rfl
      rw [readBytes_succ, List.getElem?_cons_succ, ih (a + 1) j (by omega), this]

/-- Every write of bytes keeps the canonical form. -/
theorem writeBytes_wf {m : List Host.Cell} {a : Word} {bs : List Byte} (h : Memory.wf m = true) :
    Memory.wf (writeBytes m a bs) = true := by
  induction bs generalizing m a with
  | nil => exact h
  | cons b bs ih => exact ih (writeCell_wf h a.isLt)

/-- Every write of a word keeps the canonical form. -/
theorem writeWord_wf {m : List Host.Cell} {a v : Word} (h : Memory.wf m = true) :
    Memory.wf (writeWord m a v) = true := writeBytes_wf h

/-- A write of bytes leaves every address outside `a, a+1, ...` alone. -/
theorem readCell_writeBytes_other {m : List Host.Cell} {a : Word} {bs : List Byte} {x : Word}
    (h : ∀ j, j < bs.length → x ≠ a + BitVec.ofNat 32 j) :
    readCell (writeBytes m a bs) x.toNat = readCell m x.toNat := by
  induction bs generalizing m a with
  | nil => rfl
  | cons b bs ih =>
    rw [writeBytes_cons, ih]
    · refine readCell_writeCell_other fun he => ?_
      have := h 0 (by simp)
      exact this (by simpa using BitVec.eq_of_toNat_eq he)
    · intro j hj
      have := h (j + 1) (by simpa using hj)
      have e : a + BitVec.ofNat 32 (j + 1) = a + 1 + BitVec.ofNat 32 j := by
        rw [BitVec.ofNat_add, BitVec.add_assoc, BitVec.add_comm (BitVec.ofNat 32 j)]; rfl
      rwa [e] at this

/-- Offsets below 2^32 are distinct as addresses. -/
theorem offset_ne {a : Word} {i j : Nat} (hi : i < 2 ^ 32) (hj : j < 2 ^ 32) (h : i ≠ j) :
    a + BitVec.ofNat 32 i ≠ a + BitVec.ofNat 32 j := by
  intro he
  have := congrArg BitVec.toNat ((BitVec.add_right_inj a).mp he)
  simp only [BitVec.toNat_ofNat] at this
  rw [Nat.mod_eq_of_lt hi, Nat.mod_eq_of_lt hj] at this
  exact h this

/-- Bytes written are read back, at each offset. -/
theorem readCell_writeBytes_same {m : List Host.Cell} {a : Word} {bs : List Byte} (hm : Memory.wf m = true)
    (hl : bs.length ≤ 2 ^ 32) {j : Nat} (hj : j < bs.length) :
    readCell (writeBytes m a bs) (a + BitVec.ofNat 32 j).toNat = bs[j] := by
  induction bs generalizing m a j with
  | nil => simp at hj
  | cons b bs ih =>
    have e : ∀ i, a + BitVec.ofNat 32 (i + 1) = a + 1 + BitVec.ofNat 32 i := fun i => by
      rw [BitVec.ofNat_add, BitVec.add_assoc, BitVec.add_comm (BitVec.ofNat 32 i)]; rfl
    rw [writeBytes_cons]
    cases j with
    | zero =>
      rw [readCell_writeBytes_other]
      · simpa using readCell_writeCell_same (b := b) hm
      · intro i hi
        rw [← e]
        simp only [List.length_cons] at hl
        exact offset_ne (by omega) (by omega) (by omega)
    | succ j =>
      rw [e]
      exact ih (writeCell_wf hm a.isLt) (by simp only [List.length_cons] at hl; omega) (by simpa using hj)

/-- Bytes written are read back, all together. -/
theorem readBytes_writeBytes_same {m : List Host.Cell} {a : Word} {bs : List Byte} (hm : Memory.wf m = true)
    (hl : bs.length ≤ 2 ^ 32) : readBytes (writeBytes m a bs) a bs.length = bs := by
  apply List.ext_getElem?
  intro j
  by_cases hj : j < bs.length
  · rw [readBytes_getElem? _ _ _ _ hj, readCell_writeBytes_same hm hl hj, List.getElem?_eq_getElem hj]
  · rw [List.getElem?_eq_none (by simpa using Nat.le_of_not_lt hj),
      List.getElem?_eq_none (Nat.le_of_not_lt hj)]

/-- A read that meets no changed address gives what it gave. -/
theorem readBytes_congr {m m' : List Host.Cell} {a : Word} {n : Nat}
    (h : ∀ j, j < n → readCell m' (a + BitVec.ofNat 32 j).toNat = readCell m (a + BitVec.ofNat 32 j).toNat) :
    readBytes m' a n = readBytes m a n := by
  apply List.ext_getElem?
  intro j
  by_cases hj : j < n
  · rw [readBytes_getElem? _ _ _ _ hj, readBytes_getElem? _ _ _ _ hj, h j hj]
  · rw [List.getElem?_eq_none (by simpa using Nat.le_of_not_lt hj),
      List.getElem?_eq_none (by simpa using Nat.le_of_not_lt hj)]

/-! ### Words (R104) -/

@[simp] theorem wordBytes_length (v : Word) : (wordBytes v).length = 4 := rfl

/-- Bit `i` of byte `k` of a word is bit `8k + i` of the word. -/
theorem byteOf_getLsbD (v : Word) (k i : Nat) :
    (byteOf v k).getLsbD i = (decide (i < 8) && v.getLsbD (8 * k + i)) := by
  simp [byteOf, BitVec.getLsbD_ofNat, Nat.testBit_shiftRight, BitVec.testBit_toNat]

/-- A word is put together again from its bytes. -/
theorem leWord_byteOf (v : Word) : leWord (byteOf v 0) (byteOf v 1) (byteOf v 2) (byteOf v 3) = v := by
  apply BitVec.eq_of_getLsbD_eq
  intro i hi
  simp only [leWord, BitVec.getLsbD_or, BitVec.getLsbD_setWidth, BitVec.getLsbD_shiftLeft, byteOf_getLsbD]
  interval_cases i <;> simp

/-- A word whose bytes stand at the head of a list is read from it. -/
theorem wordAt_wordBytes (v : Word) (bs : List Byte) : wordAt (wordBytes v ++ bs) 0 = v := by
  simpa [wordAt, wordBytes] using leWord_byteOf v

/-- A word written is read back. -/
theorem readWord_writeWord_same {m : List Host.Cell} {a v : Word} (hm : Memory.wf m = true) :
    readWord (writeWord m a v) a = v := by
  unfold readWord writeWord
  have := readBytes_writeBytes_same (a := a) (bs := wordBytes v) hm (by simp)
  rw [wordBytes_length] at this
  rw [this]
  simpa using wordAt_wordBytes v []

/-- A word read is unchanged when none of its four bytes is. -/
theorem readWord_congr {m m' : List Host.Cell} {a : Word}
    (h : ∀ j, j < 4 → readCell m' (a + BitVec.ofNat 32 j).toNat = readCell m (a + BitVec.ofNat 32 j).toNat) :
    readWord m' a = readWord m a := by rw [readWord, readWord, readBytes_congr h]

end Sys2Proof.Machine
end

