-- ==== Sys2Proof/Laws/Access.lean ====
section
/-! SUPPORT. Checked accesses (00_scope.md R15, R16): what each can do, said once. For each operation: when it
ends and with what (`_ok`), what follows if it ended or faulted (`_inv`, `_fault`), and what it keeps. -/

namespace Sys2Proof.Machine

variable {s t : State} {a x v : Word} {n : Nat} {bs : List Byte} {I : State → Prop}

/-! ### MEM_VALID -/

/-- The first address of a range, and the rest. -/
theorem accessValid_succ (p : Params) (a : Word) (n : Nat) :
    AccessValid p a (n + 1) ↔ memValid p a = true ∧ AccessValid p (a + 1) n := by
  have e : ∀ i, a + BitVec.ofNat 32 (i + 1) = a + 1 + BitVec.ofNat 32 i := fun i => by
    rw [BitVec.ofNat_add, BitVec.add_assoc, BitVec.add_comm (BitVec.ofNat 32 i)]; rfl
  constructor
  · intro h
    refine ⟨by simpa using h 0 (by omega), fun j hj => ?_⟩
    rw [← e]
    exact h (j + 1) (by omega)
  · rintro ⟨h0, h1⟩ j hj
    cases j with
    | zero => simpa using h0
    | succ j => rw [e]; exact h1 j (by omega)

/-- A part of a valid range is valid. -/
theorem AccessValid.sub {p : Params} {m k : Nat} (h : AccessValid p a n) (hk : k + m ≤ n) :
    AccessValid p (a + BitVec.ofNat 32 k) m := by
  intro j hj
  rw [BitVec.add_assoc, ← BitVec.ofNat_add]
  exact h (k + j) (by omega)

/-- The check of R15 finds nothing exactly when every address of the access is valid. -/
theorem lowestInvalid_none (p : Params) (a : Word) (n : Nat) : lowestInvalid p a n = none ↔ AccessValid p a n := by
  induction n generalizing a with
  | zero => exact ⟨fun _ j hj => absurd hj (Nat.not_lt_zero j), fun _ => rfl⟩
  | succ n ih =>
    rw [accessValid_succ, ← ih, lowestInvalid]
    split <;> simp_all

/-- The address the check of R15 finds is one of the access, fails MEM_VALID, and is the lowest that does. -/
theorem lowestInvalid_some {p : Params} {a x : Word} {n : Nat} (h : lowestInvalid p a n = some x) :
    memValid p x = false ∧ (∃ j, j < n ∧ x = a + BitVec.ofNat 32 j)
      ∧ ∀ j, j < n → memValid p (a + BitVec.ofNat 32 j) = false → x.toNat ≤ (a + BitVec.ofNat 32 j).toNat := by
  have e : ∀ (a : Word) i, a + BitVec.ofNat 32 (i + 1) = a + 1 + BitVec.ofNat 32 i := fun a i => by
    rw [BitVec.ofNat_add, BitVec.add_assoc, BitVec.add_comm (BitVec.ofNat 32 i)]; rfl
  induction n generalizing a x with
  | zero => simp [lowestInvalid] at h
  | succ n ih =>
    rw [lowestInvalid] at h
    split at h
    · next hv =>
      obtain ⟨h1, ⟨j, hj, hx⟩, h3⟩ := ih h
      refine ⟨h1, ⟨j + 1, by omega, by rw [e]; exact hx⟩, fun i hi hf => ?_⟩
      cases i with
      | zero =>
        have hf0 : memValid p a = false := by simpa using hf
        rw [hv] at hf0
        cases hf0
      | succ i => rw [e] at hf ⊢; exact h3 i (by omega) hf
    · next hv =>
      have hv : memValid p a = false := by simpa using hv
      cases hr : lowestInvalid p (a + 1) n with
      | none =>
        rw [hr] at h
        simp only [lowerOf, Option.some.injEq] at h
        subst h
        have hall := (lowestInvalid_none p (a + 1) n).mp hr
        refine ⟨hv, ⟨0, by omega, by simp⟩, fun i hi hf => ?_⟩
        cases i with
        | zero => simp
        | succ i => rw [e, hall i (by omega)] at hf; cases hf
      | some y =>
        obtain ⟨h1, ⟨j, hj, hy⟩, h3⟩ := ih hr
        rw [hr] at h
        simp only [lowerOf, Option.some.injEq] at h
        split at h
        · next hlt =>
          subst h
          refine ⟨hv, ⟨0, by omega, by simp⟩, fun i hi hf => ?_⟩
          cases i with
          | zero => simp
          | succ i => rw [e] at hf ⊢; exact Nat.le_trans (Nat.le_of_lt hlt) (h3 i (by omega) hf)
        · next hle =>
          subst h
          refine ⟨h1, ⟨j + 1, by omega, by rw [e]; exact hy⟩, fun i hi hf => ?_⟩
          cases i with
          | zero => simpa using Nat.le_of_not_lt hle
          | succ i => rw [e] at hf ⊢; exact h3 i (by omega) hf

theorem checkAccess_ok (h : AccessValid s.params a n) : checkAccess a n s = .ok () s := by
  rw [checkAccess, (lowestInvalid_none _ _ _).mpr h]

/-- The check changes nothing: it passes when every address is valid, and faults at the lowest that is not. -/
theorem checkAccess_cases (s : State) (a : Word) (n : Nat) :
    (AccessValid s.params a n ∧ checkAccess a n s = .ok () s)
      ∨ ∃ x, lowestInvalid s.params a n = some x ∧ checkAccess a n s = .error x s := by
  cases h : lowestInvalid s.params a n with
  | none => exact .inl ⟨(lowestInvalid_none _ _ _).mp h, checkAccess_ok ((lowestInvalid_none _ _ _).mp h)⟩
  | some x => exact .inr ⟨x, rfl, by rw [checkAccess, h]; rfl⟩

theorem preserves_checkAccess (a : Word) (n : Nat) : Op.Preserves I (checkAccess a n) := by
  intro s hs
  rcases checkAccess_cases s a n with ⟨_, h⟩ | ⟨x, _, h⟩ <;> rw [h] <;> exact hs

/-! ### Reads -/

theorem memRead_ok (h : AccessValid s.params a n) : memRead a n s = .ok (readBytes s.mem a n) s := by
  rw [memRead, Op.bind_ok _ (checkAccess_ok h)]; rfl

/-- A read of bytes changes nothing; it gives the bytes, or faults at the lowest invalid address. -/
theorem memRead_cases (s : State) (a : Word) (n : Nat) :
    (AccessValid s.params a n ∧ memRead a n s = .ok (readBytes s.mem a n) s)
      ∨ ∃ x, lowestInvalid s.params a n = some x ∧ memRead a n s = .error x s := by
  rcases checkAccess_cases s a n with ⟨h, _⟩ | ⟨x, hx, h⟩
  · exact .inl ⟨h, memRead_ok h⟩
  · exact .inr ⟨x, hx, by rw [memRead, Op.bind_error _ h]⟩

theorem accessValid_one (p : Params) (a : Word) : AccessValid p a 1 ↔ memValid p a = true := by
  constructor
  · intro h; simpa using h 0 (by omega)
  · intro h j hj
    obtain rfl : j = 0 := by omega
    simpa using h

theorem memReadByte_ok (h : memValid s.params a = true) : memReadByte a s = .ok (s.byte a) s := by
  rw [memReadByte, Op.bind_ok _ (checkAccess_ok ((accessValid_one _ _).mpr h))]; rfl

/-- A read of a byte changes nothing; it gives the byte, or faults at the address. -/
theorem memReadByte_cases (s : State) (a : Word) :
    (memValid s.params a = true ∧ memReadByte a s = .ok (s.byte a) s)
      ∨ (memValid s.params a = false ∧ memReadByte a s = .error a s) := by
  cases h : memValid s.params a
  · refine .inr ⟨rfl, ?_⟩
    have : lowestInvalid s.params a 1 = some a := by simp [lowestInvalid, h, lowerOf]
    have hc : checkAccess a 1 s = .error a s := by rw [checkAccess, this]; rfl
    rw [memReadByte, Op.bind_error _ hc]
  · exact .inl ⟨rfl, memReadByte_ok h⟩

theorem memRead32_ok (h : AccessValid s.params a 4) : memRead32 a s = .ok (readWord s.mem a) s := by
  rw [memRead32, Op.bind_ok _ (checkAccess_ok h)]; rfl

/-- A read of a word changes nothing; it gives the word, or faults at the lowest invalid address. -/
theorem memRead32_cases (s : State) (a : Word) :
    (AccessValid s.params a 4 ∧ memRead32 a s = .ok (readWord s.mem a) s)
      ∨ ∃ x, lowestInvalid s.params a 4 = some x ∧ memRead32 a s = .error x s := by
  rcases checkAccess_cases s a 4 with ⟨h, _⟩ | ⟨x, hx, h⟩
  · exact .inl ⟨h, memRead32_ok h⟩
  · exact .inr ⟨x, hx, by rw [memRead32, Op.bind_error _ h]⟩

theorem preserves_memRead (a : Word) (n : Nat) : Op.Preserves I (memRead a n) := by
  intro s hs
  rcases memRead_cases s a n with ⟨_, h⟩ | ⟨x, _, h⟩ <;> rw [h] <;> exact hs

theorem preserves_memReadByte (a : Word) : Op.Preserves I (memReadByte a) := by
  intro s hs
  rcases memReadByte_cases s a with ⟨_, h⟩ | ⟨_, h⟩ <;> rw [h] <;> exact hs

theorem preserves_memRead32 (a : Word) : Op.Preserves I (memRead32 a) := by
  intro s hs
  rcases memRead32_cases s a with ⟨_, h⟩ | ⟨x, _, h⟩ <;> rw [h] <;> exact hs

/-! ### Writes -/

theorem memWrite_ok (h : AccessValid s.params a bs.length) :
    memWrite a bs s = .ok () (s.withMem (writeBytes s.mem a bs)) := by
  rw [memWrite, Op.bind_ok _ (checkAccess_ok h)]; rfl

/-- A write of bytes writes all of them, or faults at the lowest invalid address and writes none. -/
theorem memWrite_cases (s : State) (a : Word) (bs : List Byte) :
    (AccessValid s.params a bs.length ∧ memWrite a bs s = .ok () (s.withMem (writeBytes s.mem a bs)))
      ∨ ∃ x, lowestInvalid s.params a bs.length = some x ∧ memWrite a bs s = .error x s := by
  rcases checkAccess_cases s a bs.length with ⟨h, _⟩ | ⟨x, hx, h⟩
  · exact .inl ⟨h, memWrite_ok h⟩
  · exact .inr ⟨x, hx, by rw [memWrite, Op.bind_error _ h]⟩

theorem memWrite32_ok (h : AccessValid s.params a 4) :
    memWrite32 a v s = .ok () (s.withMem (writeWord s.mem a v)) := by
  rw [memWrite32, Op.bind_ok _ (checkAccess_ok h)]; rfl

/-- A write of a word writes it whole, or faults at the lowest invalid address and writes no byte. -/
theorem memWrite32_cases (s : State) (a v : Word) :
    (AccessValid s.params a 4 ∧ memWrite32 a v s = .ok () (s.withMem (writeWord s.mem a v)))
      ∨ ∃ x, lowestInvalid s.params a 4 = some x ∧ memWrite32 a v s = .error x s := by
  rcases checkAccess_cases s a 4 with ⟨h, _⟩ | ⟨x, hx, h⟩
  · exact .inl ⟨h, memWrite32_ok h⟩
  · exact .inr ⟨x, hx, by rw [memWrite32, Op.bind_error _ h]⟩

/-- What a write keeps: whatever the written bytes themselves keep. -/
theorem preserves_memWrite (h : ∀ s, I s → I (s.withMem (writeBytes s.mem a bs))) :
    Op.Preserves I (memWrite a bs) := by
  intro s hs
  rcases memWrite_cases s a bs with ⟨_, hr⟩ | ⟨x, _, hr⟩ <;> rw [hr]
  · exact h s hs
  · exact hs

theorem preserves_memWrite32 (h : ∀ s, I s → I (s.withMem (writeBytes s.mem a (wordBytes v)))) :
    Op.Preserves I (memWrite32 a v) := by
  intro s hs
  rcases memWrite32_cases s a v with ⟨_, hr⟩ | ⟨x, _, hr⟩ <;> rw [hr]
  · exact h s hs
  · exact hs

/-! ### Copy (R16) -/

/-- The memory after `Copy(dst, src, n)`: byte by byte, in ascending order. -/
def copyCells (m : List Host.Cell) (dst src : Word) : Nat → List Host.Cell
  | 0 => m
  | n + 1 => copyCells (writeCell m dst.toNat (readCell m src.toNat)) (dst + 1) (src + 1) n

theorem succ_offset (a : Word) (i : Nat) : a + BitVec.ofNat 32 (i + 1) = a + 1 + BitVec.ofNat 32 i := by
  rw [BitVec.ofNat_add, BitVec.add_assoc, BitVec.add_comm (BitVec.ofNat 32 i)]; rfl

theorem copy_ok {dst src : Word} (hd : AccessValid s.params dst n) (hs : AccessValid s.params src n) :
    copy dst src n s = .ok () (s.withMem (copyCells s.mem dst src n)) := by
  induction n generalizing s dst src with
  | zero => rfl
  | succ n ih =>
    rw [accessValid_succ] at hd hs
    rw [copy, Op.bind_ok _ (memReadByte_ok hs.1),
      Op.bind_ok _ (memWrite_ok (bs := [s.byte src]) ((accessValid_one _ _).mpr hd.1))]
    exact ih (s := s.withMem _) hd.2 hs.2

/-- What a copy keeps: whatever writing any one byte of the destination keeps. -/
theorem preserves_copy {dst src : Word}
    (h : ∀ s j b, j < n → I s → I (s.withMem (writeCell s.mem (dst + BitVec.ofNat 32 j).toNat b))) :
    Op.Preserves I (copy dst src n) := by
  induction n generalizing dst src with
  | zero => exact preserves_pure ()
  | succ n ih =>
    refine preserves_bind (preserves_memReadByte src) fun b =>
      preserves_bind (preserves_memWrite fun s hs => ?_) fun _ => ih fun s j b hj hs => ?_
    · simpa using h s 0 b (by omega) hs
    · rw [← succ_offset]; exact h s (j + 1) b (by omega) hs

theorem copyCells_wf {m : List Host.Cell} {dst src : Word} (h : Memory.wf m = true) :
    Memory.wf (copyCells m dst src n) = true := by
  induction n generalizing m dst src with
  | zero => exact h
  | succ n ih => exact ih (writeCell_wf h dst.isLt)

/-- A copy leaves every address outside its destination alone. -/
theorem copyCells_other {m : List Host.Cell} {dst src : Word} (h : Outside dst n x) :
    readCell (copyCells m dst src n) x.toNat = readCell m x.toNat := by
  induction n generalizing m dst src with
  | zero => rfl
  | succ n ih =>
    rw [copyCells, ih fun j hj => by rw [← succ_offset]; exact h (j + 1) (by omega)]
    refine readCell_writeCell_other fun he => h 0 (by omega) ?_
    simpa using BitVec.eq_of_toNat_eq he

/-- A copy to a destination apart from its source copies every byte. -/
theorem copyCells_same {m : List Host.Cell} {dst src : Word} (hm : Memory.wf m = true)
    (hn : n ≤ 2 ^ 32) (ha : Apart dst n src n) {j : Nat} (hj : j < n) :
    readCell (copyCells m dst src n) (dst + BitVec.ofNat 32 j).toNat
      = readCell m (src + BitVec.ofNat 32 j).toNat := by
  induction n generalizing m dst src j with
  | zero => omega
  | succ n ih =>
    rw [copyCells]
    cases j with
    | zero =>
      rw [copyCells_other]
      · simpa using readCell_writeCell_same (b := readCell m src.toNat) hm
      · intro i hi
        rw [← succ_offset]
        exact offset_ne (by omega) (by omega) (by omega)
    | succ j =>
      rw [succ_offset dst, succ_offset src, ih (writeCell_wf hm dst.isLt) (by omega) _ (by omega)]
      · refine readCell_writeCell_other fun he => ?_
        have := ha 0 (by omega) (j + 1) (by omega)
        rw [succ_offset src] at this
        exact this (by simpa using (BitVec.eq_of_toNat_eq he).symm)
      · intro i hi k hk
        rw [← succ_offset, ← succ_offset]
        exact ha (i + 1) (by omega) (k + 1) (by omega)

end Sys2Proof.Machine
end

