-- ==== Sys2Proof/Laws/Ops.lean ====
section
/-! SUPPORT. Events, outputs, draws, completion and BusFault (10_state.md R61, R63, R75, 60_exceptions.md R425):
what each can do, said once, and what it keeps. -/

namespace Sys2Proof.Machine

variable {s t : State} {I : State → Prop}

/-! ### Events (R63) -/

@[simp] theorem emit_run (e : Word) (s : State) :
    emit e s = .ok () (s.withEv (s.ev.push s.params.evqDepth e)) := rfl

theorem preserves_emit {e : Word} (h : ∀ s, I s → I (s.withEv (s.ev.push s.params.evqDepth e))) :
    Op.Preserves I (emit e) := h

/-- A queue at or below its depth stays there. -/
theorem push_length {depth : Nat} {q : Events} {e : Word} (h : q.queue.length ≤ depth) :
    (q.push depth e).queue.length ≤ depth := by
  unfold Events.push
  split
  · simp; omega
  · exact h

@[simp] theorem pushAll_nil (depth : Nat) (q : Events) : q.pushAll depth [] = q := rfl

@[simp] theorem pushAll_cons (depth : Nat) (q : Events) (e : Word) (es : List Word) :
    q.pushAll depth (e :: es) = (q.push depth e).pushAll depth es := rfl

theorem pushAll_one (depth : Nat) (q : Events) (e : Word) : q.pushAll depth [e] = q.push depth e := rfl

/-- One event or none, counted. -/
theorem pushAll_if (depth : Nat) (q : Events) (c : Bool) (e : Word) :
    q.pushAll depth (if c then [e] else []) = if c then q.push depth e else q := by cases c <;> rfl

theorem pushAll_append (depth : Nat) (q : Events) (es fs : List Word) :
    q.pushAll depth (es ++ fs) = (q.pushAll depth es).pushAll depth fs := by
  simp [Events.pushAll]

/-! ### Outputs and draws (R17, R274, R280) -/

@[simp] theorem wireSend_run (bs : List Byte) (s : State) :
    wireSend bs s = .ok () (s.withOut { s.out with wireTx := s.out.wireTx ++ [bs] }) := rfl

@[simp] theorem drawTxOutcome_run (s : State) :
    drawTxOutcome s = .ok s.env.drawTx.1 (s.withEnv s.env.drawTx.2) := rfl

@[simp] theorem radioSend_run (pipe record : Word) (s : State) :
    radioSend pipe record s = .ok s.env.drawAck.1 (s.radioSent pipe record) := rfl

/-- A draw touches nothing but the draws. -/
@[simp] theorem drawTx_inputs (e : Env) : e.drawTx.2.inputs = e.inputs := by
  unfold Env.drawTx; split <;> rfl

@[simp] theorem drawAck_inputs (e : Env) : e.drawAck.2.inputs = e.inputs := by
  unfold Env.drawAck; split <;> rfl

@[simp] theorem drawAck_hostData (e : Env) : e.drawAck.2.hostData = e.hostData := by
  unfold Env.drawAck; split <;> rfl

/-! ### Completion and BusFault (R61, R425) -/

@[simp] theorem complete_eq (s : State) (op : Byte) (st : Status) (r : Results) :
    s.complete op st r
      = s.withCmd { s.cmd with res := r, status := st, lastop := op, pend := none, busy := false } := rfl

@[simp] theorem takeBusFault_eq (s : State) (src : FaultSource) (fop : Byte) (a : Word) :
    s.takeBusFault src fop a
      = s.withEng { s.eng with fault := true, fsrc := src, fop := fop, faultAddr := a } := rfl

/-- A command's body ended: the command completes. -/
theorem runCommand_ok {op : Byte} {body : Op (Status × Results)} {r : Status × Results}
    (h : body s = .ok r t) : runCommand op body s = .next (t.complete op r.1 r.2) := by
  rw [runCommand, h]

/-- A command's body faulted: the fault is recorded. -/
theorem runCommand_error {op : Byte} {body : Op (Status × Results)} {a : Word}
    (h : body s = .error a t) : runCommand op body s = .next (t.takeBusFault .ce op a) := by
  rw [runCommand, h]

/-- Everything a command can do: it answers a next state, completed or faulted. -/
theorem runCommand_cases (op : Byte) (body : Op (Status × Results)) (s : State) :
    (∃ r t, body s = .ok r t ∧ runCommand op body s = .next (t.complete op r.1 r.2))
      ∨ ∃ a t, body s = .error a t ∧ runCommand op body s = .next (t.takeBusFault .ce op a) := by
  cases h : body s with
  | ok r t => exact .inl ⟨r, t, rfl, runCommand_ok h⟩
  | error a t => exact .inr ⟨a, t, rfl, runCommand_error h⟩

/-- Everything an agent's step can do: it answers a next state, ended or faulted. -/
theorem runAgent_cases (src : FaultSource) (fop : Byte) (body : Op Unit) (s : State) :
    (∃ t, body s = .ok () t ∧ runAgent src fop body s = .next t)
      ∨ ∃ a t, body s = .error a t ∧ runAgent src fop body s = .next (t.takeBusFault src fop a) := by
  cases h : body s with
  | ok r t => exact .inl ⟨t, rfl, by rw [runAgent, h]⟩
  | error a t => exact .inr ⟨a, t, rfl, by rw [runAgent, h]⟩

/-- What a command keeps: what its body, its completion and a recorded fault keep. -/
theorem runCommand_preserves {op : Byte} {body : Op (Status × Results)} (hb : Op.Preserves I body)
    (hc : ∀ s c, I s → I (s.withCmd c)) (he : ∀ s e, I s → I (s.withEng e)) (hs : I s)
    (h : runCommand op body s = .next t) : I t := by
  rcases runCommand_cases op body s with ⟨r, u, hr, hn⟩ | ⟨a, u, hr, hn⟩
  · rw [hn] at h; cases h; exact hc _ _ (hb.ok hs hr)
  · rw [hn] at h; cases h; exact he _ _ (hb.error hs hr)

/-- What an agent's step keeps: what its body and a recorded fault keep. -/
theorem runAgent_preserves {src : FaultSource} {fop : Byte} {body : Op Unit} (hb : Op.Preserves I body)
    (he : ∀ s e, I s → I (s.withEng e)) (hs : I s) (h : runAgent src fop body s = .next t) : I t := by
  rcases runAgent_cases src fop body s with ⟨u, hr, hn⟩ | ⟨a, u, hr, hn⟩
  · rw [hn] at h; cases h; exact hb.ok hs hr
  · rw [hn] at h; cases h; exact he _ _ (hb.error hs hr)

/-! ### Which address a fault names (R425) -/

/-- A fault of this part names an address that fails MEM_VALID, and the parameters are untouched. -/
def Op.FaultsInvalid {α : Type} (op : Op α) : Prop :=
  ∀ s a t, op s = .error a t → memValid s.params a = false ∧ t.params = s.params

variable {α β : Type}

theorem faultsInvalid_pure (a : α) : Op.FaultsInvalid (pure a : Op α) := by
  intro s e t h; cases h

theorem faultsInvalid_update (f : State → State) : Op.FaultsInvalid (update f) := by
  intro s e t h; cases h

theorem faultsInvalid_current : Op.FaultsInvalid current := by
  intro s e t h; cases h

theorem faultsInvalid_bind {x : Op α} {f : α → Op β} (hx : Op.FaultsInvalid x)
    (hp : ∀ p, Op.Preserves (fun s => s.params = p) x) (hf : ∀ a, Op.FaultsInvalid (f a)) :
    Op.FaultsInvalid (x >>= f) := by
  intro s e t h
  rcases Op.bind_eq_error h with h | ⟨a, u, h1, h2⟩
  · exact hx s e t h
  · have hu := (hp s.params).ok rfl h1
    have := hf a u e t h2
    rwa [hu] at this

theorem faultsInvalid_memRead (a : Word) (n : Nat) : Op.FaultsInvalid (memRead a n) := by
  intro s e t h
  rcases memRead_cases s a n with ⟨_, h'⟩ | ⟨x, hx, h'⟩ <;> rw [h'] at h <;> cases h
  exact ⟨(lowestInvalid_some hx).1, rfl⟩

theorem faultsInvalid_memReadByte (a : Word) : Op.FaultsInvalid (memReadByte a) := by
  intro s e t h
  rcases memReadByte_cases s a with ⟨_, h'⟩ | ⟨hx, h'⟩ <;> rw [h'] at h <;> cases h
  exact ⟨hx, rfl⟩

theorem faultsInvalid_memRead32 (a : Word) : Op.FaultsInvalid (memRead32 a) := by
  intro s e t h
  rcases memRead32_cases s a with ⟨_, h'⟩ | ⟨x, hx, h'⟩ <;> rw [h'] at h <;> cases h
  exact ⟨(lowestInvalid_some hx).1, rfl⟩

theorem faultsInvalid_memWrite (a : Word) (bs : List Byte) : Op.FaultsInvalid (memWrite a bs) := by
  intro s e t h
  rcases memWrite_cases s a bs with ⟨_, h'⟩ | ⟨x, hx, h'⟩ <;> rw [h'] at h <;> cases h
  exact ⟨(lowestInvalid_some hx).1, rfl⟩

theorem faultsInvalid_memWrite32 (a v : Word) : Op.FaultsInvalid (memWrite32 a v) := by
  intro s e t h
  rcases memWrite32_cases s a v with ⟨_, h'⟩ | ⟨x, hx, h'⟩ <;> rw [h'] at h <;> cases h
  exact ⟨(lowestInvalid_some hx).1, rfl⟩

end Sys2Proof.Machine
end

