-- ==== Sys2Proof/Laws/Rings.lean ====
section
/-! SUPPORT. The ring operations (40_descriptor_ring.md R205, R206, R244, R245, R247): what each does when every
access is valid (`_ok`), and what it keeps whatever happens (`preserves_`). -/

namespace Sys2Proof.Machine

variable {s t : State} {I : State → Prop} {a x base : Word} {m : List Host.Cell}

/-! ### Words of memory -/

@[simp] theorem word_offset_zero : a + BitVec.ofNat 32 0 = a := by simp

/-- The second word of a descriptor starts at its fifth byte. -/
theorem second_word (a : Word) (j : Nat) : a + 4 + BitVec.ofNat 32 j = a + BitVec.ofNat 32 (4 + j) := by
  rw [BitVec.ofNat_add, BitVec.add_assoc]; rfl

theorem AccessValid.first {p : Params} (h : AccessValid p a 8) : AccessValid p a 4 := fun j hj => h j (by omega)

theorem AccessValid.second {p : Params} (h : AccessValid p a 8) : AccessValid p (a + 4) 4 := fun j hj => by
  rw [second_word]; exact h (4 + j) (by omega)

theorem Outside.first (h : Outside a 8 x) : Outside a 4 x := fun j hj => h j (by omega)

theorem Outside.second (h : Outside a 8 x) : Outside (a + 4) 4 x := fun j hj => by
  rw [second_word]; exact h (4 + j) (by omega)

/-- A write of a word leaves every other byte alone. -/
theorem readCell_writeWord_other {v : Word} (h : Outside a 4 x) :
    readCell (writeWord m a v) x.toNat = readCell m x.toNat :=
  readCell_writeBytes_other h

/-- A write of a word leaves every word apart from it alone. -/
theorem readWord_writeWord_other {b v : Word} (h : Apart b 4 a 4) :
    readWord (writeWord m a v) b = readWord m b :=
  readWord_congr fun j hj => readCell_writeWord_other (h j hj)

/-- A copy leaves every word apart from its destination alone. -/
theorem readWord_copyCells_other {b dst src : Word} {n : Nat} (h : Apart b 4 dst n) :
    readWord (copyCells m dst src n) b = readWord m b :=
  readWord_congr fun j hj => copyCells_other (h j hj)

theorem Apart.symm {b : Word} {n k : Nat} (h : Apart a n b k) : Apart b k a n :=
  fun i hi j hj he => h j hj i hi he.symm

theorem Apart.outside {b : Word} {n k j : Nat} (h : Apart a n b k) (hj : j < n) :
    Outside b k (a + BitVec.ofNat 32 j) := h j hj

/-- The two words of a descriptor lie apart. -/
theorem apart_words (a : Word) : Apart a 4 (a + 4) 4 := by
  intro i hi j hj
  rw [second_word]
  exact offset_ne (by omega) (by omega) (by omega)

/-! ### Arrays of descriptors (R102) -/

theorem descAddr_add (base : Word) (i j : Nat) :
    descAddr base i + BitVec.ofNat 32 j = base + BitVec.ofNat 32 (8 * i + j) := by
  rw [descAddr, BitVec.add_assoc, ← BitVec.ofNat_add]

/-- Two descriptors of an array lie apart. -/
theorem apart_desc {i j : Nat} (hi : i < 65536) (hj : j < 65536) (h : i ≠ j) :
    Apart (descAddr base i) 8 (descAddr base j) 8 := by
  intro k hk l hl
  rw [descAddr_add, descAddr_add]
  exact offset_ne (by omega) (by omega) (by omega)

theorem Apart.first_words {b : Word} (h : Apart a 8 b 8) : Apart a 4 b 4 :=
  fun i hi j hj => h i (by omega) j (by omega)

/-- Memory after the descriptors `i .. i + n - 1` of an array are written with the words `w0` and `w1`. -/
def initCells (base : Word) (w0 w1 : Nat → Word) : Nat → Nat → List Host.Cell → List Host.Cell
  | _, 0, m => m
  | i, n + 1, m =>
    initCells base w0 w1 (i + 1) n (writeWord (writeWord m (descAddr base i) (w0 i)) (descAddr base i + 4) (w1 i))

theorem initCells_wf {w0 w1 : Nat → Word} {i n : Nat} (h : Memory.wf m = true) :
    Memory.wf (initCells base w0 w1 i n m) = true := by
  induction n generalizing i m with
  | zero => exact h
  | succ n ih => exact ih (writeWord_wf (writeWord_wf h))

theorem initCells_other {w0 w1 : Nat → Word} {i n : Nat}
    (h : ∀ k, i ≤ k → k < i + n → Outside (descAddr base k) 8 x) :
    readCell (initCells base w0 w1 i n m) x.toNat = readCell m x.toNat := by
  induction n generalizing i m with
  | zero => rfl
  | succ n ih =>
    have h0 := h i (by omega) (by omega)
    rw [initCells, ih fun k h1 h2 => h k (by omega) (by omega), readCell_writeWord_other h0.second,
      readCell_writeWord_other h0.first]

/-- Every descriptor of the array holds its two words. -/
theorem initCells_words {w0 w1 : Nat → Word} {i n k : Nat} (hm : Memory.wf m = true) (hb : i + n ≤ 65536)
    (hi : i ≤ k) (hk : k < i + n) :
    readWord (initCells base w0 w1 i n m) (descAddr base k) = w0 k
      ∧ readWord (initCells base w0 w1 i n m) (descAddr base k + 4) = w1 k := by
  induction n generalizing i m with
  | zero => omega
  | succ n ih =>
    rw [initCells]
    by_cases he : i = k
    · subst he
      have hout : ∀ j, j < 8 → ∀ k, i + 1 ≤ k → k < i + 1 + n →
          Outside (descAddr base k) 8 (descAddr base i + BitVec.ofNat 32 j) := fun j hj k h1 h2 =>
        apart_desc (by omega) (by omega) (by omega) j hj
      constructor
      · rw [readWord_congr (fun j hj => initCells_other (hout j (by omega))),
          readWord_writeWord_other (apart_words _), readWord_writeWord_same hm]
      · refine Eq.trans (readWord_congr fun j hj => ?_)
          (readWord_writeWord_same (writeWord_wf (a := descAddr base i) (v := w0 i) hm))
        rw [second_word]
        exact initCells_other (hout (4 + j) (by omega))
    · exact ih (writeWord_wf (writeWord_wf hm)) (by omega) (by omega) (by omega)

/-! ### The number of pending TX descriptors (R11) -/

theorem count_lt {r : TxRing} (ht : r.tail.toNat < r.cap.toNat) : r.count < r.cap.toNat :=
  Nat.mod_lt _ (Nat.lt_of_le_of_lt (Nat.zero_le _) ht)

/-- The pending descriptors end at the head. -/
theorem tail_add_count {r : TxRing} (hh : r.head.toNat < r.cap.toNat) (ht : r.tail.toNat < r.cap.toNat) :
    (r.tail.toNat + r.count) % r.cap.toNat = r.head.toNat := by
  unfold TxRing.count ringCount
  rw [Nat.add_mod_mod, show r.tail.toNat + (r.head.toNat + r.cap.toNat - r.tail.toNat)
    = r.head.toNat + r.cap.toNat by omega, Nat.add_mod_right, Nat.mod_eq_of_lt hh]

/-- No pending descriptor is the head. -/
theorem tail_add_ne_head {r : TxRing} (hh : r.head.toNat < r.cap.toNat) (ht : r.tail.toNat < r.cap.toNat) {k : Nat}
    (hk : k < r.count) : (r.tail.toNat + k) % r.cap.toNat ≠ r.head.toNat := by
  have hc := count_lt ht
  intro he
  rw [← tail_add_count hh ht] at he
  have h1 := Nat.ModEq.add_left_cancel' r.tail.toNat he
  rw [Nat.ModEq, Nat.mod_eq_of_lt (by omega), Nat.mod_eq_of_lt hc] at h1
  omega

/-- After `n` pending descriptors are reported, `n` fewer are pending. -/
theorem count_advance {r : TxRing} (hh : r.head.toNat < r.cap.toNat) (ht : r.tail.toNat < r.cap.toNat) {n : Nat}
    (hn : n ≤ r.count) :
    ringCount r.cap.toNat r.head.toNat ((r.tail.toNat + n) % r.cap.toNat) = r.count - n := by
  have hc := count_lt ht
  have hpos : 0 < r.cap.toNat := by omega
  have hlt := Nat.mod_lt (r.tail.toNat + n) hpos
  have h1 : ringCount r.cap.toNat r.head.toNat ((r.tail.toNat + n) % r.cap.toNat) < r.cap.toNat := Nat.mod_lt _ hpos
  have h2 : ((r.tail.toNat + n) + ringCount r.cap.toNat r.head.toNat ((r.tail.toNat + n) % r.cap.toNat))
      % r.cap.toNat = ((r.tail.toNat + n) + (r.count - n)) % r.cap.toNat := by
    rw [show r.tail.toNat + n + (r.count - n) = r.tail.toNat + r.count by omega, tail_add_count hh ht, ringCount,
      Nat.add_mod_mod, ← Nat.mod_add_mod, show (r.tail.toNat + n) % r.cap.toNat
        + (r.head.toNat + r.cap.toNat - (r.tail.toNat + n) % r.cap.toNat) = r.head.toNat + r.cap.toNat by omega,
      Nat.add_mod_right, Nat.mod_eq_of_lt hh]
  have h3 := Nat.ModEq.add_left_cancel' _ h2
  exact Nat.ModEq.eq_of_lt_of_lt h3 h1 (by omega)

/-! ### RxDescInit, TxDescInit (R205) -/

/-- `RxDescInit` over a run of descriptors: every one is written, and nothing else changes. -/
theorem forRange_rxDescInit_ok {i n : Nat}
    (h : ∀ k, i ≤ k → k < i + n → AccessValid s.params (s.rx.desc k) 8) :
    forRange rxDescInit i n s = .ok () (s.withMem (initCells s.rx.dbase
      (rxInitWord0 s.rx.bbase s.params.rxUnit s.rx.cap.toNat) (fun _ => 0) i n s.mem)) := by
  induction n generalizing i s with
  | zero => rfl
  | succ n ih =>
    have h0 := h i (by omega) (by omega)
    have e : rxDescInit i s = .ok () (s.withMem (writeWord (writeWord s.mem (s.rx.desc i)
        (rxInitWord0 s.rx.bbase s.params.rxUnit s.rx.cap.toNat i)) (s.rx.desc i + 4) 0)) := by
      rw [rxDescInit, Op.current_bind, Op.bind_ok _ (memWrite32_ok h0.first)]
      exact memWrite32_ok (s := s.withMem _) h0.second
    rw [forRange, Op.bind_ok _ e, ih]
    · rfl
    · exact fun k h1 h2 => h k (by omega) (by omega)

/-- `TxDescInit` over a run of descriptors. -/
theorem forRange_txDescInit_ok {i n : Nat}
    (h : ∀ k, i ≤ k → k < i + n → AccessValid s.params (s.tx.desc k) 8) :
    forRange txDescInit i n s = .ok () (s.withMem (initCells s.tx.dbase
      (bufferAddr s.tx.bbase s.params.txUnit) (txInitWord1 s.tx.cap.toNat) i n s.mem)) := by
  induction n generalizing i s with
  | zero => rfl
  | succ n ih =>
    have h0 := h i (by omega) (by omega)
    have e : txDescInit i s = .ok () (s.withMem (writeWord (writeWord s.mem (s.tx.desc i)
        (bufferAddr s.tx.bbase s.params.txUnit i)) (s.tx.desc i + 4) (txInitWord1 s.tx.cap.toNat i))) := by
      rw [txDescInit, Op.current_bind, Op.bind_ok _ (memWrite32_ok h0.first)]
      exact memWrite32_ok (s := s.withMem _) h0.second
    rw [forRange, Op.bind_ok _ e, ih]
    · rfl
    · exact fun k h1 h2 => h k (by omega) (by omega)

/-- The property is kept by a write of any word at a word of descriptor `i` of the array at `base`. -/
def KeptByDesc (I : State → Prop) (arr : State → Nat → Word) (i : Nat) : Prop :=
  ∀ s v, I s → I (s.withMem (writeWord s.mem (arr s i) v)) ∧ I (s.withMem (writeWord s.mem (arr s i + 4) v))

theorem preserves_rxDescInit {i : Nat} (h : KeptByDesc I (fun s => s.rx.desc) i) : Op.Preserves I (rxDescInit i) := by
  refine preserves_current_bind fun s hs => ?_
  rcases memWrite32_cases s (s.rx.desc i) (rxInitWord0 s.rx.bbase s.params.rxUnit s.rx.cap.toNat i) with
    ⟨_, h1⟩ | ⟨x, _, h1⟩
  · rw [Op.bind_ok _ h1]
    have hs' := (h s (rxInitWord0 s.rx.bbase s.params.rxUnit s.rx.cap.toNat i) hs).1
    rcases memWrite32_cases (s.withMem (writeWord s.mem (s.rx.desc i)
      (rxInitWord0 s.rx.bbase s.params.rxUnit s.rx.cap.toNat i))) (s.rx.desc i + 4) 0 with ⟨_, h2⟩ | ⟨x, _, h2⟩
    · rw [h2]; exact (h _ 0 hs').2
    · rw [h2]; exact hs'
  · rw [Op.bind_error _ h1]; exact hs

theorem preserves_txDescInit {i : Nat} (h : KeptByDesc I (fun s => s.tx.desc) i) : Op.Preserves I (txDescInit i) := by
  refine preserves_current_bind fun s hs => ?_
  rcases memWrite32_cases s (s.tx.desc i) (bufferAddr s.tx.bbase s.params.txUnit i) with ⟨_, h1⟩ | ⟨x, _, h1⟩
  · rw [Op.bind_ok _ h1]
    have hs' := (h s (bufferAddr s.tx.bbase s.params.txUnit i) hs).1
    rcases memWrite32_cases (s.withMem (writeWord s.mem (s.tx.desc i) (bufferAddr s.tx.bbase s.params.txUnit i)))
      (s.tx.desc i + 4) (txInitWord1 s.tx.cap.toNat i) with ⟨_, h2⟩ | ⟨x, _, h2⟩
    · rw [h2]; exact (h _ _ hs').2
    · rw [h2]; exact hs'
  · rw [Op.bind_error _ h1]; exact hs

/-- A loop keeps what each of its passes keeps. -/
theorem preserves_forRange_lt {body : Nat → Op Unit} {n i : Nat}
    (h : ∀ k, i ≤ k → k < i + n → Op.Preserves I (body k)) : Op.Preserves I (forRange body i n) := by
  induction n generalizing i with
  | zero => exact preserves_pure ()
  | succ n ih =>
    exact preserves_bind (h i (by omega) (by omega)) fun _ => ih fun k h1 h2 => h k (by omega) (by omega)

/-! ### Release (R206) -/

/-- Release of one descriptor: word 0 without OWN. -/
theorem releaseDesc_ok {p : Nat} (h : AccessValid s.params (s.rx.desc p) 4) :
    releaseDesc p s = .ok () (s.withMem (writeWord s.mem (s.rx.desc p)
      (readWord s.mem (s.rx.desc p) &&& 0xFFFFFFFE))) := by
  rw [releaseDesc, Op.current_bind, Op.bind_ok _ (memRead32_ok h)]
  exact memWrite32_ok h

/-- Memory after the `n` descriptors from `p` of a ring of `cap` are released. -/
def releaseCells (base : Word) (cap : Nat) : Nat → Nat → List Host.Cell → List Host.Cell
  | _, 0, m => m
  | p, n + 1, m =>
    releaseCells base cap (ringInc cap p) n
      (writeWord m (descAddr base p) (readWord m (descAddr base p) &&& 0xFFFFFFFE))

theorem ringInc_lt {cap p : Nat} (h : 0 < cap) : ringInc cap p < cap := Nat.mod_lt _ h

/-- The `k`-th descriptor of a run that starts at `p`. -/
theorem ringInc_add (cap p k : Nat) : (ringInc cap p + k) % cap = (p + (k + 1)) % cap := by
  rw [ringInc, Nat.mod_add_mod]; congr 1; omega

/-- A run of releases: every descriptor of the run is released, and nothing else changes. -/
theorem releaseRun_ok {p n : Nat} (hp : p < s.rx.cap.toNat)
    (h : ∀ k, k < n → AccessValid s.params (s.rx.desc ((p + k) % s.rx.cap.toNat)) 4) :
    releaseRun p n s = .ok () (s.withMem (releaseCells s.rx.dbase s.rx.cap.toNat p n s.mem)) := by
  induction n generalizing p s with
  | zero => rfl
  | succ n ih =>
    have h0 := h 0 (by omega)
    rw [Nat.add_zero, Nat.mod_eq_of_lt hp] at h0
    rw [releaseRun, Op.bind_ok _ (releaseDesc_ok h0), Op.current_bind]
    refine ih (s := s.withMem _) (ringInc_lt (Nat.lt_of_le_of_lt (Nat.zero_le p) hp)) fun k hk => ?_
    have := h (k + 1) (by omega)
    simp only [State.withMem_rx, State.withMem_params]
    rwa [ringInc_add]

theorem releaseCells_wf {cap p n : Nat} (h : Memory.wf m = true) : Memory.wf (releaseCells base cap p n m) = true := by
  induction n generalizing p m with
  | zero => exact h
  | succ n ih => exact ih (writeWord_wf h)

theorem releaseCells_other {cap p n : Nat} (hp : p < cap)
    (h : ∀ k, k < n → Outside (descAddr base ((p + k) % cap)) 4 x) :
    readCell (releaseCells base cap p n m) x.toNat = readCell m x.toNat := by
  induction n generalizing p m with
  | zero => rfl
  | succ n ih =>
    have h0 := h 0 (by omega)
    rw [Nat.add_zero, Nat.mod_eq_of_lt hp] at h0
    rw [releaseCells, ih (ringInc_lt (by omega)) fun k hk => by rw [ringInc_add]; exact h (k + 1) (by omega),
      readCell_writeWord_other h0]

/-- Two places of a run of at most `cap` descriptors are different descriptors. -/
theorem ring_ne {cap p i j : Nat} (hi : i < cap) (hj : j < cap) (h : i ≠ j) : (p + i) % cap ≠ (p + j) % cap := by
  intro he
  have h1 := Nat.ModEq.add_left_cancel' p he
  rw [Nat.ModEq, Nat.mod_eq_of_lt hi, Nat.mod_eq_of_lt hj] at h1
  exact h h1

/-- Word 0 of each descriptor of the run, after it is released. -/
theorem releaseCells_word {cap p n k : Nat} (hm : Memory.wf m = true) (hp : p < cap) (hc : cap ≤ 65536)
    (hn : n ≤ cap) (hk : k < n) :
    readWord (releaseCells base cap p n m) (descAddr base ((p + k) % cap))
      = readWord m (descAddr base ((p + k) % cap)) &&& 0xFFFFFFFE := by
  induction n generalizing p m k with
  | zero => omega
  | succ n ih =>
    have hpos : 0 < cap := by omega
    rw [releaseCells]
    cases k with
    | zero =>
      rw [Nat.add_zero, Nat.mod_eq_of_lt hp, readWord_congr, readWord_writeWord_same hm]
      intro j hj
      refine releaseCells_other (ringInc_lt hpos) fun k hk => ?_
      rw [ringInc_add]
      have hne := ring_ne (cap := cap) (p := p) (i := 0) (j := k + 1) hpos (by omega) (by omega)
      rw [Nat.add_zero, Nat.mod_eq_of_lt hp] at hne
      exact (apart_desc (by omega) (by have := Nat.mod_lt (p + (k + 1)) hpos; omega) hne).first_words j hj
    | succ k =>
      rw [← ringInc_add, ih (writeWord_wf hm) (ringInc_lt hpos) (by omega) (by omega), ringInc_add,
        readWord_writeWord_other]
      have hne := ring_ne (cap := cap) (p := p) (i := k + 1) (j := 0) (by omega) hpos (by omega)
      rw [Nat.add_zero p, Nat.mod_eq_of_lt hp] at hne
      exact (apart_desc (by have := Nat.mod_lt (p + (k + 1)) hpos; omega) (by omega) hne).first_words

/-- What a release keeps. -/
theorem preserves_releaseDesc {p : Nat} (h : ∀ s v, I s → I (s.withMem (writeWord s.mem (s.rx.desc p) v))) :
    Op.Preserves I (releaseDesc p) := by
  refine preserves_current_bind fun s hs => ?_
  rcases memRead32_cases s (s.rx.desc p) with ⟨_, h1⟩ | ⟨x, _, h1⟩
  · rw [Op.bind_ok _ h1]
    rcases memWrite32_cases s (s.rx.desc p) (readWord s.mem (s.rx.desc p) &&& 0xFFFFFFFE) with ⟨_, h2⟩ | ⟨x, _, h2⟩
    · rw [h2]; exact h _ _ hs
    · rw [h2]; exact hs
  · rw [Op.bind_error _ h1]; exact hs

/-- What a run of releases keeps: whatever a write to word 0 of any of its descriptors keeps. `P` is any set of ring
indices that the ring's arithmetic does not leave. -/
theorem preserves_releaseRun {cap n p : Nat} {P : Nat → Prop} (hc : ∀ s, I s → s.rx.cap.toNat = cap)
    (hP : ∀ i j, P i → P ((i + j) % cap)) (h : ∀ i, P i → ∀ s v, I s → I (s.withMem (writeWord s.mem (s.rx.desc i) v)))
    (hp : P p) : Op.Preserves I (releaseRun p n) := by
  induction n generalizing p with
  | zero => exact preserves_pure ()
  | succ n ih =>
    refine preserves_bind (preserves_releaseDesc (h p hp)) fun _ => preserves_current_bind fun s hs => ?_
    exact ih (p := ringInc s.rx.cap.toNat p) (by rw [hc s hs]; exact hP p 1 hp) s hs

/-! ### READ (R211) -/

/-- The scan ends at a hardware-owned descriptor: EMPTY, with RX_TAIL at the start of what it holds (R214). -/
theorem readScan_empty {dest : Word} {maxLen n k : Nat} {sc : Scan} (hv : AccessValid s.params (s.rx.desc sc.p) 4)
    (ho : rxOwn (readWord s.mem (s.rx.desc sc.p)) = false) :
    readScan dest maxLen n (k + 1) sc s = .ok (.empty, readResults 0 0 sc.released)
      (s.withRx { s.rx with tail := BitVec.ofNat 16 sc.t }) := by
  rw [readScan, Op.current_bind, Op.bind_ok _ (memRead32_ok hv), if_pos ho]
  rfl

/-- A software-owned descriptor outside a frame and without SOF is released (R211). -/
theorem readScan_skip {dest : Word} {maxLen k : Nat} {sc : Scan}
    (hv : AccessValid s.params (s.rx.desc sc.p) 8) (ho : rxOwn (readWord s.mem (s.rx.desc sc.p)) = true)
    (hsof : rxSof (readWord s.mem (s.rx.desc sc.p + 4)) = false) (hf : sc.inFrame = false) {n : Nat} :
    readScan dest maxLen n (k + 1) sc s
      = readScan dest maxLen n k
          { sc with t := ringInc n sc.p, p := ringInc n sc.p, released := sc.released + 1 }
          (s.withMem (writeWord s.mem (s.rx.desc sc.p) (readWord s.mem (s.rx.desc sc.p) &&& 0xFFFFFFFE))) := by
  have h1 : releaseRun sc.p 1 s = .ok () (s.withMem (writeWord s.mem (s.rx.desc sc.p)
      (readWord s.mem (s.rx.desc sc.p) &&& 0xFFFFFFFE))) := by
    rw [releaseRun, Op.bind_ok _ (releaseDesc_ok hv.first)]; rfl
  rw [readScan, Op.current_bind, Op.bind_ok _ (memRead32_ok hv.first), if_neg (by rw [ho]; decide),
    Op.bind_ok _ (memRead32_ok hv.second)]
  have h2 : scanSof (readWord s.mem (s.rx.desc sc.p + 4)) sc s = .ok sc s := by
    rw [scanSof, if_neg (by rw [hsof]; decide)]; rfl
  rw [Op.bind_ok _ h2, if_pos hf, Op.bind_ok _ h1]

/-- A descriptor inside a frame, without SOF and EOF: its bytes are copied, the scan goes on (R211). -/
theorem readScan_more {dest : Word} {maxLen n k : Nat} {sc : Scan} {w0 w1 : Word} {c : Nat}
    (hv : AccessValid s.params (s.rx.desc sc.p) 8) (h0 : w0 = readWord s.mem (s.rx.desc sc.p))
    (h1 : w1 = readWord s.mem (s.rx.desc sc.p + 4)) (ho : rxOwn w0 = true) (hsof : rxSof w1 = false)
    (hf : sc.inFrame = true) (heof : rxEof w1 = false)
    (hc : c = min (usedBytes s.params.rxUnit w1 (sc.nf + 1)) (maxLen - sc.copied))
    (hd : AccessValid s.params (dest + BitVec.ofNat 32 sc.copied) c) (hs : AccessValid s.params (rxAddr w0) c) :
    readScan dest maxLen n (k + 1) sc s
      = readScan dest maxLen n k { sc with p := ringInc n sc.p, nf := sc.nf + 1, copied := sc.copied + c }
          (s.withMem (copyCells s.mem (dest + BitVec.ofNat 32 sc.copied) (rxAddr w0) c)) := by
  subst h0 h1 hc
  rw [readScan, Op.current_bind, Op.bind_ok _ (memRead32_ok hv.first), if_neg (by rw [ho]; decide),
    Op.bind_ok _ (memRead32_ok hv.second)]
  have h2 : scanSof (readWord s.mem (s.rx.desc sc.p + 4)) sc s = .ok sc s := by
    rw [scanSof, if_neg (by rw [hsof]; decide)]; rfl
  rw [Op.bind_ok _ h2, if_neg (by rw [hf]; decide)]
  refine (Op.bind_ok _ (copy_ok hd hs)).trans ?_
  rw [if_neg (by rw [heof]; decide)]

/-- A SOF with no frame held begins a frame at its descriptor (R211). -/
theorem scanSof_fresh {w1 : Word} {sc : Scan} (hsof : rxSof w1 = true) (hnf : sc.nf = 0) :
    scanSof w1 sc s = .ok ⟨sc.p, sc.p, true, 0, 0, sc.released⟩ s := by
  rw [scanSof, if_pos hsof, hnf]; rfl

/-- What the scan of READ keeps: whatever a write to word 0 of a descriptor it releases, a write of one of the
`maxLen` bytes at `dest`, and an update of RX_TAIL keep. -/
theorem preserves_readScan {dest : Word} {maxLen cap : Nat} {P : Nat → Prop}
    (hc : ∀ s, I s → s.rx.cap.toNat = cap) (hP : ∀ i j, P i → P ((i + j) % cap))
    (hr : ∀ i, P i → ∀ s v, I s → I (s.withMem (writeWord s.mem (s.rx.desc i) v)))
    (hd : ∀ s j b, j < maxLen → I s → I (s.withMem (writeCell s.mem (dest + BitVec.ofNat 32 j).toNat b)))
    (ht : ∀ s i, P i → I s → I (s.withRx { s.rx with tail := BitVec.ofNat 16 i })) :
    ∀ k sc, P sc.t → P sc.p → Op.Preserves I (readScan dest maxLen cap k sc) := by
  have hrel : ∀ {n p}, P p → Op.Preserves I (releaseRun p n) := preserves_releaseRun hc hP hr
  have htail : ∀ {i}, P i → Op.Preserves I (setRxTail i) := fun hi => preserves_update fun s hs => ht s _ hi hs
  intro k
  induction k with
  | zero =>
    intro sc h1 _
    exact preserves_bind (hrel h1) fun _ => preserves_bind (htail (hP _ _ h1)) fun _ => preserves_pure _
  | succ k ih =>
    intro sc h1 h2
    rw [readScan]
    refine preserves_current_bind fun s hs => ?_
    refine preserves_bind (preserves_memRead32 _) (fun w0 => ?_) s hs
    split
    · exact preserves_bind (htail h1) fun _ => preserves_pure _
    · refine preserves_bind (preserves_memRead32 _) fun w1 => ?_
      refine preserves_bind_from ?_ fun sc' u v he => ?_
      · unfold scanSof
        split
        · exact preserves_bind (hrel h1) fun _ => preserves_pure _
        · exact preserves_pure _
      · obtain ⟨h5, h6⟩ : P sc'.t ∧ P sc'.p := by
          unfold scanSof at he
          split at he
          · obtain ⟨_, w, _, h4⟩ := Op.bind_eq_ok he
            cases h4; exact ⟨h2, h2⟩
          · cases he; exact ⟨h1, h2⟩
        split
        · exact preserves_bind (hrel h6) fun _ => ih _ (hP _ 1 h6) (hP _ 1 h6)
        · refine preserves_bind (preserves_copy fun w j b hj hw => ?_) fun _ => ?_
          · rw [BitVec.add_assoc, ← BitVec.ofNat_add]
            exact hd w _ b (by omega) hw
          · split
            · exact preserves_bind (hrel h5) fun _ => preserves_bind (htail (hP _ 1 h6)) fun _ => preserves_pure _
            · exact ih _ h5 (hP _ 1 h6)

/-- What READ keeps. -/
theorem preserves_readBody {dest maxLen : Word} {cap : Nat} {P : Nat → Prop}
    (hc : ∀ s, I s → s.rx.cap.toNat = cap) (hP : ∀ i j, P i → P ((i + j) % cap))
    (h0 : ∀ s, I s → P s.rx.tail.toNat)
    (hr : ∀ i, P i → ∀ s v, I s → I (s.withMem (writeWord s.mem (s.rx.desc i) v)))
    (hd : ∀ s j b, j < maxLen.toNat → I s → I (s.withMem (writeCell s.mem (dest + BitVec.ofNat 32 j).toNat b)))
    (ht : ∀ s i, P i → I s → I (s.withRx { s.rx with tail := BitVec.ofNat 16 i })) :
    Op.Preserves I (readBody dest maxLen) := by
  refine preserves_current_bind fun s hs => ?_
  split
  · exact hs
  · split
    · exact hs
    · have := preserves_readScan (dest := dest) (maxLen := maxLen.toNat) hc hP hr hd ht
      rw [hc s hs]
      exact this _ _ (h0 s hs) (h0 s hs) s hs

end Sys2Proof.Machine
end

