-- ==== Sys2Proof/Laws/Commands.lean ====
section
/-! SUPPORT. What the ring commands keep, however they end: INIT (40_descriptor_ring.md R203), WRITE (R221) and
SERVICE (R241). Each lemma names the updates the command makes; a property that every one of them keeps holds
afterwards, completed or faulted. -/

namespace Sys2Proof.Machine

variable {s t : State} {I : State → Prop}

/-! ### INIT -/

/-- INIT ends with PARAM and no change, or every property that its updates keep holds at its end. -/
theorem initBody_final {rc tc rd td rb tb : Word} (h0 : I (s.initStart rc tc rd td rb tb))
    (hr : ∀ i, i < rc.toNat → KeptByDesc I (fun s => s.rx.desc) i)
    (ht : ∀ i, i < tc.toNat → KeptByDesc I (fun s => s.tx.desc) i)
    (hf : ∀ s, I s → I (s.initFinish rc tc rd td rb tb)) :
    initBody rc tc rd td rb tb s = .ok (.param, Results.zero) s
      ∨ (initCapsBad s.params rc tc = false ∧ initBasesBad rd td rb tb = false
          ∧ I (Op.final (initBody rc tc rd td rb tb s))) := by
  unfold initBody
  rw [Op.current_bind]
  cases hc : initCapsBad s.params rc tc
  · cases hb : initBasesBad rd td rb tb
    · refine .inr ⟨rfl, rfl, ?_⟩
      have hp : Op.Preserves I (forRange rxDescInit 0 rc.toNat >>= fun _ => forRange txDescInit 0 tc.toNat >>= fun _ =>
          update (fun s => s.initFinish rc tc rd td rb tb) >>= fun _ => pure (Status.ok, Results.zero)) :=
        preserves_bind (preserves_forRange_lt fun k _ h => preserves_rxDescInit (hr k (by omega))) fun _ =>
          preserves_bind (preserves_forRange_lt fun k _ h => preserves_txDescInit (ht k (by omega))) fun _ =>
            preserves_bind (preserves_update hf) fun _ => preserves_pure _
      exact hp _ h0
    · exact .inl rfl
  · exact .inl rfl

/-- A run of descriptor writes changes memory only. -/
theorem forRange_mem_only {body : Nat → Op Unit} {n i : Nat}
    (hb : ∀ k s, ∃ m, Op.final (body k s) = s.withMem m) : ∃ m, Op.final (forRange body i n s) = s.withMem m := by
  have hp : Op.Preserves (fun u => ∃ m, u = s.withMem m) (forRange body i n) :=
    preserves_forRange (fun k u hu => by
      obtain ⟨m, rfl⟩ := hu
      obtain ⟨m', h⟩ := hb k (s.withMem m)
      exact ⟨m', by rw [h]; rfl⟩) _ _
  exact hp s ⟨s.mem, rfl⟩

theorem rxDescInit_mem_only (i : Nat) (s : State) : ∃ m, Op.final (rxDescInit i s) = s.withMem m :=
  preserves_rxDescInit (I := fun u => ∃ m, u = s.withMem m) (i := i)
    (fun u v hu => by obtain ⟨m, rfl⟩ := hu; exact ⟨⟨_, rfl⟩, ⟨_, rfl⟩⟩) s ⟨s.mem, rfl⟩

theorem txDescInit_mem_only (i : Nat) (s : State) : ∃ m, Op.final (txDescInit i s) = s.withMem m :=
  preserves_txDescInit (I := fun u => ∃ m, u = s.withMem m) (i := i)
    (fun u v hu => by obtain ⟨m, rfl⟩ := hu; exact ⟨⟨_, rfl⟩, ⟨_, rfl⟩⟩) s ⟨s.mem, rfl⟩

/-- How INIT ends without a fault: PARAM and no change, or OK and, but for memory, exactly the state of R203. -/
theorem initBody_ok_cases {rc tc rd td rb tb : Word} {r : Status × Results} {u : State}
    (h : initBody rc tc rd td rb tb s = .ok r u) :
    (r = (.param, Results.zero) ∧ u = s)
      ∨ (initCapsBad s.params rc tc = false ∧ initBasesBad rd td rb tb = false ∧ r = (.ok, Results.zero)
          ∧ ∃ m, u = ((s.initStart rc tc rd td rb tb).withMem m).initFinish rc tc rd td rb tb) := by
  unfold initBody at h
  rw [Op.current_bind] at h
  cases hc : initCapsBad s.params rc tc <;> rw [hc] at h
  · cases hb : initBasesBad rd td rb tb <;> rw [hb] at h
    · refine .inr ⟨rfl, rfl, ?_⟩
      obtain ⟨_, v, h1, h⟩ := Op.bind_eq_ok h
      cases h1
      obtain ⟨_, v, h1, h⟩ := Op.bind_eq_ok h
      obtain ⟨m1, e1⟩ := forRange_mem_only (i := 0) (n := rc.toNat) (s := s.initStart rc tc rd td rb tb)
        rxDescInit_mem_only
      rw [h1] at e1
      obtain rfl : v = _ := e1
      obtain ⟨_, v, h2, h⟩ := Op.bind_eq_ok h
      obtain ⟨m2, e2⟩ := forRange_mem_only (i := 0) (n := tc.toNat)
        (s := (s.initStart rc tc rd td rb tb).withMem m1) txDescInit_mem_only
      rw [h2] at e2
      obtain rfl : v = _ := e2
      cases h
      exact ⟨rfl, m2, rfl⟩
    · cases h; exact .inl ⟨rfl, rfl⟩
  · cases h; exact .inl ⟨rfl, rfl⟩

/-! ### WRITE -/

/-- What WRITE keeps. `buf` is the buffer address its descriptor holds. -/
theorem writeBody_final {src len : Word} {tag : Half} (hs : I s)
    (hcopy : ∀ u j b, j < len.toNat → I u →
      I (u.withMem (writeCell u.mem (readWord s.mem (s.tx.desc s.tx.head.toNat) + BitVec.ofNat 32 j).toNat b)))
    (hword : ∀ u v, I u → I (u.withMem (writeWord u.mem (s.tx.desc s.tx.head.toNat + 4) v)))
    (htag : ∀ u, I u → I (u.withTx { u.tx with tags := u.tx.tags.set s.tx.head.toNat tag }))
    (hhead : ∀ u, I u → I (u.withTx { u.tx with head := BitVec.ofNat 16 (ringInc u.tx.cap.toNat s.tx.head.toNat) }))
    (hgo : ∀ u, I u → I u.tstart) : I (Op.final (writeBody src len tag s)) := by
  unfold writeBody
  rw [Op.current_bind]
  split
  · exact hs
  split
  · exact hs
  split
  · exact hs
  · unfold writeFill
    rw [Op.current_bind]
    rcases memRead32_cases s (s.tx.desc s.tx.head.toNat) with ⟨_, h⟩ | ⟨x, _, h⟩
    · rw [Op.bind_ok _ h]
      have hp := preserves_bind (preserves_copy (src := src) (n := len.toNat) hcopy) fun _ =>
        preserves_bind (preserves_update htag) fun _ =>
          preserves_bind (preserves_memWrite32 (v := txWriteWord1 len s.tx.cap.toNat s.tx.head.toNat)
            fun u hu => hword u _ hu) fun _ =>
            preserves_bind (preserves_update hhead) fun _ =>
              preserves_bind (preserves_update hgo) fun _ =>
                preserves_pure (Status.ok, Results.mk (BitVec.ofNat 32 s.tx.head.toNat) 0 0 0)
      exact hp s hs
    · rw [Op.bind_error _ h]; exact hs

/-! ### SERVICE -/

/-- The updates SERVICE makes, each of which keeps the property. `P` is any set of TX ring indices that holds
TX_TAIL and that the ring's increment does not leave. -/
structure KeptByService (I : State → Prop) (rcap tcap : Nat) (P : Nat → Prop) : Prop where
  rxCap : ∀ s, I s → s.rx.cap.toNat = rcap
  txCap : ∀ s, I s → s.tx.cap.toNat = tcap
  closed : ∀ i, P i → P (ringInc tcap i)
  start : ∀ s, I s → P s.tx.tail.toNat
  clear : ∀ s, I s → I s.clearStatus
  emit : ∀ s e, I s → I (s.withEv (s.ev.push s.params.evqDepth e))
  rxStop : ∀ s, I s → I s.rxStopped
  rxDesc : ∀ i, i < rcap → KeptByDesc I (fun s => s.rx.desc) i
  rxStart : ∀ s, I s → I s.rxRestarted
  tail : ∀ s i, P i → I s → I (s.withTx { s.tx with tail := BitVec.ofNat 16 i })
  txStop : ∀ s, I s → I s.txStopped
  txDesc : ∀ i, i < tcap → KeptByDesc I (fun s => s.tx.desc) i
  tag : ∀ s i, I s → I (s.withTx { s.tx with tags := s.tx.tags.set i 0 })
  txStart : ∀ s, I s → I s.txRestarted

variable {rcap tcap : Nat} {P : Nat → Prop}

theorem preserves_rxRingReset (h : KeptByService I rcap tcap P) : Op.Preserves I rxRingReset := by
  refine preserves_bind (preserves_update h.rxStop) fun _ => preserves_current_bind fun s hs => ?_
  rw [h.rxCap s hs]
  exact (preserves_bind (preserves_forRange_lt fun k _ hk => preserves_rxDescInit (h.rxDesc k (by omega))) fun _ =>
    preserves_update h.rxStart) s hs

/-- The completion walk keeps what an emitted event keeps. -/
theorem preserves_txWalk (hev : ∀ s e, I s → I (s.withEv (s.ev.push s.params.evqDepth e))) (fuel p : Nat) :
    Op.Preserves I (txWalk fuel p) := by
  induction fuel generalizing p with
  | zero => exact preserves_pure _
  | succ fuel ih =>
    refine preserves_current_bind fun s hs => ?_
    refine (?_ : Op.Preserves I _) s hs
    split
    · exact preserves_pure _
    · refine preserves_bind (preserves_memRead32 _) fun w1 => ?_
      split
      · exact preserves_pure _
      · exact preserves_bind (preserves_emit fun s hs => hev s _ hs) fun _ =>
          preserves_bind (ih _) fun _ => preserves_pure _

/-- Where the completion walk stops: at an index the increment reaches. -/
theorem txWalk_stop (hc : ∀ s, I s → s.tx.cap.toNat = tcap)
    (hev : ∀ s e, I s → I (s.withEv (s.ev.push s.params.evqDepth e))) (hP : ∀ i, P i → P (ringInc tcap i))
    {fuel p : Nat} (hp : P p) (hs : I s) {r : Nat × Nat} (h : txWalk fuel p s = .ok r t) : P r.1 := by
  induction fuel generalizing p s t r with
  | zero => cases h; exact hp
  | succ fuel ih =>
    rw [txWalk, Op.current_bind] at h
    split at h
    · cases h; exact hp
    · obtain ⟨w1, u, h1, h2⟩ := Op.bind_eq_ok h
      have hu := (preserves_memRead32 (I := I) (s.tx.desc p + 4)).ok hs h1
      split at h2
      · cases h2; exact hp
      · rw [Op.bind_run, emit_run] at h2
        obtain ⟨r', v, h3, h4⟩ := Op.bind_eq_ok h2
        cases h4
        have hq : P (ringInc s.tx.cap.toNat p) := by rw [hc s hs]; exact hP p hp
        have := ih hq (hev u _ hu) h3
        exact this

theorem preserves_txCompleteWalk (h : KeptByService I rcap tcap P) : Op.Preserves I txCompleteWalk := by
  refine preserves_current_bind fun s hs => ?_
  have h1 := preserves_txWalk h.emit s.tx.cap.toNat s.tx.tail.toNat s hs
  rw [Op.bind_run]
  cases hr : txWalk s.tx.cap.toNat s.tx.tail.toNat s with
  | ok r t =>
    rw [hr] at h1
    exact h.tail t _ (txWalk_stop h.txCap h.emit h.closed (h.start s hs) hs hr) h1
  | error e t => rw [hr] at h1; exact h1

/-- The abort loop keeps what an emitted event keeps. -/
theorem preserves_txAbort (hev : ∀ s e, I s → I (s.withEv (s.ev.push s.params.evqDepth e))) (fuel p : Nat) :
    Op.Preserves I (txAbort fuel p) := by
  induction fuel generalizing p with
  | zero => exact preserves_pure _
  | succ fuel ih =>
    refine preserves_current_bind fun s hs => ?_
    refine (?_ : Op.Preserves I _) s hs
    split
    · exact preserves_pure _
    · exact preserves_bind (preserves_emit fun s hs => hev s _ hs) fun _ =>
        preserves_bind (ih _) fun _ => preserves_pure _

theorem preserves_txRingReset (h : KeptByService I rcap tcap P) : Op.Preserves I txRingReset := by
  refine preserves_bind (preserves_update h.txStop) fun _ => preserves_current_bind fun s hs => ?_
  rw [h.txCap s hs]
  refine (preserves_bind (preserves_txAbort h.emit _ _) fun n => ?_) s hs
  refine preserves_bind (preserves_forRange_lt fun k _ hk => ?_) fun _ =>
    preserves_bind (preserves_update h.txStart) fun _ => preserves_pure _
  exact preserves_bind (preserves_txDescInit (h.txDesc k (by omega))) fun _ =>
    preserves_update fun s hs => h.tag s k hs

theorem preserves_emitIf (hev : ∀ s e, I s → I (s.withEv (s.ev.push s.params.evqDepth e))) (c : Bool) (e : Word) :
    Op.Preserves I (emitIf c e) := by
  cases c
  · exact preserves_pure _
  · exact preserves_bind (preserves_emit fun s hs => hev s _ hs) fun _ => preserves_pure _

/-! #### What SERVICE's parts do when every access is valid -/

/-- `TX_DONE` for the `n` descriptors from `p`, one by one. -/
theorem doneEvents_succ (r : TxRing) (aborted : Bool) {p : Nat} (n : Nat) (hp : p < r.cap.toNat) :
    doneEvents r aborted p (n + 1) = evTxDone aborted (r.tag p) :: doneEvents r aborted (ringInc r.cap.toNat p) n := by
  unfold doneEvents
  rw [List.range_succ_eq_map, List.map_cons, List.map_map, Nat.add_zero, Nat.mod_eq_of_lt hp]
  congr 1
  refine List.map_congr_left fun k _ => ?_
  simp only [Function.comp, ringInc_add, Nat.succ_eq_add_one]

@[simp] theorem doneEvents_zero (r : TxRing) (aborted : Bool) (p : Nat) : doneEvents r aborted p 0 = [] := rfl

@[simp] theorem doneEvents_length (r : TxRing) (aborted : Bool) (p n : Nat) :
    (doneEvents r aborted p n).length = n := by simp [doneEvents]

/-- The completion walk (R244): it reports the `n` USED descriptors from `p`, and stops at the head or at the first
descriptor that is not USED. -/
theorem txWalk_ok {fuel p n : Nat} (hp : p < s.tx.cap.toNat) (hf : n < fuel)
    (hv : ∀ k, k ≤ n → AccessValid s.params (s.tx.desc ((p + k) % s.tx.cap.toNat) + 4) 4)
    (hu : ∀ k, k < n → (p + k) % s.tx.cap.toNat ≠ s.tx.head.toNat
      ∧ txUsed (readWord s.mem (s.tx.desc ((p + k) % s.tx.cap.toNat) + 4)) = true)
    (he : (p + n) % s.tx.cap.toNat = s.tx.head.toNat
      ∨ txUsed (readWord s.mem (s.tx.desc ((p + n) % s.tx.cap.toNat) + 4)) = false) :
    txWalk fuel p s = .ok ((p + n) % s.tx.cap.toNat, n)
      (s.withEv (s.ev.pushAll s.params.evqDepth (doneEvents s.tx false p n))) := by
  induction n generalizing fuel p s with
  | zero =>
    obtain ⟨fuel, rfl⟩ : ∃ f, fuel = f + 1 := ⟨fuel - 1, by omega⟩
    have h0 := hv 0 (by omega)
    simp only [Nat.add_zero, Nat.mod_eq_of_lt hp] at he h0 ⊢
    rw [txWalk, Op.current_bind]
    by_cases hh : p = s.tx.head.toNat
    · rw [if_pos hh]; rfl
    · rw [if_neg hh, Op.bind_ok _ (memRead32_ok h0), if_pos (he.resolve_left hh)]; rfl
  | succ n ih =>
    obtain ⟨fuel, rfl⟩ : ∃ f, fuel = f + 1 := ⟨fuel - 1, by omega⟩
    have h0 := hv 0 (by omega)
    have h1 := hu 0 (by omega)
    simp only [Nat.add_zero, Nat.mod_eq_of_lt hp] at h0 h1
    rw [txWalk, Op.current_bind, if_neg h1.1, Op.bind_ok _ (memRead32_ok h0), if_neg (by rw [h1.2]; decide),
      Op.bind_ok _ (emit_run _ _)]
    rw [Op.bind_ok _ (ih
      (s := s.withEv (s.ev.push s.params.evqDepth (evTxDone false (s.tx.tag p)))) (fuel := fuel)
      (p := ringInc s.tx.cap.toNat p)
      (ringInc_lt (Nat.lt_of_le_of_lt (Nat.zero_le p) hp)) (by omega)
      (fun k hk => by simp only [State.withEv_tx, State.withEv_params]; rw [ringInc_add]; exact hv (k + 1) (by omega))
      (fun k hk => by simp only [State.withEv_tx, State.withEv_mem]; rw [ringInc_add]; exact hu (k + 1) (by omega))
      (by simp only [State.withEv_tx, State.withEv_mem]; rw [ringInc_add]; exact he))]
    simp only [State.withEv_tx, State.withEv_ev, State.withEv_params, State.withEv_twice, ringInc_add, Op.pure_run]
    rw [doneEvents_succ _ _ _ hp, pushAll_cons]

/-- One event if the condition holds. -/
theorem emitIf_ok (c : Bool) (e : Word) (s : State) :
    emitIf c e s = .ok (if c then 1 else 0)
      (s.withEv (s.ev.pushAll s.params.evqDepth (if c then [e] else []))) := by cases c <;> rfl

/-- The walk of R244 reports a run of sent frames and moves TX_TAIL past it. -/
theorem txCompleteWalk_ok {n : Nat} (hh : s.tx.head.toNat < s.tx.cap.toNat) (ht : s.tx.tail.toNat < s.tx.cap.toNat)
    (hv : TxArrayValid s) (hr : SentRun s n) :
    txCompleteWalk s = .ok n ((s.withEv (s.ev.pushAll s.params.evqDepth (doneEvents s.tx false s.tx.tail.toNat n))).withTx
      { s.tx with tail := BitVec.ofNat 16 ((s.tx.tail.toNat + n) % s.tx.cap.toNat) }) := by
  have hc := count_lt ht
  have hlt : ∀ k, (s.tx.tail.toNat + k) % s.tx.cap.toNat < s.tx.cap.toNat := fun k => Nat.mod_lt _ (by omega)
  obtain ⟨h1, h2, h3⟩ := hr
  have hw := txWalk_ok (s := s) (fuel := s.tx.cap.toNat) ht (by omega) (fun k _ => (hv _ (hlt k)).second)
    (fun k hk => ⟨tail_add_ne_head hh ht (by omega), h2 k hk⟩) (by
      rcases Nat.lt_or_ge n s.tx.count with h | h
      · exact .inr (h3 h)
      · left
        rw [show n = s.tx.count by omega]
        exact tail_add_count hh ht)
  rw [txCompleteWalk, Op.current_bind, Op.bind_ok _ hw]
  rfl

/-- The abort loop (R247): it reports the `n` descriptors from `p` to the head. -/
theorem txAbort_ok {fuel p n : Nat} (hp : p < s.tx.cap.toNat) (hf : n ≤ fuel)
    (hu : ∀ k, k < n → (p + k) % s.tx.cap.toNat ≠ s.tx.head.toNat)
    (he : (p + n) % s.tx.cap.toNat = s.tx.head.toNat) :
    txAbort fuel p s = .ok n (s.withEv (s.ev.pushAll s.params.evqDepth (doneEvents s.tx true p n))) := by
  induction n generalizing fuel p s with
  | zero =>
    rw [Nat.add_zero, Nat.mod_eq_of_lt hp] at he
    cases fuel with
    | zero => rfl
    | succ fuel => rw [txAbort, Op.current_bind, if_pos he]; rfl
  | succ n ih =>
    obtain ⟨fuel, rfl⟩ : ∃ f, fuel = f + 1 := ⟨fuel - 1, by omega⟩
    have h1 := hu 0 (by omega)
    rw [Nat.add_zero, Nat.mod_eq_of_lt hp] at h1
    rw [txAbort, Op.current_bind, if_neg h1, Op.bind_ok _ (emit_run _ _)]
    rw [Op.bind_ok _ (ih
      (s := s.withEv (s.ev.push s.params.evqDepth (evTxDone true (s.tx.tag p)))) (fuel := fuel)
      (p := ringInc s.tx.cap.toNat p)
      (ringInc_lt (Nat.lt_of_le_of_lt (Nat.zero_le p) hp)) (by omega)
      (fun k hk => by simp only [State.withEv_tx]; rw [ringInc_add]; exact hu (k + 1) (by omega))
      (by simp only [State.withEv_tx]; rw [ringInc_add]; exact he))]
    simp only [State.withEv_tx, State.withEv_ev, State.withEv_params, State.withEv_twice, Op.pure_run]
    rw [doneEvents_succ _ _ _ hp, pushAll_cons]

/-- The receive ring reset (R245) when the array can be accessed. -/
theorem rxRingReset_ok (h : RxArrayValid s) :
    rxRingReset s = .ok () { s with
      mem := initCells s.rx.dbase (rxInitWord0 s.rx.bbase s.params.rxUnit s.rx.cap.toNat) (fun _ => 0) 0
        s.rx.cap.toNat s.mem
      rx := { s.rx with tail := 0, ptr := 0, qbase := s.rx.dbase, dma := .idle }
      net := { s.net with rxen := true } } := by
  unfold rxRingReset
  rw [Op.update_bind, Op.current_bind, Op.bind_ok _ (forRange_rxDescInit_ok (s := s.rxStopped)
    fun k _ hk => h k (by simpa [State.rxStopped] using hk))]
  rfl

/-- `TxDescInit(i); TAG[i] <- 0` over a run of descriptors. -/
theorem forRange_txDescReset_ok {i n : Nat}
    (h : ∀ k, i ≤ k → k < i + n → AccessValid s.params (s.tx.desc k) 8) :
    forRange txDescReset i n s = .ok () { s with
      mem := initCells s.tx.dbase (bufferAddr s.tx.bbase s.params.txUnit) (txInitWord1 s.tx.cap.toNat) i n s.mem
      tx := { s.tx with tags := (List.range' i n).foldl (fun l k => l.set k 0) s.tx.tags } } := by
  induction n generalizing i s with
  | zero => rfl
  | succ n ih =>
    have h0 := h i (by omega) (by omega)
    have e : txDescInit i s = .ok () (s.withMem (writeWord (writeWord s.mem (s.tx.desc i)
        (bufferAddr s.tx.bbase s.params.txUnit i)) (s.tx.desc i + 4) (txInitWord1 s.tx.cap.toNat i))) := by
      rw [txDescInit, Op.current_bind, Op.bind_ok _ (memWrite32_ok h0.first)]
      exact memWrite32_ok (s := s.withMem _) h0.second
    have e2 : txDescReset i s = .ok () ((s.withMem (writeWord (writeWord s.mem (s.tx.desc i)
        (bufferAddr s.tx.bbase s.params.txUnit i)) (s.tx.desc i + 4) (txInitWord1 s.tx.cap.toNat i))).withTx
        { s.tx with tags := s.tx.tags.set i 0 }) := by rw [txDescReset, Op.bind_ok _ e]; rfl
    rw [forRange, Op.bind_ok _ e2]
    exact ih fun k h1 h2 => h k (by omega) (by omega)

/-- Clearing every tag of a full table leaves only zeros. -/
theorem tags_cleared (l : List Half) :
    (List.range' 0 l.length).foldl (fun l k => l.set k 0) l = List.replicate l.length 0 := by
  have gen : ∀ n i (l : List Half), i + n = l.length →
      (List.range' i n).foldl (fun l k => l.set k 0) l = l.take i ++ List.replicate n 0 := by
    intro n
    induction n with
    | zero => intro i l h; simp at h; simp [h]
    | succ n ih =>
      intro i l h
      rw [List.range'_succ, List.foldl_cons, ih (i + 1) (l.set i 0) (by simp; omega)]
      rw [List.take_succ_eq_append_getElem (by simp; omega)]
      simp [List.replicate_succ, List.take_set_of_le]
  simpa using gen l.length 0 l (by simp)

/-- The transmit ring reset (R247) when the array can be accessed: the `n` pending frames from the tail are
reported ABORTED, and the ring is as INIT leaves it. -/
theorem txRingReset_ok {n : Nat} (h : TxArrayValid s) (ht : s.tx.tail.toNat < s.tx.cap.toNat)
    (hn : n ≤ s.tx.cap.toNat) (hl : s.tx.tags.length = s.tx.cap.toNat)
    (hu : ∀ k, k < n → (s.tx.tail.toNat + k) % s.tx.cap.toNat ≠ s.tx.head.toNat)
    (he : (s.tx.tail.toNat + n) % s.tx.cap.toNat = s.tx.head.toNat) :
    txRingReset s = .ok n { s with
      mem := initCells s.tx.dbase (bufferAddr s.tx.bbase s.params.txUnit) (txInitWord1 s.tx.cap.toNat) 0
        s.tx.cap.toNat s.mem
      tx := { s.tx with
        head := 0, tail := 0, ptr := 0, qbase := s.tx.dbase, go := false
        tags := List.replicate s.tx.cap.toNat 0 }
      net := { s.net with txen := true }
      ev := s.ev.pushAll s.params.evqDepth (doneEvents s.tx true s.tx.tail.toNat n) } := by
  unfold txRingReset
  have h1 := txAbort_ok (s := s.txStopped) ht hn hu he
  have h2 := forRange_txDescReset_ok (i := 0) (n := s.tx.cap.toNat) (s := s.txStopped.withEv
    (s.ev.pushAll s.params.evqDepth (doneEvents s.tx true s.tx.tail.toNat n))) fun k _ hk => h k (by omega)
  have h3 := tags_cleared s.tx.tags
  rw [hl] at h3
  rw [Op.update_bind, Op.current_bind]
  refine (Op.bind_ok _ h1).trans ((Op.bind_ok _ h2).trans ?_)
  rw [← h3]
  rfl

/-! #### What SERVICE does when every access is valid -/

/-- Memory after the receive ring reset of a SERVICE, if there is one (R241, R245). -/
def State.rxResetMem (s : State) : List Host.Cell :=
  if rxError s.net.isr s.net.rsr then
    initCells s.rx.dbase (rxInitWord0 s.rx.bbase s.params.rxUnit s.rx.cap.toNat) (fun _ => 0) 0 s.rx.cap.toNat s.mem
  else s.mem

/-- Memory after a SERVICE (R245, R247). -/
def State.servicedMem (s : State) : List Host.Cell :=
  if txError s.net.isr s.net.tsr then
    initCells s.tx.dbase (bufferAddr s.tx.bbase s.params.txUnit) (txInitWord1 s.tx.cap.toNat) 0 s.tx.cap.toNat
      s.rxResetMem
  else s.rxResetMem

/-- The state after a SERVICE that finds `n` sent frames at the tail (R241). -/
def State.serviced (s : State) (n : Nat) : State :=
  { s with
    mem := s.servicedMem
    rx := if rxError s.net.isr s.net.rsr then { s.rx with tail := 0, ptr := 0, qbase := s.rx.dbase, dma := .idle }
      else s.rx
    tx := if txError s.net.isr s.net.tsr then { s.tx with
        head := 0, tail := 0, ptr := 0, qbase := s.tx.dbase, go := false, tags := List.replicate s.tx.cap.toNat 0 }
      else { s.tx with tail := BitVec.ofNat 16 ((s.tx.tail.toNat + n) % s.tx.cap.toNat) }
    net := { s.net with
      rxen := s.net.rxen || rxError s.net.isr s.net.rsr, txen := s.net.txen || txError s.net.isr s.net.tsr
      rsr := Rsr.none, tsr := Tsr.none, isr := IrqBits.none }
    ev := s.ev.pushAll s.params.evqDepth (serviceEvents s n) }

/-- `rx_err`: the receive ring is reset, or nothing happens. -/
theorem rxResetIf_ok (h : rxError s.net.isr s.net.rsr = true → RxArrayValid s) :
    rxResetIf (rxError s.net.isr s.net.rsr) s.clearStatus = .ok () { s.clearStatus with
      mem := s.rxResetMem
      rx := if rxError s.net.isr s.net.rsr then { s.rx with tail := 0, ptr := 0, qbase := s.rx.dbase, dma := .idle }
        else s.rx
      net := { s.clearStatus.net with rxen := s.net.rxen || rxError s.net.isr s.net.rsr } } := by
  unfold State.rxResetMem
  cases he : rxError s.net.isr s.net.rsr
  · simp only [Bool.or_false]; rfl
  · simp only [Bool.or_true, if_true]
    exact rxRingReset_ok (s := s.clearStatus) (h he)

/-- The free count when TX_TAIL moves past `n` pending descriptors. -/
theorem free_advance {r : TxRing} (hh : r.head.toNat < r.cap.toNat) (ht : r.tail.toNat < r.cap.toNat) {n : Nat}
    (hn : n ≤ r.count) :
    ({ r with tail := BitVec.ofNat 16 ((r.tail.toNat + n) % r.cap.toNat) } : TxRing).count = r.count - n
    ∧ ({ r with tail := BitVec.ofNat 16 ((r.tail.toNat + n) % r.cap.toNat) } : TxRing).free = r.free + n := by
  have hc := count_lt ht
  have hlt : (r.tail.toNat + n) % r.cap.toNat < r.cap.toNat := Nat.mod_lt _ (by omega)
  have h := count_advance hh ht hn
  unfold TxRing.free TxRing.count at *
  simp only [BitVec.toNat_ofNat]
  rw [Nat.mod_eq_of_lt (a := (r.tail.toNat + n) % r.cap.toNat) (by have := r.cap.isLt; omega), h]
  omega

/-- The walk of a SERVICE and the transmit ring reset after it (R244, R247): `n` sent frames are reported OK, and
with a transmit error the other pending ones ABORTED. -/
theorem txParts_ok {n : Nat} {c : Bool} (hh : s.tx.head.toNat < s.tx.cap.toNat)
    (ht : s.tx.tail.toNat < s.tx.cap.toNat) (hv : TxArrayValid s) (hl : c = true → s.tx.tags.length = s.tx.cap.toNat)
    (hr : SentRun s n) :
    (txCompleteWalk >>= fun n2 => txResetIf c >>= fun n3 => pure (n2 + n3)) s
      = .ok (n + if c then s.tx.count - n else 0) { s with
          mem := if c then initCells s.tx.dbase (bufferAddr s.tx.bbase s.params.txUnit) (txInitWord1 s.tx.cap.toNat) 0
            s.tx.cap.toNat s.mem else s.mem
          tx := if c then { s.tx with
              head := 0, tail := 0, ptr := 0, qbase := s.tx.dbase, go := false, tags := List.replicate s.tx.cap.toNat 0 }
            else { s.tx with tail := BitVec.ofNat 16 ((s.tx.tail.toNat + n) % s.tx.cap.toNat) }
          net := { s.net with txen := s.net.txen || c }
          ev := s.ev.pushAll s.params.evqDepth (doneEvents s.tx false s.tx.tail.toNat n
            ++ if c then doneEvents s.tx true ((s.tx.tail.toNat + n) % s.tx.cap.toNat) (s.tx.count - n) else []) } := by
  refine (Op.bind_ok _ (txCompleteWalk_ok hh ht hv hr)).trans ?_
  cases c
  · simp only [txResetIf, Bool.false_eq_true, if_false, List.append_nil, Bool.or_false, Nat.add_zero]; rfl
  · have hc := count_lt ht
    have hlt : (s.tx.tail.toNat + n) % s.tx.cap.toNat < s.tx.cap.toNat := Nat.mod_lt _ (by omega)
    have h16 : (BitVec.ofNat 16 ((s.tx.tail.toNat + n) % s.tx.cap.toNat)).toNat
        = (s.tx.tail.toNat + n) % s.tx.cap.toNat := by
      rw [BitVec.toNat_ofNat, Nat.mod_eq_of_lt]; have := s.tx.cap.isLt; omega
    have e := txRingReset_ok (n := s.tx.count - n)
      (s := (s.withEv (s.ev.pushAll s.params.evqDepth (doneEvents s.tx false s.tx.tail.toNat n))).withTx
        { s.tx with tail := BitVec.ofNat 16 ((s.tx.tail.toNat + n) % s.tx.cap.toNat) })
      hv (by simpa only [State.withTx_tx, h16] using hlt) (by simp only [State.withTx_tx]; omega) (hl rfl)
      (fun k hk => by
        simp only [State.withTx_tx, h16, Nat.mod_add_mod]
        rw [Nat.add_assoc]; exact tail_add_ne_head hh ht (by omega))
      (by
        simp only [State.withTx_tx, h16, Nat.mod_add_mod]
        rw [Nat.add_assoc, Nat.add_sub_cancel' hr.1]; exact tail_add_count hh ht)
    refine (Op.bind_ok _ e).trans ?_
    simp only [if_true, Bool.or_true, pushAll_append]
    simp only [State.withTx_tx, h16]
    rfl

/-- How many events one SERVICE emits (R249). -/
theorem serviceEvents_length (s : State) (n : Nat) :
    (serviceEvents s n).length = (if rxComplete s.net.isr s.net.rsr && s.cb.rxCbEn then 1 else 0)
      + (n + if txError s.net.isr s.net.tsr then s.tx.count - n else 0)
      + (if decide (s.cb.txwEn ∧ s.tx.free < s.cb.txwThr.toNat ∧ s.cb.txwThr.toNat ≤ freeAfter s n) then 1
        else 0) := by
  have len1 : ∀ (p : Prop) [Decidable p] (e : Word), (if p then [e] else []).length = if p then 1 else 0 := by
    intro p _ e; split <;> rfl
  have len2 : ∀ (p : Prop) [Decidable p] (l : List Word), (if p then l else []).length = if p then l.length else 0 := by
    intro p _ l; split <;> rfl
  unfold serviceEvents rxComplete txError
  rw [List.length_append, List.length_append, List.length_append, len1, len1, len2, doneEvents_length,
    doneEvents_length, Nat.add_assoc (ite _ _ _)]
  simp only [decide_eq_true_eq]

/-- SERVICE when every descriptor it touches can be accessed (R241 to R249). -/
theorem serviceBody_ok {n : Nat} (hh : s.tx.head.toNat < s.tx.cap.toNat) (ht : s.tx.tail.toNat < s.tx.cap.toNat)
    (hrv : rxError s.net.isr s.net.rsr = true → RxArrayValid s) (hv : TxArrayValid s)
    (hl : txError s.net.isr s.net.tsr = true → s.tx.tags.length = s.tx.cap.toNat)
    (hr : SentRun (s.withMem s.rxResetMem) n) :
    serviceBody s = .ok
      ⟨s.net.isr.word, s.net.rsr.word, s.net.tsr.word, BitVec.ofNat 32 (serviceEvents s n).length⟩ (s.serviced n) := by
  have hc := count_lt ht
  have hn : n ≤ s.tx.count := hr.1
  unfold serviceBody
  rw [Op.current_bind, Op.update_bind]
  refine (Op.bind_ok _ (rxResetIf_ok hrv)).trans ((Op.bind_ok _ (emitIf_ok _ _ _)).trans ?_)
  generalize hs1 : State.withEv _ _ = s1
  have e1 : s1.tx = s.tx := by rw [← hs1]; rfl
  have e2 : s1.params = s.params := by rw [← hs1]; rfl
  have hr1 : SentRun s1 n := by
    rw [← hs1]; exact hr
  have hv1 : TxArrayValid s1 := by unfold TxArrayValid; rw [e1, e2]; exact hv
  have h2 := txParts_ok (s := s1) (n := n) (c := txError s.net.isr s.net.tsr) (by rw [e1]; exact hh)
    (by rw [e1]; exact ht) hv1 (by rw [e1]; exact hl) hr1
  obtain ⟨n2, u2, hw, h2⟩ := Op.bind_eq_ok h2
  obtain ⟨n3, u3, hx, h2⟩ := Op.bind_eq_ok h2
  rw [Op.pure_run] at h2
  injection h2 with hcount hu3
  refine (Op.bind_ok _ hw).trans ((Op.bind_ok _ hx).trans ?_)
  refine (Op.bind_ok _ (emitIf_ok _ _ _)).trans ?_
  have hfree : u3.tx.free = freeAfter s n := by
    rw [hu3]
    unfold freeAfter txError
    simp only [e1]
    split
    · simp [TxRing.free, TxRing.count, ringCount]
    · exact (free_advance hh ht hn).2
  have hcb : u3.cb = s.cb := by rw [hu3, ← hs1]; rfl
  have hp : u3.params = s.params := by rw [hu3, ← hs1]; rfl
  have hwk : wakeupDue u3.cb s.tx.free u3.tx.free
      = decide (s.cb.txwEn ∧ s.tx.free < s.cb.txwThr.toNat ∧ s.cb.txwThr.toNat ≤ freeAfter s n) := by
    rw [hfree, hcb, wakeupDue]
    simp [Bool.and_assoc, Bool.decide_and]
  rw [hwk, hfree, Nat.add_assoc _ n2 n3, hcount, e1, Op.pure_run]
  have hst : u3.withEv (u3.ev.pushAll u3.params.evqDepth
      (if decide (s.cb.txwEn ∧ s.tx.free < s.cb.txwThr.toNat ∧ s.cb.txwThr.toNat ≤ freeAfter s n)
        then [evTxWakeup (freeAfter s n)] else [])) = s.serviced n := by
    rw [hu3, ← hs1]
    unfold State.serviced State.servicedMem serviceEvents
    simp only [pushAll_append, decide_eq_true_eq]
    rfl
  rw [hst, serviceEvents_length]
/-- Some number of frames at the tail is sent, and the walk stops after them. -/
theorem sentRun_exists (s : State) : ∃ n, SentRun s n := by
  have gen : ∀ k, k ≤ s.tx.count → (∃ n, SentRun s n) ∨ ∀ j, j < k →
      txUsed (readWord s.mem (s.tx.desc ((s.tx.tail.toNat + j) % s.tx.cap.toNat) + 4)) = true := by
    intro k
    induction k with
    | zero => intro _; exact .inr fun j hj => absurd hj (Nat.not_lt_zero j)
    | succ k ih =>
      intro hk
      rcases ih (by omega) with h | h
      · exact .inl h
      · cases hu : txUsed (readWord s.mem (s.tx.desc ((s.tx.tail.toNat + k) % s.tx.cap.toNat) + 4))
        · exact .inl ⟨k, by omega, h, fun _ => hu⟩
        · refine .inr fun j hj => ?_
          rcases Nat.lt_or_eq_of_le (Nat.le_of_lt_succ hj) with h1 | rfl
          · exact h j h1
          · exact hu
  rcases gen s.tx.count (Nat.le_refl _) with h | h
  · exact h
  · exact ⟨s.tx.count, Nat.le_refl _, h, fun h => absurd h (Nat.lt_irrefl _)⟩

/-- With the two arrays apart, the receive ring reset of a SERVICE leaves the sent run as it was (R102). -/
theorem sentRun_rxResetMem {n : Nat} (ht : s.tx.tail.toNat < s.tx.cap.toNat) (ha : ArraysApart s) :
    SentRun (s.withMem s.rxResetMem) n ↔ SentRun s n := by
  have hw : ∀ k, readWord s.rxResetMem (s.tx.desc ((s.tx.tail.toNat + k) % s.tx.cap.toNat) + 4)
      = readWord s.mem (s.tx.desc ((s.tx.tail.toNat + k) % s.tx.cap.toNat) + 4) := by
    intro k
    unfold State.rxResetMem
    split
    · refine readWord_congr fun j hj => initCells_other fun i _ hi l hl => ?_
      have hlt := Nat.mod_lt (s.tx.tail.toNat + k) (show 0 < s.tx.cap.toNat by omega)
      rw [second_word, TxRing.desc, descAddr_add, descAddr_add]
      exact (ha (8 * i + l) (by omega) _ (by omega)).symm
    · rfl
  unfold SentRun
  simp only [State.withMem_tx, State.withMem_mem, hw]

/-- What holds after a SERVICE, ended or faulted: what holds once the status is cleared and every later update
keeps. -/
theorem serviceBody_final (h : KeptByService I rcap tcap P) (hs : I s.clearStatus) :
    I (Op.final (serviceBody s)) := by
  unfold serviceBody
  rw [Op.current_bind, Op.update_bind]
  refine (preserves_bind (?_ : Op.Preserves I (rxResetIf _)) fun _ => preserves_bind (preserves_emitIf h.emit _ _) fun n1 =>
    preserves_bind (preserves_txCompleteWalk h) fun n2 =>
    preserves_bind (?_ : Op.Preserves I (txResetIf _)) fun n3 =>
    preserves_bind preserves_current fun t => preserves_bind (preserves_emitIf h.emit _ _) fun n4 =>
      preserves_pure _) s.clearStatus hs
  · exact preserves_ite (preserves_rxRingReset h) (preserves_pure _)
  · exact preserves_ite (preserves_txRingReset h) (preserves_pure _)

/-- What SERVICE keeps, as a command or on its own, ended or faulted. -/
theorem preserves_serviceBody (h : KeptByService I rcap tcap P) : Op.Preserves I serviceBody :=
  fun s hs => serviceBody_final h (h.clear s hs)

theorem preserves_serviceCommand (h : KeptByService I rcap tcap P) : Op.Preserves I serviceCommand := by
  refine preserves_current_bind fun s hs => ?_
  split
  · exact hs
  · exact (preserves_bind (preserves_serviceBody h) fun _ => preserves_pure _) s hs

end Sys2Proof.Machine
end

