-- ==== Sys2Proof/Laws/Protocol.lean ====
section
/-! SUPPORT. The classifier, the Art-Net decoder and the dispatcher: what the classifier answers when its bytes can
be read (42_frame_classifier.md R300 to R307), and what each part keeps. -/

namespace Sys2Proof.Machine

variable {s t : State} {I : State → Prop} {fr : Word} {len : Nat}

/-! ### The classifier -/

theorem preserves_frameByte (k : Nat) : Op.Preserves I (frameByte fr k) := preserves_memReadByte _

theorem preserves_matchId (k : Nat) (bs : List Byte) : Op.Preserves I (matchId fr k bs) := by
  induction bs generalizing k with
  | nil => exact preserves_pure _
  | cons b bs ih =>
    exact preserves_bind (preserves_frameByte k) fun x => preserves_ite (ih _) (preserves_pure _)

theorem preserves_artNetOpcode : Op.Preserves I (artNetOpcode fr len) :=
  preserves_ite (preserves_pure _) <| preserves_bind (preserves_matchId _ _) fun _ =>
    preserves_ite (preserves_bind (preserves_frameByte _) fun _ => preserves_bind (preserves_frameByte _) fun _ =>
      preserves_pure _) (preserves_pure _)

/-- The classifier only reads (R300). -/
theorem preserves_classifyFrame : Op.Preserves I (classifyFrame fr len) :=
  preserves_ite (preserves_pure _) <| preserves_bind (preserves_frameByte _) fun _ =>
    preserves_bind (preserves_frameByte _) fun _ => preserves_ite (preserves_pure _) <|
      preserves_ite (preserves_pure _) <| preserves_bind (preserves_frameByte _) fun _ =>
        preserves_ite (preserves_pure _) <| preserves_bind preserves_artNetOpcode fun _ => preserves_pure _

theorem preserves_classifyBody {len : Word} : Op.Preserves I (classifyBody fr len) :=
  preserves_bind preserves_classifyFrame fun _ => preserves_pure _

/-- An operation that keeps every property ends in the state it began in. -/
theorem unchanged_of_preserves {α : Type} {op : Op α} (h : ∀ I : State → Prop, Op.Preserves I op) (s : State) :
    Op.final (op s) = s := h (fun u => u = s) s rfl

theorem frameByte_ok {k : Nat} (h : memValid s.params (fr + BitVec.ofNat 32 k) = true) :
    frameByte fr k s = .ok (s.frame fr k) s := memReadByte_ok h

/-- The comparison with the identifier, when each byte up to the first that differs can be read (R307). -/
theorem matchId_ok {k : Nat} {bs : List Byte}
    (h : ∀ j, j < bs.length → (∀ i, i < j → s.frame fr (k + i) = bs.getD i 0) →
      memValid s.params (fr + BitVec.ofNat 32 (k + j)) = true) :
    matchId fr k bs s = .ok ((List.range bs.length).map (fun j => s.frame fr (k + j)) == bs) s := by
  induction bs generalizing k with
  | nil => rfl
  | cons b bs ih =>
    rw [matchId, Op.bind_ok _ (frameByte_ok (by simpa using h 0 (by simp) (by omega)))]
    by_cases hb : s.frame fr k = b
    · have ih' := ih (k := k + 1) fun j hj hpre => by
        have := h (j + 1) (by simpa using hj) fun i hi => by
          cases i with
          | zero => simpa using hb
          | succ i =>
            have := hpre i (by omega)
            rw [show k + (i + 1) = k + 1 + i by omega, this]
            rfl
        rwa [show k + (j + 1) = k + 1 + j by omega] at this
      rw [if_pos hb, ih']
      congr 1
      rw [List.length_cons, List.range_succ_eq_map, List.map_cons, List.map_map]
      have : ((fun j => s.frame fr (k + j)) ∘ Nat.succ) = fun j => s.frame fr (k + 1 + j) := by
        funext j; simp only [Function.comp]; congr 1; omega
      rw [this]
      simp [List.cons_beq_cons, hb]
    · rw [if_neg hb]
      simp only [Op.pure_run]
      congr 1
      rw [List.length_cons, List.range_succ_eq_map, List.map_cons]
      simp [List.cons_beq_cons, hb]

/-- What the classifier answers, from the bytes of the frame (R302, R303, R305). -/
theorem classifyFrame_ok (h : HeaderValid s fr len) :
    classifyFrame fr len s = .ok ⟨headerEth (s.frame fr) len, headerIp (s.frame fr) len,
      headerOpcode (s.frame fr) len⟩ s := by
  unfold classifyFrame headerOpcode
  by_cases h14 : len < 14
  · simp [h14, headerIp, headerEth]
  rw [if_neg h14, Op.bind_ok _ (frameByte_ok (h 12 (by omega) (by simp [headerReads]; omega))),
    Op.bind_ok _ (frameByte_ok (h 13 (by omega) (by simp [headerReads]; omega)))]
  have heth : headerEth (s.frame fr) len = ethernetKind (s.frame fr 12) (s.frame fr 13) := by simp [headerEth, h14]
  by_cases he : ethernetKind (s.frame fr 12) (s.frame fr 13) = .ipv4
  swap
  · simp [headerIp, heth, he]
  rw [he] at heth
  simp only [he, ne_eq, not_true, if_false]
  by_cases h24 : len < 24
  · simp [h24, headerIp, heth]
  rw [if_neg h24, Op.bind_ok _ (frameByte_ok (h 23 (by omega) (by simp [headerReads, heth]; omega)))]
  have hip : headerIp (s.frame fr) len = ipProto (s.frame fr 23) := by simp [headerIp, heth, h24]
  by_cases hp : ipProto (s.frame fr 23) = .udp
  swap
  · simp [hp, hip, heth]
  rw [hp] at hip
  by_cases h42 : len ≤ 42
  · have : ¬ 52 ≤ len := by omega
    simp [hp, h42, this, hip, heth]
  simp only [hp, h42, not_true, false_or, if_false, hip, heth, true_and]
  rw [artNetOpcode]
  by_cases h52 : len < 52
  · have : ¬ 52 ≤ len := by omega
    simp [h52, this, Op.bind_run]
  have hread : ∀ k, 42 ≤ k → k < 52 → (∀ i, i < min (k - 42) 8 → s.frame fr (42 + i) = artNetId.getD i 0) →
      memValid s.params (fr + BitVec.ofNat 32 k) = true := fun k h1 h2 hpre => by
    refine h k h2 ?_
    rw [headerReads, if_neg (by omega), if_neg (by omega), if_pos ⟨h1, h2⟩, Bool.and_eq_true, decide_eq_true_eq,
      List.all_eq_true]
    exact ⟨⟨hip, by omega⟩, fun i hi => by simpa using hpre i (List.mem_range.mp hi)⟩
  have hm := matchId_ok (s := s) (fr := fr) (k := 42) (bs := artNetId) fun j hj hpre => by
    have : j < 8 := hj
    exact hread (42 + j) (by omega) (by omega) fun i hi => hpre i (by omega)
  have hid : ((List.range artNetId.length).map (fun j => s.frame fr (42 + j)) == artNetId) = hasArtNetId (s.frame fr) := by
    simp [artNetId, hasArtNetId, List.range_succ, Bool.and_assoc]
  rw [hid] at hm
  rw [if_neg h52, Op.bind_run, Op.bind_ok _ hm]
  cases hi : hasArtNetId (s.frame fr)
  · simp
  · have hpre : ∀ i, i < 8 → s.frame fr (42 + i) = artNetId.getD i 0 := fun i hi8 => by
      simp only [hasArtNetId, Bool.and_eq_true, beq_iff_eq] at hi
      match i, hi8 with
      | 0, _ => exact hi.1.1.1.1.1.1.1
      | 1, _ => exact hi.1.1.1.1.1.1.2
      | 2, _ => exact hi.1.1.1.1.1.2
      | 3, _ => exact hi.1.1.1.1.2
      | 4, _ => exact hi.1.1.1.2
      | 5, _ => exact hi.1.1.2
      | 6, _ => exact hi.1.2
      | 7, _ => exact hi.2
      | n + 8, h => exact absurd h (by omega)
    have : 52 ≤ len := by omega
    simp only [if_true, this, true_and]
    rw [Op.bind_ok _ (frameByte_ok (hread 50 (by omega) (by omega) fun i hi => hpre i (by omega))),
      Op.bind_ok _ (frameByte_ok (hread 51 (by omega) (by omega) fun i hi => hpre i (by omega)))]
    rfl

/-! ### The decoder -/

theorem preserves_dmxApply {n : Nat} (hset : ∀ s j b, I s → I (s.withDmx { s.dmx with buf := s.dmx.buf.set j b }))
    (hlen : ∀ s, I s → I (s.withDmx { s.dmx with len := BitVec.ofNat 10 n })) : Op.Preserves I (dmxApply fr n) :=
  preserves_bind (preserves_forRange (fun j => preserves_bind (preserves_frameByte _) fun b =>
    preserves_update fun s hs => hset s j b hs) _ _) fun _ => preserves_update hlen

/-- What the DMX path keeps: whatever an update of the canonical buffer keeps. -/
theorem preserves_decodeDmx (hset : ∀ s j b, I s → I (s.withDmx { s.dmx with buf := s.dmx.buf.set j b }))
    (hlen : ∀ s n, n ≤ Config.dmxChannels → I s → I (s.withDmx { s.dmx with len := BitVec.ofNat 10 n })) :
    Op.Preserves I (decodeDmx fr len) := by
  unfold decodeDmx
  refine preserves_ite (preserves_pure _) (preserves_bind (preserves_frameByte _) fun uni =>
    preserves_bind preserves_current fun s => preserves_ite (preserves_pure _) ?_)
  refine preserves_bind (preserves_frameByte _) fun hi => preserves_bind (preserves_frameByte _) fun lo =>
    preserves_ite (preserves_pure _) ?_
  exact preserves_bind (preserves_dmxApply hset fun s hs => hlen s _ (Nat.min_le_right _ _) hs) fun _ =>
    preserves_pure _

theorem preserves_decodePoll (hev : ∀ s e, I s → I (s.withEv (s.ev.push s.params.evqDepth e))) :
    Op.Preserves I (decodePoll fr len) :=
  preserves_ite (preserves_pure _) <| preserves_bind (preserves_frameByte _) fun _ =>
    preserves_bind preserves_current fun _ => preserves_bind (preserves_emit fun s hs => hev s _ hs) fun _ =>
      preserves_pure _

theorem preserves_decodeAddress (hev : ∀ s e, I s → I (s.withEv (s.ev.push s.params.evqDepth e))) :
    Op.Preserves I decodeAddress :=
  preserves_bind (preserves_emit fun s hs => hev s _ hs) fun _ => preserves_pure _

/-- What DECODE keeps: whatever the canonical buffer's updates and an event keep. -/
theorem preserves_decodeFrame (hset : ∀ s j b, I s → I (s.withDmx { s.dmx with buf := s.dmx.buf.set j b }))
    (hlen : ∀ s n, n ≤ Config.dmxChannels → I s → I (s.withDmx { s.dmx with len := BitVec.ofNat 10 n }))
    (hev : ∀ s e, I s → I (s.withEv (s.ev.push s.params.evqDepth e))) : Op.Preserves I (decodeFrame fr len) := by
  refine preserves_bind preserves_classifyFrame fun c => ?_
  unfold decodeBy
  refine preserves_ite (preserves_pure _) (preserves_ite (preserves_pure _) ?_)
  split
  · exact preserves_decodeDmx hset hlen
  · exact preserves_decodePoll hev
  · exact preserves_decodeAddress hev
  · exact preserves_pure _
  · exact preserves_pure _

theorem preserves_okBody {body : Op Results} (h : Op.Preserves I body) : Op.Preserves I (okBody body) :=
  preserves_bind h fun _ => preserves_pure _

/-! ### The dispatcher -/

theorem preserves_dispatchNodes (hsend : ∀ s pipe record, I s → I (s.radioSent pipe record))
    (hfail : ∀ s, I s → I (s.withDispFail (s.dispFail + 1))) : ∀ n i, Op.Preserves I (dispatchNodes i n)
  | 0, _ => preserves_pure _
  | n + 1, i => by
    refine preserves_bind ?_ fun a => preserves_bind (preserves_dispatchNodes hsend hfail n (i + 1)) fun r =>
      preserves_pure _
    unfold dispatchNode
    refine preserves_bind preserves_current fun u => ?_
    split
    · exact preserves_pure _
    · refine preserves_bind (fun v hv => hsend v _ _ hv) fun ack => preserves_bind ?_ fun _ => preserves_pure _
      exact preserves_ite (preserves_pure _) (preserves_update hfail)

/-- What DISPATCH keeps: whatever a record sent and a counted failure keep. -/
theorem preserves_dispatchBody (hsend : ∀ s pipe record, I s → I (s.radioSent pipe record))
    (hfail : ∀ s, I s → I (s.withDispFail (s.dispFail + 1))) : Op.Preserves I dispatchBody :=
  preserves_current_bind fun s hs =>
    (preserves_ite (preserves_pure _) (preserves_bind (preserves_dispatchNodes hsend hfail _ _) fun _ =>
      preserves_pure _)) s hs

end Sys2Proof.Machine
end

