-- ==== Sys2Proof/Laws/Agents.lean ====
section
/-! SUPPORT. The DMA agents' steps and the step of the whole machine: what each keeps, said once
(41_dma_agents.md R262, R272, R283). -/

namespace Sys2Proof.Machine

variable {s t : State} {I : State → Prop}

/-! ### RXDMA (R262, R263) -/

/-- What an RXDMA step keeps: the writes to the buffer and to the descriptor at RBQB + 8*RXPTR, and the updates of
RXDMA_ST, RXPTR, RSR and ISR. -/
theorem rxdmaStep_final (hs : I s)
    (hbuf : ∀ u j b frame off, s.rx.dma = .busy frame off → j < min s.params.rxUnit (frame.length - off) → I u →
      I (u.withMem (writeCell u.mem (rxAddr (readWord s.mem (descAddr s.rx.qbase s.rx.ptr.toNat))
        + BitVec.ofNat 32 j).toNat b)))
    (hword : ∀ u v, I u → I (u.withMem (writeWord u.mem (descAddr s.rx.qbase s.rx.ptr.toNat) v))
      ∧ I (u.withMem (writeWord u.mem (descAddr s.rx.qbase s.rx.ptr.toNat + 4) v)))
    (hbna : I s.bufferNotAvailable)
    (hptr : ∀ u wrap, I u → I (u.withRx { u.rx with ptr := nextPtr wrap u.rx.ptr }))
    (hadv : ∀ u frame off n, s.rx.dma = .busy frame off → n = min s.params.rxUnit (frame.length - off) → I u →
      I (u.rxAdvance frame (off + n) (decide (off + n = frame.length)))) :
    I (Op.final (rxdmaStep s)) := by
  unfold rxdmaStep
  rw [Op.current_bind]
  cases hd : s.rx.dma with
  | idle => exact hs
  | busy frame off =>
    change I (Op.final ((memRead32 (descAddr s.rx.qbase s.rx.ptr.toNat) >>= fun w0 =>
      if rxOwn w0 then update State.bufferNotAvailable
      else rxFill (descAddr s.rx.qbase s.rx.ptr.toNat) w0 frame off) s))
    rcases memRead32_cases s (descAddr s.rx.qbase s.rx.ptr.toNat) with ⟨_, h⟩ | ⟨x, _, h⟩
    · rw [Op.bind_ok _ h]
      split
      · exact hbna
      · unfold rxFill
        rw [Op.current_bind]
        have hw : ∀ (bs : List Byte) (a : Word), (∀ u j b, j < bs.length → I u →
            I (u.withMem (writeCell u.mem (a + BitVec.ofNat 32 j).toNat b))) →
            ∀ u, I u → I (u.withMem (writeBytes u.mem a bs)) := by
          intro bs
          induction bs with
          | nil => intro a _ u hu; exact hu
          | cons b bs ih =>
            intro a h1 u hu
            have h2 := h1 u 0 b (by simp) hu
            rw [word_offset_zero] at h2
            exact ih (a + 1) (fun u j c hj hu => by
              rw [← succ_offset]; exact h1 u (j + 1) c (by simpa using hj) hu) _ h2
        have hp := preserves_bind (preserves_memWrite (hw ((frame.drop off).take (min s.params.rxUnit
            (frame.length - off))) (rxAddr (readWord s.mem (descAddr s.rx.qbase s.rx.ptr.toNat))) fun u j b hj hu =>
              hbuf u j b frame off hd (by rw [List.length_take] at hj; omega) hu)) fun _ =>
          preserves_bind (preserves_memWrite32 (v := rxFillWord1 frame.length (off == 0)
            (decide (off + min s.params.rxUnit (frame.length - off) = frame.length)))
            fun u hu => (hword u _ hu).2) fun _ =>
          preserves_bind (preserves_memWrite32 (v := readWord s.mem (descAddr s.rx.qbase s.rx.ptr.toNat) ||| 1)
            fun u hu => (hword u _ hu).1) fun _ =>
          preserves_bind (preserves_update fun u hu =>
            hptr u (rxWrap (readWord s.mem (descAddr s.rx.qbase s.rx.ptr.toNat))) hu) fun _ =>
          preserves_update fun u hu => hadv u frame off _ hd rfl hu
        exact hp s hs
    · rw [Op.bind_error _ h]; exact hs

/-! ### TXDMA (R272) -/

/-- What a TXDMA step keeps: the write to word 1 of the descriptor at TBQB + 8*TXPTR, the draw, the frame sent, and
the updates of TXPTR, TXGO, TSR and ISR. -/
theorem txdmaStep_final (hs : I s)
    (hword : ∀ u v, I u → I (u.withMem (writeWord u.mem (descAddr s.tx.qbase s.tx.ptr.toNat + 4) v)))
    (hstop : I s.txStopUsed) (hdraw : ∀ u, I u → I (u.withEnv u.env.drawTx.2))
    (hsend : ∀ u bs, I u → I (u.withOut { u.out with wireTx := u.out.wireTx ++ [bs] }))
    (hsent : ∀ u w1, I u → I (u.txSent w1)) (hfail : ∀ u, I u → I u.txFailed) : I (Op.final (txdmaStep s)) := by
  unfold txdmaStep
  rw [Op.current_bind]
  rcases memRead32_cases s (descAddr s.tx.qbase s.tx.ptr.toNat + 4) with ⟨_, h⟩ | ⟨x, _, h⟩
  · rw [Op.bind_ok _ h]
    split
    · exact hstop
    · have hd : Op.Preserves I drawTxOutcome := fun u hu => hdraw u hu
      refine (preserves_bind (preserves_memRead32 _) fun buf => preserves_bind hd fun sent => ?_) s hs
      cases sent
      · exact preserves_bind (preserves_memWrite32 fun u hu => hword u _ hu) fun _ => preserves_update hfail
      · exact preserves_bind (preserves_memRead _ _) fun bs => preserves_bind (preserves_update fun u hu => hsend u bs hu)
          fun _ => preserves_bind (preserves_memWrite32 fun u hu => hword u _ hu) fun _ =>
            preserves_update fun u hu => hsent u _ hu
  · rw [Op.bind_error _ h]; exact hs

/-! ### SERVICE on its own (R240) -/

/-- What SERVICE on its own leaves alone and clears, ended or faulted (R240, R242, 60_exceptions.md R435): the command
port, the mask, the parameters and INIT_DONE stay, no ISR bit is set, and IRQ_PENDING is false. -/
theorem autonomousService_frame (h : autonomousService s = .next t) :
    t.cmd = s.cmd ∧ t.params = s.params ∧ t.eng.initDone = s.eng.initDone ∧ t.net.imr = s.net.imr
      ∧ t.net.isr = IrqBits.none ∧ t.irqPending = false := by
  have hk : KeptByService (fun u => u.rx.cap = s.rx.cap ∧ u.tx.cap = s.tx.cap ∧ u.cmd = s.cmd ∧ u.params = s.params
      ∧ u.eng.initDone = s.eng.initDone ∧ u.net.imr = s.net.imr ∧ u.net.isr = IrqBits.none)
      s.rx.cap.toNat s.tx.cap.toNat (fun _ => True) :=
    { rxCap := fun u hu => by rw [hu.1], txCap := fun u hu => by rw [hu.2.1], closed := fun _ _ => trivial
      start := fun _ _ => trivial, clear := fun u hu => ⟨hu.1, hu.2.1, hu.2.2.1, hu.2.2.2.1, hu.2.2.2.2.1, hu.2.2.2.2.2.1, rfl⟩
      emit := fun u e hu => hu, rxStop := fun u hu => hu, rxDesc := fun i _ u v hu => ⟨hu, hu⟩
      rxStart := fun u hu => hu, tail := fun u i _ hu => hu, txStop := fun u hu => hu
      txDesc := fun i _ u v hu => ⟨hu, hu⟩, tag := fun u i hu => hu, txStart := fun u hu => hu }
  have hb := serviceBody_final (s := s) hk ⟨rfl, rfl, rfl, rfl, rfl, rfl, rfl⟩
  have hirq : ∀ u : State, u.net.isr = IrqBits.none → u.irqPending = false := by
    intro u hu; unfold State.irqPending; rw [hu]; rfl
  have hfin : t.cmd = s.cmd ∧ t.params = s.params ∧ t.eng.initDone = s.eng.initDone ∧ t.net.imr = s.net.imr
      ∧ t.net.isr = IrqBits.none := by
    rw [autonomousService, runAgent, Op.bind_run] at h
    cases hr : serviceBody s with
    | ok r u => rw [hr] at h hb; cases h; exact hb.2.2
    | error e u => rw [hr] at h hb; cases h; exact hb.2.2
  exact ⟨hfin.1, hfin.2.1, hfin.2.2.1, hfin.2.2.2.1, hfin.2.2.2.2, hirq t hfin.2.2.2.2⟩

/-! ### The step of the whole machine (R283) -/

/-- What the command engine's step can do. -/
theorem ceStep_cases (h : ceStep s = .next t) :
    (s.irqPending = true ∧ autonomousService s = .next t)
      ∨ (s.irqPending = false ∧ ∃ p, s.cmd.pend = some p ∧
          ((∃ i, Sys2Proof.decodeCommand p.word p.args = .ok i ∧ exec i s = .next t)
            ∨ ∃ e, Sys2Proof.decodeCommand p.word p.args = .error e
                ∧ t = s.complete (p.word.setWidth 8) .illegalCmd Results.zero))
      ∨ (s.irqPending = false ∧ s.cmd.pend = none ∧ t = s) := by
  unfold ceStep at h
  split at h
  · next hi => exact .inl ⟨hi, h⟩
  · next hi =>
    have hi : s.irqPending = false := by simpa using hi
    split at h
    · next p hp =>
      unfold runPending at h
      refine .inr (.inl ⟨hi, p, hp, ?_⟩)
      split at h
      · next i hd => exact .inl ⟨i, hd, h⟩
      · next e hd => exact .inr ⟨e, hd, by cases h; rfl⟩
    · next hp => exact .inr (.inr ⟨hi, hp, by cases h; rfl⟩)

/-- A turn keeps what the three agents' steps keep. -/
theorem takeTurn_keeps {a : Agent} (hs : I s) (h : takeTurn a s = .next t)
    (hexec : ∀ i s t, s.eng.fault = false → I s → exec i s = .next t → I t)
    (hill : ∀ s op st r, I s → I (s.complete op st r))
    (hserv : ∀ s t, s.eng.fault = false → I s → autonomousService s = .next t → I t)
    (hrx : ∀ s t, s.eng.fault = false → I s → runAgent .rxdma 0 rxdmaStep s = .next t → I t)
    (htx : ∀ s t, s.eng.fault = false → I s → runAgent .txdma 0 txdmaStep s = .next t → I t) : I t := by
  unfold takeTurn at h
  split at h
  · next he =>
    cases a with
    | ce =>
      have hf : s.eng.fault = false := by
        simp only [State.enabled, Bool.and_eq_true, Bool.not_eq_true'] at he
        exact he.1
      rcases ceStep_cases h with ⟨_, h1⟩ | ⟨_, p, _, ⟨i, _, h2⟩ | ⟨e, _, rfl⟩⟩ | ⟨_, _, rfl⟩
      · exact hserv s t hf hs h1
      · exact hexec i s t hf hs h2
      · exact hill s _ _ _ hs
      · exact hs
    | rxdma =>
      have hf : s.eng.fault = false := by
        simp only [State.enabled, Bool.and_eq_true, Bool.not_eq_true'] at he
        exact he.1
      exact hrx s t hf hs h
    | txdma =>
      have hf : s.eng.fault = false := by
        simp only [State.enabled, Bool.and_eq_true, Bool.not_eq_true'] at he
        exact he.1.1
      exact htx s t hf hs h
  · cases h; exact hs

/-- What a step of the machine keeps: whatever an update of the environment, the agents' steps, HOST's writes, a
frame's arrival and reset keep. -/
theorem step_keeps (hs : I s) (h : step s = .next t) (henv : ∀ s e, I s → I (s.withEnv e))
    (hexec : ∀ i s t, s.eng.fault = false → I s → exec i s = .next t → I t)
    (hill : ∀ s op st r, I s → I (s.complete op st r))
    (hserv : ∀ s t, s.eng.fault = false → I s → autonomousService s = .next t → I t)
    (hrx : ∀ s t, s.eng.fault = false → I s → runAgent .rxdma 0 rxdmaStep s = .next t → I t)
    (htx : ∀ s t, s.eng.fault = false → I s → runAgent .txdma 0 txdmaStep s = .next t → I t)
    (hreg : ∀ s off v, I s → I (writeOffset s off v))
    (hword : ∀ s a v, I s → I (s.withMem (writeWord s.mem a v)))
    (hbyte : ∀ s (a : Word) b, I s → I (s.withMem (writeCell s.mem a.toNat b)))
    (harr : ∀ s frame, frameWf frame = true → I s → I (s.arrive frame))
    (hreset : ∀ u, s.env.inputs.head? = some .reset → I u → I u.resetBlock) : I t := by
  unfold step nextStep at h
  split at h
  · cases h
  split at h
  · next i rest hi =>
    have hu : I (s.withInputs rest) := henv s _ hs
    generalize s.withInputs rest = u at h hu
    cases i with
    | turn a => exact takeTurn_keeps hu h hexec hill hserv hrx htx
    | hostRead32 addr =>
      simp only [applyInput, hostRead32] at h
      split at h <;> split at h <;> cases h <;> exact henv _ _ hu
    | hostWrite32 addr v =>
      simp only [applyInput, hostWrite32] at h
      split at h <;> split at h <;> cases h
      · exact hreg u _ v hu
      · exact hword u addr v hu
    | hostRead8 addr =>
      simp only [applyInput, hostRead8] at h
      split at h <;> cases h
      exact henv _ _ hu
    | hostWrite8 addr v =>
      simp only [applyInput, hostWrite8] at h
      split at h <;> cases h
      exact hbyte u addr v hu
    | arrive frame =>
      simp only [applyInput] at h
      split at h <;> cases h
      exact harr u frame (by assumption) hu
    | reset =>
      cases h
      exact hreset u (by rw [hi]; rfl) hu
  · unfold freeStep at h
    split at h
    · split at h <;> cases h
      exact hs
    · exact takeTurn_keeps hs h hexec hill hserv hrx htx
    · exact takeTurn_keeps (henv s _ hs) h hexec hill hserv hrx htx

end Sys2Proof.Machine
end

