-- ==== Sys2Proof/Laws/Exec.lean ====
section
/-! SUPPORT. What exec keeps, over all instructions: one lemma that names the updates each instruction makes, so
that an invariant or a frame over every instruction is a list of facts about named updates. -/

namespace Sys2Proof.Machine

variable {s t : State} {I : State → Prop}

/-- A command ends in a state with a property that its body's end, completion and a recorded fault keep. -/
theorem runCommand_final {op : Byte} {body : Op (Status × Results)} (hb : I (Op.final (body s)))
    (hc : ∀ u st r, I u → I (u.complete op st r)) (he : ∀ u a, I u → I (u.takeBusFault .ce op a))
    (h : runCommand op body s = .next t) : I t := by
  rcases runCommand_cases op body s with ⟨r, u, hr, hn⟩ | ⟨a, u, hr, hn⟩
  · rw [hn] at h; cases h; rw [hr] at hb; exact hc _ _ _ hb
  · rw [hn] at h; cases h; rw [hr] at hb; exact he _ _ hb

/-- What SET_RX_CB keeps (R230). -/
theorem preserves_setRxCbBody {e : Bool} (h : ∀ s, I s → I ((s.withCb { s.cb with rxCbEn := e }).withNet
    { s.net with imr := { s.net.imr with rcomp := e } })) : Op.Preserves I (setRxCbBody e) :=
  preserves_current_bind fun s hs =>
    (preserves_ite (preserves_pure _) (preserves_bind (preserves_update h) fun _ => preserves_pure _)) s hs

/-- What SET_TX_WAKEUP keeps (R231). -/
theorem preserves_setTxWakeupBody {e : Bool} {thr : Word}
    (h : ∀ s en v, I s → I (s.withCb { s.cb with txwEn := en, txwThr := v }))
    (hev : ∀ s e, I s → I (s.withEv (s.ev.push s.params.evqDepth e))) :
    Op.Preserves I (setTxWakeupBody e thr) := by
  refine preserves_current_bind fun s hs => ?_
  refine (preserves_ite (preserves_pure _) (preserves_ite (preserves_ite (preserves_pure _) ?_) ?_)) s hs
  · exact preserves_bind (preserves_update fun s hs => h s true (thr.setWidth 16) hs) fun _ =>
      preserves_bind (preserves_emitIf hev _ _) fun _ => preserves_pure _
  · exact preserves_bind (preserves_update fun s hs => h s false 0 hs) fun _ => preserves_pure _

/-- What an instruction keeps. INIT, READ, WRITE and SERVICE, which move ring state and write memory, are given by
what their bodies do; the other commands by the updates they make. -/
theorem exec_keeps {i : Instr} (h : exec i s = .next t) (hs : I s)
    (hc : ∀ u op st r, I u → I (u.complete op st r)) (he : ∀ u op a, I u → I (u.takeBusFault .ce op a))
    (hinit : ∀ rc tc rd td rb tb, i = .init rc tc rd td rb tb → I (Op.final (initBody rc tc rd td rb tb s)))
    (hread : ∀ d m, i = .read d m → I (Op.final (readBody d m s)))
    (hwrite : ∀ a n g, i = .write a n g → I (Op.final (writeBody a n g s)))
    (hserv : i = .service → I (Op.final (serviceCommand s)))
    (hcb : ∀ u e, i = .setRxCb e → I u → I ((u.withCb { u.cb with rxCbEn := e }).withNet
      { u.net with imr := { u.net.imr with rcomp := e } }))
    (hwake : ∀ u en v, I u → I (u.withCb { u.cb with txwEn := en, txwThr := v }))
    (hev : ∀ u e, I u → I (u.withEv (u.ev.push u.params.evqDepth e)))
    (hset : ∀ u j b, I u → I (u.withDmx { u.dmx with buf := u.dmx.buf.set j b }))
    (hlen : ∀ u n, n ≤ Config.dmxChannels → I u → I (u.withDmx { u.dmx with len := BitVec.ofNat 10 n }))
    (hsend : ∀ u pipe record, I u → I (u.radioSent pipe record))
    (hfail : ∀ u, I u → I (u.withDispFail (u.dispFail + 1))) : I t := by
  have run : ∀ {op body}, I (Op.final (body s)) → runCommand op body s = .next t → I t := fun hb h =>
    runCommand_final hb (fun u st r => hc u _ st r) (fun u a => he u _ a) h
  cases i with
  | init rc tc rd td rb tb => exact run (hinit _ _ _ _ _ _ rfl) h
  | read d m => exact run (hread _ _ rfl) h
  | write a n g => exact run (hwrite _ _ _ rfl) h
  | setRxCb e => exact run (preserves_setRxCbBody (fun u hu => hcb u e rfl hu) s hs) h
  | setTxWakeup e thr => exact run (preserves_setTxWakeupBody hwake hev s hs) h
  | service => exact run (hserv rfl) h
  | classify fr len => exact run (preserves_classifyBody s hs) h
  | decode fr len => exact run (preserves_okBody (preserves_decodeFrame hset hlen hev) s hs) h
  | dispatch => exact run (preserves_dispatchBody hsend hfail s hs) h
  | opPoll => exact run (preserves_okBody (preserves_decodePoll hev) s hs) h
  | opDmx => exact run (preserves_okBody (preserves_decodeDmx hset hlen) s hs) h
  | opAddress => exact run (preserves_okBody (preserves_decodeAddress hev) s hs) h

end Sys2Proof.Machine
end

