-- ==== Sys2Proof/Laws/HostBus.lean ====
section
/-! SUPPORT. HOST's register writes (10_state.md R33 to R77): what no register write touches, said once, and which
writes can touch the rest. -/

namespace Sys2Proof.Machine

variable {s : State} {v : Word} {off : Nat}

@[simp] theorem tstart_net (s : State) : s.tstart.net = s.net := by unfold State.tstart; split <;> rfl

/-- A register write goes to the register the map has at the offset; with none there it changes nothing. -/
theorem writeOffset_cases (s : State) (off : Nat) (v : Word) :
    (∃ r, regAt s.params off = some r ∧ writeOffset s off v = writeReg s v r)
      ∨ (regAt s.params off = none ∧ writeOffset s off v = s) := by
  unfold writeOffset
  cases h : regAt s.params off with
  | none => exact .inr ⟨rfl, rfl⟩
  | some r => exact .inl ⟨r, rfl, rfl⟩

/-- What an NCR write leaves alone: all but TXGO, RXDMA_ST, RXEN and TXEN (R35). -/
theorem ncrWrite_eq (s : State) (v : Word) :
    s.ncrWrite v = { s with
      rx := { s.rx with dma := if s.net.rxen && !v.getLsbD 2 then .idle else s.rx.dma }
      tx := { s.tx with go := v.getLsbD 3 && (s.tx.go || v.getLsbD 9) }
      net := { s.net with rxen := v.getLsbD 2, txen := v.getLsbD 3 } } := by
  have h : State.ncrWrite s v = if v.getLsbD 9 then (s.ncrSet v).tstart else s.ncrSet v := rfl
  rw [h]
  unfold State.tstart State.ncrSet State.withRx State.withTx State.withNet
  cases h9 : v.getLsbD 9 <;> cases h3 : v.getLsbD 3 <;> simp

/-- What no register write touches: the parameters, memory, the engine's status, the callbacks, the canonical buffer,
the outputs and the environment. -/
theorem writeReg_frame (s : State) (v : Word) (r : Reg) :
    (writeReg s v r).params = s.params ∧ (writeReg s v r).mem = s.mem ∧ (writeReg s v r).eng = s.eng
      ∧ (writeReg s v r).cb = s.cb ∧ (writeReg s v r).dmx = s.dmx ∧ (writeReg s v r).out = s.out
      ∧ (writeReg s v r).env = s.env := by
  cases r
  case ncr => simp only [writeReg, ncrWrite_eq, and_self]
  case cmd =>
    simp only [writeReg, State.issue]
    split
    · split <;> exact ⟨rfl, rfl, rfl, rfl, rfl, rfl, rfl⟩
    · exact ⟨rfl, rfl, rfl, rfl, rfl, rfl, rfl⟩
  all_goals exact ⟨rfl, rfl, rfl, rfl, rfl, rfl, rfl⟩

theorem writeOffset_frame (s : State) (off : Nat) (v : Word) :
    (writeOffset s off v).params = s.params ∧ (writeOffset s off v).mem = s.mem ∧ (writeOffset s off v).eng = s.eng
      ∧ (writeOffset s off v).cb = s.cb ∧ (writeOffset s off v).dmx = s.dmx ∧ (writeOffset s off v).out = s.out
      ∧ (writeOffset s off v).env = s.env := by
  rcases writeOffset_cases s off v with ⟨r, _, h⟩ | ⟨_, h⟩ <;> rw [h]
  · exact writeReg_frame s v r
  · exact ⟨rfl, rfl, rfl, rfl, rfl, rfl, rfl⟩

/-- The registers of the rings that HOST cannot write: everything but RBQB, RXDMA_ST, TBQB and TXGO. -/
theorem writeReg_rings (s : State) (v : Word) (r : Reg) :
    (∃ q d, (writeReg s v r).rx = { s.rx with qbase := q, dma := d })
      ∧ ∃ q g, (writeReg s v r).tx = { s.tx with qbase := q, go := g } := by
  cases r
  case ncr => rw [writeReg, ncrWrite_eq]; exact ⟨⟨_, _, rfl⟩, ⟨_, _, rfl⟩⟩
  case cmd =>
    simp only [writeReg, State.issue]
    split
    · split <;> exact ⟨⟨_, _, rfl⟩, ⟨_, _, rfl⟩⟩
    · exact ⟨⟨_, _, rfl⟩, ⟨_, _, rfl⟩⟩
  all_goals exact ⟨⟨_, _, rfl⟩, ⟨_, _, rfl⟩⟩

/-- A pending command stays latched whatever HOST writes (R54, R61). -/
theorem writeReg_pend {p : Pending} (h : s.cmd.pend = some p) (r : Reg) : (writeReg s v r).cmd.pend = some p := by
  cases r
  case ncr => rw [writeReg, ncrWrite_eq]; exact h
  case cmd => simp only [writeReg, State.issue, h]; rfl
  all_goals exact h

end Sys2Proof.Machine
end

