-- ==== Sys2Proof/Laws/PerInstr.lean ====
section
/-! SUPPORT. The family `Encodes`: of each instruction, the length of its encoding, and that the word and the
operands the encoder writes decode to the instruction (30_encoding.md R142, R144, R175). -/

namespace Sys2Proof.Laws.Encodes

/-- A command encodes to seven words and an Art-Net opcode to two bytes, and the decoder reads the instruction
back from the encoder's word and operands, before they are laid out as bytes. -/
def Statement (i : Instr) : Prop :=
  (encode i).length = (if i.isOpcode then 2 else 28)
    ∧ (if i.isOpcode then decodeOpcode (i.opWord.setWidth 16) = .ok i
        else decodeCommand i.opWord i.operandWords = .ok i)

theorem init (rc tc rd td rb tb : Word) : Statement (.init rc tc rd td rb tb) := by
  refine ⟨rfl, ?_⟩
  simp [Instr.isOpcode, Instr.opWord, Instr.operandWords, decodeCommand]

theorem read (dest maxLen : Word) : Statement (.read dest maxLen) := by
  refine ⟨rfl, ?_⟩
  simp [Instr.isOpcode, Instr.opWord, Instr.operandWords, decodeCommand]

theorem write (src len : Word) (tag : Half) : Statement (.write src len tag) := by
  refine ⟨rfl, ?_⟩
  simp [Instr.isOpcode, Instr.opWord, Instr.operandWords, decodeCommand]

theorem setRxCb (e : Bool) : Statement (.setRxCb e) := by cases e <;> exact ⟨rfl, rfl⟩

theorem setTxWakeup (e : Bool) (thr : Word) : Statement (.setTxWakeup e thr) := by
  refine ⟨rfl, ?_⟩
  cases e <;> simp [Instr.isOpcode, Instr.opWord, Instr.operandWords, decodeCommand]

theorem service : Statement .service := ⟨rfl, rfl⟩

theorem classify (fr len : Word) : Statement (.classify fr len) := by
  refine ⟨rfl, ?_⟩
  simp [Instr.isOpcode, Instr.opWord, Instr.operandWords, decodeCommand]

theorem decode (fr len : Word) : Statement (.decode fr len) := by
  refine ⟨rfl, ?_⟩
  simp [Instr.isOpcode, Instr.opWord, Instr.operandWords, decodeCommand]

theorem dispatch : Statement .dispatch := ⟨rfl, rfl⟩

theorem opPoll : Statement .opPoll := ⟨rfl, rfl⟩

theorem opDmx : Statement .opDmx := ⟨rfl, rfl⟩

theorem opAddress : Statement .opAddress := ⟨rfl, rfl⟩

end Sys2Proof.Laws.Encodes
end

