-- ==== Sys2Proof/Laws/Regions.lean ====
section
/-! SUPPORT. The regions of system memory and HOST's duties for them (20_memory.md R102, 70_reset_and_hazards.md R470,
R481): what the Boolean conditions of Machine/Runs.lean say of addresses, and what the ownership protocol of the rings
depends on. -/

namespace Sys2Proof.Machine

variable {s t : State} {p : Params} {a b : Word} {n k : Nat} {rs : List (Word × Nat)}

/-! ### Ranges that do not meet -/

theorem Apart.sub_left {j l : Nat} (h : Apart a n b k) (hj : j + l ≤ n) : Apart (a + BitVec.ofNat 32 j) l b k :=
  fun i hi => by rw [BitVec.add_assoc, ← BitVec.ofNat_add]; exact h (j + i) (by omega)

theorem Apart.sub_right {j l : Nat} (h : Apart a n b k) (hj : j + l ≤ k) : Apart a n (b + BitVec.ofNat 32 j) l :=
  (h.symm.sub_left hj).symm

/-- Two ranges that do not meet lie apart. -/
theorem apart_of_not_meet (h : rangesMeet a n b k = false) : Apart a n b k := by
  intro i hi j hj he
  have hn : n ≠ 0 := by omega
  have hk : k ≠ 0 := by omega
  simp only [rangesMeet, Bool.and_eq_false_iff, bne_eq_false_iff_eq, hn, hk, Bool.or_eq_false_iff,
    decide_eq_false_iff_not, false_or] at h
  have e1 := congrArg BitVec.toNat he
  simp only [BitVec.toNat_add, BitVec.toNat_sub, BitVec.toNat_ofNat] at e1 h
  have := a.isLt
  have := b.isLt
  omega

/-- A range that avoids some regions lies apart from each. -/
theorem apart_of_avoids (h : avoids rs a n = true) {r : Word × Nat} (hr : r ∈ rs) : Apart r.1 r.2 a n := by
  have := List.all_eq_true.mp h r hr
  exact apart_of_not_meet (by simpa using this)

/-- Regions HOST may reserve start 4-aligned, can be accessed throughout, and lie pairwise apart. -/
theorem reservable_facts (h : reservable p rs = true) :
    (∀ r, r ∈ rs → r.1.toNat % 4 = 0 ∧ AccessValid p r.1 r.2)
      ∧ rs.Pairwise fun r q => Apart r.1 r.2 q.1 q.2 := by
  induction rs with
  | nil => exact ⟨fun _ hr => (List.not_mem_nil hr).elim, List.Pairwise.nil⟩
  | cons r rs ih =>
    simp only [reservable, Bool.and_eq_true, beq_iff_eq, Option.isNone_iff_eq_none, lowestInvalid_none] at h
    obtain ⟨⟨⟨h1, h2⟩, h3⟩, h4⟩ := h
    obtain ⟨i1, i2⟩ := ih h4
    refine ⟨fun q hq => ?_, List.Pairwise.cons (fun q hq => (apart_of_avoids h1 hq).symm) i2⟩
    rcases List.mem_cons.mp hq with rfl | hq
    · exact ⟨h2, h3⟩
    · exact i1 q hq

/-- What the four ring regions are when HOST reserved them (R470): both arrays can be accessed and lie apart. -/
theorem ringRegions_facts (h : reservable s.params s.ringRegions = true) :
    s.rx.dbase.toNat % 4 = 0 ∧ s.tx.dbase.toNat % 4 = 0 ∧ s.rx.bbase.toNat % 4 = 0 ∧ s.tx.bbase.toNat % 4 = 0
      ∧ RxArrayValid s ∧ TxArrayValid s ∧ ArraysApart s
      ∧ (∀ r, r ∈ s.descArrays → Apart r.1 r.2 s.rx.bbase (s.rx.cap.toNat * s.params.rxUnit)
          ∧ Apart r.1 r.2 s.tx.bbase (s.tx.cap.toNat * s.params.txUnit)) := by
  obtain ⟨hv, hp⟩ := reservable_facts h
  have h0 := hv (s.rx.dbase, 8 * s.rx.cap.toNat) (by simp [State.ringRegions, State.descArrays])
  have h1 := hv (s.tx.dbase, 8 * s.tx.cap.toNat) (by simp [State.ringRegions, State.descArrays])
  have h2 := hv (s.rx.bbase, s.rx.cap.toNat * s.params.rxUnit) (by simp [State.ringRegions])
  have h3 := hv (s.tx.bbase, s.tx.cap.toNat * s.params.txUnit) (by simp [State.ringRegions])
  simp only [State.ringRegions, State.descArrays, List.cons_append, List.nil_append, List.pairwise_cons,
    List.mem_cons, List.not_mem_nil, or_false] at hp
  obtain ⟨q0, q1, -⟩ := hp
  refine ⟨h0.1, h1.1, h2.1, h3.1, fun i hi => h0.2.sub (by omega), fun i hi => h1.2.sub (by omega),
    q0 _ (.inl rfl), fun r hr => ?_⟩
  simp only [State.descArrays, List.mem_cons, List.not_mem_nil, or_false] at hr
  rcases hr with rfl | rfl
  · exact ⟨q0 _ (.inr (.inl rfl)), q0 _ (.inr (.inr rfl))⟩
  · exact ⟨q1 _ (.inl rfl), q1 _ (.inr rfl)⟩

/-! ### What the protocol depends on -/

/-- The words of a descriptor depend on its array's bytes only. -/
theorem descWords_congr {m m' : List Host.Cell} {base : Word} {cap i : Nat} (hi : i < cap)
    (h : ∀ j, j < 8 * cap → readCell m' (base + BitVec.ofNat 32 j).toNat = readCell m (base + BitVec.ofNat 32 j).toNat) :
    readWord m' (descAddr base i) = readWord m (descAddr base i)
      ∧ readWord m' (descAddr base i + 4) = readWord m (descAddr base i + 4) := by
  constructor
  · exact readWord_congr fun j hj => by rw [descAddr_add]; exact h _ (by omega)
  · exact readWord_congr fun j hj => by rw [second_word, descAddr_add]; exact h _ (by omega)

/-- The receive ring's layout depends on its registers, RX_UNIT and its array's bytes only. -/
theorem rxLayout_congr (h : RxLayout s) (hp : t.params = s.params) (hc : t.rx.cap = s.rx.cap)
    (hd : t.rx.dbase = s.rx.dbase) (hb : t.rx.bbase = s.rx.bbase) (hq : t.rx.qbase = s.rx.qbase)
    (ht : t.rx.tail.toNat < s.rx.cap.toNat) (hr : t.rx.ptr.toNat < s.rx.cap.toNat)
    (hm : ∀ j, j < 8 * s.rx.cap.toNat →
      t.byte (s.rx.dbase + BitVec.ofNat 32 j) = s.byte (s.rx.dbase + BitVec.ofNat 32 j)) : RxLayout t := by
  obtain ⟨h1, _, _, h4, h5⟩ := h
  refine ⟨by rw [hc]; exact h1, by rw [hc]; exact ht, by rw [hc]; exact hr, by rw [hq, hd]; exact h4, fun i hi => ?_⟩
  rw [hc] at hi ⊢
  rw [hp, hb, show t.rx.desc i = s.rx.desc i by rw [RxRing.desc, hd]; rfl]
  rw [show readWord t.mem (s.rx.desc i) = readWord s.mem (s.rx.desc i) from (descWords_congr hi hm).1]
  exact h5 i hi

/-- The transmit ring's protocol depends on its registers, TX_UNIT, TXEN, RLEX and its array's bytes only. -/
theorem txProtocol_congr {c : Nat} (h : TxProtocol s c) (hp : t.params = s.params) (htx : t.tx = s.tx)
    (he : t.net.txen = s.net.txen) (hl : s.net.isr.rlex = true → t.net.isr.rlex = true)
    (hm : ∀ j, j < 8 * s.tx.cap.toNat →
      t.byte (s.tx.dbase + BitVec.ofNat 32 j) = s.byte (s.tx.dbase + BitVec.ofNat 32 j)) : TxProtocol t c := by
  obtain ⟨h1, h2, h3, h4, h5, h6, h7, h8, h9, h10, h11⟩ := h
  have hw : ∀ i, i < s.tx.cap.toNat → readWord t.mem (s.tx.desc i) = readWord s.mem (s.tx.desc i)
      ∧ readWord t.mem (s.tx.desc i + 4) = readWord s.mem (s.tx.desc i + 4) := fun i hi => descWords_congr hi hm
  unfold TxProtocol
  rw [htx, hp, he]
  refine ⟨h1, h2, h3, h4, h5, h6, h7, fun k hk => ?_, fun i hi => ?_, h10, fun hc => (h11 hc).imp id hl⟩
  · rw [(hw _ (Nat.mod_lt _ (by omega))).2]; exact h8 k hk
  · rw [(hw i hi).1, (hw i hi).2]; exact h9 i hi

end Sys2Proof.Machine
end

