-- ==== Sys2Proof/Laws/Runs.lean ====
section
/-! SUPPORT. Runs (41_dma_agents.md R283): what a move other than the command engine's turn keeps, what each agent's
turn in a run is, and the one rule of progress: what holds until an enabled agent's turn leads to that turn. -/

namespace Sys2Proof.Machine

variable {s t : State} {I : State → Prop} {states : Nat → State} {moves : Nat → Input} {n m : Nat}

/-- What a move keeps that is not the command engine's turn: whatever the DMA agents' steps, HOST's access, the frame's
arrival and reset keep, each as the move says it is. -/
theorem applyInput_keeps {i : Input} (hce : i ≠ .turn .ce) (hs : I s) (h : applyInput i s = .next t)
    (hread : ∀ v, I s → I (s.returned v))
    (hrx : i = .turn .rxdma → ∀ t, s.enabled .rxdma = true → runAgent .rxdma 0 rxdmaStep s = .next t → I t)
    (htx : i = .turn .txdma → ∀ t, s.enabled .txdma = true → runAgent .txdma 0 txdmaStep s = .next t → I t)
    (hreg : ∀ addr off v, i = .hostWrite32 addr v → regOffset s.params addr = some off → I (writeOffset s off v))
    (hword : ∀ addr v, i = .hostWrite32 addr v → regOffset s.params addr = none →
      I (s.withMem (writeWord s.mem addr v)))
    (hbyte : ∀ addr b, i = .hostWrite8 addr b → regOffset s.params addr = none →
      I (s.withMem (writeCell s.mem addr.toNat b)))
    (harr : ∀ frame, i = .arrive frame → I (s.arrive frame))
    (hreset : i = .reset → I s.resetBlock) : I t := by
  cases i with
  | turn a =>
    simp only [applyInput, takeTurn] at h
    split at h
    · next he =>
      cases a with
      | ce => exact absurd rfl hce
      | rxdma => exact hrx rfl t he h
      | txdma => exact htx rfl t he h
    · cases h; exact hs
  | hostRead32 addr =>
    simp only [applyInput, hostRead32] at h
    split at h <;> split at h <;> cases h <;> exact hread _ hs
  | hostWrite32 addr v =>
    simp only [applyInput, hostWrite32] at h
    split at h <;> split at h <;> cases h
    · exact hreg addr _ v rfl (by assumption)
    · exact hword addr v rfl (by assumption)
  | hostRead8 addr =>
    simp only [applyInput, hostRead8] at h
    split at h <;> cases h
    exact hread _ hs
  | hostWrite8 addr b =>
    simp only [applyInput, hostWrite8] at h
    split at h <;> cases h
    exact hbyte addr b rfl (by assumption)
  | arrive frame =>
    simp only [applyInput] at h
    split at h <;> cases h
    exact harr frame rfl
  | reset => cases h; exact hreset rfl

/-- A step of a run is its move. -/
theorem isRun_applied (h : IsRun states moves) (n : Nat) :
    applyInput (moves n) ((states n).withInputs []) = .next (states (n + 1)) := by
  have h1 := h n
  unfold step nextStep at h1
  split at h1
  · cases h1
  · exact h1

/-- A turn of a run is the agent's step, if it is enabled. -/
theorem isRun_turn {a : Agent} (h : IsRun states moves) (ha : moves n = .turn a)
    (he : (states n).enabled a = true) : agentStep a ((states n).withInputs []) = .next (states (n + 1)) := by
  have h1 := isRun_applied h n
  rw [ha] at h1
  have he' : ((states n).withInputs []).enabled a = true := he
  simpa only [applyInput, takeTurn, he', if_true] using h1

/-- Progress: what holds from `n` on until a turn of agent `a`, and enables `a`, leads to that turn (R283). -/
theorem weaklyFair_leads {a : Agent} (h : WeaklyFair states moves) {P : Nat → Prop} (h0 : P n)
    (hen : ∀ m, n ≤ m → P m → (states m).enabled a = true)
    (hstep : ∀ m, n ≤ m → P m → moves m ≠ .turn a → P (m + 1)) : ∃ m, n ≤ m ∧ P m ∧ moves m = .turn a := by
  by_contra hc
  have hall : ∀ k, P (n + k) := by
    intro k
    induction k with
    | zero => exact h0
    | succ k ih => exact hstep _ (Nat.le_add_right n k) ih fun ht => hc ⟨n + k, Nat.le_add_right n k, ih, ht⟩
  obtain ⟨m, hm, ht⟩ := h a n fun m hm => by
    obtain ⟨k, rfl⟩ := Nat.exists_eq_add_of_le hm
    exact hen _ (by omega) (hall k)
  obtain ⟨k, rfl⟩ := Nat.exists_eq_add_of_le hm
  exact hc ⟨n + k, by omega, hall k, ht⟩

/-! ### The registers a DMA agent's step leaves alone -/

/-- An RXDMA step changes memory, RXDMA_ST, RXPTR, RSR, ISR and, on a BusFault, the engine's status (R262, R263). -/
theorem rxdma_frame (h : runAgent .rxdma 0 rxdmaStep s = .next t) :
    t.cmd = s.cmd ∧ t.params = s.params ∧ t.tx = s.tx ∧ t.ev = s.ev ∧ t.out = s.out ∧ t.cb = s.cb ∧ t.net.imr = s.net.imr
      ∧ t.net.txen = s.net.txen ∧ t.net.tsr = s.net.tsr ∧ t.eng.initDone = s.eng.initDone
      ∧ s.net.isr.or t.net.isr = t.net.isr ∧ t.net.isr.rlex = s.net.isr.rlex ∧ t.net.isr.tcomp = s.net.isr.tcomp := by
  have hor : ∀ b : IrqBits, b.or b = b := fun b => by cases b; simp [IrqBits.or]
  have hf := rxdmaStep_final (s := s) (I := fun t => t.cmd = s.cmd ∧ t.params = s.params ∧ t.tx = s.tx ∧ t.ev = s.ev
      ∧ t.out = s.out ∧ t.cb = s.cb ∧ t.net.imr = s.net.imr ∧ t.net.txen = s.net.txen ∧ t.net.tsr = s.net.tsr
      ∧ t.eng.initDone = s.eng.initDone ∧ s.net.isr.or t.net.isr = t.net.isr ∧ t.net.isr.rlex = s.net.isr.rlex
      ∧ t.net.isr.tcomp = s.net.isr.tcomp)
    ⟨rfl, rfl, rfl, rfl, rfl, rfl, rfl, rfl, rfl, rfl, hor _, rfl, rfl⟩ (fun u j b f off _ _ hu => hu)
    (fun u v hu => ⟨hu, hu⟩)
    ⟨rfl, rfl, rfl, rfl, rfl, rfl, rfl, rfl, rfl, rfl,
      by simp [State.bufferNotAvailable, State.withNet, State.withRx, IrqBits.or], rfl, rfl⟩
    (fun u w hu => hu)
    (fun u f off k _ _ hu => by
      unfold State.rxAdvance
      split
      · obtain ⟨h1, h2, h3, h4, h5, h6, h7, h8, h9, h10, h11, h12, h13⟩ := hu
        refine ⟨h1, h2, h3, h4, h5, h6, h7, h8, h9, h10, ?_, h12, h13⟩
        simp only [IrqBits.or, IrqBits.mk.injEq, State.withNet, State.withRx] at h11 ⊢
        cases hr : u.net.isr
        rw [hr] at h11
        simp only [IrqBits.mk.injEq] at h11
        exact ⟨Bool.or_true _, h11.2⟩
      · exact hu)
  rcases runAgent_cases .rxdma 0 rxdmaStep s with ⟨u, hr, hn⟩ | ⟨a, u, hr, hn⟩ <;>
    (rw [hn] at h; cases h; rw [hr] at hf; exact hf)

/-- What holds of a DMA agent's last state holds after its turn, if a recorded fault keeps it. -/
theorem runAgent_final {src : FaultSource} {op : Byte} {body : Op Unit} (hb : I (Op.final (body s)))
    (he : ∀ u a, I u → I (u.takeBusFault src op a)) (h : runAgent src op body s = .next t) : I t := by
  rcases runAgent_cases src op body s with ⟨u, hr, hn⟩ | ⟨a, u, hr, hn⟩
  · rw [hn] at h; cases h; rw [hr] at hb; exact hb
  · rw [hn] at h; cases h; rw [hr] at hb; exact he _ _ hb

theorem irqOr_self (b : IrqBits) : b.or b = b := by cases b; simp [IrqBits.or]

/-- A TXDMA step changes memory, TXPTR, TXGO, TSR, ISR, WIRE_TX, the environment's draws and, on a BusFault, the
engine's status (R272). -/
theorem txdma_frame (h : runAgent .txdma 0 txdmaStep s = .next t) :
    t.cmd = s.cmd ∧ t.params = s.params ∧ t.rx = s.rx ∧ t.ev = s.ev ∧ t.cb = s.cb ∧ t.net.imr = s.net.imr
      ∧ t.net.rxen = s.net.rxen ∧ t.net.txen = s.net.txen ∧ t.net.rsr = s.net.rsr ∧ t.eng.initDone = s.eng.initDone
      ∧ s.net.isr.or t.net.isr = t.net.isr := by
  suffices key : ∀ I : State → Prop, I = (fun t => t.cmd = s.cmd ∧ t.params = s.params ∧ t.rx = s.rx ∧ t.ev = s.ev
      ∧ t.cb = s.cb ∧ t.net.imr = s.net.imr ∧ t.net.rxen = s.net.rxen ∧ t.net.txen = s.net.txen
      ∧ t.net.rsr = s.net.rsr ∧ t.eng.initDone = s.eng.initDone ∧ s.net.isr.or t.net.isr = t.net.isr) → I t from
    key _ rfl
  intro I hI
  have h0 : I s := by
    subst hI; exact ⟨rfl, rfl, rfl, rfl, rfl, rfl, rfl, rfl, rfl, rfl, irqOr_self _⟩
  refine runAgent_final (I := I) (txdmaStep_final (I := I) h0 ?_ ?_ ?_ ?_ ?_ ?_) ?_ h <;> subst hI
  · exact fun u v hu => hu
  · exact h0
  · exact fun u hu => hu
  · exact fun u bs hu => hu
  · rintro u w ⟨h1, h2, h3, h4, h5, h6, h7, h8, h9, h10, h11⟩
    refine ⟨h1, h2, h3, h4, h5, h6, h7, h8, h9, h10, ?_⟩
    cases hi : u.net.isr
    simp only [hi, IrqBits.or, IrqBits.mk.injEq, State.txSent, State.withNet, State.withTx] at h11 ⊢
    exact ⟨h11.1, h11.2.1, h11.2.2.1, Bool.or_true _, h11.2.2.2.2⟩
  · rintro u ⟨h1, h2, h3, h4, h5, h6, h7, h8, h9, h10, h11⟩
    refine ⟨h1, h2, h3, h4, h5, h6, h7, h8, h9, h10, ?_⟩
    cases hi : u.net.isr
    simp only [hi, IrqBits.or, IrqBits.mk.injEq, State.txFailed, State.withNet, State.withTx] at h11 ⊢
    exact ⟨h11.1, h11.2.1, Bool.or_true _, h11.2.2.2⟩
  · exact fun u a hu => hu

/-! ### What waits for the command engine -/

/-- A pending command stays latched until the command engine's turn, or reset (R54, R61). -/
theorem pend_stays {p : Pending} (hr : IsRun states moves) (hp : (states n).cmd.pend = some p)
    (hce : moves n ≠ .turn .ce) (hz : moves n ≠ .reset) : (states (n + 1)).cmd.pend = some p := by
  refine applyInput_keeps (I := fun u => u.cmd.pend = some p) hce (s := (states n).withInputs []) hp
    (isRun_applied hr n) (fun _ h => h) ?_ ?_ ?_ (fun _ _ _ _ => hp) (fun _ _ _ _ => hp) ?_ (fun h => absurd h hz)
  · intro _ t _ h; rw [(rxdma_frame h).1]; exact hp
  · intro _ t _ h; rw [(txdma_frame h).1]; exact hp
  · intro _ off v _ _
    rcases writeOffset_cases ((states n).withInputs []) off v with ⟨r, _, h⟩ | ⟨_, h⟩ <;> rw [h]
    · exact writeReg_pend (s := (states n).withInputs []) hp r
    · exact hp
  · intro f _
    unfold State.arrive
    split
    · exact hp
    · split <;> exact hp

/-- The command engine's turn with a command pending: SERVICE if an interrupt is pending, else the command (R200). -/
theorem ceTurn_cases {p : Pending} (hr : IsRun states moves) (hp : (states n).cmd.pend = some p)
    (hf : (states n).eng.fault = false) (h : moves n = .turn .ce) :
    ((states n).irqPending = true ∧ autonomousService ((states n).withInputs []) = .next (states (n + 1)))
      ∨ ((states n).irqPending = false ∧ runPending p ((states n).withInputs []) = .next (states (n + 1))) := by
  have h1 := isRun_turn hr h (by simp [State.enabled, hf, hp])
  have hp' : ((states n).withInputs []).cmd.pend = some p := hp
  simp only [agentStep, ceStep, hp'] at h1
  split at h1
  · next hi => exact .inl ⟨hi, h1⟩
  · next hi => exact .inr ⟨by simpa using (show ¬ (states n).irqPending = true from hi), h1⟩

end Sys2Proof.Machine
end

