-- ==== Sys2Proof/Tests/Slice0.lean ====
section
/-! SUPPORT. Tests: the well-formedness checks on ill-formed terms, the spec's encodings written out, vectors of
95_test_vectors.md run as single steps, and for every obligation with hypotheses a state that meets them. Expected
values are the spec's. -/

namespace Sys2Proof.Tests

open Sys2Proof.Machine

set_option Elab.async false

/-! ### Well-formedness refuses what is ill formed -/

theorem test_wf_reserved_bits : CommandWord.wf ⟨0x01, 1⟩ = false := by decide
theorem test_wf_unknown_op : CommandWord.wf ⟨0x07, 0⟩ = false := by decide
theorem test_wf_op_zero : CommandWord.wf ⟨0x00, 0⟩ = false := by decide
theorem test_wf_legal : CommandWord.wf ⟨0x12, 0⟩ = true := by decide
theorem test_wf_reset_params : Params.wf Config.resetParams = true := by decide
theorem test_wf_rxUnit_unaligned : Params.wf { Config.resetParams with rxUnit := 126 } = false := by decide
theorem test_wf_rxUnit_zero : Params.wf { Config.resetParams with rxUnit := 0 } = false := by decide
theorem test_wf_rxUnit_large : Params.wf { Config.resetParams with rxUnit := 8192 } = false := by decide
theorem test_wf_txUnit_zero : Params.wf { Config.resetParams with txUnit := 0 } = false := by decide
theorem test_wf_txUnit_large : Params.wf { Config.resetParams with txUnit := 16384 } = false := by decide
theorem test_wf_ringMax_small : Params.wf { Config.resetParams with ringMax := 1 } = false := by decide
theorem test_wf_ringMax_large : Params.wf { Config.resetParams with ringMax := 65536 } = false := by decide
theorem test_wf_evqDepth_zero : Params.wf { Config.resetParams with evqDepth := 0 } = false := by decide
theorem test_wf_evqDepth_large : Params.wf { Config.resetParams with evqDepth := 65536 } = false := by decide
theorem test_wf_maxNodes_zero : Params.wf { Config.resetParams with maxNodes := 0 } = false := by decide
theorem test_wf_maxNodes_large : Params.wf { Config.resetParams with maxNodes := 129 } = false := by decide
theorem test_wf_blockBase : Params.wf { Config.resetParams with blockBase := 0x10800 } = false := by decide
theorem test_wf_frame_empty : frameWf [] = false := by decide
theorem test_wf_frame_long : frameWf (List.replicate 8192 0) = false := by decide +kernel
theorem test_wf_frame_longest : frameWf (List.replicate 8191 0) = true := by decide +kernel

/-! ### Decoding, from words written out by hand (R141, R142, R144, R175) -/

/-- ARG0..ARG5 for the decoding tests: each with its own bytes. -/
def someArgs : Args := ⟨0x80000003, 0x11223344, 0xAABB5566, 4, 5, 0xFFFFFFFF⟩

theorem test_decode_init :
    decodeCommand 0b00000000000000000000000000000001 someArgs
      = .ok (.init 0x80000003 0x11223344 0xAABB5566 4 5 0xFFFFFFFF) := by decide
theorem test_decode_read :
    decodeCommand 0b00000000000000000000000000000010 someArgs = .ok (.read 0x80000003 0x11223344) := by decide
theorem test_decode_write :
    decodeCommand 0b00000000000000000000000000000011 someArgs = .ok (.write 0x80000003 0x11223344 0x5566) := by decide
theorem test_decode_setRxCb :
    decodeCommand 0b00000000000000000000000000000100 someArgs = .ok (.setRxCb true) := by decide
theorem test_decode_setTxWakeup :
    decodeCommand 0b00000000000000000000000000000101 someArgs = .ok (.setTxWakeup true 0x11223344) := by decide
theorem test_decode_service :
    decodeCommand 0b00000000000000000000000000000110 someArgs = .ok .service := by decide
theorem test_decode_classify :
    decodeCommand 0b00000000000000000000000000010000 someArgs = .ok (.classify 0x80000003 0x11223344) := by decide
theorem test_decode_decode :
    decodeCommand 0b00000000000000000000000000010001 someArgs = .ok (.decode 0x80000003 0x11223344) := by decide
theorem test_decode_dispatch :
    decodeCommand 0b00000000000000000000000000010010 someArgs = .ok .dispatch := by decide
theorem test_decode_opPoll : decode [0x00, 0x20] = .ok .opPoll := by decide
theorem test_decode_opDmx : decode [0x00, 0x50] = .ok .opDmx := by decide
theorem test_decode_opAddress : decode [0x00, 0x60] = .ok .opAddress := by decide
theorem test_decode_swapped_opcode : decode [0x20, 0x00] = .error .unknownOpcode := by decide
theorem test_decode_reserved : decodeCommand 0x101 someArgs = .error .reservedBits := by decide
theorem test_decode_unknown : decodeCommand 0x7 someArgs = .error .unknownOp := by decide
theorem test_decode_length : decode [0x01, 0, 0, 0] = .error .badLength := by decide
theorem test_decode_command_bytes :
    decode ([0x02, 0, 0, 0] ++ [0x00, 0x60, 0, 0] ++ [0x2C, 0x01, 0, 0] ++ List.replicate 16 0xFF)
      = .ok (.read 0x6000 300) := by decide

/-! ### States the tests run from -/

/-- The next state of an outcome; the reset state if there is none. -/
def after : Host.Outcome State Fault Refusal → State
  | .next t => t
  | .fault _ => State.reset
  | .refused _ => State.reset

/-- After the standard INIT of 95_test_vectors.md section 0. -/
def std : State := after (exec (.init 4 4 0x1000 0x1100 0x2000 0x3000) State.reset)

/-- The words of RX descriptor `i`. -/
def rxWords (s : State) (i : Nat) : Word × Word := (readWord s.mem (s.rx.desc i), readWord s.mem (s.rx.desc i + 4))

/-- The words of TX descriptor `i`. -/
def txWords (s : State) (i : Nat) : Word × Word := (readWord s.mem (s.tx.desc i), readWord s.mem (s.tx.desc i + 4))

/-- RX descriptor `i` as RXDMA would have left it. -/
def plant (s : State) (i : Nat) (w0 w1 : Word) : State :=
  s.withMem (writeWord (writeWord s.mem (s.rx.desc i) w0) (s.rx.desc i + 4) w1)

/-- Bytes placed in memory. -/
def place (s : State) (a : Word) (bs : List Byte) : State := s.withMem (writeBytes s.mem a bs)

/-- The environment offers these moves next. -/
def offer (s : State) (inputs : List Input) : State := s.withInputs inputs

/-- A pending command. -/
def pending (s : State) (w : Word) (a : Args) : State := s.withCmd { s.cmd with pend := some ⟨w, a⟩, busy := true }

/-- WRITE-1: one frame of 60 bytes with tag 7 in the ring. -/
def oneWritten : State := after (exec (.write 0x5000 60 7) (place std 0x5000 [0xDE, 0xAD]))

/-- TXD-1: that frame sent. -/
def oneSent : State :=
  after (step (offer (oneWritten.withEnv { oneWritten.env with txOutcomes := [true] }) [.turn .txdma]))

/-- TXD-3: that frame failed. -/
def oneFailed : State :=
  after (step (offer (oneWritten.withEnv { oneWritten.env with txOutcomes := [false] }) [.turn .txdma]))

/-- Frame D of program P3. -/
def frameD : List Byte := (opcodeFrame 0x5000).set 59 5 ++ [5, 15, 25, 105, 245]

/-- Frame D at 0x7000. -/
def withD : State := place State.reset 0x7000 frameD

/-- The canonical buffer, FWD and DISPCFG of vector S5; RADIO answers with failure twice. -/
def s5 : State :=
  ((State.reset.withDmx { State.reset.dmx with buf := [5, 15, 25, 105, 245] ++ List.replicate 507 0 }).withCfg
    { State.reset.cfg with count := 5, fwd := State.reset.cfg.fwd.set 2 3, pipe := State.reset.cfg.pipe.set 0 0xE7E7E700 }).withEnv
    { State.reset.env with radioAcks := [true, false, true, true, false] }

/-! ### One step each, against the spec's vectors -/

/-- INIT-1. -/
theorem test_init_descriptors :
    rxWords std 3 = (0x2182, 0) ∧ txWords std 1 = (0x35EE, 0x80000000) ∧ txWords std 3 = (0x41CA, 0xC0000000) := by
  decide +kernel
/-- INIT-1, the registers. -/
theorem test_init_registers :
    (readOffset std 0x000, readOffset std 0x02C, readOffset std 0x068, readOffset std 0x010, readOffset std 0x014)
      = (0xC, 0x4A4, 0x1, 0x1000, 0x1100) := by decide +kernel
/-- READ-6: a new SOF wins over a stale one. -/
theorem test_read_stale_sof :
    (after (exec (.read 0x6000 1536) (plant (plant std 0 0x2001 0x4000) 1 0x2081 0xC03C))).cmd.res
      = ⟨60, 60, 2, 0⟩ := by decide +kernel
/-- READ-9: a frame across the wrap. -/
theorem test_read_wrap :
    let t := after (exec (.read 0x6000 1536)
      (plant (plant (std.withRx { std.rx with tail := 3 }) 3 0x2183 0x4000) 0 0x2001 0x80C8))
    (t.cmd.status, t.cmd.res, t.rx.tail) = (.ok, ⟨200, 200, 2, 0⟩, 1) := by decide +kernel
/-- WRITE-1. -/
theorem test_write :
    (oneWritten.byte 0x3001, (txWords oneWritten 0).2, oneWritten.tx.tag 0, oneWritten.tx.head, oneWritten.tx.go)
      = (0xAD, 0x803C, 7, 1, true) := by decide +kernel
/-- WRITE-5: WRAP kept on the last descriptor. -/
theorem test_write_wrap :
    let t := after (exec (.write 0x5000 60 9) (std.withTx { std.tx with head := 3, tail := 3 }))
    ((txWords t 3).2, t.tx.head, t.cmd.res) = (0x4000803C, 0, ⟨3, 0, 0, 0⟩) := by decide +kernel
/-- CB-1. -/
theorem test_setRxCb :
    let t := after (exec (.setRxCb true) std)
    (readOffset t 0x054, readOffset t 0x02C) = (0x1, 0x4A6) := by decide +kernel
/-- CB-5. -/
theorem test_setTxWakeup :
    let t := after (exec (.setTxWakeup true 3) std)
    (readOffset t 0x054, t.ev.queue) = (0x00030002, [0x00030003]) := by decide +kernel
/-- SV-1. -/
theorem test_service :
    let t := after (step (offer oneSent [.turn .ce]))
    (t.ev.queue, t.tx.tail, t.net.isr, t.cmd.res) = ([0x702], 1, IrqBits.none, ⟨0, 0, 0, 0⟩) := by
  decide +kernel
/-- SV-3, with one frame: it is reported ABORTED. -/
theorem test_service_abort :
    let t := after (step (offer oneFailed [.turn .ce]))
    (t.ev.queue, t.tx.head, t.net.txen, (txWords t 0).2) = ([0x712], 0, true, 0x80000000) := by decide +kernel
/-- CL-1. -/
theorem test_classify :
    (after (exec (.classify 0x7000 65) withD)).cmd.res = ⟨1, 1, 0x15000, 1⟩ := by decide +kernel
/-- CL-8: ARP. -/
theorem test_classify_arp :
    (after (exec (.classify 0x7000 14) (place withD 0x700C [8, 6]))).cmd.res = ⟨2, 0, 0, 0⟩ := by decide +kernel
/-- DEC-1. -/
theorem test_decode_dmx :
    let t := after (exec (.decode 0x7000 65) withD)
    (t.cmd.res, readOffset t 0x800, readOffset t 0x804, t.dmx.len) = (⟨2, 5, 0, 1⟩, 0x69190F05, 0xF5, 5) := by
  decide +kernel
/-- DEC-3: the declared length is big-endian. -/
theorem test_decode_big_endian :
    (after (exec (.decode 0x7000 65) (place withD 0x703A [2, 0]))).cmd.res = ⟨1, 0, 0, 1⟩ := by decide +kernel
/-- DISP-4. -/
theorem test_dispatch :
    let t := after (exec .dispatch s5)
    (t.cmd.res, t.dispFail, t.out.radioOut.map (·.record), t.out.radioOut.map (·.ack))
      = (⟨5, 2, 0, 0⟩, 2, [0, 0x101, 0x30202, 0x70303, 0x404], [true, false, true, true, false]) := by
  decide +kernel
/-- DISP-3. -/
theorem test_dispatch_param :
    (after (exec .dispatch (s5.withCfg { s5.cfg with count := 17 }))).cmd.status = .param := by decide +kernel
/-- DISP-1: the record of each boundary value. -/
theorem test_range_table :
    [0, 10, 11, 20, 21, 30, 31, 40, 41, 50, 51, 60].map (mapValue 0x44332211 0)
      = [some 0, some 0, some 1, some 1, some 0x110002, some 0x110002, some 0x220002, some 0x220002, some 0x330002,
        some 0x330002, some 0x440002, some 0x440002] := by decide
/-- DISP-1, the rest. -/
theorem test_range_table_high :
    [61, 100, 101, 102, 165, 166, 229, 230, 231, 255].map (mapValue 0x44332211 0)
      = [none, none, some 0x3, some 0x10003, some 0x7E0003, some 0x800003, some 0xFD0003, some 0xFF0003, some 0x4,
        some 0x4] := by decide
/-- DEC-14, through the opcode's own path. -/
theorem test_opPoll :
    let t := after (step (State.reset.withFetchWord 16 0x2000))
    (t.cmd.res, t.ev.queue) = (⟨4, 0, 0, 2⟩, [0x4]) := by decide +kernel
/-- DEC-11. -/
theorem test_opPoll_unicast :
    let s := (place State.reset 0x7000 ((opcodeFrame 0x2000).set 54 8)).withCfg { State.reset.cfg with unicastMask := 8 }
    let t := after (exec .opPoll (pending s 0x11 ⟨0x7000, 60, 0, 0, 0, 0⟩))
    (t.cmd.res, t.ev.queue) = (⟨4, 0, 1, 2⟩, [0x14]) := by decide +kernel
/-- DEC-8, through the opcode's own path. -/
theorem test_opDmx :
    (after (step (State.reset.withFetchWord 16 0x5000))).cmd.res = ⟨2, 0, 0, 1⟩ := by decide +kernel
/-- DEC-5: another universe. -/
theorem test_opDmx_other_universe :
    (after (exec .opDmx (pending (place withD 0x7038 [1]) 0x11 ⟨0x7000, 65, 0, 0, 0, 0⟩))).cmd.res
      = ⟨3, 0, 0, 1⟩ := by decide +kernel
/-- DEC-10. -/
theorem test_opAddress :
    let t := after (step (State.reset.withFetchWord 16 0x6000))
    (t.cmd.res, t.ev.queue) = (⟨5, 0, 1, 3⟩, [0x34]) := by decide +kernel
/-- RXD-2. -/
theorem test_rxdma :
    let t := after (step (offer (std.withRx { std.rx with dma := .busy (List.replicate 60 0xAB) 0 }) [.turn .rxdma]))
    (rxWords t 0, t.rx.ptr, t.net.isr.word) = ((0x2001, 0xC03C), 1, 0x2) := by decide +kernel
/-- TXD-1. -/
theorem test_txdma :
    ((txWords oneSent 0).2, oneSent.tx.ptr, readOffset oneSent 0x00C, oneSent.net.isr.word)
      = (0x8000803C, 1, 0x28, 0x80) := by decide +kernel
/-- INIT-9: the recorded BusFault. -/
theorem test_busfault :
    let t := after (exec (.init 4 4 0x1000 0x1100 0x2000 0x3000) { State.reset with
      params := { Config.resetParams with memMap := [⟨0, 0x1100⟩, ⟨0x1200, 0xEE00⟩] } })
    (readOffset t 0x06C, readOffset t 0x068, (rxWords t 3).1) = (0x1100, 0x112, 0x2182) := by decide +kernel
/-- REG-1. -/
theorem test_illegal :
    readOffset (after (step (offer (pending State.reset 0x7 Args.zero) [.turn .ce]))) 0x104 = 0x70800 := by
  decide +kernel

/-! ### Witnesses: for each obligation with hypotheses, a state and operands that meet all of them -/

/-- Whether an outcome is a next state. -/
def completes : Host.Outcome State Fault Refusal → Bool
  | .next _ => true
  | .fault _ => false
  | .refused _ => false

theorem test_next_of {o : Host.Outcome State Fault Refusal} (h : completes o = true) : o = .next (after o) := by
  cases o <;> first | rfl | cases h

/-- The standard ring with RX_UNIT = 4, two received fragments of a frame of 5 bytes among its descriptors. -/
def twoFragments : State :=
  plant (plant { std with params := { Config.resetParams with rxUnit := 4 } } 0 0x2001 0x4000) 1 0x2081 0x8005

/-- The standard ring with RX_UNIT = 4, every RX descriptor software-owned and none with EOF. -/
def noEof : State :=
  plant (plant (plant (plant { std with params := { Config.resetParams with rxUnit := 4 } } 0 0x2001 0x4000) 1 0x2081 0) 2
    0x2101 0) 3 0x2183 0

/-- The standard ring with RX_UNIT = 4: an orphan at index 3, then the first descriptor of a frame still
arriving. -/
def arriving : State :=
  plant (plant ({ std with params := { Config.resetParams with rxUnit := 4 } }.withRx { std.rx with tail := 3 }) 3
    0x2183 0) 0 0x2001 0x4000

/-- The premises of READ's stop after one orphan and `h` descriptors of a frame, with `c` bytes copied to 0x6000;
RX_TAIL is 3. -/
def StopPremises (s : State) (h c : Nat) : Prop :=
  s.params.wf = true ∧ Memory.wf s.mem = true ∧ s.eng.initDone = true ∧ s.rx.tail.toNat = 3 ∧ s.rx.cap.toNat = 4
    ∧ s.params.rxUnit = 4 ∧ AccessValid s.params 0x6000 c
    ∧ (∀ k, k < 2 + h → AccessValid s.params (s.rx.desc ((3 + k) % 4)) 8)
    ∧ (∀ k, k < 2 + h → (rxWords s ((3 + k) % 4)).1.getLsbD 0 = decide (k < 1 + h))
    ∧ (∀ k, k < 1 + h → (rxWords s ((3 + k) % 4)).2.getLsbD 14 = decide (k = 1))
    ∧ (∀ k, k < 2 + h → Apart 0x6000 c (s.rx.desc ((3 + k) % 4)) 8)
    ∧ (∀ k, k < 1 + h → 1 ≤ k → (rxWords s ((3 + k) % 4)).2.getLsbD 15 = false)
    ∧ (∀ k, k < 1 + h → 1 ≤ k → AccessValid s.params ((rxWords s ((3 + k) % 4)).1 &&& 0xFFFFFFFC) 4)
    ∧ (∀ k, k < 1 + h → 1 ≤ k → Apart 0x6000 c ((rxWords s ((3 + k) % 4)).1 &&& 0xFFFFFFFC) 4)
    ∧ ∀ k, k < 1 + h → 1 ≤ k → Apart ((rxWords s ((3 + k) % 4)).1 &&& 0xFFFFFFFC) 4 (s.rx.desc 3) 4

/-- The standard ring with RX_UNIT = 4: an orphan, a stale frame of one descriptor, a frame of 5 bytes. -/
def afterStale : State :=
  plant (plant (plant (plant { std with params := { Config.resetParams with rxUnit := 4 } } 0 0x2001 0) 1 0x2081 0x4000)
    2 0x2101 0x4000) 3 0x2183 0x8005

/-- The premises of READ's reassembly for a frame of 5 bytes in two descriptors, read to 0x6000. -/
def ReadPremises (s : State) (o h : Nat) (maxLen : Word) (copied touched : Nat) : Prop :=
  s.params.wf = true ∧ Memory.wf s.mem = true ∧ s.eng.initDone = true ∧ maxLen ≠ 0 ∧ s.rx.tail.toNat = 0
    ∧ s.rx.cap.toNat = 4 ∧ o + h + 2 ≤ 4
    ∧ (∀ k, k < o + h + 2 → AccessValid s.params (s.rx.desc k) 8)
    ∧ (∀ k, k < o + h + 2 → (rxWords s k).1.getLsbD 0 = true)
    ∧ (∀ k, k < o + h + 2 → (rxWords s k).2.getLsbD 14 = (decide (0 < h ∧ k = o) || decide (k = o + h)))
    ∧ (∀ k, k < o + h + 2 → Apart 0x6000 touched (s.rx.desc k) 8)
    ∧ (∀ k, k < o + h + 2 → o ≤ k → (rxWords s k).2.getLsbD 15 = decide (k = o + h + 1))
    ∧ (∀ k, k < o + h + 2 → o ≤ k → Apart 0x6000 touched ((rxWords s k).1 &&& 0xFFFFFFFC) s.params.rxUnit)
    ∧ (∀ k, k < o + h + 2 → o ≤ k → ∀ j, j < o + h →
        Apart ((rxWords s k).1 &&& 0xFFFFFFFC) s.params.rxUnit (s.rx.desc j) 4)
    ∧ 5 = (rxWords s (o + h + 1)).2.toNat % 2 ^ 13 ∧ s.params.rxUnit = 4
    ∧ copied = min (4 + min (5 - 4) 4) maxLen.toNat
    ∧ touched = max copied (min (4 * h) maxLen.toNat) ∧ AccessValid s.params 0x6000 touched
    ∧ (∀ k, k < o + h → o ≤ k → AccessValid s.params ((rxWords s k).1 &&& 0xFFFFFFFC) 4)
    ∧ ∀ k, k < 2 → ∀ j, j < 4 → 4 * k + j < copied →
        memValid s.params (((rxWords s (o + h + k)).1 &&& 0xFFFFFFFC) + BitVec.ofNat 32 j) = true

/-- A block that has faulted. -/
def faulted : State := State.reset.takeBusFault .ce 0x02 0x10000

/-- A short frame written with WRITE, its transmission about to start. -/
def shortWritten : State := after (exec (.write 0x5000 2 7) std)

/-- A frame written, and TXDMA's next attempt given success. -/
def frame0 : State := shortWritten.withEnv { shortWritten.env with txOutcomes := [true] }

/-- The EtherType of ARP at the last two valid addresses. -/
def arpAtEnd : State := place State.reset 0xFFFE [0x08, 0x06]

/-- DISPCFG of vector DISP-6: the last channels. -/
def lastChannels : State := State.reset.withCfg { State.reset.cfg with base := 509, count := 3 }

theorem test_witness_IllegalWordOnlyCompletes :
    TurnOf .ce (offer (pending State.reset 0x7 Args.zero) [.turn .ce]) []
      ∧ (pending State.reset 0x7 Args.zero).irqPending = false ∧ CommandWord.wf ⟨0x07, 0⟩ = false := by
  unfold TurnOf; decide +kernel

theorem test_witness_StepRunsPendingCommand :
    TurnOf .ce (offer (pending State.reset 0x6 someArgs) [.turn .ce]) []
      ∧ (pending State.reset 0x6 someArgs).irqPending = false ∧ decodeCommand 0x6 someArgs = .ok .service := by
  unfold TurnOf; decide +kernel

theorem test_witness_StepRunsArtNetOpcode :
    TurnOf .ce (offer (pending withD 0x11 ⟨0x7000, 65, 0, 0, 0, 0⟩) [.turn .ce]) []
      ∧ (pending withD 0x11 ⟨0x7000, 65, 0, 0, 0, 0⟩).irqPending = false ∧ HeaderValid withD 0x7000 65
      ∧ headerOpcode (withD.frame 0x7000) 65 = some 0x5000 ∧ decodeOpcode 0x5000 = .ok .opDmx := by
  unfold TurnOf HeaderValid; decide +kernel

theorem test_witness_ServiceRunsBeforeTheCommand :
    TurnOf .ce (offer oneSent [.turn .ce]) [] ∧ oneSent.irqPending = true
      ∧ completes (step (offer oneSent [.turn .ce])) = true := by
  unfold TurnOf; decide +kernel

theorem test_witness_CommandsCompleteThePort :
    std.eng.fault = false ∧ completes (exec .service std) = true ∧ (after (exec .service std)).eng.fault = false := by
  decide +kernel

/-- Before INIT; each way a parameter is out of range, at the boundary. -/
theorem test_witness_CommandsTurnedAwayOnlyComplete :
    State.reset.eng.initDone = false ∧ (1 : Word).toNat ≤ 1 ∧ State.reset.params.ringMax < (1025 : Word).toNat
      ∧ (0x1002 : Word).toNat % 4 ≠ 0 ∧ std.eng.initDone = true
      ∧ lastChannels.params.maxNodes < (17 : Byte).toNat ∧ 512 < (510 : BitVec 10).toNat + (3 : Byte).toNat := by
  decide +kernel

theorem test_witness_InitCompletes :
    State.reset.params.wf = true ∧ 1 < (2 : Word).toNat ∧ 1 < (4 : Word).toNat ∧ (0x1000 : Word).toNat % 4 = 0
      ∧ (4 : Word).toNat ≤ State.reset.params.ringMax ∧ (2 : Word).toNat ≤ State.reset.params.ringMax
      ∧ (∀ i, i < (2 : Word).toNat → AccessValid State.reset.params (descAddr 0x1000 i) 8)
      ∧ (∀ i, i < (4 : Word).toNat → AccessValid State.reset.params (descAddr 0x1100 i) 8) := by
  unfold AccessValid; decide +kernel

theorem test_witness_InitWritesTheDescriptors :
    Memory.wf State.reset.mem = true ∧ Apart 0x1000 (8 * (2 : Word).toNat) 0x1100 (8 * (4 : Word).toNat) := by
  unfold Apart Outside; decide +kernel

theorem test_witness_InitKeepsTheConfiguration :
    completes (exec (.init 4 4 0x1000 0x1100 0x2000 0x3000) State.reset) = true := by decide +kernel

/-- The empty ring. -/
theorem test_witness_ReadStops_empty :
    std.eng.initDone = true ∧ (1536 : Word) ≠ 0 ∧ std.rx.tail.toNat < std.rx.cap.toNat
      ∧ AccessValid std.params (std.rx.desc 0) 4 ∧ (readWord std.mem (std.rx.desc 0)).getLsbD 0 = false := by
  unfold AccessValid; decide +kernel

/-- An orphan across the wrap alone; and with the first descriptor of a frame, copied in part and whole. -/
theorem test_witness_ReadStopsAtHardwareOwnedDescriptor :
    StopPremises (plant arriving 0 0x2000 0) 0 0 ∧ StopPremises arriving 1 (min 4 2)
      ∧ StopPremises arriving 1 (min 4 1536) := by
  unfold StopPremises AccessValid Apart Outside
  and_intros <;> decide +kernel

theorem test_witness_ReadCompletesOneDescriptorFrame :
    let s := plant std 0 0x2001 0xC002
    Memory.wf s.mem = true ∧ s.eng.initDone = true ∧ s.rx.tail.toNat < s.rx.cap.toNat
      ∧ AccessValid s.params (s.rx.desc 0) 8 ∧ rxWords s 0 = (0x2001, 0xC002) ∧ (0x2001 : Word).getLsbD 0 = true
      ∧ (0xC002 : Word).getLsbD 14 = true ∧ (0xC002 : Word).getLsbD 15 = true ∧ (0xC002 : Word).toNat % 2 ^ 13 = 2
      ∧ 2 ≤ s.params.rxUnit ∧ 2 ≤ (2 : Word).toNat ∧ AccessValid s.params 0x6000 2
      ∧ AccessValid s.params (0x2001 &&& 0xFFFFFFFC) 2 ∧ Apart 0x6000 2 (0x2001 &&& 0xFFFFFFFC) 2
      ∧ Apart 0x6000 2 (s.rx.desc 0) 8 := by
  unfold AccessValid Apart Outside; decide +kernel

/-- A frame of 5 bytes in two descriptors, one byte more than one holds: alone, and after an orphan and a stale frame
of one descriptor; with room for all of it (OK) and for two bytes (TOO_SMALL). -/
theorem test_witness_ReadReassemblesFrameByteForByte :
    ReadPremises twoFragments 0 0 5 5 5 ∧ ReadPremises afterStale 1 1 5 5 5
      ∧ ReadPremises afterStale 1 1 2 2 2 := by
  unfold ReadPremises AccessValid Apart Outside
  and_intros <;> decide +kernel

theorem test_witness_ReadTraversalErrorReleasesEveryDescriptor :
    let s := noEof
    s.params.wf = true ∧ Memory.wf s.mem = true ∧ s.eng.initDone = true ∧ s.rx.tail.toNat < s.rx.cap.toNat
      ∧ RxArrayValid s ∧ AccessValid s.params 0x6000 5
      ∧ (∀ i, i < s.rx.cap.toNat → (rxWords s i).1.getLsbD 0 = true)
      ∧ (∀ i, i < s.rx.cap.toNat → (rxWords s i).2.getLsbD 15 = false)
      ∧ (∀ i, i < s.rx.cap.toNat → AccessValid s.params ((rxWords s i).1 &&& 0xFFFFFFFC) s.params.rxUnit)
      ∧ (∀ i, i < s.rx.cap.toNat → Apart 0x6000 5 (s.rx.desc i) 8) := by
  unfold RxArrayValid AccessValid Apart Outside; decide +kernel

theorem test_witness_ReadFrame :
    completes (exec (.read 0x6000 5) twoFragments) = true ∧ twoFragments.rx.tail.toNat < twoFragments.rx.cap.toNat := by
  decide +kernel

theorem test_witness_WriteCompletes :
    std.params.wf = true ∧ Memory.wf std.mem = true ∧ std.eng.initDone = true ∧ (2 : Word) ≠ 0
      ∧ (2 : Word).toNat ≤ std.params.txUnit ∧ std.tx.head.toNat < std.tx.cap.toNat
      ∧ (std.tx.head.toNat + std.tx.cap.toNat - std.tx.tail.toNat) % std.tx.cap.toNat ≠ std.tx.cap.toNat - 1
      ∧ AccessValid std.params (std.tx.desc 0) 8 ∧ AccessValid std.params 0x5000 2
      ∧ AccessValid std.params (txWords std 0).1 2 ∧ Apart (txWords std 0).1 2 0x5000 2
      ∧ Apart (txWords std 0).1 2 (std.tx.desc 0) 8 := by
  unfold AccessValid Apart Outside; decide +kernel

/-- A size of 0 and one above TX_UNIT; a full ring with the largest size. -/
theorem test_witness_CommandsTurnedAwayOnlyComplete_write :
    std.eng.initDone = true ∧ std.params.txUnit < (1519 : Word).toNat ∧ (1518 : Word).toNat ≤ std.params.txUnit
      ∧ (3 + std.tx.cap.toNat - 0) % std.tx.cap.toNat = std.tx.cap.toNat - 1 := by decide +kernel

theorem test_witness_WriteFrame : completes (exec (.write 0x5000 2 7) std) = true := by decide +kernel

/-- The least and the greatest threshold, and the values just outside. -/
theorem test_witness_CallbackRegistrationsTakeEffect :
    std.eng.initDone = true ∧ 1 ≤ (1 : Word).toNat ∧ (3 : Word).toNat ≤ std.tx.cap.toNat - 1
      ∧ std.tx.cap.toNat - 1 < (4 : Word).toNat := by decide +kernel

theorem test_witness_ServiceReportsSentFrames :
    oneSent.eng.initDone = true ∧ oneSent.tx.head.toNat < oneSent.tx.cap.toNat
      ∧ oneSent.tx.tail.toNat < oneSent.tx.cap.toNat ∧ TxArrayValid oneSent
      ∧ (oneSent.net.isr.rxubr || oneSent.net.isr.rovr || oneSent.net.rsr.bna || oneSent.net.rsr.rxovr) = false
      ∧ (oneSent.net.isr.rlex || oneSent.net.tsr.rle) = false ∧ SentRun oneSent 1 := by
  unfold TxArrayValid AccessValid SentRun; decide +kernel

theorem test_witness_ReceiveErrorResetsReceiveRing :
    let s := std.bufferNotAvailable
    s.params.wf = true ∧ Memory.wf s.mem = true ∧ s.eng.initDone = true ∧ s.tx.head.toNat < s.tx.cap.toNat
      ∧ s.tx.tail.toNat < s.tx.cap.toNat ∧ RxArrayValid s ∧ TxArrayValid s ∧ ArraysApart s
      ∧ (s.net.isr.rxubr || s.net.isr.rovr || s.net.rsr.bna || s.net.rsr.rxovr) = true
      ∧ (s.net.isr.rlex || s.net.tsr.rle) = false := by
  unfold RxArrayValid TxArrayValid AccessValid ArraysApart Apart Outside; decide +kernel

/-- A transmit error alone, and with a receive error. -/
theorem test_witness_TransmitErrorAbortsPendingFrames :
    ∀ x, x ∈ [(oneFailed, false), (oneFailed.bufferNotAvailable, true)] →
      let s := x.1
      s.params.wf = true ∧ Memory.wf s.mem = true ∧ s.eng.initDone = true ∧ s.tx.head.toNat < s.tx.cap.toNat
        ∧ s.tx.tail.toNat < s.tx.cap.toNat ∧ s.tx.tags.length = s.tx.cap.toNat ∧ RxArrayValid s ∧ TxArrayValid s
        ∧ ArraysApart s ∧ x.2 = (s.net.isr.rxubr || s.net.isr.rovr || s.net.rsr.bna || s.net.rsr.rxovr)
        ∧ (s.net.isr.rlex || s.net.tsr.rle) = true := by
  unfold RxArrayValid TxArrayValid AccessValid ArraysApart Apart Outside; decide +kernel

theorem test_witness_ServiceFrame :
    completes (exec .service oneSent) = true ∧ completes (autonomousService oneSent) = true
      ∧ oneSent.eng.initDone = true := by decide +kernel

/-- A frame of each kind; at the longest length too, for no byte at offset 52 or beyond is read. -/
theorem test_witness_ClassifyGivesTheThreeLevels :
    HeaderValid withD 0x7000 65 ∧ HeaderValid withD 0x7000 (0xFFFFFFFF : Word).toNat ∧ HeaderValid withD 0xFFFFFFFF 0
      ∧ HeaderValid arpAtEnd 0xFFF2 60 := by
  unfold HeaderValid; decide +kernel

/-- An ARP frame of 60 bytes whose EtherType ends the valid addresses: the bytes CLASSIFY does not read need not be
MEM_VALID (R300). -/
theorem test_classify_reads_only_the_header :
    (after (exec (.classify 0xFFF2 60) arpAtEnd)).cmd.res = ⟨2, 0, 0, 0⟩
      ∧ (after (exec (.classify 0xFFF2 60) arpAtEnd)).eng.fault = false
      ∧ memValid arpAtEnd.params (0xFFF2 + 14) = false := by decide +kernel

theorem test_witness_WrongIdentifierGivesNoOpcode :
    let s := place withD 0x702A [0x61]
    s.eng.fault = false ∧ 52 ≤ (52 : Word).toNat ∧ s.frame 0x7000 42 ≠ 0x41
      ∧ completes (exec (.classify 0x7000 52) s) = true ∧ (after (exec (.classify 0x7000 52) s)).eng.fault = false := by
  decide +kernel

/-- One frame for each silent discard. -/
theorem test_witness_DecodeDiscardsSilently :
    HeaderValid withD 0x7000 42 ∧ HeaderValid withD 0x7000 51 ∧ headerIp (withD.frame 0x7000) 51 = .udp
      ∧ headerOpcode (withD.frame 0x7000) 51 = none ∧ headerIp (withD.frame 0x7000) 23 ≠ .udp
      ∧ headerOpcode ((place withD 0x7032 [0x00, 0x21]).frame 0x7000) 65 = some 0x2100 := by
  unfold HeaderValid; decide +kernel

/-- Frame D: its length is the least that holds its five channels. -/
theorem test_witness_DmxFrameFillsTheBuffer :
    let s := pending withD 0x11 ⟨0x7000, 65, 0, 0, 0, 0⟩
    s.dmx.buf.length = 512 ∧ 60 ≤ (65 : Word).toNat ∧ HeaderValid s 0x7000 65
      ∧ (∀ k, k ∈ [56, 58, 59] → memValid s.params (0x7000 + BitVec.ofNat 32 k) = true)
      ∧ s.frame 0x7000 56 = s.cfg.subuni
      ∧ 5 = min ((s.frame 0x7000 58).toNat * 256 + (s.frame 0x7000 59).toNat) 512 ∧ 60 + 5 ≤ (65 : Word).toNat
      ∧ AccessValid s.params (0x7000 + 60) 5 ∧ s.latched.a0 = 0x7000 ∧ s.latched.a1 = 65
      ∧ headerOpcode (s.frame 0x7000) (65 : Word).toNat = some 0x5000 := by
  unfold HeaderValid AccessValid; decide +kernel

/-- One frame for each discard: 59 bytes; another universe; 512 channels declared, 5 present. -/
theorem test_witness_DmxFrameDiscarded :
    (59 : Word).toNat < 60 ∧ (60 ≤ (65 : Word).toNat ∧ memValid withD.params 0x7038 = true
      ∧ (place withD 0x7038 [1]).frame 0x7000 56 ≠ withD.cfg.subuni)
      ∧ memValid withD.params 0x703A = true ∧ memValid withD.params 0x703B = true
      ∧ withD.frame 0x7000 56 = withD.cfg.subuni
      ∧ (let s := place withD 0x703A [2, 0]
         (65 : Word).toNat < 60 + min ((s.frame 0x7000 58).toNat * 256 + (s.frame 0x7000 59).toNat) 512)
      ∧ (pending withD 0x11 ⟨0x7000, 65, 0, 0, 0, 0⟩).latched.a0 = 0x7000 := by decide +kernel

theorem test_witness_PollAndAddressRequestReplies :
    55 ≤ (55 : Word).toNat ∧ (54 : Word).toNat < 55 ∧ memValid State.reset.params (0x7000 + 54) = true
      ∧ (pending withD 0x11 ⟨0x7000, 55, 0, 0, 0, 0⟩).latched.a1 = 55 := by decide +kernel

theorem test_witness_FrameCommandsFrame :
    completes (exec .opDmx (pending withD 0x11 ⟨0x7000, 65, 0, 0, 0, 0⟩)) = true := by decide +kernel

/-- The last three channels of the buffer. -/
theorem test_witness_DispatchSendsTheRecords :
    lastChannels.cfg.count.toNat ≤ lastChannels.params.maxNodes
      ∧ lastChannels.cfg.base.toNat + lastChannels.cfg.count.toNat ≤ 512 := by decide +kernel

/-- A frame of one byte: while RXEN is 0, while RXDMA is busy, and while it is idle. -/
theorem test_witness_FrameArrival :
    State.reset.params.wf = true ∧ 1 ≤ [(1 : Byte)].length ∧ [(1 : Byte)].length ≤ 8191
      ∧ State.reset.net.rxen = false ∧ faulted.eng.fault = true ∧ std.eng.fault = false ∧ std.net.rxen = true
      ∧ std.rx.dma = .idle ∧ (std.withRx { std.rx with dma := .busy [1] 0 }).rx.dma ≠ .idle := by decide +kernel

/-- The first fragment of a frame of 5 bytes, and its last. -/
theorem test_witness_RxdmaTakesOneDescriptor :
    ∀ off, off ∈ [0, 4] →
      let s := offer ({ std with params := { Config.resetParams with rxUnit := 4 } }.withRx
        { std.rx with dma := .busy [1, 2, 3, 4, 5] off }) [.turn .rxdma]
      TurnOf .rxdma s [] ∧ Memory.wf s.mem = true ∧ off < [1, 2, 3, 4, (5 : Byte)].length
        ∧ (readWord s.mem 0x1000).getLsbD 0 = false ∧ AccessValid s.params 0x1000 8
        ∧ AccessValid s.params (readWord s.mem 0x1000 &&& 0xFFFFFFFC) 4
        ∧ Apart (readWord s.mem 0x1000 &&& 0xFFFFFFFC) 4 0x1000 8 := by
  unfold TurnOf AccessValid Apart Outside; decide +kernel

/-- RXDMA at a software-owned descriptor. -/
theorem test_witness_RxdmaTakesOneDescriptor_stop :
    let s := offer ((plant std 0 0x2001 0).withRx { std.rx with dma := .busy [1] 0 }) [.turn .rxdma]
    TurnOf .rxdma s [] ∧ AccessValid s.params 0x1000 4 ∧ (readWord s.mem 0x1000).getLsbD 0 = true := by
  unfold TurnOf AccessValid; decide +kernel

/-- TXDMA at a USED descriptor. -/
theorem test_witness_TxdmaTakesOneDescriptor_stop :
    let s := offer (std.withTx { std.tx with go := true }) [.turn .txdma]
    TurnOf .txdma s [] ∧ s.net.txen = true ∧ AccessValid s.params (0x1100 + 4) 4
      ∧ (readWord s.mem (0x1100 + 4)).getLsbD 31 = true := by
  unfold TurnOf AccessValid; decide +kernel

/-- Either outcome can be the one supplied. -/
theorem test_witness_TxdmaTakesOneDescriptor :
    ∀ b : Bool,
      let s := offer (shortWritten.withEnv { shortWritten.env with txOutcomes := [b] }) [.turn .txdma]
      TurnOf .txdma s [] ∧ Memory.wf s.mem = true ∧ s.tx.go = true ∧ s.net.txen = true ∧ s.env.drawTx.1 = b
        ∧ AccessValid s.params 0x1100 8 ∧ (readWord s.mem (0x1100 + 4)).getLsbD 31 = false
        ∧ AccessValid s.params (readWord s.mem 0x1100) ((readWord s.mem (0x1100 + 4)).toNat % 2 ^ 14) := by
  unfold TurnOf AccessValid; decide +kernel

/-- The last valid byte alone, and with the byte after it; the last valid word, and the word after it. -/
theorem test_witness_CheckedAccessesFaultAtTheLowestFailingAddress :
    memValid State.reset.params 0xFFFF = true ∧ memValid State.reset.params 0x10000 = false
      ∧ AccessValid State.reset.params 0xFFFF 1 ∧ ¬ AccessValid State.reset.params 0xFFFF 2
      ∧ AccessValid State.reset.params 0xFFFC 4 ∧ ¬ AccessValid State.reset.params 0xFFFD 4 := by
  unfold AccessValid; decide +kernel

/-- A BusFault of a command, of SERVICE on its own, of RXDMA and of TXDMA; the first read of each DMA agent fails. -/
theorem test_witness_BusFaultIsRecorded :
    (State.reset.eng.fault = false ∧ completes (exec (.init 4 4 0xFFFC 0x1100 0x2000 0x3000) State.reset) = true
      ∧ (after (exec (.init 4 4 0xFFFC 0x1100 0x2000 0x3000) State.reset)).eng.fault = true)
    ∧ (let s := offer { oneSent with params := { oneSent.params with memMap := [⟨0, 0x1100⟩] } } [.turn .ce]
       TurnOf .ce s [] ∧ s.irqPending = true ∧ completes (step s) = true ∧ (after (step s)).eng.fault = true)
    ∧ (let s := offer (std.withRx { std.rx with dma := .busy [1] 0, qbase := 0x10000 }) [.turn .rxdma]
       TurnOf .rxdma s [] ∧ ¬ AccessValid s.params (s.rx.qbase + BitVec.ofNat 32 (8 * s.rx.ptr.toNat)) 4
         ∧ completes (step s) = true ∧ (after (step s)).eng.fault = true)
    ∧ (let s := offer (oneWritten.withTx { oneWritten.tx with qbase := 0xFFFC }) [.turn .txdma]
       TurnOf .txdma s [] ∧ s.tx.go = true ∧ s.net.txen = true
         ∧ ¬ AccessValid s.params (s.tx.qbase + BitVec.ofNat 32 (8 * s.tx.ptr.toNat) + 4) 4
         ∧ completes (step s) = true ∧ (after (step s)).eng.fault = true) := by
  unfold TurnOf AccessValid; decide +kernel

theorem test_witness_FaultStopsTheBlockUntilReset :
    faulted.params.wf = true ∧ faulted.eng.fault = true ∧ frameWf [1] = true ∧ faulted.env.inputs = []
      ∧ (offer faulted [.turn .ce]).env.inputs = [.turn .ce]
      ∧ completes (step (offer faulted [.hostWrite32 0x10100 0x6])) = true := by decide +kernel

theorem test_witness_ResetZeroesEveryRegister : std.params.wf = true ∧ (offer std [.reset]).env.inputs = [.reset] := by
  decide +kernel

/-- One state for each clause: no command pending, a fault, a command pending. -/
theorem test_witness_CmdWriteLatchesOrOverruns :
    State.reset.cmd.pend = none ∧ State.reset.eng.fault = false ∧ faulted.cmd.pend = none ∧ faulted.eng.fault = true
      ∧ (pending State.reset 0x6 Args.zero).cmd.pend ≠ none := by decide

/-- The first and the last entry of each table. -/
theorem test_witness_ConfigurationRegistersReadBack :
    State.reset.params.wf = true ∧ State.reset.cfg.fwd.length = State.reset.params.maxNodes
      ∧ State.reset.cfg.pipe.length = State.reset.params.maxNodes ∧ 0 < State.reset.params.maxNodes
      ∧ 15 < State.reset.params.maxNodes := by decide

theorem test_witness_StatusRegistersReadTheirBits : State.reset.ev.queue.length < 65536 := by decide

/-- The first and the last word of DMXBUF. -/
theorem test_witness_RingAndResultRegistersRead : State.reset.params.wf = true ∧ 0 < 128 ∧ 127 < 128 := by decide

/-- A queue with room for one event, and a full one. -/
theorem test_witness_EventQueueIsAFifo :
    State.reset.ev.queue.length < 65536 ∧ ([1] : List Word).length < 2 ∧ 2 ≤ ([1, 2] : List Word).length := by decide

/-- The first and the last word of the window, an offset that is not aligned, and one the map does not have. -/
theorem test_witness_HostRegisterAccesses :
    State.reset.params.wf = true ∧ (0x10000 : Word).toNat = State.reset.params.blockBase.toNat + 0
      ∧ (0x10FFC : Word).toNat = State.reset.params.blockBase.toNat + 0xFFC
      ∧ (0x10101 : Word).toNat = State.reset.params.blockBase.toNat + 0x101
      ∧ ¬ (0x200 ≤ 0x240 ∧ 0x240 < 0x200 + 4 * State.reset.params.maxNodes)
      ∧ ¬ (0x400 ≤ 0x240 ∧ 0x240 < 0x400 + 4 * State.reset.params.maxNodes) := by decide

/-- The word below the register window and the one above it, and an address that is not aligned. -/
theorem test_witness_HostMemoryAccesses :
    State.reset.params.wf = true ∧ Memory.wf State.reset.mem = true
      ∧ (0xFFFC : Word).toNat < State.reset.params.blockBase.toNat
      ∧ State.reset.params.blockBase.toNat + 4096 ≤ (0x11000 : Word).toNat ∧ (0x11000 : Word).toNat % 4 = 0
      ∧ (0xFFFF : Word).toNat % 4 ≠ 0 ∧ (0xFFFF : Word).toNat < State.reset.params.blockBase.toNat := by decide

/-- One step for each kind of mover: an RXDMA turn, SERVICE before a pending INIT, a command but those two, and a HOST
write next to IER. -/
theorem test_witness_ImrChangesOnlyThroughItsWriters :
    completes (step (offer std [.turn .rxdma])) = true
      ∧ (pending oneSent 0x01 Args.zero).irqPending = true
      ∧ completes (step (offer (pending oneSent 0x01 Args.zero) [.turn .ce])) = true
      ∧ (pending std 0x06 Args.zero).cmd.pend = some ⟨0x06, Args.zero⟩
      ∧ completes (step (offer (pending std 0x06 Args.zero) [.turn .ce])) = true
      ∧ regOffset std.params 0x1002C = some 0x02C ∧ completes (step (offer std [.hostWrite32 0x1002C 0x4A6])) = true
      ∧ completes (exec .service std) = true := by decide +kernel

theorem test_witness_OutputListsOnlyGrow :
    (offer State.reset [.turn .ce]).env.inputs.head? ≠ some .reset
      ∧ completes (step (offer oneWritten [.turn .ce])) = true := by decide +kernel

/-- The state after the standard INIT meets every invariant, and a step runs from it. -/
theorem test_witness_StepKeeps :
    MemoryCanonical std ∧ RegisterShape std ∧ RxDmaOk std ∧ RingsOk std ∧ FaultRecordOk std
      ∧ completes (step (offer (pending std 0x6 Args.zero) [.turn .ce])) = true := by
  refine ⟨?_, ?_, ?_, ?_, ?_, ?_⟩
  · unfold MemoryCanonical; decide +kernel
  · unfold RegisterShape; decide +kernel
  · have h : std.rx.dma = .idle := by decide +kernel
    unfold RxDmaOk; rw [h]; trivial
  · unfold RingsOk; decide +kernel
  · unfold FaultRecordOk; decide +kernel
  · decide +kernel

/-- With a frame written and no command pending, from the duties' point of view: a ring as the protocol has it. -/
theorem test_ringProtocol_frame0 : RingProtocol frame0 ∧ TxProtocol frame0 0 := by
  have ht : TxProtocol frame0 0 := by unfold TxProtocol; decide +kernel
  have hr : RxLayout frame0 := by unfold RxLayout; decide +kernel
  have h : reservable frame0.params frame0.ringRegions = true ∧ frame0.cmd.pend = none := by decide +kernel
  exact ⟨fun _ => ⟨fun p hp => (by rw [h.2] at hp; cases hp), fun _ => ⟨h.1, hr, 0, ht⟩⟩, ht⟩

/-- TXDMA's turn, and a READ that HOST issues next to the ring regions. -/
theorem test_witness_StepKeepsRingProtocol :
    MemoryCanonical frame0 ∧ RingProtocol frame0 ∧ hostObeys frame0 (.turn .txdma) = true
      ∧ completes (step (frame0.withInputs [.turn .txdma])) = true
      ∧ hostObeys (frame0.withCmd { frame0.cmd with args := ⟨0x6000, 1536, 0, 0, 0, 0⟩ }) (.hostWrite32 0x10100 2) = true
      ∧ hostObeys (frame0.withCmd { frame0.cmd with args := ⟨0x2FFF, 2, 0, 0, 0, 0⟩ }) (.hostWrite32 0x10100 2) = false :=
  ⟨by unfold MemoryCanonical; decide +kernel, test_ringProtocol_frame0.1, by decide +kernel, by decide +kernel,
    by decide +kernel, by decide +kernel⟩

/-! ### Fair runs (R492) -/

/-- A run of four states that stays in the last. -/
def runOf (a b c d : State) : Nat → State
  | 0 => a
  | 1 => b
  | 2 => c
  | _ + 3 => d

/-- The moves of the run of a written frame: sent, reported, TXDMA stops at the next descriptor. -/
def frameMoves : Nat → Input
  | 0 => .turn .txdma
  | 2 => .turn .txdma
  | _ => .turn .ce

/-- A run that stays in its fourth state: each of its moves is a step. -/
theorem test_isRun {a b c d : State} {moves : Nat → Input} (h0 : step (a.withInputs [moves 0]) = .next b)
    (h1 : step (b.withInputs [moves 1]) = .next c) (h2 : step (c.withInputs [moves 2]) = .next d)
    (hm : ∀ n, moves (n + 3) = .turn .ce) (h3 : step (d.withInputs [.turn .ce]) = .next d) :
    IsRun (runOf a b c d) moves
  | 0 => h0
  | 1 => h1
  | 2 => h2
  | n + 3 => by rw [hm]; exact h3

/-- A run that stays in a state in which no agent is enabled is fair. -/
theorem test_weaklyFair {a b c d : State} {moves : Nat → Input} (h : ∀ g, d.enabled g = false) :
    WeaklyFair (runOf a b c d) moves := fun g n he => by
  have := he (n + 3) (Nat.le_add_right n 3)
  rw [show runOf a b c d (n + 3) = d from rfl, h g] at this
  cases this

theorem test_ceases {a b c d : State} (h : d.irqPending = false) : InterruptsCease (runOf a b c d) :=
  ⟨3, fun m hm _ => by
    obtain ⟨k, rfl⟩ := Nat.exists_eq_add_of_le' hm
    exact h⟩

/-- What four states have, a run that stays in the fourth has throughout. -/
theorem test_throughout {a b c d : State} {P : State → Prop} (ha : P a) (hb : P b) (hc : P c) (hd : P d) :
    ∀ m, P (runOf a b c d m)
  | 0 => ha
  | 1 => hb
  | 2 => hc
  | _ + 3 => hd

/-- The next state of a move. -/
def moved (s : State) (i : Input) : State := after (step (s.withInputs [i]))

theorem test_moved {s t : State} {i : Input} (hc : completes (step (s.withInputs [i])) = true)
    (ht : moved s i = t) : step (s.withInputs [i]) = .next t := by
  rw [← ht]; exact test_next_of hc

/-- A pending SERVICE command, and the state after the command engine's turn. -/
def waiting : State := pending std 0x6 Args.zero
def answered : State := moved waiting (.turn .ce)

/-- A pending command completes in the first turn, and no interrupt is raised. -/
theorem test_witness_FairRunCompletesEveryCommand :
    let states := runOf waiting answered answered answered
    let moves := fun _ : Nat => Input.turn .ce
    IsRun states moves ∧ WeaklyFair states moves ∧ InterruptsCease states
      ∧ (∀ m, 0 ≤ m → moves m ≠ .reset) ∧ (states 0).cmd.pend = some ⟨0x6, Args.zero⟩ := by
  have h : step (answered.withInputs [.turn .ce]) = .next answered :=
    test_moved (by decide +kernel) (by decide +kernel)
  have hd : answered.irqPending = false := by decide +kernel
  have h0 : step (waiting.withInputs [.turn .ce]) = .next answered := test_next_of (by decide +kernel)
  exact ⟨test_isRun h0 h h (fun _ => rfl) h, test_weaklyFair (by intro g; cases g <;> decide +kernel), test_ceases hd,
    (fun _ _ h => by cases h), (by decide +kernel : waiting.cmd.pend = some ⟨0x6, Args.zero⟩)⟩

/-- Two frames arrive, the second an overrun, and SERVICE resets the ring; again and again. -/
def arrived : State := moved answered (.arrive [1])
def overrun : State := moved arrived (.arrive [1])

/-- A run under traffic that never ends, after a pending command. -/
def traffic : Nat → State
  | 0 => waiting
  | 1 => answered
  | 2 => arrived
  | 3 => overrun
  | n + 4 => traffic (n + 1)

/-- Its moves. -/
def trafficMoves : Nat → Input
  | 0 => .turn .ce
  | 1 => .arrive [1]
  | 2 => .arrive [1]
  | 3 => .turn .ce
  | n + 4 => trafficMoves (n + 1)

theorem test_traffic_isRun (h0 : step (waiting.withInputs [.turn .ce]) = .next answered)
    (h1 : step (answered.withInputs [.arrive [1]]) = .next arrived)
    (h2 : step (arrived.withInputs [.arrive [1]]) = .next overrun)
    (h3 : step (overrun.withInputs [.turn .ce]) = .next answered) : IsRun traffic trafficMoves
  | 0 => h0
  | 1 => h1
  | 2 => h2
  | 3 => h3
  | n + 4 => test_traffic_isRun h0 h1 h2 h3 (n + 1)

/-- Every third state is the one with RXDMA idle, and the move before it is the command engine's turn. -/
theorem test_traffic_period : ∀ n, traffic (3 * n + 1) = answered ∧ trafficMoves (3 * n + 3) = .turn .ce
  | 0 => ⟨rfl, rfl⟩
  | n + 1 => test_traffic_period n

theorem test_traffic_noReset : ∀ n, trafficMoves n ≠ .reset
  | 0 => by decide
  | 1 => by decide
  | 2 => by decide
  | 3 => by decide
  | n + 4 => test_traffic_noReset (n + 1)

theorem test_traffic_ready (h : answered.commandReady = false ∧ arrived.commandReady = false
    ∧ overrun.commandReady = false) : ∀ n, (traffic (n + 1)).commandReady = false
  | 0 => h.1
  | 1 => h.2.1
  | 2 => h.2.2
  | n + 3 => test_traffic_ready h n

/-- A pending command, and an interrupt raised for ever: the run is fair, and treats the command step fairly. -/
theorem test_witness_FairRunCompletesEveryCommand_traffic :
    IsRun traffic trafficMoves ∧ WeaklyFair traffic trafficMoves ∧ CommandStepFair traffic trafficMoves
      ∧ (∀ m, 0 ≤ m → trafficMoves m ≠ .reset) ∧ (traffic 0).cmd.pend = some ⟨0x6, Args.zero⟩ ∧ overrun.irqPending = true := by
  have hr : answered.commandReady = false ∧ arrived.commandReady = false ∧ overrun.commandReady = false := by
    decide +kernel
  have hi : ∀ g, g ≠ .ce → answered.enabled g = false := by intro g; cases g <;> decide +kernel
  refine ⟨test_traffic_isRun (test_next_of (by decide +kernel)) (test_next_of (by decide +kernel))
    (test_next_of (by decide +kernel)) (test_moved (by decide +kernel) (by decide +kernel)), fun g n he => ?_,
    fun n he => ?_, fun m _ => test_traffic_noReset m,
    (by decide +kernel : waiting.cmd.pend = some ⟨0x6, Args.zero⟩), by decide +kernel⟩
  · by_cases hg : g = .ce
    · exact ⟨3 * n + 3, by omega, by rw [(test_traffic_period n).2, hg]⟩
    · have := he (3 * n + 1) (by omega)
      rw [(test_traffic_period n).1, hi g hg] at this
      cases this
  · obtain ⟨k, hk, hready⟩ := he (n + 1) (by omega)
    obtain ⟨j, rfl⟩ := Nat.exists_eq_add_of_le' (show 1 ≤ k by omega)
    rw [test_traffic_ready hr j] at hready
    cases hready

/-- It is sent, then reported; then TXDMA stops at the next descriptor. -/
def frame1 : State := moved frame0 (.turn .txdma)
def frame2 : State := moved frame1 (.turn .ce)
def frame3 : State := moved frame2 (.turn .txdma)

/-- The run of these moves. -/
def frameRun : Nat → State := runOf frame0 frame1 frame2 frame3

theorem test_frameRun_zero : frameRun 0 = frame0 := rfl

theorem test_frameRun :
    IsRun frameRun frameMoves
      ∧ WeaklyFair frameRun frameMoves := by
  have hs : moved frame3 (.turn .ce) = frame3 := by decide +kernel
  exact ⟨test_isRun (test_moved (by decide +kernel) rfl) (test_moved (by decide +kernel) rfl)
    (test_moved (by decide +kernel) rfl) (fun _ => rfl) (test_moved (by decide +kernel) hs),
    test_weaklyFair (by intro g; cases g <;> decide +kernel)⟩

theorem test_frameMoves : ∀ m, frameMoves m = .turn .txdma ∨ frameMoves m = .turn .ce
  | 0 => .inl rfl
  | 1 => .inr rfl
  | 2 => .inl rfl
  | _ + 3 => .inr rfl

/-- The moves of the frame's run are turns: HOST does nothing in it, and nothing resets the block. -/
theorem test_frameMoves_obey (s : State) (m : Nat) :
    frameMoves m ≠ .reset ∧ hostObeys s (frameMoves m) = true ∧ ∀ addr v, frameMoves m ≠ .hostWrite32 addr v := by
  rcases test_frameMoves m with h | h <;> rw [h] <;> exact ⟨by decide, rfl, fun _ _ => by intro h; cases h⟩

/-- TCOMP of the sent frame is serviced in the second turn. -/
theorem test_witness_FairRunServicesEveryInterrupt :
    IsRun frameRun frameMoves ∧ WeaklyFair frameRun frameMoves
      ∧ (∀ m, 1 ≤ m → frameMoves m ≠ .reset ∧ hostObeys (frameRun m) (frameMoves m) = true
        ∧ ∀ addr v, frameMoves m = .hostWrite32 addr v → regOffset (frameRun m).params addr ≠ some 0x028)
      ∧ (frameRun 1).irqPending = true :=
  ⟨test_frameRun.1, test_frameRun.2, fun m _ =>
    ⟨(test_frameMoves_obey frame0 m).1, (test_frameMoves_obey _ m).2.1,
      fun a v h => absurd h ((test_frameMoves_obey frame0 m).2.2 a v)⟩,
    by decide +kernel⟩

/-- The frame is sent in the first turn and reported OK in the second. -/
theorem test_witness_FairRunReportsEveryFrame :
    IsRun frameRun frameMoves ∧ WeaklyFair frameRun frameMoves
      ∧ (∀ m, 0 ≤ m → frameMoves m ≠ .reset ∧ hostObeys (frameRun m) (frameMoves m) = true
        ∧ (∀ addr v, frameMoves m = .hostWrite32 addr v → regOffset (frameRun m).params addr ≠ some 0x028)
        ∧ (frameRun m).cmd.pend = none)
      ∧ MemoryCanonical (frameRun 0) ∧ RingProtocol (frameRun 0) ∧ (frameRun 0).eng.initDone = true
      ∧ (frameRun 0).net.imr.tcomp = true ∧ (frameRun 0).net.imr.rlex = true ∧ TxProtocol (frameRun 0) 0
      ∧ 0 < (frameRun 0).tx.count ∧ 0 = ((frameRun 0).tx.tail.toNat + 0) % (frameRun 0).tx.cap.toNat := by
  have hq : ∀ s, s ∈ [frame0, frame1, frame2, frame3] → s.cmd.pend = none := by decide +kernel
  have hrun := test_throughout (P := fun s => s.cmd.pend = none) (hq frame0 (by simp)) (hq frame1 (by simp))
    (hq frame2 (by simp)) (hq frame3 (by simp))
  have h0 : frame0.eng.initDone = true ∧ frame0.net.imr.tcomp = true ∧ frame0.net.imr.rlex = true
      ∧ 0 < frame0.tx.count ∧ 0 = (frame0.tx.tail.toNat + 0) % frame0.tx.cap.toNat := by decide +kernel
  have hm : MemoryCanonical frame0 := by unfold MemoryCanonical; decide +kernel
  rw [test_frameRun_zero]
  exact ⟨test_frameRun.1, test_frameRun.2, fun m _ => ⟨(test_frameMoves_obey frame0 m).1,
    (test_frameMoves_obey _ m).2.1, fun a v h => absurd h ((test_frameMoves_obey frame0 m).2.2 a v), hrun m⟩, hm,
    test_ringProtocol_frame0.1, h0.1, h0.2.1, h0.2.2.1, test_ringProtocol_frame0.2, h0.2.2.2⟩

/-- Why the first claim of R492 has a premise beside weak fairness (log entry 21): two arrivals and the command engine's turn, which is
SERVICE, lead back to the same state, in which the command still waits. -/
theorem test_commandCanStarve :
    moved (moved (moved waiting (.arrive [1])) (.arrive [1])) (.turn .ce) = waiting ∧ waiting.irqPending = false
      ∧ waiting.enabled .ce = true ∧ waiting.rx.dma = .idle ∧ waiting.tx.go = false := by decide +kernel

end Sys2Proof.Tests
end

section
/-! PROOF. The scope's statement on checked accesses (00_scope.md R15). The laws of the accesses say that each either
ends as it should or faults at the address the check finds; here that address is tied to the word of the claim,
`LowestInvalid`, once for all accesses, and each access gets its rule for the faulting case. -/

namespace Sys2Proof.Machine

variable {s : State} {a v : Word} {n : Nat} {bs : List Byte}

/-- The faulting half of an access's two cases: whatever the access is, outside valid memory it names the lowest
failing address and leaves the state alone. -/
theorem faults_of_not_accessValid {α : Type} {r ok : EStateM.Result Word State α}
    (h : (AccessValid s.params a n ∧ r = ok)
      ∨ ∃ x, lowestInvalid s.params a n = some x ∧ r = .error x s)
    (hv : ¬ AccessValid s.params a n) : ∃ x, LowestInvalid s.params a n x ∧ r = .error x s := by
  rcases h with ⟨hvalid, _⟩ | ⟨x, hx, hr⟩
  · exact absurd hvalid hv
  · exact ⟨x, lowestInvalid_some hx, hr⟩

theorem memReadByte_fault (h : memValid s.params a = false) : memReadByte a s = .error a s := by
  rcases memReadByte_cases s a with ⟨hvalid, _⟩ | ⟨_, hr⟩
  · rw [h] at hvalid; cases hvalid
  · exact hr

theorem memRead_fault (h : ¬ AccessValid s.params a n) :
    ∃ x, LowestInvalid s.params a n x ∧ memRead a n s = .error x s :=
  faults_of_not_accessValid (memRead_cases s a n) h

theorem memRead32_fault (h : ¬ AccessValid s.params a 4) :
    ∃ x, LowestInvalid s.params a 4 x ∧ memRead32 a s = .error x s :=
  faults_of_not_accessValid (memRead32_cases s a) h

theorem memWrite_fault (h : ¬ AccessValid s.params a bs.length) :
    ∃ x, LowestInvalid s.params a bs.length x ∧ memWrite a bs s = .error x s :=
  faults_of_not_accessValid (memWrite_cases s a bs) h

theorem memWrite32_fault (h : ¬ AccessValid s.params a 4) :
    ∃ x, LowestInvalid s.params a 4 x ∧ memWrite32 a v s = .error x s :=
  faults_of_not_accessValid (memWrite32_cases s a v) h

/-- Settles O36: for each primitive, the rule for a valid access beside the rule for one that is not. -/
theorem checkedAccessesFaultAtTheLowestFailingAddress :
    Obligations.CheckedAccessesFaultAtTheLowestFailingAddress := by
  unfold Obligations.CheckedAccessesFaultAtTheLowestFailingAddress
  intro s a
  exact ⟨memReadByte_ok, memReadByte_fault, fun _ => ⟨memRead_ok, memRead_fault⟩, memRead32_ok, memRead32_fault,
    fun _ => ⟨memWrite_ok, memWrite_fault⟩, fun _ => ⟨memWrite32_ok, memWrite32_fault⟩⟩

end Sys2Proof.Machine
end

section
/-! SUPPORT. An instruction as a command: the opcode its completion records and the body it runs (30_encoding.md R142,
43_artnet_decoder.md R342, 10_state.md R61). What every body keeps is said once here, before completion or a fault. -/

namespace Sys2Proof.Machine

variable {s t : State} {I : State → Prop} {α β : Type}

/-! ### exec as one run of a command -/

/-- The opcode an instruction's completion or fault records: an Art-Net opcode belongs to DECODE (log entry 13). -/
def commandOp (i : Instr) : Byte := if i.isOpcode then 0x11 else i.opWord.setWidth 8

/-- The body an instruction runs; the Art-Net opcodes act on the frame that the state names. -/
def commandBody (i : Instr) (s : State) : Op (Status × Results) :=
  match i with
  | .init rc tc rd td rb tb => initBody rc tc rd td rb tb
  | .read dest maxLen => readBody dest maxLen
  | .write src len tag => writeBody src len tag
  | .setRxCb enable => setRxCbBody enable
  | .setTxWakeup enable thr => setTxWakeupBody enable thr
  | .service => serviceCommand
  | .classify fr len => classifyBody fr len
  | .decode fr len => okBody (decodeFrame fr len.toNat)
  | .dispatch => dispatchBody
  | .opPoll => okBody (decodePoll s.frameOf.1 s.frameOf.2)
  | .opDmx => okBody (decodeDmx s.frameOf.1 s.frameOf.2)
  | .opAddress => okBody decodeAddress

theorem exec_eq_runCommand (i : Instr) (s : State) : exec i s = runCommand (commandOp i) (commandBody i s) s := by
  cases i <;> rfl

/-- Everything an instruction can do: its body ends and the command completes, or its body faults. -/
theorem exec_cases {i : Instr} (h : exec i s = .next t) :
    (∃ r u, commandBody i s s = .ok r u ∧ t = u.complete (commandOp i) r.1 r.2)
      ∨ ∃ a u, commandBody i s s = .error a u ∧ t = u.takeBusFault .ce (commandOp i) a := by
  rw [exec_eq_runCommand] at h
  rcases runCommand_cases (commandOp i) (commandBody i s) s with ⟨r, u, hb, hn⟩ | ⟨a, u, hb, hn⟩
  · rw [hn] at h; cases h; exact .inl ⟨r, u, hb, rfl⟩
  · rw [hn] at h; cases h; exact .inr ⟨a, u, hb, rfl⟩

end Sys2Proof.Machine
end

section
/-! PROOF. The fault record (10_state.md R53, R83, 60_exceptions.md R425, R427). A part of a step is clean when it
faults only at an address that fails MEM_VALID, and itself touches neither the parameters nor the record; being clean
passes through sequencing, so every body is clean because its parts are. -/

namespace Sys2Proof.Machine

variable {s t : State} {α β : Type}

/-! ### Clean parts -/

/-- ENGSTAT without INIT_DONE, and FAULTADDR: what a BusFault records. -/
def State.faultRecord (s : State) : Engine := { s.eng with initDone := false }

/-- The part faults only at an invalid address, and keeps the parameters and the fault record, ended or faulted. -/
structure Op.Clean (op : Op α) : Prop where
  invalid : ∀ s a t, op s = .error a t → memValid s.params a = false
  keeps : ∀ s, (Op.final (op s)).params = s.params ∧ (Op.final (op s)).faultRecord = s.faultRecord

theorem Op.Clean.ok {op : Op α} (h : Op.Clean op) {a : α} (hr : op s = .ok a t) :
    t.params = s.params ∧ t.faultRecord = s.faultRecord := by have := h.keeps s; rwa [hr] at this

theorem Op.Clean.error {op : Op α} (h : Op.Clean op) {a : Word} (hr : op s = .error a t) :
    memValid s.params a = false ∧ t.params = s.params ∧ t.faultRecord = s.faultRecord := by
  have := h.keeps s
  rw [hr] at this
  exact ⟨h.invalid s a t hr, this⟩

/-- A part that keeps every property is clean if its faults name invalid addresses. -/
theorem clean_of_preserves {op : Op α} (hf : Op.FaultsInvalid op) (hp : ∀ I : State → Prop, Op.Preserves I op) :
    Op.Clean op where
  invalid s a t h := (hf s a t h).1
  keeps s := by rw [unchanged_of_preserves hp s]; exact ⟨rfl, rfl⟩

/-- A part that always ends is clean if the state it ends in keeps the parameters and the record. -/
theorem clean_of_ok {op : Op α} (a : State → α) (f : State → State) (hop : ∀ s, op s = .ok (a s) (f s))
    (h : ∀ s, (f s).params = s.params ∧ (f s).faultRecord = s.faultRecord) : Op.Clean op where
  invalid s e t he := by rw [hop] at he; cases he
  keeps s := by rw [hop]; exact h s

theorem clean_pure (a : α) : Op.Clean (pure a : Op α) := clean_of_ok (fun _ => a) id (fun _ => rfl) fun _ => ⟨rfl, rfl⟩

theorem clean_current : Op.Clean current := clean_of_ok id id (fun _ => rfl) fun _ => ⟨rfl, rfl⟩

theorem clean_update {f : State → State} (h : ∀ s, (f s).params = s.params ∧ (f s).faultRecord = s.faultRecord) :
    Op.Clean (update f) := clean_of_ok (fun _ => ()) f (fun _ => rfl) h

theorem clean_bind {x : Op α} {f : α → Op β} (hx : Op.Clean x) (hf : ∀ a, Op.Clean (f a)) : Op.Clean (x >>= f) where
  invalid s e t h := by
    rcases Op.bind_eq_error h with h | ⟨a, u, h1, h2⟩
    · exact hx.invalid s e t h
    · rw [← (hx.ok h1).1]; exact (hf a).invalid u e t h2
  keeps s := by
    rw [Op.bind_run]
    cases hr : x s with
    | ok a u => exact ⟨((hf a).keeps u).1.trans (hx.ok hr).1, ((hf a).keeps u).2.trans (hx.ok hr).2⟩
    | error e u => exact (hx.error hr).2

theorem clean_ite {c : Prop} [Decidable c] {x y : Op α} (hx : Op.Clean x) (hy : Op.Clean y) :
    Op.Clean (if c then x else y) := by split <;> assumption

/-- After `current`, the rest is clean whatever state it was given. -/
theorem clean_current_bind {f : State → Op β} (hf : ∀ s, Op.Clean (f s)) : Op.Clean (current >>= f) :=
  clean_bind clean_current hf

theorem clean_forRange {body : Nat → Op Unit} (h : ∀ i, Op.Clean (body i)) : ∀ n i, Op.Clean (forRange body i n)
  | 0, _ => clean_pure ()
  | n + 1, i => clean_bind (h i) fun _ => clean_forRange h n (i + 1)

/-! ### The accesses -/

theorem clean_memRead (a : Word) (n : Nat) : Op.Clean (memRead a n) :=
  clean_of_preserves (faultsInvalid_memRead a n) fun _ => preserves_memRead a n

theorem clean_memReadByte (a : Word) : Op.Clean (memReadByte a) :=
  clean_of_preserves (faultsInvalid_memReadByte a) fun _ => preserves_memReadByte a

theorem clean_memRead32 (a : Word) : Op.Clean (memRead32 a) :=
  clean_of_preserves (faultsInvalid_memRead32 a) fun _ => preserves_memRead32 a

theorem clean_memWrite (a : Word) (bs : List Byte) : Op.Clean (memWrite a bs) where
  invalid s x t h := (faultsInvalid_memWrite a bs s x t h).1
  keeps s := preserves_memWrite (I := fun u => u.params = s.params ∧ u.faultRecord = s.faultRecord)
    (fun _ hu => hu) s ⟨rfl, rfl⟩

theorem clean_memWrite32 (a v : Word) : Op.Clean (memWrite32 a v) where
  invalid s x t h := (faultsInvalid_memWrite32 a v s x t h).1
  keeps s := preserves_memWrite32 (I := fun u => u.params = s.params ∧ u.faultRecord = s.faultRecord)
    (fun _ hu => hu) s ⟨rfl, rfl⟩

theorem clean_copy : ∀ (n : Nat) (dst src : Word), Op.Clean (copy dst src n)
  | 0, _, _ => clean_pure ()
  | n + 1, dst, src => clean_bind (clean_memReadByte src) fun _ => clean_bind (clean_memWrite dst _) fun _ =>
      clean_copy n (dst + 1) (src + 1)

theorem clean_emit (e : Word) : Op.Clean (emit e) := clean_update fun _ => ⟨rfl, rfl⟩

theorem clean_emitIf (c : Bool) (e : Word) : Op.Clean (emitIf c e) :=
  clean_ite (clean_bind (clean_emit e) fun _ => clean_pure _) (clean_pure _)

/-! ### The ring commands -/

theorem clean_rxDescInit (i : Nat) : Op.Clean (rxDescInit i) :=
  clean_current_bind fun _ => clean_bind (clean_memWrite32 _ _) fun _ => clean_memWrite32 _ _

theorem clean_txDescInit (i : Nat) : Op.Clean (txDescInit i) :=
  clean_current_bind fun _ => clean_bind (clean_memWrite32 _ _) fun _ => clean_memWrite32 _ _

theorem clean_initBody (rc tc rd td rb tb : Word) : Op.Clean (initBody rc tc rd td rb tb) :=
  clean_current_bind fun _ => clean_ite (clean_pure _) <| clean_ite (clean_pure _) <|
    clean_bind (clean_update fun _ => ⟨rfl, rfl⟩) fun _ =>
    clean_bind (clean_forRange clean_rxDescInit _ _) fun _ =>
    clean_bind (clean_forRange clean_txDescInit _ _) fun _ =>
    clean_bind (clean_update fun _ => ⟨rfl, rfl⟩) fun _ => clean_pure _

theorem clean_releaseRun : ∀ n p, Op.Clean (releaseRun p n)
  | 0, _ => clean_pure ()
  | n + 1, _ =>
    clean_bind (clean_current_bind fun _ => clean_bind (clean_memRead32 _) fun _ => clean_memWrite32 _ _) fun _ =>
      clean_current_bind fun _ => clean_releaseRun n _

theorem clean_setRxTail (i : Nat) : Op.Clean (setRxTail i) := clean_update fun _ => ⟨rfl, rfl⟩

theorem clean_scanSof (w1 : Word) (sc : Scan) : Op.Clean (scanSof w1 sc) :=
  clean_ite (clean_bind (clean_releaseRun _ _) fun _ => clean_pure _) (clean_pure _)

theorem clean_readScan (dest : Word) (maxLen n : Nat) : ∀ k sc, Op.Clean (readScan dest maxLen n k sc)
  | 0, _ => clean_bind (clean_releaseRun _ _) fun _ => clean_bind (clean_setRxTail _) fun _ => clean_pure _
  | k + 1, _ => by
    rw [readScan]
    refine clean_current_bind fun _ => clean_bind (clean_memRead32 _) fun _ =>
      clean_ite (clean_bind (clean_setRxTail _) fun _ => clean_pure _) <| clean_bind (clean_memRead32 _) fun _ =>
      clean_bind (clean_scanSof _ _) fun _ =>
      clean_ite (clean_bind (clean_releaseRun _ _) fun _ => clean_readScan dest maxLen n k _) <|
      clean_bind (clean_copy _ _ _) fun _ => clean_ite ?_ (clean_readScan dest maxLen n k _)
    exact clean_bind (clean_releaseRun _ _) fun _ => clean_bind (clean_setRxTail _) fun _ => clean_pure _

theorem clean_readBody (dest maxLen : Word) : Op.Clean (readBody dest maxLen) :=
  clean_current_bind fun _ => clean_ite (clean_pure _) <| clean_ite (clean_pure _) <| clean_readScan _ _ _ _ _

theorem tstart_eng (s : State) : s.tstart.params = s.params ∧ s.tstart.eng = s.eng := by
  unfold State.tstart; split <;> exact ⟨rfl, rfl⟩

theorem clean_tstart : Op.Clean (update State.tstart) := clean_update fun s => by
  rw [State.faultRecord, (tstart_eng s).2]; exact ⟨(tstart_eng s).1, rfl⟩

theorem clean_writeBody (src len : Word) (tag : Half) : Op.Clean (writeBody src len tag) :=
  clean_current_bind fun _ => clean_ite (clean_pure _) <| clean_ite (clean_pure _) <| clean_ite (clean_pure _) <|
    clean_current_bind fun _ => clean_bind (clean_memRead32 _) fun _ => clean_bind (clean_copy _ _ _) fun _ =>
    clean_bind (clean_update fun _ => ⟨rfl, rfl⟩) fun _ => clean_bind (clean_memWrite32 _ _) fun _ =>
    clean_bind (clean_update fun _ => ⟨rfl, rfl⟩) fun _ => clean_bind clean_tstart fun _ => clean_pure _

theorem clean_setRxCbBody (e : Bool) : Op.Clean (setRxCbBody e) :=
  clean_current_bind fun _ => clean_ite (clean_pure _) <|
    clean_bind (clean_update fun _ => ⟨rfl, rfl⟩) fun _ => clean_pure _

theorem clean_setTxWakeupBody (e : Bool) (thr : Word) : Op.Clean (setTxWakeupBody e thr) :=
  clean_current_bind fun _ => clean_ite (clean_pure _) <| clean_ite
    (clean_ite (clean_pure _) <| clean_bind (clean_update fun _ => ⟨rfl, rfl⟩) fun _ =>
      clean_bind (clean_emitIf _ _) fun _ => clean_pure _)
    (clean_bind (clean_update fun _ => ⟨rfl, rfl⟩) fun _ => clean_pure _)

/-! ### SERVICE -/

theorem clean_rxRingReset : Op.Clean rxRingReset :=
  clean_bind (clean_update fun _ => ⟨rfl, rfl⟩) fun _ => clean_current_bind fun _ =>
    clean_bind (clean_forRange clean_rxDescInit _ _) fun _ => clean_update fun _ => ⟨rfl, rfl⟩

theorem clean_txWalk : ∀ fuel p, Op.Clean (txWalk fuel p)
  | 0, _ => clean_pure _
  | fuel + 1, _ => clean_current_bind fun _ => clean_ite (clean_pure _) <| clean_bind (clean_memRead32 _) fun _ =>
      clean_ite (clean_pure _) <| clean_bind (clean_emit _) fun _ => clean_bind (clean_txWalk fuel _) fun _ =>
        clean_pure _

theorem clean_txCompleteWalk : Op.Clean txCompleteWalk :=
  clean_current_bind fun _ => clean_bind (clean_txWalk _ _) fun _ =>
    clean_bind (clean_update fun _ => ⟨rfl, rfl⟩) fun _ => clean_pure _

theorem clean_txAbort : ∀ fuel p, Op.Clean (txAbort fuel p)
  | 0, _ => clean_pure _
  | fuel + 1, _ => clean_current_bind fun _ => clean_ite (clean_pure _) <| clean_bind (clean_emit _) fun _ =>
      clean_bind (clean_txAbort fuel _) fun _ => clean_pure _

theorem clean_txDescReset (i : Nat) : Op.Clean (txDescReset i) :=
  clean_bind (clean_txDescInit i) fun _ => clean_update fun _ => ⟨rfl, rfl⟩

theorem clean_txRingReset : Op.Clean txRingReset :=
  clean_bind (clean_update fun _ => ⟨rfl, rfl⟩) fun _ => clean_current_bind fun _ =>
    clean_bind (clean_txAbort _ _) fun _ =>
    clean_bind (clean_forRange clean_txDescReset _ _) fun _ =>
    clean_bind (clean_update fun _ => ⟨rfl, rfl⟩) fun _ => clean_pure _

theorem clean_serviceBody : Op.Clean serviceBody :=
  clean_current_bind fun _ => clean_bind (clean_update fun _ => ⟨rfl, rfl⟩) fun _ =>
    clean_bind (clean_ite clean_rxRingReset (clean_pure _)) fun _ => clean_bind (clean_emitIf _ _) fun _ =>
    clean_bind clean_txCompleteWalk fun _ => clean_bind (clean_ite clean_txRingReset (clean_pure _)) fun _ =>
    clean_current_bind fun _ => clean_bind (clean_emitIf _ _) fun _ => clean_pure _

theorem clean_serviceCommand : Op.Clean serviceCommand :=
  clean_current_bind fun _ => clean_ite (clean_pure _) <| clean_bind clean_serviceBody fun _ => clean_pure _

/-! ### The frame commands -/

theorem clean_matchId (fr : Word) : ∀ (bs : List Byte) (k : Nat), Op.Clean (matchId fr k bs)
  | [], _ => clean_pure _
  | _ :: bs, k => clean_bind (clean_memReadByte _) fun _ => clean_ite (clean_matchId fr bs (k + 1)) (clean_pure _)

theorem clean_artNetOpcode (fr : Word) (len : Nat) : Op.Clean (artNetOpcode fr len) :=
  clean_ite (clean_pure _) <| clean_bind (clean_matchId _ _ _) fun _ =>
    clean_ite (clean_bind (clean_memReadByte _) fun _ => clean_bind (clean_memReadByte _) fun _ => clean_pure _)
      (clean_pure _)

theorem clean_classifyFrame (fr : Word) (len : Nat) : Op.Clean (classifyFrame fr len) :=
  clean_ite (clean_pure _) <| clean_bind (clean_memReadByte _) fun _ => clean_bind (clean_memReadByte _) fun _ =>
    clean_ite (clean_pure _) <| clean_ite (clean_pure _) <| clean_bind (clean_memReadByte _) fun _ =>
    clean_ite (clean_pure _) <| clean_bind (clean_artNetOpcode _ _) fun _ => clean_pure _

theorem clean_applyChannel (fr : Word) (j : Nat) : Op.Clean (applyChannel fr j) :=
  clean_bind (clean_memReadByte _) fun _ => clean_update fun _ => ⟨rfl, rfl⟩

theorem clean_dmxApply (fr : Word) (n : Nat) : Op.Clean (dmxApply fr n) :=
  clean_bind (clean_forRange (clean_applyChannel fr) _ _) fun _ => clean_update fun _ => ⟨rfl, rfl⟩

theorem clean_decodeDmx (fr : Word) (len : Nat) : Op.Clean (decodeDmx fr len) :=
  clean_ite (clean_pure _) <| clean_bind (clean_memReadByte _) fun _ => clean_current_bind fun _ =>
    clean_ite (clean_pure _) <| clean_bind (clean_memReadByte _) fun _ => clean_bind (clean_memReadByte _) fun _ =>
    clean_ite (clean_pure _) <| clean_bind (clean_dmxApply _ _) fun _ => clean_pure _

theorem clean_decodePoll (fr : Word) (len : Nat) : Op.Clean (decodePoll fr len) :=
  clean_ite (clean_pure _) <| clean_bind (clean_memReadByte _) fun _ => clean_current_bind fun _ =>
    clean_bind (clean_emit _) fun _ => clean_pure _

theorem clean_decodeAddress : Op.Clean decodeAddress := clean_bind (clean_emit _) fun _ => clean_pure _

theorem clean_decodeFrame (fr : Word) (len : Nat) : Op.Clean (decodeFrame fr len) := by
  refine clean_bind (clean_classifyFrame fr len) fun c => ?_
  unfold decodeBy
  refine clean_ite (clean_pure _) (clean_ite (clean_pure _) ?_)
  cases artNetKind c.opcode with
  | dmx => exact clean_decodeDmx fr len
  | poll => exact clean_decodePoll fr len
  | address => exact clean_decodeAddress
  | none => exact clean_pure _
  | other => exact clean_pure _

theorem clean_okBody {body : Op Results} (h : Op.Clean body) : Op.Clean (okBody body) :=
  clean_bind h fun _ => clean_pure _

theorem clean_dispatchNode (i : Nat) : Op.Clean (dispatchNode i) := by
  refine clean_current_bind fun s => ?_
  cases mapValue (s.cfg.fwdOf i) i (s.dmx.channel (s.cfg.base.toNat + i)).toNat with
  | none => exact clean_pure _
  | some record =>
    have hsend : Op.Clean (radioSend (s.cfg.pipeOf i) record) :=
      clean_of_ok _ _ (radioSend_run _ _) fun _ => ⟨rfl, rfl⟩
    exact clean_bind hsend fun ack =>
      clean_bind (clean_ite (clean_pure _) (clean_update fun _ => ⟨rfl, rfl⟩)) fun _ => clean_pure _

theorem clean_dispatchNodes : ∀ n i, Op.Clean (dispatchNodes i n)
  | 0, _ => clean_pure _
  | n + 1, i => clean_bind (clean_dispatchNode i) fun _ => clean_bind (clean_dispatchNodes n (i + 1)) fun _ =>
      clean_pure _

theorem clean_dispatchBody : Op.Clean dispatchBody :=
  clean_current_bind fun _ => clean_ite (clean_pure _) <| clean_bind (clean_dispatchNodes _ _) fun _ => clean_pure _

/-- Every instruction's body faults only at an invalid address and touches neither the parameters nor the record. -/
theorem clean_commandBody (i : Instr) (s : State) : Op.Clean (commandBody i s) := by
  cases i with
  | init rc tc rd td rb tb => exact clean_initBody rc tc rd td rb tb
  | read dest maxLen => exact clean_readBody dest maxLen
  | write src len tag => exact clean_writeBody src len tag
  | setRxCb enable => exact clean_setRxCbBody enable
  | setTxWakeup enable thr => exact clean_setTxWakeupBody enable thr
  | service => exact clean_serviceCommand
  | classify fr len => exact clean_bind (clean_classifyFrame fr _) fun _ => clean_pure _
  | decode fr len => exact clean_okBody (clean_decodeFrame fr _)
  | dispatch => exact clean_dispatchBody
  | opPoll => exact clean_okBody (clean_decodePoll _ _)
  | opDmx => exact clean_okBody (clean_decodeDmx _ _)
  | opAddress => exact clean_okBody clean_decodeAddress

/-! ### The DMA agents -/

theorem rxAdvance_eng (s : State) (frame : List Byte) (next : Nat) (eof : Bool) :
    (s.rxAdvance frame next eof).params = s.params ∧ (s.rxAdvance frame next eof).eng = s.eng := by
  unfold State.rxAdvance; split <;> exact ⟨rfl, rfl⟩

theorem clean_rxdmaStep : Op.Clean rxdmaStep := by
  refine clean_current_bind fun s => ?_
  cases s.rx.dma with
  | idle => exact clean_pure _
  | busy frame off =>
    refine clean_bind (clean_memRead32 _) fun w0 => clean_ite (clean_update fun _ => ⟨rfl, rfl⟩) ?_
    refine clean_current_bind fun _ => clean_bind (clean_memWrite _ _) fun _ => clean_bind (clean_memWrite32 _ _)
      fun _ => clean_bind (clean_memWrite32 _ _) fun _ => clean_bind (clean_update fun _ => ⟨rfl, rfl⟩) fun _ =>
      clean_update fun u => ?_
    rw [State.faultRecord, (rxAdvance_eng u _ _ _).2]
    exact ⟨(rxAdvance_eng u _ _ _).1, rfl⟩

theorem clean_txdmaStep : Op.Clean txdmaStep := by
  have hdraw : Op.Clean drawTxOutcome := clean_of_ok _ _ drawTxOutcome_run fun _ => ⟨rfl, rfl⟩
  refine clean_current_bind fun s => clean_bind (clean_memRead32 _) fun w1 =>
    clean_ite (clean_update fun _ => ⟨rfl, rfl⟩) <| clean_bind (clean_memRead32 _) fun buf =>
    clean_bind hdraw fun sent => clean_ite ?_ ?_
  · exact clean_bind (clean_memRead _ _) fun _ => clean_bind (clean_update fun _ => ⟨rfl, rfl⟩) fun _ =>
      clean_bind (clean_memWrite32 _ _) fun _ => clean_update fun _ => ⟨rfl, rfl⟩
  · exact clean_bind (clean_memWrite32 _ _) fun _ => clean_update fun _ => ⟨rfl, rfl⟩

/-! ### The record through a step -/

/-- The record's consistency depends on the parameters and the record only. -/
theorem faultRecordOk_congr (hp : t.params = s.params) (hr : t.faultRecord = s.faultRecord) (h : FaultRecordOk s) :
    FaultRecordOk t := by
  simp only [State.faultRecord, Engine.mk.injEq, true_and] at hr
  obtain ⟨hf, hsrc, hop, haddr⟩ := hr
  unfold FaultRecordOk
  rw [hp, hf, hsrc, hop, haddr]
  exact h

/-- A recorded fault names its agent and an invalid address. -/
theorem faultRecordOk_takeBusFault {src : FaultSource} {op : Byte} {a : Word} (hsrc : src ≠ .none)
    (ha : memValid s.params a = false) : FaultRecordOk (s.takeBusFault src op a) :=
  ⟨fun h => Bool.noConfusion h, fun _ => ⟨hsrc, ha⟩⟩

theorem exec_faultRecord {i : Instr} (hs : FaultRecordOk s) (h : exec i s = .next t) :
    FaultRecordOk t ∧ t.params = s.params := by
  have hc := clean_commandBody i s
  rcases exec_cases h with ⟨r, u, hu, rfl⟩ | ⟨a, u, hu, rfl⟩
  · obtain ⟨hp, hr⟩ := hc.ok hu
    exact ⟨faultRecordOk_congr (t := u.complete _ _ _) hp hr hs, hp⟩
  · obtain ⟨ha, hp, _⟩ := hc.error hu
    exact ⟨faultRecordOk_takeBusFault (by decide) (by rw [hp]; exact ha), hp⟩

theorem runAgent_faultRecord {src : FaultSource} {op : Byte} {body : Op Unit} (hc : Op.Clean body) (hsrc : src ≠ .none)
    (hs : FaultRecordOk s) (h : runAgent src op body s = .next t) : FaultRecordOk t ∧ t.params = s.params := by
  rcases runAgent_cases src op body s with ⟨u, hu, hn⟩ | ⟨a, u, hu, hn⟩ <;> rw [hn] at h <;> cases h
  · obtain ⟨hp, hr⟩ := hc.ok hu
    exact ⟨faultRecordOk_congr hp hr hs, hp⟩
  · obtain ⟨ha, hp, _⟩ := hc.error hu
    exact ⟨faultRecordOk_takeBusFault hsrc (by rw [hp]; exact ha), hp⟩

/-- A frame's arrival touches RXDMA_ST, RSR and ISR only (R260, R261). -/
theorem arrive_cases (s : State) (frame : List Byte) :
    s.arrive frame = s
      ∨ s.arrive frame
          = s.withNet { s.net with rsr := { s.net.rsr with rxovr := true }, isr := { s.net.isr with rovr := true } }
      ∨ (s.eng.fault = false ∧ s.net.rxen = true ∧ s.arrive frame = s.withRx { s.rx with dma := .busy frame 0 }) := by
  unfold State.arrive
  split
  · exact .inl rfl
  · next hg =>
    simp only [Bool.or_eq_true, Bool.not_eq_true', not_or, Bool.not_eq_true, Bool.not_eq_false] at hg
    split
    · exact .inr (.inl rfl)
    · exact .inr (.inr ⟨hg.1, hg.2, rfl⟩)

/-- Settles O56: a step's parts are clean, so the record changes only by a fault that names an invalid address, or by
reset. -/
theorem stepKeepsFaultRecord : Obligations.StepKeepsFaultRecord := by
  unfold Obligations.StepKeepsFaultRecord
  intro s t hs h
  refine step_keeps (I := fun u => FaultRecordOk u ∧ u.params = s.params) ⟨hs, rfl⟩ h (fun u e hu => hu)
    ?exec (fun u op st r hu => hu) ?serv ?rx ?tx ?reg (fun u a v hu => hu) (fun u a b hu => hu) ?arr ?reset
  case exec =>
    intro i u t _ hu h
    exact ⟨(exec_faultRecord hu.1 h).1, (exec_faultRecord hu.1 h).2.trans hu.2⟩
  case serv =>
    intro u t _ hu h
    have := runAgent_faultRecord (clean_bind clean_serviceBody fun _ => clean_pure _) (by decide) hu.1 h
    exact ⟨this.1, this.2.trans hu.2⟩
  case rx =>
    intro u t _ hu h
    have := runAgent_faultRecord clean_rxdmaStep (by decide) hu.1 h
    exact ⟨this.1, this.2.trans hu.2⟩
  case tx =>
    intro u t _ hu h
    have := runAgent_faultRecord clean_txdmaStep (by decide) hu.1 h
    exact ⟨this.1, this.2.trans hu.2⟩
  case reg =>
    intro u off v hu
    obtain ⟨hp, -, he, -⟩ := writeOffset_frame u off v
    exact ⟨faultRecordOk_congr hp (by rw [State.faultRecord, he]; rfl) hu.1, hp.trans hu.2⟩
  case arr =>
    intro u frame _ hu
    rcases arrive_cases u frame with h | h | ⟨_, _, h⟩ <;> rw [h] <;> exact hu
  case reset =>
    intro u _ hu
    exact ⟨⟨fun _ => ⟨rfl, rfl, rfl⟩, fun h => Bool.noConfusion h⟩, hu.2⟩

end Sys2Proof.Machine
end

section
/-! PROOF. Completion of the command port (10_state.md R55, R56, R61), the output lists (R75), and the block after a
BusFault (R76, R83, R260). A property that says nothing of the rings' registers and memory is kept by every
instruction and every SERVICE for the same reason, which is given first. -/

namespace Sys2Proof.Machine

variable {s t : State} {I : State → Prop}

/-! ### Properties that say nothing of memory and the rings -/

/-- The property is kept by every update of memory, of the rings, of NCR with the status and mask bits, and of the event
queue: the updates that INIT, READ, WRITE, SERVICE and the DMA agents share. -/
structure IgnoresRings (I : State → Prop) : Prop where
  mem : ∀ u m, I u → I (u.withMem m)
  rx : ∀ u r, I u → I (u.withRx r)
  tx : ∀ u r, I u → I (u.withTx r)
  net : ∀ u n, I u → I (u.withNet n)
  ev : ∀ u e, I u → I (u.withEv e)

namespace IgnoresRings

theorem keptByService (h : IgnoresRings I) (s : State) :
    KeptByService (fun u => I u ∧ u.rx.cap = s.rx.cap ∧ u.tx.cap = s.tx.cap) s.rx.cap.toNat s.tx.cap.toNat
      (fun _ => True) where
  rxCap _ hu := by rw [hu.2.1]
  txCap _ hu := by rw [hu.2.2]
  closed _ _ := trivial
  start _ _ := trivial
  clear u hu := ⟨h.net u _ hu.1, hu.2⟩
  emit u _ hu := ⟨h.ev u _ hu.1, hu.2⟩
  rxStop _ hu := ⟨h.rx _ _ (h.net _ _ hu.1), hu.2⟩
  rxDesc _ _ u _ hu := ⟨⟨h.mem u _ hu.1, hu.2⟩, ⟨h.mem u _ hu.1, hu.2⟩⟩
  rxStart _ hu := ⟨h.net _ _ (h.rx _ _ hu.1), hu.2⟩
  tail u _ _ hu := ⟨h.tx u _ hu.1, hu.2⟩
  txStop _ hu := ⟨h.tx _ _ (h.net _ _ hu.1), hu.2⟩
  txDesc _ _ u _ hu := ⟨⟨h.mem u _ hu.1, hu.2⟩, ⟨h.mem u _ hu.1, hu.2⟩⟩
  tag u _ hu := ⟨h.tx u _ hu.1, hu.2⟩
  txStart _ hu := ⟨h.net _ _ (h.tx _ _ hu.1), hu.2⟩

theorem after_initBody (h : IgnoresRings I) (hcb : ∀ u c, I u → I (u.withCb c)) (heng : ∀ u e, I u → I (u.withEng e))
    (hs : I s) (rc tc rd td rb tb : Word) : I (Op.final (initBody rc tc rd td rb tb s)) := by
  have hdesc : ∀ (arr : State → Nat → Word) i, KeptByDesc I arr i := fun _ _ u _ hu => ⟨h.mem u _ hu, h.mem u _ hu⟩
  rcases initBody_final (I := I) (rc := rc) (tc := tc) (rd := rd) (td := td) (rb := rb) (tb := tb)
    (h.tx _ _ (h.rx _ _ (h.net _ _ hs))) (fun i _ => hdesc _ i) (fun i _ => hdesc _ i)
    (fun u hu => heng _ _ (h.net _ _ (h.ev _ _ (hcb _ _ (h.tx _ _ (h.rx _ _ hu)))))) with hr | ⟨_, _, hr⟩
  · rw [hr]; exact hs
  · exact hr

theorem after_readBody (h : IgnoresRings I) (hs : I s) (dest maxLen : Word) : I (Op.final (readBody dest maxLen s)) :=
  (preserves_readBody (I := fun u => I u ∧ u.rx.cap = s.rx.cap) (cap := s.rx.cap.toNat) (P := fun _ => True)
    (fun _ hu => by rw [hu.2]) (fun _ _ _ => trivial) (fun _ _ => trivial) (fun _ _ u _ hu => ⟨h.mem u _ hu.1, hu.2⟩)
    (fun u _ _ _ hu => ⟨h.mem u _ hu.1, hu.2⟩) (fun u _ _ hu => ⟨h.rx u _ hu.1, hu.2⟩) s ⟨hs, rfl⟩).1

theorem after_tstart (h : IgnoresRings I) (u : State) (hu : I u) : I u.tstart := by
  unfold State.tstart; split
  · exact h.tx u _ hu
  · exact hu

theorem after_writeBody (h : IgnoresRings I) (hs : I s) (src len : Word) (tag : Half) :
    I (Op.final (writeBody src len tag s)) :=
  writeBody_final hs (fun u _ _ _ hu => h.mem u _ hu) (fun u _ hu => h.mem u _ hu) (fun u hu => h.tx u _ hu)
    (fun u hu => h.tx u _ hu) h.after_tstart

theorem after_serviceCommand (h : IgnoresRings I) (hs : I s) : I (Op.final (serviceCommand s)) :=
  (preserves_serviceCommand (h.keptByService s) s ⟨hs, rfl, rfl⟩).1

/-- What an instruction keeps that says nothing of memory and the rings: only CBSTAT, the engine's status, the command
port's completion, the canonical buffer, the records sent and DISP_FAIL are left to ask about. -/
theorem after_exec (h : IgnoresRings I) {i : Instr} (hx : exec i s = .next t) (hs : I s)
    (hcb : ∀ u c, I u → I (u.withCb c)) (heng : ∀ u e, I u → I (u.withEng e)) (hdmx : ∀ u d, I u → I (u.withDmx d))
    (hcomplete : ∀ u op st r, I u → I (u.complete op st r)) (hsend : ∀ u pipe record, I u → I (u.radioSent pipe record))
    (hfail : ∀ u v, I u → I (u.withDispFail v)) : I t :=
  exec_keeps hx hs hcomplete (fun u _ _ hu => heng u _ hu)
    (fun _ _ _ _ _ _ _ => h.after_initBody hcb heng hs _ _ _ _ _ _) (fun _ _ _ => h.after_readBody hs _ _)
    (fun _ _ _ _ => h.after_writeBody hs _ _ _) (fun _ => h.after_serviceCommand hs)
    (fun _ _ _ hu => h.net _ _ (hcb _ _ hu)) (fun u _ _ hu => hcb u _ hu) (fun u _ hu => h.ev u _ hu)
    (fun u _ _ hu => hdmx u _ hu) (fun u _ _ hu => hdmx u _ hu) hsend (fun u hu => hfail u _ hu)

theorem after_rxdmaStep (h : IgnoresRings I) (hs : I s) : I (Op.final (rxdmaStep s)) := by
  refine rxdmaStep_final hs (fun u _ _ _ _ _ _ hu => h.mem u _ hu) (fun u _ hu => ⟨h.mem u _ hu, h.mem u _ hu⟩)
    (h.rx _ _ (h.net _ _ hs)) (fun u _ hu => h.rx u _ hu) fun u _ _ _ _ _ hu => ?_
  unfold State.rxAdvance
  split
  · exact h.net _ _ (h.rx _ _ hu)
  · exact h.rx _ _ hu

theorem after_txdmaStep (h : IgnoresRings I) (hs : I s) (henv : ∀ u e, I u → I (u.withEnv e))
    (hsend : ∀ u bs, I u → I (u.withOut { u.out with wireTx := u.out.wireTx ++ [bs] })) :
    I (Op.final (txdmaStep s)) :=
  txdmaStep_final hs (fun u _ hu => h.mem u _ hu) (h.net _ _ (h.tx _ _ hs)) (fun u hu => henv u _ hu) hsend
    (fun _ _ hu => h.net _ _ (h.tx _ _ hu)) (fun _ hu => h.net _ _ (h.tx _ _ hu))

theorem after_autonomousService (h : IgnoresRings I) (hs : I s) (heng : ∀ u e, I u → I (u.withEng e))
    (hx : autonomousService s = .next t) : I t :=
  runAgent_preserves
    (I := fun u => I u ∧ u.rx.cap = s.rx.cap ∧ u.tx.cap = s.tx.cap)
    (preserves_bind (preserves_serviceBody (h.keptByService s)) fun _ => preserves_pure ())
    (fun u e hu => ⟨heng u e hu.1, hu.2⟩) ⟨hs, rfl, rfl⟩ hx |>.1

end IgnoresRings

/-! ### Completion (R61) -/

/-- Settles O7: the body leaves ARG0..ARG5 and CMD_OVR alone, and completion writes the rest of the port. -/
theorem commandsCompleteThePort : Obligations.CommandsCompleteThePort := by
  unfold Obligations.CommandsCompleteThePort
  intro i s t _ h hf
  have hi : IgnoresRings fun u => u.cmd.args = s.cmd.args ∧ u.cmd.cmdOvr = s.cmd.cmdOvr :=
    ⟨fun _ _ hu => hu, fun _ _ hu => hu, fun _ _ hu => hu, fun _ _ hu => hu, fun _ _ hu => hu⟩
  obtain ⟨hargs, hovr⟩ := hi.after_exec h ⟨rfl, rfl⟩ (fun _ _ hu => hu) (fun _ _ hu => hu) (fun _ _ hu => hu)
    (fun _ _ _ _ hu => hu) (fun _ _ _ hu => hu) (fun _ _ hu => hu)
  rcases exec_cases h with ⟨r, u, _, rfl⟩ | ⟨a, u, _, rfl⟩
  · exact ⟨rfl, rfl, hargs, hovr, rfl⟩
  · exact Bool.noConfusion hf

/-! ### The output lists (R75) -/

/-- Both output lists begin with what they held before. -/
def Grown (o : Outputs) (u : State) : Prop := o.wireTx <+: u.out.wireTx ∧ o.radioOut <+: u.out.radioOut

/-- Settles O51: only the wire's frames and RADIO's records are ever added to a list, each at its end. -/
theorem outputListsOnlyGrow : Obligations.OutputListsOnlyGrow := by
  unfold Obligations.OutputListsOnlyGrow
  intro s t hreset h
  have hi : IgnoresRings (Grown s.out) :=
    ⟨fun _ _ hu => hu, fun _ _ hu => hu, fun _ _ hu => hu, fun _ _ hu => hu, fun _ _ hu => hu⟩
  refine step_keeps (I := Grown s.out) ⟨List.prefix_rfl, List.prefix_rfl⟩ h (fun _ _ hu => hu)
    ?exec (fun _ _ _ _ hu => hu) (fun _ _ _ hu hx => hi.after_autonomousService hu (fun _ _ hu => hu) hx)
    ?rx ?tx ?reg (fun _ _ _ hu => hu) (fun _ _ _ hu => hu) ?arr (fun _ hr _ => absurd hr hreset)
  case exec =>
    intro i u t _ hu hx
    exact hi.after_exec hx hu (fun _ _ hu => hu) (fun _ _ hu => hu) (fun _ _ hu => hu) (fun _ _ _ _ hu => hu)
      (fun _ _ _ hu => ⟨hu.1, hu.2.trans (List.prefix_append _ _)⟩) (fun _ _ hu => hu)
  case rx =>
    intro u t _ hu hx
    exact runAgent_final (I := Grown s.out) (hi.after_rxdmaStep hu) (fun _ _ hu => hu) hx
  case tx =>
    intro u t _ hu hx
    exact runAgent_final (I := Grown s.out) (hi.after_txdmaStep hu (fun _ _ hu => hu) fun _ _ hu =>
      ⟨hu.1.trans (List.prefix_append _ _), hu.2⟩) (fun _ _ hu => hu) hx
  case reg =>
    intro u off v hu
    obtain ⟨-, -, -, -, -, ho, -⟩ := writeOffset_frame u off v
    exact ⟨ho ▸ hu.1, ho ▸ hu.2⟩
  case arr =>
    intro u frame _ hu
    rcases arrive_cases u frame with h | h | ⟨_, _, h⟩ <;> rw [h] <;> exact hu

/-! ### The faulted block (R76, R83, R260) -/

/-- A step takes the first listed move, on the state without it. -/
theorem step_input {i : Input} {rest : List Input} (hwf : s.params.wf = true) (hi : s.env.inputs = i :: rest) :
    step s = applyInput i (s.withInputs rest) := by
  simp only [step, nextStep, hwf, hi, Bool.not_true, Bool.false_eq_true, if_false]

/-- No agent's step is enabled on a faulted block. -/
theorem enabled_of_fault (hf : s.eng.fault = true) (a : Agent) : s.enabled a = false := by
  cases a <;> simp [State.enabled, hf]

/-- A faulted block's registers of ENGSTAT and FAULTADDR stay until reset. -/
theorem step_eng_of_fault (hf : s.eng.fault = true) (hr : s.env.inputs.head? ≠ some .reset) (h : step s = .next t) :
    t.eng = s.eng := by
  have hne : ∀ u : State, u.eng = s.eng → u.eng.fault ≠ false := fun u hu => by rw [hu, hf]; decide
  refine step_keeps (I := fun u => u.eng = s.eng) rfl h (fun _ _ hu => hu)
    (fun _ u _ h1 hu _ => absurd h1 (hne u hu)) (fun _ _ _ _ hu => hu) (fun u _ h1 hu _ => absurd h1 (hne u hu))
    (fun u _ h1 hu _ => absurd h1 (hne u hu)) (fun u _ h1 hu _ => absurd h1 (hne u hu)) ?reg
    (fun _ _ _ hu => hu) (fun _ _ _ hu => hu) ?arr (fun _ h1 _ => absurd h1 hr)
  case reg =>
    intro u off v hu
    obtain ⟨-, -, he, -⟩ := writeOffset_frame u off v
    exact he.trans hu
  case arr =>
    intro u frame _ hu
    rcases arrive_cases u frame with h | h | ⟨_, _, h⟩ <;> rw [h] <;> exact hu

/-- Settles O38: no agent is enabled, so a turn and a step of the block's own do nothing, and an arriving frame is
dropped. -/
theorem faultStopsTheBlockUntilReset : Obligations.FaultStopsTheBlockUntilReset := by
  unfold Obligations.FaultStopsTheBlockUntilReset
  refine ⟨fun s rest hwf hf => ⟨fun a hi => ?_, fun frame hfr hi => ?_, fun hi => ?_⟩,
    fun s t hf hr h => step_eng_of_fault hf hr h⟩
  · have he : (s.withInputs rest).enabled a = false := enabled_of_fault hf a
    rw [step_input hwf hi, applyInput, takeTurn, he]
    rfl
  · have hf' : (s.withInputs rest).eng.fault = true := hf
    simp only [step_input hwf hi, applyInput, hfr, if_true, State.arrive, hf', Bool.true_or]
  · have hready : s.ready = [] := List.filter_eq_nil_iff.mpr fun a _ => by simp [enabled_of_fault hf a]
    simp [step, nextStep, hwf, hi, freeStep, hready, hf]

end Sys2Proof.Machine
end

section
/-! PROOF. The shape of the registers (10_state.md R38, R39, R55, R61, R62, R70 to R73, 20_memory.md R107): each update
that a step makes of a register with a shape gives it a value of that shape. -/

namespace Sys2Proof.Machine

variable {s t : State}

/-! ### The updates of the registers with a shape -/

/-- Another receive ring keeps the shape if its bases are aligned. -/
theorem RegisterShape.withRx {r : RxRing} (h : RegisterShape s) (hq : r.qbase.toNat % 4 = 0)
    (hd : r.dbase.toNat % 4 = 0) (hb : r.bbase.toNat % 4 = 0) : RegisterShape (s.withRx r) := by
  obtain ⟨-, htq, -, htd, -, htb, rest⟩ := h
  exact ⟨hq, htq, hd, htd, hb, htb, rest⟩

/-- Another transmit ring keeps the shape if its bases are aligned. -/
theorem RegisterShape.withTx {r : TxRing} (h : RegisterShape s) (hq : r.qbase.toNat % 4 = 0)
    (hd : r.dbase.toNat % 4 = 0) (hb : r.bbase.toNat % 4 = 0) : RegisterShape (s.withTx r) := by
  obtain ⟨hrq, -, hrd, -, hrb, -, rest⟩ := h
  exact ⟨hrq, hq, hrd, hd, hrb, hb, rest⟩

/-- Another canonical buffer keeps the shape if it has the size and a length within it. -/
theorem RegisterShape.withDmx {d : Dmx} (h : RegisterShape s) (hb : d.buf.length = Config.dmxChannels)
    (hl : d.len.toNat ≤ Config.dmxChannels) : RegisterShape (s.withDmx d) := by
  obtain ⟨h1, h2, h3, h4, h5, h6, h7, h8, -, -, h11⟩ := h
  exact ⟨h1, h2, h3, h4, h5, h6, h7, h8, hb, hl, h11⟩

/-- Another event queue keeps the shape if it is no longer than EVQ_DEPTH. -/
theorem RegisterShape.withEv {e : Events} (h : RegisterShape s) (hl : e.queue.length ≤ s.params.evqDepth) :
    RegisterShape (s.withEv e) := by
  obtain ⟨h1, h2, h3, h4, h5, h6, h7, h8, h9, h10, h11, -⟩ := h
  exact ⟨h1, h2, h3, h4, h5, h6, h7, h8, h9, h10, h11, hl⟩

/-- Another command port keeps the shape if BUSY says whether a command is pending. -/
theorem RegisterShape.withCmd {c : CommandPort} (h : RegisterShape s) (hb : c.busy = c.pend.isSome) :
    RegisterShape (s.withCmd c) := by
  obtain ⟨h1, h2, h3, h4, h5, h6, h7, h8, h9, h10, -, h12⟩ := h
  exact ⟨h1, h2, h3, h4, h5, h6, h7, h8, h9, h10, hb, h12⟩

/-- Another configuration keeps the shape if its tables have their sizes. -/
theorem RegisterShape.withCfg {c : NodeConfig} (h : RegisterShape s) (hf : c.fwd.length = s.params.maxNodes)
    (hp : c.pipe.length = s.params.maxNodes) : RegisterShape (s.withCfg c) := by
  obtain ⟨h1, h2, h3, h4, h5, h6, -, -, rest⟩ := h
  exact ⟨h1, h2, h3, h4, h5, h6, hf, hp, rest⟩

theorem RegisterShape.emit {e : Word} (h : RegisterShape s) :
    RegisterShape (s.withEv (s.ev.push s.params.evqDepth e)) := by
  have hlen := h
  obtain ⟨-, -, -, -, -, -, -, -, -, -, -, hq⟩ := hlen
  exact h.withEv (push_length hq)

theorem RegisterShape.complete {op : Byte} {st : Status} {r : Results} (h : RegisterShape s) :
    RegisterShape (s.complete op st r) := h.withCmd rfl

theorem RegisterShape.tstart (h : RegisterShape s) : RegisterShape s.tstart := by
  unfold State.tstart; split <;> exact h

/-- The bases INIT accepts are 4-aligned (R203). -/
theorem initBasesBad_false {rd td rb tb : Word} (h : initBasesBad rd td rb tb = false) :
    rd.toNat % 4 = 0 ∧ td.toNat % 4 = 0 ∧ rb.toNat % 4 = 0 ∧ tb.toNat % 4 = 0 := by
  simp only [initBasesBad, Bool.or_eq_false_iff, bne_eq_false_iff_eq] at h
  obtain ⟨⟨⟨hrd, htd⟩, hrb⟩, htb⟩ := h
  exact ⟨hrd, htd, hrb, htb⟩

/-- A queue base that HOST writes is 4-aligned (R38, R39). -/
theorem queueBase_aligned (v : Word) : (v &&& 0xFFFFFFFC).toNat % 4 = 0 := by
  have hbits : ∀ i, i < 2 → (v &&& 0xFFFFFFFC).getLsbD i = false := by
    intro i hi; rw [BitVec.getLsbD_and]; interval_cases i <;> simp
  refine Nat.eq_of_testBit_eq fun i => ?_
  rw [show 4 = 2 ^ 2 from rfl, Nat.testBit_mod_two_pow, Nat.zero_testBit, BitVec.testBit_toNat]
  by_cases hi : i < 2
  · rw [hbits i hi, Bool.and_false]
  · rw [decide_eq_false hi, Bool.false_and]

/-! ### The commands -/

theorem registerShape_initBody {rc tc rd td rb tb : Word} (hs : RegisterShape s) :
    RegisterShape (Op.final (initBody rc tc rd td rb tb s)) := by
  have hstart : initBasesBad rd td rb tb = false → RegisterShape (s.initStart rc tc rd td rb tb) := fun hb => by
    obtain ⟨hrd, htd, hrb, htb⟩ := initBasesBad_false hb
    have hs' : RegisterShape (s.withNet { s.net with rxen := false, txen := false }) := hs
    obtain ⟨hrq, htq, -⟩ := hs
    have hrx := hs'.withRx (r := { s.rx with dma := .idle, cap := rc.setWidth 16, dbase := rd, bbase := rb })
      hrq hrd hrb
    exact hrx.withTx (r := { s.tx with go := false, cap := tc.setWidth 16, dbase := td, bbase := tb }) htq htd htb
  have hfinish : ∀ u, (initBasesBad rd td rb tb = false → RegisterShape u) →
      initBasesBad rd td rb tb = false → RegisterShape (u.initFinish rc tc rd td rb tb) := fun u hu hb => by
    obtain ⟨hrd, htd, hrb, htb⟩ := initBasesBad_false hb
    have hrings := ((hu hb).withRx (r := ⟨rc.setWidth 16, 0, 0, rd, rb, rd, u.rx.dma⟩) hrd hrd hrb).withTx
      (r := ⟨tc.setWidth 16, 0, 0, 0, td, tb, td, u.tx.go, List.replicate tc.toNat 0⟩) htd htd htb
    exact hrings.withEv (e := ⟨[], false⟩) (Nat.zero_le _)
  rcases initBody_final (I := fun u => initBasesBad rd td rb tb = false → RegisterShape u) hstart
    (fun _ _ _ _ hu => ⟨hu, hu⟩) (fun _ _ _ _ hu => ⟨hu, hu⟩) hfinish with hr | ⟨-, hb, hr⟩
  · rw [hr]; exact hs
  · exact hr hb

theorem registerShape_keptByService (s : State) :
    KeptByService (fun u => RegisterShape u ∧ u.rx.cap = s.rx.cap ∧ u.tx.cap = s.tx.cap) s.rx.cap.toNat s.tx.cap.toNat
      (fun _ => True) where
  rxCap _ hu := by rw [hu.2.1]
  txCap _ hu := by rw [hu.2.2]
  closed _ _ := trivial
  start _ _ := trivial
  clear _ hu := hu
  emit _ _ hu := ⟨hu.1.emit, hu.2⟩
  rxStop _ hu := hu
  rxDesc _ _ _ _ hu := ⟨hu, hu⟩
  rxStart u hu := by
    obtain ⟨h, hcap⟩ := hu
    obtain ⟨-, -, hd, -, hb, -⟩ := id h
    exact ⟨h.withRx (r := { u.rx with tail := 0, ptr := 0, qbase := u.rx.dbase }) hd hd hb, hcap⟩
  tail _ _ _ hu := hu
  txStop _ hu := hu
  txDesc _ _ _ _ hu := ⟨hu, hu⟩
  tag _ _ hu := hu
  txStart u hu := by
    obtain ⟨h, hcap⟩ := hu
    obtain ⟨-, -, -, hd, -, hb, -⟩ := id h
    exact ⟨h.withTx (r := { u.tx with head := 0, tail := 0, ptr := 0, qbase := u.tx.dbase }) hd hd hb, hcap⟩

theorem registerShape_exec {i : Instr} (hs : RegisterShape s) (h : exec i s = .next t) : RegisterShape t := by
  refine exec_keeps h hs (fun _ _ _ _ hu => hu.complete) (fun _ _ _ hu => hu)
    (fun _ _ _ _ _ _ _ => registerShape_initBody hs) ?read ?write ?serv (fun _ _ _ hu => hu) (fun _ _ _ hu => hu)
    (fun _ _ hu => hu.emit) ?set ?len (fun _ _ _ hu => hu) (fun _ hu => hu)
  case read =>
    intro d m _
    exact (preserves_readBody (I := fun u => RegisterShape u ∧ u.rx.cap = s.rx.cap) (P := fun _ => True)
      (fun _ hu => by rw [hu.2]) (fun _ _ _ => trivial) (fun _ _ => trivial) (fun _ _ _ _ hu => hu)
      (fun _ _ _ _ hu => hu) (fun _ _ _ hu => hu) s ⟨hs, rfl⟩).1
  case write =>
    intro a n g _
    exact writeBody_final hs (fun _ _ _ _ hu => hu) (fun _ _ hu => hu) (fun _ hu => hu) (fun _ hu => hu)
      fun _ hu => hu.tstart
  case serv => intro _; exact (preserves_serviceCommand (registerShape_keptByService s) s ⟨hs, rfl, rfl⟩).1
  case set =>
    intro u j b hu
    obtain ⟨-, -, -, -, -, -, -, -, hbuf, hlen, -⟩ := id hu
    exact hu.withDmx (d := { u.dmx with buf := u.dmx.buf.set j b }) (by rw [List.length_set]; exact hbuf) hlen
  case len =>
    intro u n hn hu
    obtain ⟨-, -, -, -, -, -, -, -, hbuf, -⟩ := id hu
    exact hu.withDmx (d := { u.dmx with len := BitVec.ofNat 10 n }) hbuf
      (Nat.le_trans (by rw [BitVec.toNat_ofNat]; exact Nat.mod_le _ _) hn)

/-! ### HOST's register writes -/

theorem registerShape_issue (w : Word) (hs : RegisterShape s) : RegisterShape (s.issue w) := by
  unfold State.issue
  split
  · split
    · exact hs
    · exact hs.withCmd rfl
  · next hp =>
    obtain ⟨-, -, -, -, -, -, -, -, -, -, hb, -⟩ := id hs
    exact hs.withCmd (c := { s.cmd with cmdOvr := true }) hb

theorem registerShape_writeReg (v : Word) (r : Reg) (hs : RegisterShape s) : RegisterShape (writeReg s v r) := by
  obtain ⟨-, -, hrd, htd, hrb, htb, hfwd, hpipe, -, -, -, hq⟩ := id hs
  cases r
  case ncr => rw [writeReg, ncrWrite_eq]; exact hs
  case rbqb => exact hs.withRx (queueBase_aligned v) hrd hrb
  case tbqb => exact hs.withTx (queueBase_aligned v) htd htb
  case cmd => exact registerShape_issue v hs
  case evqPop => exact hs.withEv (Nat.le_trans (by simp) hq)
  case fwd n => exact hs.withCfg (by simpa using hfwd) hpipe
  case pipe n => exact hs.withCfg hfwd (by simpa using hpipe)
  all_goals exact hs

/-- Settles O53. -/
theorem stepKeepsRegisterShape : Obligations.StepKeepsRegisterShape := by
  unfold Obligations.StepKeepsRegisterShape
  intro s t hs h
  refine step_keeps hs h (fun _ _ hu => hu) (fun _ _ _ _ hu hx => registerShape_exec hu hx)
    (fun _ _ _ _ hu => hu.complete) ?serv ?rx ?tx ?reg (fun _ _ _ hu => hu) (fun _ _ _ hu => hu) ?arr ?reset
  case serv =>
    intro u t _ hu hx
    exact (runAgent_preserves (preserves_bind (preserves_serviceBody (registerShape_keptByService u)) fun _ =>
      preserves_pure ()) (fun _ _ hv => hv) ⟨hu, rfl, rfl⟩ hx).1
  case rx =>
    intro u t _ hu hx
    refine runAgent_final (I := RegisterShape) (rxdmaStep_final hu (fun _ _ _ _ _ _ _ hv => hv) (fun _ _ hv => ⟨hv, hv⟩)
      hu (fun _ _ hv => hv) fun v f off n _ _ hv => ?_) (fun _ _ hv => hv) hx
    unfold State.rxAdvance; split <;> exact hv
  case tx =>
    intro u t _ hu hx
    exact runAgent_final (I := RegisterShape) (txdmaStep_final hu (fun _ _ hv => hv) hu (fun _ hv => hv)
      (fun _ _ hv => hv) (fun _ _ hv => hv) fun _ hv => hv) (fun _ _ hv => hv) hx
  case reg =>
    intro u off v hu
    rcases writeOffset_cases u off v with ⟨r, -, hr⟩ | ⟨-, hr⟩ <;> rw [hr]
    · exact registerShape_writeReg v r hu
    · exact hu
  case arr =>
    intro u frame _ hu
    rcases arrive_cases u frame with h | h | ⟨_, _, h⟩ <;> rw [h] <;> exact hu
  case reset =>
    intro u _ _
    exact ⟨rfl, rfl, rfl, rfl, rfl, rfl, List.length_replicate, List.length_replicate, List.length_replicate,
      Nat.zero_le _, rfl, Nat.zero_le _⟩

end Sys2Proof.Machine
end

section
/-! PROOF. RXDMA's state and the ring indices (10_state.md R48, R64, R65, R79). INIT gives the rings their ranges at its
end; every other part of a step keeps the capacities and moves an index to another one inside its ring. -/

namespace Sys2Proof.Machine

variable {s t u : State}

/-! ### The ranges -/

/-- Both capacities are legal, the indices are inside their rings, and TAG has one entry for each descriptor. -/
def RingRanges (s : State) : Prop :=
  2 ≤ s.rx.cap.toNat ∧ s.rx.cap.toNat ≤ s.params.ringMax ∧ s.rx.tail.toNat < s.rx.cap.toNat
    ∧ 2 ≤ s.tx.cap.toNat ∧ s.tx.cap.toNat ≤ s.params.ringMax
    ∧ s.tx.head.toNat < s.tx.cap.toNat ∧ s.tx.tail.toNat < s.tx.cap.toNat ∧ s.tx.tags.length = s.tx.cap.toNat

theorem ringsOk_iff (s : State) : RingsOk s ↔ (s.eng.fault = false → s.eng.initDone = true → RingRanges s) := Iff.rfl

/-- An index inside a ring fits the register that holds it. -/
theorem index_toNat {i : Nat} {cap : Half} (h : i < cap.toNat) : (BitVec.ofNat 16 i).toNat = i := by
  rw [BitVec.toNat_ofNat, Nat.mod_eq_of_lt (by have := cap.isLt; omega)]

theorem RingRanges.setRxTail {i : Nat} (h : RingRanges s) (hi : i < s.rx.cap.toNat) :
    RingRanges (s.withRx { s.rx with tail := BitVec.ofNat 16 i }) := by
  obtain ⟨h1, h2, -, rest⟩ := h
  exact ⟨h1, h2, by simpa only [State.withRx_rx, index_toNat hi] using hi, rest⟩

theorem RingRanges.setTxTail {i : Nat} (h : RingRanges s) (hi : i < s.tx.cap.toNat) :
    RingRanges (s.withTx { s.tx with tail := BitVec.ofNat 16 i }) := by
  obtain ⟨h1, h2, h3, h4, h5, h6, -, h8⟩ := h
  exact ⟨h1, h2, h3, h4, h5, h6, by simpa only [State.withTx_tx, index_toNat hi] using hi, h8⟩

theorem RingRanges.setTxHead {i : Nat} (h : RingRanges s) (hi : i < s.tx.cap.toNat) :
    RingRanges (s.withTx { s.tx with head := BitVec.ofNat 16 i }) := by
  obtain ⟨h1, h2, h3, h4, h5, -, h7, h8⟩ := h
  exact ⟨h1, h2, h3, h4, h5, by simpa only [State.withTx_tx, index_toNat hi] using hi, h7, h8⟩

theorem RingRanges.setTag {i : Nat} {g : Half} (h : RingRanges s) :
    RingRanges (s.withTx { s.tx with tags := s.tx.tags.set i g }) := by
  obtain ⟨h1, h2, h3, h4, h5, h6, h7, h8⟩ := h
  exact ⟨h1, h2, h3, h4, h5, h6, h7, by simpa using h8⟩

theorem RingRanges.rxRestarted (h : RingRanges s) : RingRanges s.rxRestarted := by
  obtain ⟨h1, h2, -, rest⟩ := h
  exact ⟨h1, h2, Nat.lt_of_lt_of_le Nat.two_pos h1, rest⟩

theorem RingRanges.txRestarted (h : RingRanges s) : RingRanges s.txRestarted := by
  obtain ⟨h1, h2, h3, h4, h5, -, -, h8⟩ := h
  have hpos := Nat.lt_of_lt_of_le Nat.two_pos h4
  exact ⟨h1, h2, h3, h4, h5, hpos, hpos, h8⟩

/-- RXDMA's state is legal when it is idle. -/
theorem rxDmaOk_of_idle (h : s.rx.dma = .idle) : RxDmaOk s := by unfold RxDmaOk; rw [h]; trivial

/-- RXDMA's state stays legal when RXEN becomes 1. -/
theorem rxDmaOk_of_rxen (h : RxDmaOk s) (hd : u.rx.dma = s.rx.dma) (he : u.net.rxen = true) : RxDmaOk u := by
  unfold RxDmaOk at h ⊢
  rw [hd]
  cases hc : s.rx.dma with
  | idle => trivial
  | busy frame off => rw [hc] at h; exact ⟨he, h.2⟩

/-! ### What the body of a command other than INIT keeps -/

/-- What holds while a command other than INIT, or a SERVICE, runs from `s`. -/
def Running (s u : State) : Prop :=
  (u.params = s.params ∧ u.eng = s.eng) ∧ (u.rx.cap = s.rx.cap ∧ u.tx.cap = s.tx.cap) ∧ RxDmaOk u
    ∧ (s.eng.initDone = true → RingRanges u)

theorem Running.rxCap (h : Running s u) : u.rx.cap = s.rx.cap := h.2.1.1

theorem Running.txCap (h : Running s u) : u.tx.cap = s.tx.cap := h.2.1.2

theorem Running.dma (h : Running s u) : RxDmaOk u := h.2.2.1

theorem Running.ranges (h : Running s u) (hdone : s.eng.initDone = true) : RingRanges u := h.2.2.2 hdone

/-- Another state of a running command, with the same parameters, engine status and capacities. -/
theorem Running.next {v : State} (h : Running s u) (hk : v.params = u.params ∧ v.eng = u.eng ∧ v.rx.cap = u.rx.cap
    ∧ v.tx.cap = u.tx.cap) (hd : RxDmaOk v) (hr : s.eng.initDone = true → RingRanges v) :
    Running s v := by
  obtain ⟨hp, he, hrc, htc⟩ := hk
  obtain ⟨⟨h1, h2⟩, ⟨h3, h4⟩, -, -⟩ := h
  exact ⟨⟨hp.trans h1, he.trans h2⟩, ⟨hrc.trans h3, htc.trans h4⟩, hd, hr⟩

/-- A ring index, once INIT is done. -/
def IndexOf (s : State) (cap : Half) (i : Nat) : Prop := s.eng.initDone = true → i < cap.toNat

theorem running_self (hd : RxDmaOk s) (hr : RingsOk s) (hf : s.eng.fault = false) : Running s s :=
  ⟨⟨rfl, rfl⟩, ⟨rfl, rfl⟩, hd, (ringsOk_iff s).mp hr hf⟩

theorem Running.tstart (h : Running s u) : Running s u.tstart := by
  unfold State.tstart
  split <;> exact h

theorem keptByService_running (s : State) :
    KeptByService (Running s) s.rx.cap.toNat s.tx.cap.toNat (IndexOf s s.tx.cap) where
  rxCap _ hu := by rw [hu.rxCap]
  txCap _ hu := by rw [hu.txCap]
  closed _ hi hdone := ringInc_lt (Nat.lt_of_le_of_lt (Nat.zero_le _) (hi hdone))
  start u hu hdone := by
    obtain ⟨-, -, -, -, -, -, htail, -⟩ := hu.ranges hdone
    rw [← hu.txCap]; exact htail
  clear _ hu := hu
  emit _ _ hu := hu
  rxStop _ hu := hu.next ⟨rfl, rfl, rfl, rfl⟩ (rxDmaOk_of_idle rfl) hu.ranges
  rxDesc _ _ _ _ hu := ⟨hu, hu⟩
  rxStart _ hu := hu.next ⟨rfl, rfl, rfl, rfl⟩ (rxDmaOk_of_rxen hu.dma rfl rfl)
    fun hdone => (hu.ranges hdone).rxRestarted
  tail _ _ hi hu := hu.next ⟨rfl, rfl, rfl, rfl⟩ hu.dma
    fun hdone => (hu.ranges hdone).setTxTail (by rw [hu.txCap]; exact hi hdone)
  txStop _ hu := hu
  txDesc _ _ _ _ hu := ⟨hu, hu⟩
  tag _ _ hu := hu.next ⟨rfl, rfl, rfl, rfl⟩ hu.dma fun hdone => (hu.ranges hdone).setTag
  txStart _ hu := hu.next ⟨rfl, rfl, rfl, rfl⟩ hu.dma fun hdone => (hu.ranges hdone).txRestarted

theorem running_readBody (hs : Running s s) (dest maxLen : Word) : Running s (Op.final (readBody dest maxLen s)) := by
  refine preserves_readBody (I := Running s) (cap := s.rx.cap.toNat) (P := IndexOf s s.rx.cap)
    (fun _ hu => by rw [hu.rxCap]) (fun _ _ hi hdone => Nat.mod_lt _ (Nat.lt_of_le_of_lt (Nat.zero_le _) (hi hdone)))
    (fun u hu hdone => ?_) (fun _ _ _ _ hu => hu) (fun _ _ _ _ hu => hu)
    (fun u i hi hu => hu.next ⟨rfl, rfl, rfl, rfl⟩ hu.dma fun hdone => ?_) s hs
  · obtain ⟨-, -, htail, -⟩ := hu.ranges hdone
    rw [← hu.rxCap]; exact htail
  · exact (hu.ranges hdone).setRxTail (by rw [hu.rxCap]; exact hi hdone)

theorem running_writeBody (hs : Running s s) (src len : Word) (tag : Half) :
    Running s (Op.final (writeBody src len tag s)) := by
  refine writeBody_final hs (fun _ _ _ _ hu => hu) (fun _ _ hu => hu)
    (fun _ hu => hu.next ⟨rfl, rfl, rfl, rfl⟩ hu.dma fun hdone => (hu.ranges hdone).setTag)
    (fun u hu => hu.next ⟨rfl, rfl, rfl, rfl⟩ hu.dma fun hdone => ?_) (fun _ hu => hu.tstart)
  have hr := hu.ranges hdone
  obtain ⟨-, -, -, hcap, -⟩ := id hr
  exact hr.setTxHead (ringInc_lt (Nat.lt_of_lt_of_le Nat.two_pos hcap))

/-! ### The steps -/

/-- The invariant of the claim, for parameters in their ranges. -/
def RingsInRange (s : State) : Prop := s.params.wf = true ∧ RxDmaOk s ∧ RingsOk s

theorem RingsInRange.wf (h : RingsInRange s) : s.params.wf = true := h.1

theorem RingsInRange.dma (h : RingsInRange s) : RxDmaOk s := h.2.1

theorem RingsInRange.rings (h : RingsInRange s) : RingsOk s := h.2.2

theorem Running.inRange (h : Running s u) (hwf : s.params.wf = true) : RingsInRange u := by
  obtain ⟨⟨hp, he⟩, -, hd, hr⟩ := h
  exact ⟨by rw [hp]; exact hwf, hd, (ringsOk_iff u).mpr fun _ hdone => hr (by rw [← he]; exact hdone)⟩

theorem RingsInRange.takeBusFault {src : FaultSource} {op : Byte} {a : Word} (h : RingsInRange s) :
    RingsInRange (s.takeBusFault src op a) := ⟨h.wf, h.dma, fun hf => Bool.noConfusion hf⟩

theorem RingsInRange.complete {op : Byte} {st : Status} {r : Results} (h : RingsInRange s) :
    RingsInRange (s.complete op st r) := h

/-- The capacities INIT accepts are legal and fit their registers (R203, 00_scope.md R9). -/
theorem initCaps_legal {p : Params} {rc tc : Word} (hwf : p.wf = true) (h : initCapsBad p rc tc = false) :
    (2 ≤ rc.toNat ∧ rc.toNat ≤ p.ringMax ∧ (rc.setWidth 16).toNat = rc.toNat)
      ∧ 2 ≤ tc.toNat ∧ tc.toNat ≤ p.ringMax ∧ (tc.setWidth 16).toNat = tc.toNat := by
  simp only [Params.wf, Bool.and_eq_true, decide_eq_true_eq] at hwf
  simp only [initCapsBad, Bool.or_eq_false_iff, decide_eq_false_iff_not] at h
  have hmax : p.ringMax ≤ 65535 := by tauto
  obtain ⟨⟨⟨h1, h2⟩, h3⟩, h4⟩ := h
  simp only [BitVec.toNat_setWidth]
  exact ⟨⟨by omega, by omega, Nat.mod_eq_of_lt (by omega)⟩, by omega, by omega, Nat.mod_eq_of_lt (by omega)⟩

/-- At INIT's end the rings have their ranges, whatever the descriptors hold. -/
theorem ringRanges_initFinish {rc tc rd td rb tb : Word} (hwf : u.params.wf = true)
    (hc : initCapsBad u.params rc tc = false) : RingRanges (u.initFinish rc tc rd td rb tb) := by
  obtain ⟨⟨hr2, hrm, hre⟩, ht2, htm, hte⟩ := initCaps_legal hwf hc
  have hrx : (u.initFinish rc tc rd td rb tb).rx.cap.toNat = rc.toNat := hre
  have htx : (u.initFinish rc tc rd td rb tb).tx.cap.toNat = tc.toNat := hte
  have hr0 := Nat.lt_of_lt_of_le Nat.two_pos hr2
  have ht0 := Nat.lt_of_lt_of_le Nat.two_pos ht2
  unfold RingRanges
  rw [hrx, htx]
  exact ⟨hr2, hrm, hr0, ht2, htm, ht0, ht0, List.length_replicate⟩

theorem ringsInRange_execInit {rc tc rd td rb tb : Word} (hs : RingsInRange s)
    (h : exec (.init rc tc rd td rb tb) s = .next t) : RingsInRange t := by
  have hdma : RxDmaOk (Op.final (initBody rc tc rd td rb tb s)) := by
    rcases initBody_final (I := RxDmaOk) (rc := rc) (tc := tc) (rd := rd) (td := td) (rb := rb) (tb := tb) (s := s)
      (rxDmaOk_of_idle rfl) (fun _ _ _ _ hu => ⟨hu, hu⟩) (fun _ _ _ _ hu => ⟨hu, hu⟩)
      (fun _ hu => rxDmaOk_of_rxen hu rfl rfl) with hr | ⟨-, -, hr⟩
    · rw [hr]; exact hs.dma
    · exact hr
  have hparams := (clean_initBody rc tc rd td rb tb).keeps s
  rcases exec_cases h with ⟨r, u, hu, rfl⟩ | ⟨a, u, hu, rfl⟩ <;> simp only [commandBody] at hu <;>
    rw [hu] at hdma hparams
  · rcases initBody_ok_cases hu with ⟨-, rfl⟩ | ⟨hc, -, -, m, rfl⟩
    · exact hs.complete
    · have hwf : ((s.initStart rc tc rd td rb tb).withMem m).params.wf = true := hs.wf
      exact RingsInRange.complete ⟨hwf, hdma, fun _ _ => ringRanges_initFinish hwf hc⟩
  · have hwf : u.params.wf = true := (congrArg Params.wf hparams.1).trans hs.wf
    exact ⟨hwf, hdma, fun hf => Bool.noConfusion hf⟩

theorem ringsInRange_exec {i : Instr} (hs : RingsInRange s) (hf : s.eng.fault = false) (h : exec i s = .next t) :
    RingsInRange t := by
  have hrun := running_self hs.dma hs.rings hf
  by_cases hinit : ∃ rc tc rd td rb tb, i = .init rc tc rd td rb tb
  · obtain ⟨rc, tc, rd, td, rb, tb, rfl⟩ := hinit
    exact ringsInRange_execInit hs h
  · refine exec_keeps h hs (fun _ _ _ _ hu => hu) (fun _ _ _ hu => hu.takeBusFault)
      (fun rc tc rd td rb tb he => absurd ⟨rc, tc, rd, td, rb, tb, he⟩ hinit)
      (fun d m _ => (running_readBody hrun d m).inRange hs.wf)
      (fun a n g _ => (running_writeBody hrun a n g).inRange hs.wf)
      (fun _ => (preserves_serviceCommand (keptByService_running _) s hrun).inRange hs.wf)
      (fun _ _ _ hu => hu) (fun _ _ _ hu => hu) (fun _ _ hu => hu) (fun _ _ _ hu => hu) (fun _ _ _ hu => hu)
      (fun _ _ _ hu => hu) (fun _ hu => hu)

/-- The end of RxFill leaves RXDMA idle, or inside the frame it still receives (R263, R264). -/
theorem rxDmaOk_rxAdvance {frame : List Byte} {off n : Nat} (hs : RxDmaOk s) (hd : s.rx.dma = .busy frame off)
    (hn : n ≤ frame.length - off) (he : u.net.rxen = s.net.rxen) :
    RxDmaOk (u.rxAdvance frame (off + n) (decide (off + n = frame.length))) := by
  unfold RxDmaOk at hs
  rw [hd] at hs
  obtain ⟨hrx, hoff, hlen⟩ := hs
  unfold State.rxAdvance
  split
  · exact rxDmaOk_of_idle rfl
  · next hne =>
    rw [decide_eq_true_eq] at hne
    exact ⟨he.trans hrx, by omega, hlen⟩

theorem ringsInRange_rxdma (hs : RingsInRange s) (h : runAgent .rxdma 0 rxdmaStep s = .next t) : RingsInRange t := by
  suffices hb : RingsInRange (Op.final (rxdmaStep s)) ∧ (Op.final (rxdmaStep s)).net.rxen = s.net.rxen from
    runAgent_final (I := fun u => RingsInRange u ∧ u.net.rxen = s.net.rxen) hb
      (fun _ _ hu => ⟨hu.1.takeBusFault, hu.2⟩) h |>.1
  refine rxdmaStep_final (I := fun u => RingsInRange u ∧ u.net.rxen = s.net.rxen) ⟨hs, rfl⟩
    (fun _ _ _ _ _ _ _ hu => hu)
    (fun _ _ hu => ⟨hu, hu⟩)
    ⟨⟨hs.wf, rxDmaOk_of_idle rfl, hs.rings⟩, rfl⟩ (fun _ _ hu => hu) ?_
  intro u frame off n hd hn hu
  have hdma := rxDmaOk_rxAdvance hs.dma hd (n := n) (by omega) hu.2
  revert hdma
  unfold State.rxAdvance
  split <;> exact fun hdma => ⟨⟨hu.1.wf, hdma, hu.1.rings⟩, hu.2⟩

theorem ringsInRange_txdma (hs : RingsInRange s) (h : runAgent .txdma 0 txdmaStep s = .next t) : RingsInRange t := by
  exact runAgent_final (I := RingsInRange) (txdmaStep_final hs (fun _ _ hu => hu) hs (fun _ hu => hu)
    (fun _ _ hu => hu) (fun _ _ hu => hu) fun _ hu => hu) (fun _ _ hu => hu.takeBusFault) h

/-- An NCR write drops the frame RXDMA receives when it clears RXEN (R35). -/
theorem rxDmaOk_writeReg (v : Word) (r : Reg) (hs : RxDmaOk s) : RxDmaOk (writeReg s v r) := by
  cases r
  case ncr =>
    rw [writeReg, ncrWrite_eq]
    cases h2 : v.getLsbD 2 with
    | true => exact rxDmaOk_of_rxen hs (by simp) rfl
    | false =>
      cases hd : s.rx.dma with
      | idle => exact rxDmaOk_of_idle (by simp)
      | busy frame off =>
        unfold RxDmaOk at hs
        rw [hd] at hs
        exact rxDmaOk_of_idle (by simp [hs.1])
  case cmd =>
    simp only [writeReg, State.issue]
    split
    · split <;> exact hs
    · exact hs
  all_goals exact hs

theorem ringsInRange_writeReg (v : Word) (r : Reg) (hs : RingsInRange s) : RingsInRange (writeReg s v r) := by
  obtain ⟨hp, -, he, -⟩ := writeReg_frame s v r
  obtain ⟨⟨_, _, hrx⟩, _, _, htx⟩ := writeReg_rings s v r
  refine ⟨by rw [hp]; exact hs.wf, rxDmaOk_writeReg v r hs.dma, ?_⟩
  have := hs.rings
  unfold RingsOk at this ⊢
  rw [hp, he, hrx, htx]
  exact this

/-- Settles O54. -/
theorem stepKeepsRingsInRange : Obligations.StepKeepsRingsInRange := by
  unfold Obligations.StepKeepsRingsInRange
  intro s t hdma hrings h
  have hwf : s.params.wf = true := by
    by_contra hn
    rw [step, nextStep, if_pos (by simpa using hn)] at h
    cases h
  suffices ht : RingsInRange t from ⟨ht.dma, ht.rings⟩
  refine step_keeps ⟨hwf, hdma, hrings⟩ h (fun _ _ hu => hu)
    (fun _ _ _ hf hu hx => ringsInRange_exec hu hf hx) (fun _ _ _ _ hu => hu) ?serv
    (fun _ _ _ hu hx => ringsInRange_rxdma hu hx) (fun _ _ _ hu hx => ringsInRange_txdma hu hx) ?reg
    (fun _ _ _ hu => hu) (fun _ _ _ hu => hu) ?arr ?reset
  case serv =>
    intro u t hf hu hx
    have hrun := running_self hu.dma hu.rings hf
    have hbody := preserves_bind (preserves_serviceBody (keptByService_running _)) (f := fun _ => pure ())
      (fun _ => preserves_pure ()) u hrun
    exact runAgent_final (hbody.inRange hu.wf) (fun _ _ hv => hv.takeBusFault) hx
  case reg =>
    intro u off v hu
    rcases writeOffset_cases u off v with ⟨r, -, hr⟩ | ⟨-, hr⟩ <;> rw [hr]
    · exact ringsInRange_writeReg v r hu
    · exact hu
  case arr =>
    intro u frame hfr hu
    simp only [frameWf, Bool.and_eq_true, decide_eq_true_eq] at hfr
    rcases arrive_cases u frame with h | h | ⟨_, hrx, h⟩ <;> rw [h]
    · exact hu
    · exact hu
    · exact ⟨hu.wf, ⟨hrx, hfr.1, hfr.2⟩, hu.rings⟩
  case reset =>
    intro u _ hu
    exact ⟨hu.wf, trivial, fun _ hdone => Bool.noConfusion hdone⟩

end Sys2Proof.Machine
end

section
/-! PROOF. HOST's register accesses (10_state.md R33 to R77): where each register stands, what it reads bit by bit, and
what a write to it leaves. The words of registers with named bits are compared bit by bit. -/

namespace Sys2Proof.Machine

variable {s : State} {v : Word} {p : Params} {off n : Nat} {r : Reg}

/-! ### The register map (R33) -/

/-- At and above 0x200 the map has the three tables only. -/
theorem fixedRegs_find?_none (h : 0x200 ≤ off) : (fixedRegs.find? fun e => e.1 == off) = none := by
  have hlow : ∀ e ∈ fixedRegs, e.1 < 0x200 := by decide
  refine List.find?_eq_none.mpr fun e he => ?_
  have := hlow e he
  simp only [beq_iff_eq]
  omega

/-- Both tables of words end where the next one begins (00_scope.md R9). -/
theorem maxNodes_le (hwf : p.wf = true) : p.maxNodes ≤ 128 := by
  simp only [Params.wf, Bool.and_eq_true, decide_eq_true_eq] at hwf
  tauto

theorem regAt_fwd (hwf : p.wf = true) (hn : n < p.maxNodes) : regAt p (0x200 + 4 * n) = some (.fwd n) := by
  have := maxNodes_le hwf
  rw [regAt, fixedRegs_find?_none (by omega)]
  dsimp only
  rw [if_neg (by omega), if_neg (by omega), if_pos (by omega), show (0x200 + 4 * n - 0x200) / 4 = n by omega]

theorem regAt_pipe (hwf : p.wf = true) (hn : n < p.maxNodes) : regAt p (0x400 + 4 * n) = some (.pipe n) := by
  have := maxNodes_le hwf
  rw [regAt, fixedRegs_find?_none (by omega)]
  dsimp only
  rw [if_neg (by omega), if_neg (by omega), if_neg (by omega), if_pos (by omega),
    show (0x400 + 4 * n - 0x400) / 4 = n by omega]

theorem regAt_dmxbuf (hwf : p.wf = true) (hn : n < 128) : regAt p (0x800 + 4 * n) = some (.dmxbuf n) := by
  have := maxNodes_le hwf
  rw [regAt, fixedRegs_find?_none (by omega)]
  dsimp only
  rw [if_neg (by omega), if_neg (by omega), if_neg (by omega), if_neg (by omega), if_pos (by omega),
    show (0x800 + 4 * n - 0x800) / 4 = n by omega]

/-- The register at an offset is one of those at fixed offsets, or of one of the five groups. -/
theorem regAt_cases (h : regAt p off = some r) :
    (off, r) ∈ fixedRegs ∨ (0x110 ≤ off ∧ off < 0x128 ∧ ∃ k, r = .arg k) ∨ (0x130 ≤ off ∧ off < 0x140 ∧ ∃ k, r = .res k)
      ∨ (0x200 ≤ off ∧ off < 0x200 + 4 * p.maxNodes) ∨ (0x400 ≤ off ∧ off < 0x400 + 4 * p.maxNodes)
      ∨ (0x800 ≤ off ∧ off < 0xA00 ∧ ∃ k, r = .dmxbuf k) := by
  unfold regAt at h
  split at h
  · next e he =>
    cases h
    have heq : e.1 = off := by simpa using List.find?_some he
    subst heq
    exact .inl (List.mem_of_find?_eq_some he)
  · right
    split at h
    · next hr => cases h; exact .inl ⟨hr.1, hr.2, _, rfl⟩
    split at h
    · next hr => cases h; exact .inr (.inl ⟨hr.1, hr.2, _, rfl⟩)
    split at h
    · next hr => exact .inr (.inr (.inl hr))
    split at h
    · next hr => exact .inr (.inr (.inr (.inl hr)))
    split at h
    · next hr => cases h; exact .inr (.inr (.inr (.inr ⟨hr.1, hr.2, _, rfl⟩)))
    · cases h

theorem readOffset_of_regAt (h : regAt s.params off = some r) : readOffset s off = readReg s r := by
  rw [readOffset, h]

theorem writeOffset_of_regAt (h : regAt s.params off = some r) : writeOffset s off v = writeReg s v r := by
  rw [writeOffset, h]

/-! ### CMD and NCR (R54, R35) -/

theorem issue_latches (w : Word) (hp : s.cmd.pend = none) (hf : s.eng.fault = false) :
    s.issue w = s.withCmd { s.cmd with pend := some ⟨w, s.cmd.args⟩, busy := true } := by
  rw [State.issue, hp]; simp only [hf, Bool.false_eq_true, if_false]

theorem issue_faulted (w : Word) (hp : s.cmd.pend = none) (hf : s.eng.fault = true) : s.issue w = s := by
  rw [State.issue, hp]; simp only [hf, if_true]

theorem issue_overruns (w : Word) (hp : s.cmd.pend ≠ none) :
    s.issue w = s.withCmd { s.cmd with cmdOvr := true } := by
  obtain ⟨q, hq⟩ := Option.ne_none_iff_exists'.mp hp
  rw [State.issue, hq]

/-- Settles O40: the three cases of a CMD write. -/
theorem cmdWriteLatchesOrOverruns : Obligations.CmdWriteLatchesOrOverruns := by
  unfold Obligations.CmdWriteLatchesOrOverruns
  exact fun s w => ⟨issue_latches w, issue_faulted w, issue_overruns w, rfl⟩

/-- Settles O41, by what an NCR write makes of the state. -/
theorem ncrWriteStartsAndStopsDma : Obligations.NcrWriteStartsAndStopsDma := by
  unfold Obligations.NcrWriteStartsAndStopsDma
  intro s v
  refine (ncrWrite_eq s v).trans ?_
  simp only [Bool.and_eq_true, Bool.not_eq_true']

/-! ### Words with named bits -/

@[simp] theorem bitAt_getLsbD (b : Bool) (k i : Nat) :
    (bitAt b k).getLsbD i = (b && decide (i < 32) && decide (i = k)) := by
  unfold bitAt
  cases b
  · simp
  · by_cases hi : i < 32 <;> by_cases hk : i = k <;> simp [hi, hk]
    omega

theorem irqWord_or (a : IrqBits) (v : Word) : (a.or (.ofWord v)).word = a.word ||| (v &&& 0x4A6) := by
  refine BitVec.eq_of_getLsbD_eq fun i hi => ?_
  simp only [IrqBits.word, IrqBits.or, IrqBits.ofWord, BitVec.getLsbD_or, BitVec.getLsbD_and, bitAt_getLsbD]
  interval_cases i <;> simp

theorem irqWord_clear (a : IrqBits) (v : Word) : (a.clear (.ofWord v)).word = a.word &&& ~~~v := by
  refine BitVec.eq_of_getLsbD_eq fun i hi => ?_
  simp only [IrqBits.word, IrqBits.clear, IrqBits.ofWord, BitVec.getLsbD_or, BitVec.getLsbD_and, BitVec.getLsbD_not,
    bitAt_getLsbD]
  interval_cases i <;> simp

/-- The mask of R43 holds every bit of IMR and ISR. -/
theorem irqWord_masked (a : IrqBits) : a.word &&& 0x4A6 = a.word := by
  obtain ⟨b1, b2, b5, b7, b10⟩ := a
  revert b1 b2 b5 b7 b10
  decide

/-- Clearing bits inside a mask that holds every bit of the word. -/
theorem and_not_masked {x m : Word} (h : x &&& m = x) : x &&& ~~~(v &&& m) = x &&& ~~~v := by
  rw [← h]
  refine BitVec.eq_of_getLsbD_eq fun i _ => ?_
  simp only [BitVec.getLsbD_and, BitVec.getLsbD_not]
  cases x.getLsbD i <;> cases m.getLsbD i <;> simp

/-- Settles O42: IMR reads as its word, in which IER sets and IDR clears. -/
theorem interruptEnableAndDisableWrites : Obligations.InterruptEnableAndDisableWrites := by
  unfold Obligations.InterruptEnableAndDisableWrites
  intro s v
  exact ⟨irqWord_or s.net.imr v, (irqWord_clear s.net.imr v).trans (and_not_masked (irqWord_masked _)).symm,
    rfl, rfl, rfl, rfl⟩

theorem rsrWord_clear (a : Rsr) (v : Word) : (a.clear v).word = a.word &&& ~~~v := by
  refine BitVec.eq_of_getLsbD_eq fun i hi => ?_
  simp only [Rsr.word, Rsr.clear, BitVec.getLsbD_or, BitVec.getLsbD_and, BitVec.getLsbD_not, bitAt_getLsbD]
  interval_cases i <;> simp

theorem tsrWord_clear (a : Tsr) (go : Bool) (v : Word) : tsrWord (a.clear v) go = tsrWord a go &&& ~~~(v &&& 0x23) := by
  refine BitVec.eq_of_getLsbD_eq fun i hi => ?_
  simp only [tsrWord, Tsr.word, Tsr.clear, BitVec.getLsbD_or, BitVec.getLsbD_and, BitVec.getLsbD_not, bitAt_getLsbD]
  interval_cases i <;> simp

theorem statusWord_clearOvr (c : CommandPort) (v : Word) :
    CommandPort.statusWord { c with cmdOvr := c.cmdOvr && !v.getLsbD 1 } = c.statusWord &&& ~~~(v &&& 0x2) := by
  refine BitVec.eq_of_getLsbD_eq fun i hi => ?_
  simp only [CommandPort.statusWord, BitVec.getLsbD_or, BitVec.getLsbD_and, BitVec.getLsbD_not, bitAt_getLsbD,
    BitVec.getLsbD_shiftLeft]
  interval_cases i <;> simp

theorem evqStatusWord_clearOvf (e : Events) (v : Word) :
    Events.statusWord { e with ovf := e.ovf && !v.getLsbD 16 } = e.statusWord &&& ~~~(v &&& 0x10000) := by
  refine BitVec.eq_of_getLsbD_eq fun i hi => ?_
  simp only [Events.statusWord, BitVec.getLsbD_or, BitVec.getLsbD_and, BitVec.getLsbD_not, bitAt_getLsbD]
  interval_cases i <;> simp

/-- Settles O43: each register's word after the write, and the state the write leaves. -/
theorem statusRegisterWritesClear : Obligations.StatusRegisterWritesClear := by
  unfold Obligations.StatusRegisterWritesClear
  intro s v
  exact ⟨rsrWord_clear s.net.rsr v, rfl, tsrWord_clear s.net.tsr s.tx.go v, rfl, irqWord_clear s.net.isr v, rfl,
    statusWord_clearOvr s.cmd v, rfl, evqStatusWord_clearOvf s.ev v, rfl, rfl, rfl⟩

/-! ### The configuration (R38, R39, R56, R67 to R69, R72, R73) -/

theorem byte_readBack (v : Word) : (v.setWidth 8).setWidth 32 = v &&& 0xFF := by
  refine BitVec.eq_of_getLsbD_eq fun i hi => ?_
  simp only [BitVec.getLsbD_setWidth, BitVec.getLsbD_and]
  interval_cases i <;> simp

theorem dispcfg_readBack (c : NodeConfig) (v : Word) :
    dispcfgWord { c with base := v.setWidth 10, count := (v >>> 16).setWidth 8 } = v &&& 0x00FF03FF := by
  refine BitVec.eq_of_getLsbD_eq fun i hi => ?_
  simp only [dispcfgWord, BitVec.getLsbD_or, BitVec.getLsbD_and, BitVec.getLsbD_setWidth, BitVec.getLsbD_shiftLeft,
    BitVec.getLsbD_ushiftRight]
  interval_cases i <;> simp

theorem arg_readBack (s : State) (v : Word) {k : Nat} (hk : k < 6) :
    readOffset (writeOffset s (0x110 + 4 * k) v) (0x110 + 4 * k) = v := by
  interval_cases k <;> rfl

/-- A table entry that HOST wrote is read back. -/
theorem getD_set_same {l : List Word} (h : n < l.length) : (l.set n v).getD n 0 = v := by
  simp [List.getD, h]

theorem fwd_readBack (hwf : s.params.wf = true) (hl : s.cfg.fwd.length = s.params.maxNodes)
    (hn : n < s.params.maxNodes) :
    readOffset (writeOffset s (0x200 + 4 * n) v) (0x200 + 4 * n) = v
      ∧ writeOffset s (0x200 + 4 * n) v = s.withCfg { s.cfg with fwd := s.cfg.fwd.set n v } := by
  have hr := regAt_fwd hwf hn
  have hr' : regAt (writeReg s v (.fwd n)).params (0x200 + 4 * n) = some (.fwd n) := hr
  rw [writeOffset_of_regAt hr]
  exact ⟨(readOffset_of_regAt hr').trans (getD_set_same (by rw [hl]; exact hn)), rfl⟩

theorem pipe_readBack (hwf : s.params.wf = true) (hl : s.cfg.pipe.length = s.params.maxNodes)
    (hn : n < s.params.maxNodes) :
    readOffset (writeOffset s (0x400 + 4 * n) v) (0x400 + 4 * n) = v
      ∧ writeOffset s (0x400 + 4 * n) v = s.withCfg { s.cfg with pipe := s.cfg.pipe.set n v } := by
  have hr := regAt_pipe hwf hn
  have hr' : regAt (writeReg s v (.pipe n)).params (0x400 + 4 * n) = some (.pipe n) := hr
  rw [writeOffset_of_regAt hr]
  exact ⟨(readOffset_of_regAt hr').trans (getD_set_same (by rw [hl]; exact hn)), rfl⟩

/-- Settles O44: a register held whole reads back by definition, one with narrower fields bit by bit, a table entry
from its table. -/
theorem configurationRegistersReadBack : Obligations.ConfigurationRegistersReadBack := by
  unfold Obligations.ConfigurationRegistersReadBack
  intro s v
  exact ⟨rfl, rfl, rfl, rfl, rfl, rfl, fun k hk => arg_readBack s v hk, rfl, rfl, rfl, rfl, rfl, rfl, byte_readBack v,
    rfl, byte_readBack v, rfl, dispcfg_readBack s.cfg v, rfl, fun n => fwd_readBack, fun n => pipe_readBack⟩

/-! ### The status registers (R34 to R37, R42, R45, R51, R53, R55, R59) -/

/-- TXGO stands between RLE and TXCOMP in TSR (R37). -/
theorem tsrWord_eq (a : Tsr) (go : Bool) :
    tsrWord a go = bitAt a.ubr 0 ||| bitAt a.rle 1 ||| bitAt go 3 ||| bitAt a.txcomp 5 := by
  rw [tsrWord, Tsr.word, BitVec.or_assoc, BitVec.or_comm (bitAt a.txcomp 5), ← BitVec.or_assoc]

/-- The word of TSR that SERVICE captures is the one HOST reads without TXGO (R241). -/
theorem tsr_captured (a : Tsr) (go : Bool) : a.word = tsrWord a go &&& 0x23 := by
  obtain ⟨b0, b1, b5⟩ := a
  revert b0 b1 b5 go
  decide

theorem faultSource_code_shifted (f : FaultSource) :
    f.code <<< 4 = match f with | .none => (0 : Word) | .ce => 0x10 | .rxdma => 0x20 | .txdma => 0x30 := by
  cases f <;> rfl

theorem status_code_shifted (st : Status) :
    st.code.setWidth 32 <<< 8 = match st with
      | .ok => (0 : Word) | .empty => 0x100 | .tooSmall => 0x200 | .rxError => 0x300 | .busy => 0x400
      | .invalidSize => 0x500 | .param => 0x600 | .noInit => 0x700 | .illegalCmd => 0x800 := by
  cases st <;> rfl

/-- The length of a queue that COUNT can hold, as a word (R59). -/
theorem count_setWidth (h : n < 65536) : (BitVec.ofNat 16 n).setWidth 32 = BitVec.ofNat 32 n := by
  refine BitVec.eq_of_toNat_eq ?_
  simp only [BitVec.toNat_setWidth, BitVec.toNat_ofNat]
  omega

/-- Settles O45: each register's word is the bits at their places by definition, but for the order of TSR's, the shifted
codes and the width of COUNT. -/
theorem statusRegistersReadTheirBits : Obligations.StatusRegistersReadTheirBits := by
  unfold Obligations.StatusRegistersReadTheirBits
  intro s
  refine ⟨rfl, rfl, tsrWord_eq s.net.tsr s.tx.go, rfl, rfl, rfl, rfl, tsr_captured s.net.tsr s.tx.go, rfl, ?_, rfl, ?_,
    fun hlen => ?_⟩
  · exact congrArg (fun c => bitAt s.eng.initDone 0 ||| bitAt s.eng.fault 1 ||| c ||| (s.eng.fop.setWidth 32 <<< 8))
      (faultSource_code_shifted s.eng.fsrc)
  · exact congrArg (fun c => bitAt s.cmd.busy 0 ||| bitAt s.cmd.cmdOvr 1 ||| c ||| (s.cmd.lastop.setWidth 32 <<< 16))
      (status_code_shifted s.cmd.status)
  · exact congrArg (· ||| bitAt s.ev.ovf 16) (count_setWidth hlen)

/-- Settles O46: the registers read the fields by definition, a word of DMXBUF through the map's last range. -/
theorem ringAndResultRegistersRead : Obligations.RingAndResultRegistersRead := by
  unfold Obligations.RingAndResultRegistersRead
  intro s
  exact ⟨rfl, rfl, rfl, rfl, rfl, rfl, rfl, rfl, rfl, rfl, rfl, rfl, rfl, rfl, rfl, rfl,
    fun j hwf hj => readOffset_of_regAt (regAt_dmxbuf hwf hj)⟩

/-! ### The event queue (R58 to R60, R63) -/

theorem push_of_room {depth : Nat} {q : Events} (e : Word) (h : q.queue.length < depth) :
    q.push depth e = ⟨q.queue ++ [e], q.ovf⟩ := by rw [Events.push, if_pos h]

theorem push_of_full {depth : Nat} {q : Events} (e : Word) (h : depth ≤ q.queue.length) :
    q.push depth e = ⟨q.queue, true⟩ := by rw [Events.push, if_neg (by omega)]

/-- COUNT is the low half of EVQ_STAT: OVF stands above it. -/
theorem evqStatusWord_count (e : Events) (h : e.queue.length < 65536) :
    e.statusWord.toNat % 65536 = e.queue.length := by
  have hlow : e.statusWord.setWidth 16 = BitVec.ofNat 16 e.queue.length := by
    refine BitVec.eq_of_getLsbD_eq fun i hi => ?_
    have hne : i ≠ 16 := by omega
    simp only [Events.statusWord, BitVec.getLsbD_setWidth, BitVec.getLsbD_or, bitAt_getLsbD, hne, decide_false,
      Bool.and_false, Bool.or_false, hi, decide_true, Bool.true_and, show i < 32 by omega]
  have := congrArg BitVec.toNat hlow
  rwa [BitVec.toNat_setWidth, BitVec.toNat_ofNat, Nat.mod_eq_of_lt h] at this

/-- Settles O47. -/
theorem eventQueueIsAFifo : Obligations.EventQueueIsAFifo := by
  unfold Obligations.EventQueueIsAFifo
  refine ⟨fun _ => rfl, fun s v => ?_, fun _ => rfl, fun s h => evqStatusWord_count s.ev h,
    fun _ _ e => ⟨push_of_room e, push_of_full e⟩, fun _ _ => rfl⟩
  rw [List.drop_one]
  rfl

/-! ### HOST's accesses of the window (R33, R77, R282) -/

/-- The offset of an address in the block's window. -/
theorem regOffset_window {addr : Word} (ha : addr.toNat = p.blockBase.toNat + off) (ho : off < 4096) :
    regOffset p addr = some off := by
  rw [regOffset, if_pos (by omega), ha, Nat.add_sub_cancel_left]

/-- What a register reads does not depend on the environment. -/
theorem readOffset_withEnv (s : State) (e : Env) (off : Nat) : readOffset (s.withEnv e) off = readOffset s off := by
  unfold readOffset
  simp only [State.withEnv_params]
  cases regAt s.params off with
  | none => rfl
  | some r => cases r <;> rfl

/-- Whether a write to the register is ignored (R33). -/
def Reg.readOnly : Reg → Bool
  | .rxptr | .txptr | .imr | .rxcap | .txcap | .rxtail | .txhead | .txtail | .cbstat | .rxdbase | .txdbase | .rxbbase
  | .txbbase | .engstat | .faultaddr | .res _ | .evqData | .dmxlen | .dmxbuf _ => true
  | _ => false

/-- Whether the register is written only, and reads 0 (R43, R44, R54, R60). -/
def Reg.writeOnly : Reg → Bool
  | .ier | .idr | .cmd | .evqPop => true
  | _ => false

theorem writeReg_readOnly (h : r.readOnly = true) : writeReg s v r = s := by
  cases r <;> simp only [Reg.readOnly, Bool.false_eq_true] at h <;> rfl

theorem readReg_writeOnly (h : r.writeOnly = true) : readReg s r = 0 := by
  cases r <;> simp only [Reg.writeOnly, Bool.false_eq_true] at h <;> rfl

/-- The offsets of the writable registers below the tables. -/
def writableOffsets : List Nat :=
  [0x000, 0x008, 0x00C, 0x010, 0x014, 0x020, 0x024, 0x028, 0x100, 0x104, 0x110, 0x114, 0x118, 0x11C, 0x120,
    0x124, 0x144, 0x148, 0x180, 0x184, 0x188, 0x18C]

/-- The offsets of the readable registers below the tables. -/
def readableOffsets : List Nat :=
  [0x000, 0x008, 0x00C, 0x010, 0x014, 0x018, 0x01C, 0x020, 0x02C, 0x040, 0x044, 0x048, 0x04C, 0x050, 0x054,
    0x058, 0x05C, 0x060, 0x064, 0x068, 0x06C, 0x104, 0x110, 0x114, 0x118, 0x11C, 0x120, 0x124, 0x130, 0x134, 0x138,
    0x13C, 0x140, 0x144, 0x180, 0x184, 0x188, 0x18C, 0x190]

/-- The registers ARG0..ARG5 stand at six of the listed offsets, RES0..RES3 at four. -/
theorem arg_offset (h4 : off % 4 = 0) (h1 : 0x110 ≤ off) (h2 : off < 0x128) :
    off ∈ writableOffsets ∧ off ∈ readableOffsets := by
  have hk : ∀ k, k < 6 → 0x110 + 4 * k ∈ writableOffsets ∧ 0x110 + 4 * k ∈ readableOffsets := by decide
  have := hk ((off - 0x110) / 4) (by omega)
  rwa [show 0x110 + 4 * ((off - 0x110) / 4) = off by omega] at this

theorem res_offset (h4 : off % 4 = 0) (h1 : 0x130 ≤ off) (h2 : off < 0x140) : off ∈ readableOffsets := by
  have hk : ∀ k, k < 4 → 0x130 + 4 * k ∈ readableOffsets := by decide
  have := hk ((off - 0x130) / 4) (by omega)
  rwa [show 0x130 + 4 * ((off - 0x130) / 4) = off by omega] at this

/-- A write elsewhere finds a read-only register, or none. -/
theorem writeOffset_elsewhere (s : State) (v : Word) (h4 : off % 4 = 0) (hw : off ∉ writableOffsets)
    (hfwd : ¬ (0x200 ≤ off ∧ off < 0x200 + 4 * s.params.maxNodes))
    (hpipe : ¬ (0x400 ≤ off ∧ off < 0x400 + 4 * s.params.maxNodes)) : writeOffset s off v = s := by
  have hfixed : ∀ e ∈ fixedRegs, e.1 ∈ writableOffsets ∨ e.2.readOnly = true := by decide
  rcases writeOffset_cases s off v with ⟨r, hr, h⟩ | ⟨-, h⟩ <;> rw [h]
  rcases regAt_cases hr with hf | ⟨h1, h2, -⟩ | ⟨-, -, k, rfl⟩ | hf | hf | ⟨-, -, k, rfl⟩
  · exact writeReg_readOnly ((hfixed _ hf).resolve_left hw)
  · exact absurd (arg_offset h4 h1 h2).1 hw
  · rfl
  · exact absurd hf hfwd
  · exact absurd hf hpipe
  · rfl

/-- A read elsewhere finds a write-only register, or none. -/
theorem readOffset_elsewhere (s : State) (h4 : off % 4 = 0) (hro : off ∉ readableOffsets)
    (hfwd : ¬ (0x200 ≤ off ∧ off < 0x200 + 4 * s.params.maxNodes))
    (hpipe : ¬ (0x400 ≤ off ∧ off < 0x400 + 4 * s.params.maxNodes)) (hdmx : ¬ (0x800 ≤ off ∧ off < 0xA00)) :
    readOffset s off = 0 := by
  have hfixed : ∀ e ∈ fixedRegs, e.1 ∈ readableOffsets ∨ e.2.writeOnly = true := by decide
  cases hr : regAt s.params off with
  | none => rw [readOffset, hr]
  | some r =>
    rw [readOffset_of_regAt hr]
    rcases regAt_cases hr with hf | ⟨h1, h2, -⟩ | ⟨h1, h2, -⟩ | hf | hf | ⟨h1, h2, -⟩
    · exact readReg_writeOnly ((hfixed _ hf).resolve_left hro)
    · exact absurd (arg_offset h4 h1 h2).2 hro
    · exact absurd (res_offset h4 h1 h2) hro
    · exact absurd hf hfwd
    · exact absurd hf hpipe
    · exact absurd ⟨h1, h2⟩ hdmx

/-- Settles O48: the address gives the offset, and the access is the register's or refused; elsewhere, see above. -/
theorem hostRegisterAccesses : Obligations.HostRegisterAccesses := by
  unfold Obligations.HostRegisterAccesses
  refine ⟨fun s rest addr off hwf ha ho => ?_, fun s v off => writeOffset_elsewhere s v,
    fun s off => readOffset_elsewhere s⟩
  have hoff : regOffset (s.withInputs rest).params addr = some off := regOffset_window ha ho
  refine ⟨fun h4 hi => ?_, fun v h4 hi => ?_, fun h4 hi => ?_, fun v h4 hi => ?_, fun hi => ?_, fun b hi => ?_⟩ <;>
    rw [step_input hwf hi, applyInput]
  · simp only [hostRead32, hoff, h4, if_true]
    rw [State.withInputs, readOffset_withEnv]
    rfl
  · simp only [hostWrite32, hoff, h4, if_true]
  · simp only [hostRead32, hoff, h4, if_false]
  · simp only [hostWrite32, hoff, h4, if_false]
  · simp only [hostRead8, hoff]
  · simp only [hostWrite8, hoff]

end Sys2Proof.Machine
end

section
/-! SUPPORT. The rings in memory (20_memory.md R102, R114): which writes leave a descriptor alone, what the words that
INIT, WRITE and the DMA agents write say, and the ownership protocol of one ring, state by state. -/

namespace Sys2Proof.Machine

variable {s t : State} {m m' m'' : List Host.Cell} {a b base v w x : Word} {bs : List Byte} {n k i c : Nat}

/-! ### Bytes that stay -/

/-- Two memories hold the same bytes at the `n` addresses from `a`. -/
def SameOn (m m' : List Host.Cell) (a : Word) (n : Nat) : Prop :=
  ∀ j, j < n → readCell m' (a + BitVec.ofNat 32 j).toNat = readCell m (a + BitVec.ofNat 32 j).toNat

theorem sameOn_refl : SameOn m m a n := fun _ _ => rfl

theorem SameOn.trans (h : SameOn m m' a n) (h' : SameOn m' m'' a n) : SameOn m m'' a n :=
  fun j hj => (h' j hj).trans (h j hj)

theorem sameOn_writeBytes (h : Apart a n b bs.length) : SameOn m (writeBytes m b bs) a n :=
  fun j hj => readCell_writeBytes_other (h j hj)

theorem sameOn_writeWord (h : Apart a n b 4) : SameOn m (writeWord m b v) a n :=
  fun j hj => readCell_writeWord_other (h j hj)

theorem sameOn_writeCell {y : Byte} (h : Apart a n b 1) : SameOn m (writeCell m b.toNat y) a n :=
  sameOn_writeBytes (bs := [y]) h

/-- One descriptor of an array, apart from whatever the array is apart from. -/
theorem Apart.desc (h : Apart base (8 * n) b k) (hi : i < n) : Apart (descAddr base i) 8 b k :=
  h.sub_left (by omega)

theorem Apart.second_word (h : Apart a 8 b k) : Apart (a + 4) 4 b k := h.sub_left (j := 4) (by omega)

theorem Apart.first_word (h : Apart a 8 b k) : Apart a 4 b k := fun j hj => h j (by omega)

theorem sameOn_initCells {w0 w1 : Nat → Word} (h : Apart a n base (8 * k)) :
    SameOn m (initCells base w0 w1 0 k m) a n :=
  fun j hj => initCells_other fun i _ hi => (h.symm.desc (by omega)).symm j hj

/-! ### One descriptor's words -/

/-- A write of a descriptor's word 1 leaves every word 0, and every other word 1. -/
theorem readWord_writeSecond (hm : Memory.wf m = true) (hi : i < 65536) (hk : k < 65536) :
    readWord (writeWord m (descAddr base i + 4) v) (descAddr base k) = readWord m (descAddr base k)
      ∧ readWord (writeWord m (descAddr base i + 4) v) (descAddr base k + 4)
        = if k = i then v else readWord m (descAddr base k + 4) := by
  split
  · next he => subst he; exact ⟨readWord_writeWord_other (apart_words _), readWord_writeWord_same hm⟩
  · next he =>
    have ha := (apart_desc (base := base) hk hi he).symm.second_word.symm
    exact ⟨readWord_writeWord_other ha.first_word, readWord_writeWord_other ha.second_word⟩

/-- A write of a descriptor's word 0 leaves every other word 0. -/
theorem readWord_writeFirst (hm : Memory.wf m = true) (hi : i < 65536) (hk : k < 65536) :
    readWord (writeWord m (descAddr base i) v) (descAddr base k)
      = if k = i then v else readWord m (descAddr base k) := by
  split
  · next he => subst he; exact readWord_writeWord_same hm
  · next he => exact readWord_writeWord_other (apart_desc hk hi he).first_words

/-- The words of an array after one word 1 is written and other bytes, outside the array, changed before. -/
theorem descWords_written (hwf : Memory.wf m' = true) (hsame : SameOn m m' base (8 * n)) (hn : n < 65536) (hi : i < n)
    (hk : k < n) :
    readWord (writeWord m' (descAddr base i + 4) v) (descAddr base k) = readWord m (descAddr base k)
      ∧ readWord (writeWord m' (descAddr base i + 4) v) (descAddr base k + 4)
        = if k = i then v else readWord m (descAddr base k + 4) := by
  obtain ⟨h0, h1⟩ := readWord_writeSecond (base := base) (i := i) (k := k) (v := v) hwf (by omega) (by omega)
  obtain ⟨g0, g1⟩ := descWords_congr hk hsame
  exact ⟨h0.trans g0, by rw [h1, g1]⟩

/-! ### Descriptor words (30_encoding.md R150 to R157) -/

/-- OWN of word 0 does not touch WRAP and ADDR. -/
theorem setOwn_masked (w : Word) : (w ||| 1) &&& 0xFFFFFFFE = w &&& 0xFFFFFFFE := by
  refine BitVec.eq_of_getLsbD_eq fun i hi => ?_
  simp only [BitVec.getLsbD_and, BitVec.getLsbD_or]
  interval_cases i <;> simp

theorem clearOwn_masked (w : Word) : (w &&& 0xFFFFFFFE) &&& 0xFFFFFFFE = w &&& 0xFFFFFFFE := by
  rw [BitVec.and_assoc]; rfl

theorem rxInitWord0_masked (bb : Word) (unit n i : Nat) :
    rxInitWord0 bb unit n i &&& 0xFFFFFFFE = rxInitWord0 bb unit n i := by
  refine BitVec.eq_of_getLsbD_eq fun j hj => ?_
  simp only [rxInitWord0, rxAddr, BitVec.getLsbD_and, BitVec.getLsbD_or]
  split <;> interval_cases j <;> simp

/-- WRAP and ADDR of word 0 are those of the word INIT wrote, whoever owns the descriptor. -/
theorem rxWord0_fields {bb : Word} {unit : Nat} (h : w &&& 0xFFFFFFFE = rxInitWord0 bb unit n i) :
    rxAddr w = rxAddr (bufferAddr bb unit i) ∧ rxWrap w = decide (i + 1 = n) := by
  have hbit : ∀ j, j < 32 → 1 ≤ j → w.getLsbD j = (rxInitWord0 bb unit n i).getLsbD j := fun j hj h1 => by
    rw [← h, BitVec.getLsbD_and]
    interval_cases j <;> simp
  constructor
  · refine BitVec.eq_of_getLsbD_eq fun j hj => ?_
    by_cases h1 : 1 ≤ j
    · simp only [rxAddr, BitVec.getLsbD_and, hbit j hj h1, rxInitWord0, BitVec.getLsbD_or]
      split <;> interval_cases j <;> simp
    · obtain rfl : j = 0 := by omega
      simp [rxAddr]
  · rw [rxWrap, hbit 1 (by omega) (by omega), rxInitWord0, rxAddr, BitVec.getLsbD_or, BitVec.getLsbD_and]
    split <;> next he => simp [he]

/-- A buffer of an aligned area of aligned units starts aligned, so word 0 holds its address whole (R107, R150). -/
theorem rxAddr_bufferAddr {bb : Word} {unit : Nat} (hb : bb.toNat % 4 = 0) (hu : unit % 4 = 0) :
    rxAddr (bufferAddr bb unit i) = bufferAddr bb unit i := by
  have h4 : (bufferAddr bb unit i).toNat % 4 = 0 := by
    have hiu : i * unit % 4 = 0 := by rw [Nat.mul_mod, hu, Nat.mul_zero, Nat.zero_mod]
    rw [bufferAddr, BitVec.toNat_add, BitVec.toNat_ofNat]
    omega
  have hlow : ∀ j, j < 2 → (bufferAddr bb unit i).getLsbD j = false := fun j hj => by
    have ht : ((bufferAddr bb unit i).toNat % 2 ^ 2).testBit j = false := by
      rw [show 2 ^ 2 = 4 from rfl, h4, Nat.zero_testBit]
    rwa [Nat.testBit_mod_two_pow, decide_eq_true hj, Bool.true_and, BitVec.testBit_toNat] at ht
  refine BitVec.eq_of_getLsbD_eq fun j hj => ?_
  rw [rxAddr, BitVec.getLsbD_and]
  by_cases h2 : j < 2
  · rw [hlow j h2, Bool.false_and]
  · interval_cases j <;> simp_all

theorem txInitWord1_fields (n i : Nat) :
    txUsed (txInitWord1 n i) = true ∧ txWrap (txInitWord1 n i) = decide (i + 1 = n) := by
  unfold txUsed txWrap txInitWord1
  simp only [BitVec.getLsbD_or]
  split <;> next he => simp [he]

/-- Word 1 as WRITE leaves it: the hardware's, WRAP on the last descriptor (R221). -/
theorem txWriteWord1_fields {len : Word} (h : len.toNat ≤ 16383) (n i : Nat) :
    txUsed (txWriteWord1 len n i) = false ∧ txWrap (txWriteWord1 len n i) = decide (i + 1 = n) := by
  have hbit : ∀ j, 14 ≤ j → len.getLsbD j = false := fun j hj => by
    rw [← BitVec.testBit_toNat]
    exact Nat.testBit_lt_two_pow (Nat.lt_of_le_of_lt h (Nat.lt_of_lt_of_le (by decide : 16383 < 2 ^ 14)
      (Nat.pow_le_pow_right (by omega) hj)))
  unfold txUsed txWrap txWriteWord1
  simp only [BitVec.getLsbD_or, hbit 31 (by omega), hbit 30 (by omega)]
  split <;> next he => simp [he]

theorem txSentWord_fields (w : Word) :
    txUsed (w ||| 0x80000000) = true ∧ txWrap (w ||| 0x80000000) = txWrap w := by
  simp [txUsed, txWrap]

theorem txFailedWord_fields (w : Word) :
    txUsed (w ||| 0x20000000) = txUsed w ∧ txWrap (w ||| 0x20000000) = txWrap w := by
  simp [txUsed, txWrap]

/-! ### Indices -/

/-- With WRAP on the last descriptor, the next place is the next index of the ring (R263, R272). -/
theorem nextPtr_toNat {cap ptr : Half} (h : ptr.toNat < cap.toNat) :
    (nextPtr (decide (ptr.toNat + 1 = cap.toNat)) ptr).toNat = ringInc cap.toNat ptr.toNat := by
  have hcap := cap.isLt
  unfold nextPtr ringInc
  by_cases he : ptr.toNat + 1 = cap.toNat
  · simp [he]
  · simp only [he, decide_false, Bool.false_eq_true, if_false, BitVec.toNat_add,
      show (1 : Half).toNat = 1 from rfl]
    rw [Nat.mod_eq_of_lt (a := ptr.toNat + 1) (b := cap.toNat) (by omega)]
    omega

/-- Two offsets from one index that reach the same index are equal. -/
theorem ring_offset_unique {cap p i j : Nat} (hi : i < cap) (hj : j < cap)
    (h : (p + i) % cap = (p + j) % cap) : i = j := by
  by_contra hne
  exact ring_ne hi hj hne h

/-- The number of pending descriptors is the offset of the head. -/
theorem count_unique {r : TxRing} (hh : r.head.toNat < r.cap.toNat) (ht : r.tail.toNat < r.cap.toNat)
    (hn : n < r.cap.toNat) (h : (r.tail.toNat + n) % r.cap.toNat = r.head.toNat) : r.count = n :=
  ring_offset_unique (count_lt ht) hn ((tail_add_count hh ht).trans h.symm)

/-! ### The receive ring -/

/-- The layout through new words: the registers of INIT stay, the indices are inside the ring, and no write touches
WRAP or ADDR. -/
theorem rxLayout_of_words (h : RxLayout s) (hp : t.params = s.params) (hc : t.rx.cap = s.rx.cap)
    (hd : t.rx.dbase = s.rx.dbase) (hb : t.rx.bbase = s.rx.bbase) (hq : t.rx.qbase = s.rx.qbase)
    (ht : t.rx.tail.toNat < s.rx.cap.toNat) (hr : t.rx.ptr.toNat < s.rx.cap.toNat)
    (hw : ∀ i, i < s.rx.cap.toNat →
      readWord t.mem (s.rx.desc i) &&& 0xFFFFFFFE = readWord s.mem (s.rx.desc i) &&& 0xFFFFFFFE) : RxLayout t := by
  obtain ⟨h1, -, -, h4, h5⟩ := h
  unfold RxLayout
  rw [hc, hq, hd, hb, hp]
  refine ⟨h1, ht, hr, h4, fun i hi => ?_⟩
  rw [show t.rx.desc i = s.rx.desc i by rw [RxRing.desc, hd]; rfl, hw i hi]
  exact h5 i hi

/-- The layout right after every descriptor was initialised (R205, R245). -/
theorem rxLayout_of_init (hcap : 2 ≤ t.rx.cap.toNat) (htail : t.rx.tail = 0) (hptr : t.rx.ptr = 0)
    (hq : t.rx.qbase = t.rx.dbase) (hw : ∀ i, i < t.rx.cap.toNat →
      readWord t.mem (t.rx.desc i) = rxInitWord0 t.rx.bbase t.params.rxUnit t.rx.cap.toNat i) : RxLayout t := by
  have h0 : (0 : Half).toNat < t.rx.cap.toNat := Nat.lt_of_lt_of_le Nat.two_pos hcap
  exact ⟨hcap, by rw [htail]; exact h0, by rw [hptr]; exact h0, hq,
    fun i hi => by rw [hw i hi]; exact rxInitWord0_masked _ _ _ _⟩

/-! ### The transmit ring -/

/-- The protocol right after every descriptor was initialised: nothing is pending (R205, R247). -/
theorem txProtocol_of_init (hcap : 2 ≤ t.tx.cap.toNat) (hhead : t.tx.head = 0) (htail : t.tx.tail = 0)
    (hptr : t.tx.ptr = 0) (hl : t.tx.tags.length = t.tx.cap.toNat) (hq : t.tx.qbase = t.tx.dbase)
    (he : t.net.txen = true) (hw : ∀ i, i < t.tx.cap.toNat →
      readWord t.mem (t.tx.desc i) = bufferAddr t.tx.bbase t.params.txUnit i
        ∧ readWord t.mem (t.tx.desc i + 4) = txInitWord1 t.tx.cap.toNat i) : TxProtocol t 0 := by
  have h0 : (0 : Half).toNat < t.tx.cap.toNat := Nat.lt_of_lt_of_le Nat.two_pos hcap
  have hcount : t.tx.count = 0 :=
    count_unique (by rw [hhead]; exact h0) (by rw [htail]; exact h0) h0 (by
      rw [htail, hhead]; exact Nat.mod_eq_of_lt h0)
  refine ⟨hcap, by rw [hhead]; exact h0, by rw [htail]; exact h0, hl, hq, Nat.zero_le _, ?_, fun k hk => ?_,
    fun i hi => ⟨?_, (hw i hi).1⟩, he, fun h => absurd h (by omega)⟩
  · rw [hptr, htail]; exact (Nat.mod_eq_of_lt h0).symm
  · rw [(hw _ (Nat.mod_lt _ (by omega))).2, (txInitWord1_fields _ _).1, hcount]
    simp
  · rw [(hw i hi).2]; exact (txInitWord1_fields _ _).2

/-- SERVICE reports exactly the frames that TXDMA has sent (R244, R273). -/
theorem sentRun_eq (h : TxProtocol s c) (hn : SentRun s n) : n = c := by
  obtain ⟨-, -, htail, -, -, hc, -, hused, -⟩ := h
  obtain ⟨hle, hall, hnext⟩ := hn
  have hlt := count_lt htail
  by_contra hne
  rcases Nat.lt_or_gt_of_ne hne with h1 | h1
  · have h2 := hnext (by omega)
    rw [hused n (by omega), decide_eq_true h1, Bool.true_or] at h2
    cases h2
  · have h2 := hall c h1
    rw [hused c (by omega), decide_eq_false (by omega), decide_eq_false (by omega)] at h2
    cases h2

theorem sentRun_of_protocol (h : TxProtocol s c) : SentRun s c := by
  obtain ⟨n, hn⟩ := sentRun_exists s
  rwa [← sentRun_eq h hn]

/-- The flags of the ring as seen from the first descriptor that is not reported. -/
theorem txUsed_after_tail (h : TxProtocol s c) (hk : k < s.tx.cap.toNat) :
    txUsed (readWord s.mem (s.tx.desc ((s.tx.tail.toNat + (c + k)) % s.tx.cap.toNat) + 4))
      = decide (s.tx.count - c ≤ k) := by
  obtain ⟨-, -, htail, -, -, hc, -, hused, -⟩ := h
  have hlt := count_lt htail
  by_cases hwrap : c + k < s.tx.cap.toNat
  · rw [hused _ hwrap, decide_eq_false (by omega : ¬ c + k < c), Bool.false_or]
    exact decide_eq_decide.mpr (by omega)
  · have hidx : (s.tx.tail.toNat + (c + k)) % s.tx.cap.toNat
        = (s.tx.tail.toNat + (c + k - s.tx.cap.toNat)) % s.tx.cap.toNat := by
      rw [← Nat.add_mod_right (s.tx.tail.toNat + (c + k - s.tx.cap.toNat))]
      congr 1
      omega
    rw [hidx, hused _ (by omega), decide_eq_true (by omega : c + k - s.tx.cap.toNat < c), Bool.true_or,
      decide_eq_true (by omega)]

/-- A SERVICE without a transmit error moves TX_TAIL past the sent frames: none is left unreported (R244). -/
theorem txProtocol_reported (h : TxProtocol s c) (hrlex : s.net.isr.rlex = false) (hp : t.params = s.params)
    (htx : t.tx = { s.tx with tail := BitVec.ofNat 16 ((s.tx.tail.toNat + c) % s.tx.cap.toNat) })
    (he : t.net.txen = true) (hm : SameOn s.mem t.mem s.tx.dbase (8 * s.tx.cap.toNat)) : TxProtocol t 0 := by
  have hafter := fun k (hk : k < s.tx.cap.toNat) => txUsed_after_tail h hk
  obtain ⟨h1, h2, h3, h4, h5, h6, h7, -, h9, -, h11⟩ := h
  have hlt : (s.tx.tail.toNat + c) % s.tx.cap.toNat < s.tx.cap.toNat := Nat.mod_lt _ (by omega)
  have htail : t.tx.tail.toNat = (s.tx.tail.toNat + c) % s.tx.cap.toNat := by rw [htx]; exact index_toNat hlt
  have hcap : t.tx.cap = s.tx.cap := by rw [htx]
  have hcount : t.tx.count = s.tx.count - c := by rw [htx]; exact (free_advance h2 h3 h6).1
  have hdesc : ∀ i, t.tx.desc i = s.tx.desc i := fun i => by rw [htx]; rfl
  have hwords := fun i (hi : i < s.tx.cap.toNat) => descWords_congr hi hm
  refine ⟨by rw [hcap]; exact h1, by rw [htx]; exact h2, by rw [htail, hcap]; exact hlt, by rw [htx]; exact h4,
    by rw [htx]; exact h5, Nat.zero_le _, ?_, fun k hk => ?_, fun i hi => ?_, he, fun hc => .inl ?_⟩
  · rw [htail, hcap, Nat.add_zero, Nat.mod_mod, ← h7, htx]
  · rw [hcap] at hk ⊢
    rw [htail, hdesc, Nat.mod_add_mod, Nat.add_assoc, hcount]
    refine (congrArg txUsed (hwords _ (Nat.mod_lt _ (by omega))).2).trans ((hafter k hk).trans ?_)
    rw [decide_eq_false (Nat.not_lt_zero k), Bool.false_or]
  · rw [hcap] at hi
    rw [hdesc, hcap, hp, show t.tx.bbase = s.tx.bbase by rw [htx]]
    exact ⟨(congrArg txWrap (hwords i hi).2).trans (h9 i hi).1, (hwords i hi).1.trans (h9 i hi).2⟩
  · rw [htx]
    exact (h11 (by omega)).resolve_right (by rw [hrlex]; decide)

/-- WRITE hands the descriptor at TX_HEAD to the hardware and starts TXDMA (R221, R222, R471). -/
theorem txProtocol_written {len : Word} {tags : List Half} (h : TxProtocol s c)
    (hroom : s.tx.count ≠ s.tx.cap.toNat - 1) (hlen : len.toNat ≤ 16383) (hp : t.params = s.params)
    (hl : tags.length = s.tx.tags.length)
    (htx : t.tx = { s.tx with
      tags := tags, head := BitVec.ofNat 16 (ringInc s.tx.cap.toNat s.tx.head.toNat), go := true })
    (he : t.net.txen = true) (hmem : t.mem = writeWord m (s.tx.desc s.tx.head.toNat + 4)
      (txWriteWord1 len s.tx.cap.toNat s.tx.head.toNat)) (hwf : Memory.wf m = true)
    (hsame : SameOn s.mem m s.tx.dbase (8 * s.tx.cap.toNat)) : TxProtocol t c := by
  obtain ⟨h1, h2, h3, h4, h5, h6, h7, h8, h9, -, -⟩ := h
  have hlt := count_lt h3
  have hcap16 := s.tx.cap.isLt
  have hinc : ringInc s.tx.cap.toNat s.tx.head.toNat < s.tx.cap.toNat := ringInc_lt (by omega)
  have hhead : t.tx.head.toNat = ringInc s.tx.cap.toNat s.tx.head.toNat := by rw [htx]; exact index_toNat hinc
  have hcap : t.tx.cap = s.tx.cap := by rw [htx]
  have htail : t.tx.tail = s.tx.tail := by rw [htx]
  have hcount : t.tx.count = s.tx.count + 1 := by
    refine count_unique (by rw [hhead, hcap]; exact hinc) (by rw [htail, hcap]; exact h3) (by rw [hcap]; omega) ?_
    rw [htail, hcap, hhead, ringInc, ← tail_add_count h2 h3, Nat.mod_add_mod, Nat.add_assoc]
  have hdesc : ∀ i, t.tx.desc i = s.tx.desc i := fun i => by rw [htx]; rfl
  have hwords : ∀ i, i < s.tx.cap.toNat → readWord t.mem (t.tx.desc i) = readWord s.mem (s.tx.desc i)
      ∧ readWord t.mem (t.tx.desc i + 4) = if i = s.tx.head.toNat
        then txWriteWord1 len s.tx.cap.toNat s.tx.head.toNat else readWord s.mem (s.tx.desc i + 4) := fun i hi => by
    rw [hmem, hdesc]
    exact descWords_written hwf hsame hcap16 h2 hi
  refine ⟨by rw [hcap]; exact h1, by rw [hhead, hcap]; exact hinc, by rw [htail, hcap]; exact h3,
    by rw [htx]; exact hl.trans h4, by rw [htx]; exact h5, by omega, by rw [htail, hcap, ← h7, htx], fun k hk => ?_,
    fun i hi => ?_, he, fun _ => .inl (by rw [htx])⟩
  · rw [hcap] at hk
    rw [htail, hcap, hcount, (hwords _ (Nat.mod_lt _ (by omega))).2]
    by_cases hk' : k = s.tx.count
    · rw [if_pos (by rw [hk']; exact tail_add_count h2 h3), (txWriteWord1_fields hlen _ _).1,
        decide_eq_false (by omega), decide_eq_false (by omega)]
      rfl
    · have hne : (s.tx.tail.toNat + k) % s.tx.cap.toNat ≠ s.tx.head.toNat := fun heq =>
        hk' (ring_offset_unique hk hlt (heq.trans (tail_add_count h2 h3).symm))
      rw [if_neg hne]
      refine (h8 k hk).trans (congrArg (decide (k < c) || ·) (decide_eq_decide.mpr (by omega)))
  · rw [hcap] at hi ⊢
    rw [(hwords i hi).1, (hwords i hi).2, hp, show t.tx.bbase = s.tx.bbase by rw [htx]]
    refine ⟨?_, (h9 i hi).2⟩
    split
    · next hi => rw [hi]; exact (txWriteWord1_fields hlen _ _).2
    · exact (h9 i hi).1

/-- TXDMA sends the next frame: the descriptor becomes software's, TXPTR goes on (R272, R273). -/
theorem txProtocol_sent (h : TxProtocol s c) (hc : c < s.tx.count) (hwf : Memory.wf s.mem = true)
    (hp : t.params = s.params) (hgo : s.tx.go = true)
    (htx : t.tx = { s.tx with ptr := nextPtr (txWrap (readWord s.mem (s.tx.desc s.tx.ptr.toNat + 4))) s.tx.ptr })
    (he : t.net.txen = true) (hmem : t.mem = writeWord s.mem (s.tx.desc s.tx.ptr.toNat + 4)
      (readWord s.mem (s.tx.desc s.tx.ptr.toNat + 4) ||| 0x80000000)) : TxProtocol t (c + 1) := by
  obtain ⟨h1, h2, h3, h4, h5, h6, h7, h8, h9, -, -⟩ := h
  have hlt := count_lt h3
  have hcap16 := s.tx.cap.isLt
  have hptr : s.tx.ptr.toNat < s.tx.cap.toNat := by rw [h7]; exact Nat.mod_lt _ (by omega)
  have hcap : t.tx.cap = s.tx.cap := by rw [htx]
  have htail : t.tx.tail = s.tx.tail := by rw [htx]
  have hcount : t.tx.count = s.tx.count := by rw [htx]; rfl
  have hdesc : ∀ i, t.tx.desc i = s.tx.desc i := fun i => by rw [htx]; rfl
  have hwords : ∀ i, i < s.tx.cap.toNat → readWord t.mem (t.tx.desc i) = readWord s.mem (s.tx.desc i)
      ∧ readWord t.mem (t.tx.desc i + 4) = if i = s.tx.ptr.toNat
        then readWord s.mem (s.tx.desc s.tx.ptr.toNat + 4) ||| 0x80000000
        else readWord s.mem (s.tx.desc i + 4) := fun i hi => by
    rw [hmem, hdesc]
    exact descWords_written hwf sameOn_refl hcap16 hptr hi
  refine ⟨by rw [hcap]; exact h1, by rw [htx]; exact h2, by rw [htail, hcap]; exact h3, by rw [htx]; exact h4,
    by rw [htx]; exact h5, by omega, ?_, fun k hk => ?_, fun i hi => ?_, he, fun _ => .inl (by rw [htx]; exact hgo)⟩
  · rw [htail, hcap, htx]
    dsimp only
    rw [(h9 _ hptr).1, nextPtr_toNat hptr, ringInc, h7, Nat.mod_add_mod, Nat.add_assoc]
  · rw [hcap] at hk
    rw [htail, hcap, hcount, (hwords _ (Nat.mod_lt _ (by omega))).2]
    by_cases hk' : k = c
    · rw [if_pos (by rw [hk', h7]), (txSentWord_fields _).1, decide_eq_true (by omega)]
      rfl
    · have hne : (s.tx.tail.toNat + k) % s.tx.cap.toNat ≠ s.tx.ptr.toNat := fun heq =>
        hk' (ring_offset_unique hk (by omega) (heq.trans h7))
      rw [if_neg hne]
      exact (h8 k hk).trans (congrArg (· || decide (s.tx.count ≤ k)) (decide_eq_decide.mpr (by omega)))
  · rw [hcap] at hi ⊢
    rw [(hwords i hi).1, (hwords i hi).2, hp, show t.tx.bbase = s.tx.bbase by rw [htx]]
    refine ⟨?_, (h9 i hi).2⟩
    split
    · next hi => rw [hi]; exact (txSentWord_fields _).2.trans (h9 _ hptr).1
    · exact (h9 i hi).1

/-- TXDMA stops, at a failed attempt or with nothing to send: every flag of the protocol stays (R272). -/
theorem txProtocol_stopped (h : TxProtocol s c) (hp : t.params = s.params) (htx : t.tx = { s.tx with go := false })
    (he : t.net.txen = s.net.txen) (hl : c < s.tx.count → t.net.isr.rlex = true)
    (hw : ∀ i, i < s.tx.cap.toNat → readWord t.mem (s.tx.desc i) = readWord s.mem (s.tx.desc i)
      ∧ txUsed (readWord t.mem (s.tx.desc i + 4)) = txUsed (readWord s.mem (s.tx.desc i + 4))
      ∧ txWrap (readWord t.mem (s.tx.desc i + 4)) = txWrap (readWord s.mem (s.tx.desc i + 4))) : TxProtocol t c := by
  obtain ⟨h1, h2, h3, h4, h5, h6, h7, h8, h9, h10, -⟩ := h
  unfold TxProtocol
  rw [htx, hp, he]
  refine ⟨h1, h2, h3, h4, h5, h6, h7, fun k hk => ?_, fun i hi => ⟨?_, ?_⟩, h10, fun hc => .inr (hl hc)⟩
  · exact (hw _ (Nat.mod_lt _ (by omega))).2.1.trans (h8 k hk)
  · exact (hw i hi).2.2.trans (h9 i hi).1
  · exact (hw i hi).1.trans (h9 i hi).2

end Sys2Proof.Machine
end

section
/-! PROOF. The ownership protocol through every step that HOST's duties allow (10_state.md R79, 20_memory.md R102, R114,
41_dma_agents.md R273, 70_reset_and_hazards.md R471, R481). One part for each agent and command that touches a ring;
each finds its accesses valid by the layout, computes the state they leave, and cites the rule of that state. -/

namespace Sys2Proof.Machine

variable {s t u : State} {m : List Host.Cell} {c i : Nat}

/-! ### The two clauses of the protocol -/

/-- Both rings are as the protocol has them, in regions that HOST reserved. -/
def RingsHold (s : State) : Prop := reservable s.params s.ringRegions = true ∧ RxLayout s ∧ ∃ c, TxProtocol s c

/-- The protocol's clause of the rings: after INIT, and while no fault has stopped the block. -/
def RingsKept (s : State) : Prop := s.eng.fault = false → s.eng.initDone = true → RingsHold s

/-- The protocol's clause of the pending command: HOST issued it with legal operands. -/
def PendObeys (s : State) : Prop := ∀ p, s.cmd.pend = some p → commandObeys s p.word p.args = true

theorem ringProtocol_iff (s : State) : RingProtocol s ↔ (s.eng.fault = false → PendObeys s) ∧ RingsKept s :=
  ⟨fun h => ⟨fun hf => (h hf).1, fun hf => (h hf).2⟩, fun h hf => ⟨h.1 hf, h.2 hf⟩⟩

theorem ringsKept_takeBusFault {src : FaultSource} {op : Byte} {a : Word} : RingsKept (s.takeBusFault src op a) :=
  fun hf => Bool.noConfusion hf

/-- Both rings stay as they are when their registers stay, RLEX is not cleared and no byte of an array changes. -/
theorem ringsHold_congr (h : RingsHold s) (hp : t.params = s.params) (hrx : t.rx = s.rx) (htx : t.tx = s.tx)
    (he : t.net.txen = s.net.txen) (hl : s.net.isr.rlex = true → t.net.isr.rlex = true)
    (hmr : SameOn s.mem t.mem s.rx.dbase (8 * s.rx.cap.toNat))
    (hmt : SameOn s.mem t.mem s.tx.dbase (8 * s.tx.cap.toNat)) : RingsHold t := by
  obtain ⟨hres, hlay, c, hc⟩ := h
  obtain ⟨-, htail, hptr, -⟩ := id hlay
  refine ⟨by rw [State.ringRegions, State.descArrays, hrx, htx, hp]; exact hres, ?_, c, ?_⟩
  · exact rxLayout_congr hlay hp (by rw [hrx]) (by rw [hrx]) (by rw [hrx]) (by rw [hrx]) (by rw [hrx]; exact htail)
      (by rw [hrx]; exact hptr) hmr
  · exact txProtocol_congr hc hp htx he hl hmt

/-- A memory in which no byte of either array changed leaves both rings as they are. -/
theorem ringsHold_withMem (h : RingsHold s) (hmr : SameOn s.mem m s.rx.dbase (8 * s.rx.cap.toNat))
    (hmt : SameOn s.mem m s.tx.dbase (8 * s.tx.cap.toNat)) : RingsHold (s.withMem m) :=
  ringsHold_congr h rfl rfl rfl rfl id hmr hmt

/-! ### What the regions give -/

theorem apart_descArrays {a : Word} {n : Nat} (h : avoids s.descArrays a n = true) :
    Apart s.rx.dbase (8 * s.rx.cap.toNat) a n ∧ Apart s.tx.dbase (8 * s.tx.cap.toNat) a n :=
  ⟨apart_of_avoids h (r := (s.rx.dbase, 8 * s.rx.cap.toNat)) (by simp [State.descArrays]),
    apart_of_avoids h (r := (s.tx.dbase, 8 * s.tx.cap.toNat)) (by simp [State.descArrays])⟩

theorem apart_ringRegions {a : Word} {n : Nat} (h : avoids s.ringRegions a n = true) :
    Apart s.rx.dbase (8 * s.rx.cap.toNat) a n ∧ Apart s.tx.dbase (8 * s.tx.cap.toNat) a n := by
  rw [avoids, State.ringRegions, List.all_append, Bool.and_eq_true] at h
  exact apart_descArrays h.1

/-- One buffer of an area lies inside the area. -/
theorem buffer_inside {cap unit i n : Nat} (hi : i < cap) (hn : n ≤ unit) : i * unit + n ≤ cap * unit :=
  calc i * unit + n ≤ i * unit + unit := by omega
    _ = (i + 1) * unit := (Nat.succ_mul i unit).symm
    _ ≤ cap * unit := Nat.mul_le_mul_right unit hi

/-- A receive buffer can be accessed, and lies apart from both arrays. -/
theorem rxBuffer_facts (h : reservable s.params s.ringRegions = true) {n : Nat} (hi : i < s.rx.cap.toNat)
    (hn : n ≤ s.params.rxUnit) :
    AccessValid s.params (bufferAddr s.rx.bbase s.params.rxUnit i) n
      ∧ Apart s.rx.dbase (8 * s.rx.cap.toNat) (bufferAddr s.rx.bbase s.params.rxUnit i) n
      ∧ Apart s.tx.dbase (8 * s.tx.cap.toNat) (bufferAddr s.rx.bbase s.params.rxUnit i) n := by
  obtain ⟨-, -, -, -, -, -, -, hapart⟩ := ringRegions_facts h
  have hin := buffer_inside hi hn
  have hv := ((reservable_facts h).1 (s.rx.bbase, s.rx.cap.toNat * s.params.rxUnit) (by simp [State.ringRegions])).2
  exact ⟨hv.sub hin,
    (hapart (s.rx.dbase, 8 * s.rx.cap.toNat) (by simp [State.descArrays])).1.sub_right hin,
    (hapart (s.tx.dbase, 8 * s.tx.cap.toNat) (by simp [State.descArrays])).1.sub_right hin⟩

/-- A transmit buffer lies apart from both arrays. -/
theorem txBuffer_apart (h : reservable s.params s.ringRegions = true) {n : Nat} (hi : i < s.tx.cap.toNat)
    (hn : n ≤ s.params.txUnit) :
    Apart s.rx.dbase (8 * s.rx.cap.toNat) (bufferAddr s.tx.bbase s.params.txUnit i) n
      ∧ Apart s.tx.dbase (8 * s.tx.cap.toNat) (bufferAddr s.tx.bbase s.params.txUnit i) n := by
  obtain ⟨-, -, -, -, -, -, -, hapart⟩ := ringRegions_facts h
  have hin := buffer_inside hi hn
  exact ⟨(hapart (s.rx.dbase, 8 * s.rx.cap.toNat) (by simp [State.descArrays])).2.sub_right hin,
    (hapart (s.tx.dbase, 8 * s.tx.cap.toNat) (by simp [State.descArrays])).2.sub_right hin⟩

/-- The units that R9 allows (00_scope.md R9). -/
theorem units_legal {p : Params} (h : p.wf = true) : p.rxUnit % 4 = 0 ∧ p.txUnit ≤ 16383 := by
  simp only [Params.wf, Bool.and_eq_true, beq_iff_eq, decide_eq_true_eq] at h
  tauto

/-! ### INIT (R203, R205) -/

/-- INIT with legal capacities and bases, in regions that can be accessed: it ends, and but for the descriptors it wrote
the state is the one of R203. -/
theorem initBody_ok {rc tc rd td rb tb : Word} (hc : initCapsBad s.params rc tc = false)
    (hb : initBasesBad rd td rb tb = false) (hr : AccessValid s.params rd (8 * rc.toNat))
    (ht : AccessValid s.params td (8 * tc.toNat)) :
    initBody rc tc rd td rb tb s = .ok (.ok, Results.zero) (((s.initStart rc tc rd td rb tb).withMem
      (initCells td (bufferAddr tb s.params.txUnit) (txInitWord1 (tc.setWidth 16).toNat) 0 tc.toNat
        (initCells rd (rxInitWord0 rb s.params.rxUnit (rc.setWidth 16).toNat) (fun _ => 0) 0 rc.toNat
          s.mem))).initFinish rc tc rd td rb tb) := by
  have hrx := forRange_rxDescInit_ok (s := s.initStart rc tc rd td rb tb) (i := 0) (n := rc.toNat)
    fun k _ hk => hr.sub (k := 8 * k) (by omega)
  have htx := forRange_txDescInit_ok (i := 0) (n := tc.toNat) (s := (s.initStart rc tc rd td rb tb).withMem
    (initCells rd (rxInitWord0 rb s.params.rxUnit (rc.setWidth 16).toNat) (fun _ => 0) 0 rc.toNat s.mem))
    fun k _ hk => ht.sub (k := 8 * k) (by omega)
  unfold initBody
  rw [Op.current_bind, hc, hb]
  exact (Op.bind_ok _ hrx).trans (Op.bind_ok _ htx)

/-- INIT in regions that HOST reserved establishes the protocol. -/
theorem ringsKept_initBody {rc tc rd td rb tb : Word} (hwf : s.params.wf = true) (hm : Memory.wf s.mem = true)
    (h : RingsKept s) (hres : reservable s.params [(rd, 8 * rc.toNat), (td, 8 * tc.toNat),
      (rb, rc.toNat * s.params.rxUnit), (tb, tc.toNat * s.params.txUnit)] = true) :
    RingsKept (Op.final (initBody rc tc rd td rb tb s)) := by
  cases hc : initCapsBad s.params rc tc with
  | true => unfold initBody; rw [Op.current_bind, hc]; exact h
  | false =>
  cases hb : initBasesBad rd td rb tb with
  | true => unfold initBody; rw [Op.current_bind, hc, hb]; exact h
  | false =>
  obtain ⟨⟨hr2, -, hre⟩, ht2, -, hte⟩ := initCaps_legal hwf hc
  obtain ⟨hvalid, hpair⟩ := reservable_facts hres
  have hvr : AccessValid s.params rd (8 * rc.toNat) := (hvalid (rd, 8 * rc.toNat) (by simp)).2
  have hvt : AccessValid s.params td (8 * tc.toNat) := (hvalid (td, 8 * tc.toNat) (by simp)).2
  have hapart : Apart rd (8 * rc.toNat) td (8 * tc.toNat) :=
    (List.pairwise_cons.mp hpair).1 (td, 8 * tc.toNat) (by simp)
  have hr16 : rc.toNat < 65536 := hre ▸ (rc.setWidth 16).isLt
  have ht16 : tc.toNat < 65536 := hte ▸ (tc.setWidth 16).isLt
  rw [initBody_ok hc hb hvr hvt, Op.final_ok]
  intro _ _
  generalize hm1 : initCells rd (rxInitWord0 rb s.params.rxUnit (rc.setWidth 16).toNat) (fun _ => 0) 0 rc.toNat s.mem
    = m1
  have hwf1 : Memory.wf m1 = true := hm1 ▸ initCells_wf hm
  generalize hm2 : initCells td (bufferAddr tb s.params.txUnit) (txInitWord1 (tc.setWidth 16).toNat) 0 tc.toNat m1 = m2
  have hsame : SameOn m1 m2 rd (8 * rc.toNat) := hm2 ▸ sameOn_initCells hapart
  have hrw : ∀ i, i < rc.toNat → readWord m2 (descAddr rd i)
      = rxInitWord0 rb s.params.rxUnit (rc.setWidth 16).toNat i :=
    fun i hi => (descWords_congr hi hsame).1.trans (hm1 ▸ (initCells_words hm (by omega) (Nat.zero_le i) (by omega)).1)
  have htw : ∀ i, i < tc.toNat → readWord m2 (descAddr td i) = bufferAddr tb s.params.txUnit i
      ∧ readWord m2 (descAddr td i + 4) = txInitWord1 (tc.setWidth 16).toNat i :=
    fun i hi => hm2 ▸ initCells_words hwf1 (by omega) (Nat.zero_le i) (by omega)
  refine ⟨?_, ?_, 0, ?_⟩
  · change reservable s.params [(rd, 8 * (rc.setWidth 16).toNat), (td, 8 * (tc.setWidth 16).toNat),
      (rb, (rc.setWidth 16).toNat * s.params.rxUnit), (tb, (tc.setWidth 16).toNat * s.params.txUnit)] = true
    rw [hre, hte]; exact hres
  · exact rxLayout_of_init (hr2.trans_eq hre.symm) rfl rfl rfl fun i hi => hrw i (hi.trans_eq hre)
  · exact txProtocol_of_init (ht2.trans_eq hte.symm) rfl rfl rfl (List.length_replicate.trans hte.symm) rfl rfl
      fun i hi => htw i (hi.trans_eq hte)

/-! ### READ (R206, R211) -/

/-- What holds while READ runs from `s`: RX_TAIL moves inside the ring, releases leave WRAP and ADDR, and the bytes of
the transmit array stay. -/
def Reading (s u : State) : Prop :=
  (u.params = s.params ∧ u.tx = s.tx ∧ u.net = s.net ∧ u.eng = s.eng)
    ∧ (∃ i, i < s.rx.cap.toNat ∧ u.rx = { s.rx with tail := BitVec.ofNat 16 i })
    ∧ Memory.wf u.mem = true
    ∧ (∀ i, i < s.rx.cap.toNat →
        readWord u.mem (s.rx.desc i) &&& 0xFFFFFFFE = readWord s.mem (s.rx.desc i) &&& 0xFFFFFFFE)
    ∧ SameOn s.mem u.mem s.tx.dbase (8 * s.tx.cap.toNat)

theorem Reading.withMem (h : Reading s u) (hwf : Memory.wf m = true)
    (hw : ∀ i, i < s.rx.cap.toNat →
      readWord m (s.rx.desc i) &&& 0xFFFFFFFE = readWord u.mem (s.rx.desc i) &&& 0xFFFFFFFE)
    (hm : SameOn u.mem m s.tx.dbase (8 * s.tx.cap.toNat)) : Reading s (u.withMem m) := by
  obtain ⟨h1, h2, -, h4, h5⟩ := h
  exact ⟨h1, h2, hwf, fun i hi => (hw i hi).trans (h4 i hi), h5.trans hm⟩

theorem Reading.rings (h : Reading s u) (hs : RingsHold s) : RingsHold u := by
  obtain ⟨⟨hp, htx, hnet, -⟩, ⟨i, hi, hrx⟩, -, hw, hm⟩ := h
  obtain ⟨hres, hlay, c, hc⟩ := hs
  obtain ⟨-, -, hptr, -⟩ := id hlay
  refine ⟨by rw [State.ringRegions, State.descArrays, hrx, htx, hp]; exact hres, ?_, c, ?_⟩
  · exact rxLayout_of_words hlay hp (by rw [hrx]) (by rw [hrx]) (by rw [hrx]) (by rw [hrx])
      (by rw [hrx]; exact (index_toNat hi).trans_lt hi) (by rw [hrx]; exact hptr) hw
  · exact txProtocol_congr hc hp htx (by rw [hnet]) (fun h => by rw [hnet]; exact h) hm

theorem reading_releaseDesc (ha : ArraysApart s) {p : Nat} (hp : p < s.rx.cap.toNat) :
    Op.Preserves (Reading s) (releaseDesc p) := by
  refine preserves_current_bind fun u hu => ?_
  obtain ⟨-, ⟨j, -, hrx⟩, hwf, -⟩ := id hu
  have hdesc : u.rx.desc p = s.rx.desc p := by rw [hrx]; rfl
  have hcap := s.rx.cap.isLt
  rcases memRead32_cases u (u.rx.desc p) with ⟨_, h1⟩ | ⟨x, _, h1⟩
  · rw [Op.bind_ok _ h1]
    rcases memWrite32_cases u (u.rx.desc p) (readWord u.mem (u.rx.desc p) &&& 0xFFFFFFFE) with ⟨_, h2⟩ | ⟨x, _, h2⟩
    · rw [h2, hdesc]
      refine hu.withMem (writeWord_wf hwf) (fun i hi => ?_) (sameOn_writeWord (ha.desc hp).first_word.symm)
      refine (congrArg (· &&& 0xFFFFFFFE) (readWord_writeFirst hwf (by omega) (by omega))).trans ?_
      split
      · next he => rw [he]; exact clearOwn_masked _
      · rfl
    · rw [h2]; exact hu
  · rw [Op.bind_error _ h1]; exact hu

theorem reading_releaseRun (ha : ArraysApart s) : ∀ n p, p < s.rx.cap.toNat → Op.Preserves (Reading s) (releaseRun p n)
  | 0, _, _ => preserves_pure ()
  | n + 1, p, hp => by
    refine preserves_bind (reading_releaseDesc ha hp) fun _ => preserves_current_bind fun u hu => ?_
    obtain ⟨-, ⟨j, -, hrx⟩, -⟩ := id hu
    rw [hrx]
    exact reading_releaseRun ha n _ (ringInc_lt (Nat.lt_of_le_of_lt (Nat.zero_le p) hp)) u hu

theorem reading_setRxTail {i : Nat} (hi : i < s.rx.cap.toNat) : Op.Preserves (Reading s) (setRxTail i) := by
  refine preserves_update fun u hu => ?_
  obtain ⟨h1, ⟨j, -, hrx⟩, h3⟩ := hu
  exact ⟨h1, ⟨i, hi, by rw [State.withRx_rx, hrx]⟩, h3⟩

/-- Where a SOF leaves the scan: at places inside the ring. -/
theorem reading_scanSof (ha : ArraysApart s) (w1 : Word) {sc : Scan} (ht : sc.t < s.rx.cap.toNat)
    (hp : sc.p < s.rx.cap.toNat) : Op.Preserves (Reading s) (scanSof w1 sc)
      ∧ ∀ u v sc', scanSof w1 sc u = .ok sc' v → sc'.t < s.rx.cap.toNat ∧ sc'.p < s.rx.cap.toNat := by
  unfold scanSof
  split
  · refine ⟨preserves_bind (reading_releaseRun ha _ _ ht) fun _ => preserves_pure _, fun u v sc' h => ?_⟩
    obtain ⟨_, _, _, h2⟩ := Op.bind_eq_ok h
    cases h2
    exact ⟨hp, hp⟩
  · refine ⟨preserves_pure _, fun u v sc' h => ?_⟩
    cases h
    exact ⟨ht, hp⟩

/-- A copy to a destination that avoids the ring regions touches neither array. -/
theorem reading_copy {dest src : Word} {maxLen k n : Nat} (hd : avoids s.ringRegions dest maxLen = true)
    (hn : n ≤ maxLen - k) : Op.Preserves (Reading s) (copy (dest + BitVec.ofNat 32 k) src n) := by
  obtain ⟨hr, ht⟩ := apart_ringRegions hd
  refine preserves_copy fun u j b hj hu => ?_
  obtain ⟨-, -, hwf, -⟩ := id hu
  rw [BitVec.add_assoc, ← BitVec.ofNat_add]
  refine hu.withMem (writeCell_wf hwf (BitVec.isLt _)) (fun i hi => ?_)
    (sameOn_writeCell (ht.sub_right (by omega)))
  exact congrArg (· &&& 0xFFFFFFFE) (descWords_congr hi (sameOn_writeCell (hr.sub_right (by omega)))).1

theorem reading_readScan (ha : ArraysApart s) {dest : Word} {maxLen : Nat}
    (hd : avoids s.ringRegions dest maxLen = true) :
    ∀ k sc, sc.t < s.rx.cap.toNat → sc.p < s.rx.cap.toNat →
      Op.Preserves (Reading s) (readScan dest maxLen s.rx.cap.toNat k sc) := by
  intro k
  induction k with
  | zero =>
    intro sc ht _
    exact preserves_bind (reading_releaseRun ha _ _ ht) fun _ =>
      preserves_bind (reading_setRxTail (Nat.mod_lt _ (by omega))) fun _ => preserves_pure _
  | succ k ih =>
    intro sc ht hp
    have hinc : ∀ p, ringInc s.rx.cap.toNat p < s.rx.cap.toNat := fun p => ringInc_lt (by omega)
    rw [readScan]
    refine preserves_current_bind fun u hu => preserves_bind (preserves_memRead32 _) (fun w0 => ?_) u hu
    split
    · exact preserves_bind (reading_setRxTail ht) fun _ => preserves_pure _
    refine preserves_bind (preserves_memRead32 _) fun w1 => ?_
    obtain ⟨hsof, hplaces⟩ := reading_scanSof ha w1 ht hp
    refine preserves_bind_from hsof fun sc' v z hr => ?_
    obtain ⟨ht', hp'⟩ := hplaces v z sc' hr
    split
    · exact preserves_bind (reading_releaseRun ha _ _ hp') fun _ => ih _ (hinc _) (hinc _)
    · refine preserves_bind (reading_copy hd (Nat.min_le_right _ _)) fun _ => ?_
      split
      · exact preserves_bind (reading_releaseRun ha _ _ ht') fun _ =>
          preserves_bind (reading_setRxTail (hinc _)) fun _ => preserves_pure _
      · exact ih _ ht' (hinc _)

theorem ringsKept_readBody {dest maxLen : Word} (hm : Memory.wf s.mem = true) (hf : s.eng.fault = false)
    (h : RingsKept s) (hd : avoids s.ringRegions dest maxLen.toNat = true) :
    RingsKept (Op.final (readBody dest maxLen s)) := by
  unfold readBody
  rw [Op.current_bind]
  split
  · exact h
  next hdone =>
  split
  · exact h
  have hs := h hf (by simpa using hdone)
  obtain ⟨-, -, -, -, -, -, ha, -⟩ := ringRegions_facts hs.1
  obtain ⟨-, ⟨-, htail, -⟩, -⟩ := id hs
  have hrx : s.rx = { s.rx with tail := BitVec.ofNat 16 s.rx.tail.toNat } := by
    rw [BitVec.ofNat_toNat, BitVec.setWidth_eq]
  have h0 : Reading s s := ⟨⟨rfl, rfl, rfl, rfl⟩, ⟨s.rx.tail.toNat, htail, hrx⟩, hm, fun _ _ => rfl, sameOn_refl⟩
  exact fun _ _ => (reading_readScan ha hd _ _ htail htail s h0).rings hs

/-! ### WRITE (R221, R222) -/

/-- What a copy into places apart from both arrays leaves, ended or faulted: memory alone changes, and no array's. -/
theorem copy_final {dst src : Word} {n : Nat} (hm : Memory.wf s.mem = true)
    (hr : Apart s.rx.dbase (8 * s.rx.cap.toNat) dst n) (ht : Apart s.tx.dbase (8 * s.tx.cap.toNat) dst n) :
    ∃ m, Op.final (copy dst src n s) = s.withMem m ∧ Memory.wf m = true
      ∧ SameOn s.mem m s.rx.dbase (8 * s.rx.cap.toNat) ∧ SameOn s.mem m s.tx.dbase (8 * s.tx.cap.toNat) := by
  refine preserves_copy (I := fun u => ∃ m, u = s.withMem m ∧ Memory.wf m = true
      ∧ SameOn s.mem m s.rx.dbase (8 * s.rx.cap.toNat) ∧ SameOn s.mem m s.tx.dbase (8 * s.tx.cap.toNat))
    (fun u j b hj hu => ?_) s ⟨s.mem, rfl, hm, sameOn_refl, sameOn_refl⟩
  obtain ⟨m, rfl, hwf, hsr, hst⟩ := hu
  exact ⟨_, rfl, writeCell_wf hwf (BitVec.isLt _), hsr.trans (sameOn_writeCell (hr.sub_right (by omega))),
    hst.trans (sameOn_writeCell (ht.sub_right (by omega)))⟩

theorem tstart_of_txen (h : s.net.txen = true) : s.tstart = s.withTx { s.tx with go := true } := by
  rw [State.tstart, if_pos h]

/-- WRITE after its checks, when its descriptor can be accessed and the copy ends. -/
theorem writeFill_ok {src len : Word} {tag : Half} {h : Nat} (hv : AccessValid s.params (s.tx.desc h) 8)
    (htxen : s.net.txen = true)
    (hcopy : copy (readWord s.mem (s.tx.desc h)) src len.toNat s = .ok () (s.withMem m)) :
    writeFill src len tag h s = .ok (.ok, ⟨BitVec.ofNat 32 h, 0, 0, 0⟩) { s with
      mem := writeWord m (s.tx.desc h + 4) (txWriteWord1 len s.tx.cap.toNat h)
      tx := { s.tx with
        tags := s.tx.tags.set h tag, head := BitVec.ofNat 16 (ringInc s.tx.cap.toNat h), go := true } } := by
  unfold writeFill
  rw [Op.current_bind, Op.bind_ok _ (memRead32_ok hv.first)]
  refine (Op.bind_ok _ hcopy).trans ?_
  rw [Op.update_bind]
  refine (Op.bind_ok _ (memWrite32_ok (s := (s.withMem m).withTx { s.tx with tags := s.tx.tags.set h tag })
    hv.second)).trans ?_
  rw [Op.update_bind, Op.update_bind]
  exact congrArg (EStateM.Result.ok _) (tstart_of_txen htxen)

/-- WRITE of a frame that fits, with room in the ring. -/
theorem ringsHold_writeFill {src len : Word} {tag : Half} (hwf : s.params.wf = true) (hm : Memory.wf s.mem = true)
    (hs : RingsHold s) (hlen : len.toNat ≤ s.params.txUnit) (hroom : s.tx.count ≠ s.tx.cap.toNat - 1) :
    RingsHold (Op.final (writeFill src len tag s.tx.head.toNat s)) := by
  obtain ⟨-, -, -, -, -, hvalid, ha, -⟩ := ringRegions_facts hs.1
  obtain ⟨hres, hlay, c, hc⟩ := id hs
  obtain ⟨-, hhead, -, -, -, -, -, -, hwords, htxen, -⟩ := id hc
  obtain ⟨-, htail, hptr, -⟩ := id hlay
  have hbuf : readWord s.mem (s.tx.desc s.tx.head.toNat) = bufferAddr s.tx.bbase s.params.txUnit s.tx.head.toNat :=
    (hwords _ hhead).2
  obtain ⟨hbr, hbt⟩ := txBuffer_apart hres hhead hlen
  obtain ⟨m, hfin, hmwf, hsr, hst⟩ := copy_final (src := src) hm hbr hbt
  rw [← hbuf] at hfin
  cases hcopy : copy (readWord s.mem (s.tx.desc s.tx.head.toNat)) src len.toNat s with
  | error e u =>
    rw [hcopy] at hfin
    obtain rfl : u = s.withMem m := hfin
    unfold writeFill
    rw [Op.current_bind, Op.bind_ok _ (memRead32_ok (hvalid _ hhead).first), Op.bind_error _ hcopy]
    exact ringsHold_withMem hs hsr hst
  | ok r u =>
    rw [hcopy] at hfin
    obtain rfl : u = s.withMem m := hfin
    rw [writeFill_ok (hvalid _ hhead) htxen hcopy, Op.final_ok]
    have hsr' := hsr.trans (sameOn_writeWord (v := txWriteWord1 len s.tx.cap.toNat s.tx.head.toNat)
      (ha.symm.desc hhead).second_word.symm)
    refine ⟨hres, rxLayout_congr hlay rfl rfl rfl rfl rfl htail hptr hsr', c, ?_⟩
    exact txProtocol_written (tags := s.tx.tags.set s.tx.head.toNat tag) hc hroom
      (Nat.le_trans hlen (units_legal hwf).2) rfl List.length_set rfl htxen rfl hmwf hst

theorem ringsKept_writeBody {src len : Word} {tag : Half} (hwf : s.params.wf = true) (hm : Memory.wf s.mem = true)
    (hf : s.eng.fault = false) (h : RingsKept s) : RingsKept (Op.final (writeBody src len tag s)) := by
  unfold writeBody
  rw [Op.current_bind]
  split
  · exact h
  next hdone =>
  split
  · exact h
  next hsize =>
  split
  · exact h
  next hroom =>
  exact fun _ _ => ringsHold_writeFill hwf hm (h hf (by simpa using hdone)) (by omega) hroom

/-! ### SERVICE (R241 to R247) -/

theorem rxResetMem_wf (hm : Memory.wf s.mem = true) : Memory.wf s.rxResetMem = true := by
  unfold State.rxResetMem
  split
  · exact initCells_wf hm
  · exact hm

/-- The receive ring reset leaves the transmit array alone, and the transmit ring reset the receive array (R102). -/
theorem sameOn_resets (ha : ArraysApart s) :
    SameOn s.mem s.rxResetMem s.tx.dbase (8 * s.tx.cap.toNat)
      ∧ SameOn s.rxResetMem s.servicedMem s.rx.dbase (8 * s.rx.cap.toNat) := by
  unfold State.servicedMem
  constructor
  · unfold State.rxResetMem
    split
    · exact sameOn_initCells ha.symm
    · exact sameOn_refl
  · split
    · exact sameOn_initCells ha
    · exact sameOn_refl

theorem rxLayout_serviced (hm : Memory.wf s.mem = true) (h : RxLayout s) (ha : ArraysApart s) (n : Nat) :
    RxLayout (s.serviced n) := by
  obtain ⟨hcap, htail, hptr, -⟩ := id h
  have hlt := s.rx.cap.isLt
  have hsame := (sameOn_resets ha).2
  cases he : rxError s.net.isr s.net.rsr with
  | false =>
    have hrx : (s.serviced n).rx = s.rx := by simp only [State.serviced, he, Bool.false_eq_true, if_false]
    have hmem : s.rxResetMem = s.mem := by simp only [State.rxResetMem, he, Bool.false_eq_true, if_false]
    rw [hmem] at hsame
    exact rxLayout_congr h rfl (by rw [hrx]) (by rw [hrx]) (by rw [hrx]) (by rw [hrx]) (by rw [hrx]; exact htail)
      (by rw [hrx]; exact hptr) hsame
  | true =>
    have hrx : (s.serviced n).rx = { s.rx with tail := 0, ptr := 0, qbase := s.rx.dbase, dma := .idle } := by
      simp only [State.serviced, he, if_true]
    have hmem : s.rxResetMem = initCells s.rx.dbase (rxInitWord0 s.rx.bbase s.params.rxUnit s.rx.cap.toNat)
        (fun _ => 0) 0 s.rx.cap.toNat s.mem := by simp only [State.rxResetMem, he, if_true]
    refine rxLayout_of_init (by rw [hrx]; exact hcap) (by rw [hrx]) (by rw [hrx]) (by rw [hrx]) fun i hi => ?_
    rw [hrx] at hi ⊢
    have hi : i < s.rx.cap.toNat := hi
    refine (descWords_congr hi hsame).1.trans ?_
    rw [hmem]
    exact (initCells_words hm (by omega) (Nat.zero_le i) (by omega)).1

theorem txProtocol_serviced (hm : Memory.wf s.mem = true) (h : TxProtocol s c) (ha : ArraysApart s) :
    TxProtocol (s.serviced c) 0 := by
  obtain ⟨hcap, -, -, hl, -, -, -, -, -, htxen, -⟩ := id h
  have hlt := s.tx.cap.isLt
  have hen : (s.serviced c).net.txen = true := by simp only [State.serviced, htxen, Bool.true_or]
  cases he : txError s.net.isr s.net.tsr with
  | false =>
    have htx : (s.serviced c).tx
        = { s.tx with tail := BitVec.ofNat 16 ((s.tx.tail.toNat + c) % s.tx.cap.toNat) } := by
      simp only [State.serviced, he, Bool.false_eq_true, if_false]
    have hmem : (s.serviced c).mem = s.rxResetMem := by
      simp only [State.serviced, State.servicedMem, he, Bool.false_eq_true, if_false]
    have hrlex : s.net.isr.rlex = false := (Bool.or_eq_false_iff.mp he).1
    exact txProtocol_reported h hrlex rfl htx hen (by rw [hmem]; exact (sameOn_resets ha).1)
  | true =>
    have htx : (s.serviced c).tx = { s.tx with
        head := 0, tail := 0, ptr := 0, qbase := s.tx.dbase, go := false
        tags := List.replicate s.tx.cap.toNat 0 } := by
      simp only [State.serviced, he, if_true]
    have hmem : (s.serviced c).mem = initCells s.tx.dbase (bufferAddr s.tx.bbase s.params.txUnit)
        (txInitWord1 s.tx.cap.toNat) 0 s.tx.cap.toNat s.rxResetMem := by
      simp only [State.serviced, State.servicedMem, he, if_true]
    refine txProtocol_of_init (by rw [htx]; exact hcap) (by rw [htx]) (by rw [htx]) (by rw [htx])
      (by rw [htx]; exact List.length_replicate) (by rw [htx]) hen fun i hi => ?_
    rw [htx] at hi ⊢
    have hi : i < s.tx.cap.toNat := hi
    rw [hmem]
    exact initCells_words (rxResetMem_wf hm) (by omega) (Nat.zero_le i) (by omega)

/-- SERVICE ends in the state of R241 for the frames that TXDMA has sent, and keeps the protocol. -/
theorem serviceBody_protocol (hm : Memory.wf s.mem = true) (hs : RingsHold s) :
    ∃ r c, serviceBody s = .ok r (s.serviced c) ∧ RingsHold (s.serviced c) := by
  obtain ⟨-, -, -, -, hrv, htv, ha, -⟩ := ringRegions_facts hs.1
  obtain ⟨hres, hlay, c, hc⟩ := hs
  obtain ⟨-, hhead, htail, hl, -⟩ := id hc
  refine ⟨_, c, serviceBody_ok hhead htail (fun _ => hrv) htv (fun _ => hl)
    ((sentRun_rxResetMem htail ha).mpr (sentRun_of_protocol hc)), ?_, rxLayout_serviced hm hlay ha c, 0,
    txProtocol_serviced hm hc ha⟩
  have hregions : (s.serviced c).ringRegions = s.ringRegions := by
    simp only [State.ringRegions, State.descArrays, State.serviced]
    split <;> split <;> rfl
  rw [hregions]
  exact hres

theorem ringsKept_serviceCommand (hm : Memory.wf s.mem = true) (hf : s.eng.fault = false) (h : RingsKept s) :
    RingsKept (Op.final (serviceCommand s)) := by
  unfold serviceCommand
  rw [Op.current_bind]
  split
  · exact h
  next hdone =>
  obtain ⟨r, c, hr, hrings⟩ := serviceBody_protocol hm (h hf (by simpa using hdone))
  rw [Op.bind_ok _ hr]
  exact fun _ _ => hrings

/-! ### Every instruction -/

/-- HOST's duties for the operands of the two commands that write outside the rings' own registers (R470, R481). -/
structure OperandsObey (s : State) (i : Instr) : Prop where
  init : ∀ rc tc rd td rb tb, i = .init rc tc rd td rb tb → reservable s.params [(rd, 8 * rc.toNat),
    (td, 8 * tc.toNat), (rb, rc.toNat * s.params.rxUnit), (tb, tc.toNat * s.params.txUnit)] = true
  read : ∀ dest maxLen, i = .read dest maxLen → avoids s.ringRegions dest maxLen.toNat = true

theorem decodeCommand_init {w : Word} {a : Args} {rc tc rd td rb tb : Word}
    (h : Sys2Proof.decodeCommand w a = .ok (.init rc tc rd td rb tb)) : w = 0x01 ∧ a = ⟨rc, tc, rd, td, rb, tb⟩ := by
  unfold Sys2Proof.decodeCommand at h
  split at h
  · cases h
  split at h
  · next hw => cases h; exact ⟨hw, rfl⟩
  iterate 8 (split at h; · cases h)
  cases h

theorem decodeCommand_read {w : Word} {a : Args} {dest maxLen : Word}
    (h : Sys2Proof.decodeCommand w a = .ok (.read dest maxLen)) : w = 0x02 ∧ a.a0 = dest ∧ a.a1 = maxLen := by
  unfold Sys2Proof.decodeCommand at h
  iterate 2 (split at h; · cases h)
  split at h
  · next hw => cases h; exact ⟨hw, rfl, rfl⟩
  iterate 7 (split at h; · cases h)
  cases h

theorem operandsObey_of_decode {w : Word} {a : Args} {i : Instr} (h : commandObeys s w a = true)
    (hd : Sys2Proof.decodeCommand w a = .ok i) : OperandsObey s i := by
  constructor
  · rintro rc tc rd td rb tb rfl
    obtain ⟨rfl, rfl⟩ := decodeCommand_init hd
    exact h
  · rintro dest maxLen rfl
    obtain ⟨rfl, rfl, rfl⟩ := decodeCommand_read hd
    exact h

theorem ringsKept_exec {i : Instr} (hwf : s.params.wf = true) (hm : Memory.wf s.mem = true) (hf : s.eng.fault = false)
    (h : RingsKept s) (ho : OperandsObey s i) (hx : exec i s = .next t) : RingsKept t :=
  exec_keeps hx h (fun _ _ _ _ hu => hu) (fun _ _ _ _ => ringsKept_takeBusFault)
    (fun rc tc rd td rb tb hi => ringsKept_initBody hwf hm h (ho.init rc tc rd td rb tb hi))
    (fun d n hi => ringsKept_readBody hm hf h (ho.read d n hi)) (fun _ _ _ _ => ringsKept_writeBody hwf hm hf h)
    (fun _ => ringsKept_serviceCommand hm hf h) (fun _ _ _ hu => hu) (fun _ _ _ hu => hu) (fun _ _ hu => hu)
    (fun _ _ _ hu => hu) (fun _ _ _ hu => hu) (fun _ _ _ hu => hu) (fun _ hu => hu)

end Sys2Proof.Machine
end

section
/-! PROOF. The ownership protocol, continued: the DMA agents' steps (41_dma_agents.md R262, R263, R272), HOST's moves
within its duties (70_reset_and_hazards.md R470 to R484), and the step of the whole machine. -/

namespace Sys2Proof.Machine

variable {s t u : State} {m : List Host.Cell} {c : Nat}

/-! ### RXDMA (R262, R263) -/

/-- RxFill when the buffer and the descriptor can be accessed: buffer, word 1, word 0, then the registers. -/
theorem rxFill_ok {a w0 : Word} {frame : List Byte} {off n : Nat} (hn : n = min s.params.rxUnit (frame.length - off))
    (hbuf : AccessValid s.params (rxAddr w0) n) (ha : AccessValid s.params a 8) :
    rxFill a w0 frame off s = .ok () (((s.withMem (writeWord (writeWord
        (writeBytes s.mem (rxAddr w0) ((frame.drop off).take n)) (a + 4)
        (rxFillWord1 frame.length (off == 0) (decide (off + n = frame.length)))) a (w0 ||| 1))).withRx
      { s.rx with ptr := nextPtr (rxWrap w0) s.rx.ptr }).rxAdvance frame (off + n)
        (decide (off + n = frame.length))) := by
  subst hn
  have hlen : ((frame.drop off).take (min s.params.rxUnit (frame.length - off))).length
      = min s.params.rxUnit (frame.length - off) := by
    rw [List.length_take, List.length_drop]; omega
  unfold rxFill
  rw [Op.current_bind]
  dsimp only
  generalize (frame.drop off).take (min s.params.rxUnit (frame.length - off)) = bs at hlen ⊢
  rw [← hlen] at hbuf
  rw [Op.bind_ok _ (memWrite_ok hbuf)]
  refine (Op.bind_ok _ (memWrite32_ok (s := s.withMem (writeBytes s.mem (rxAddr w0) bs)) ha.second)).trans ?_
  exact Op.bind_ok _ (memWrite32_ok (s := (s.withMem (writeBytes s.mem (rxAddr w0) bs)).withMem
    (writeWord (writeBytes s.mem (rxAddr w0) bs) (a + 4) _)) ha.first)

/-- The end of RxFill touches RXDMA_ST, REC and RCOMP only. -/
theorem ringsHold_rxAdvance {frame : List Byte} {next : Nat} {eof : Bool} (h : RingsHold s) :
    RingsHold (s.rxAdvance frame next eof) := by
  unfold State.rxAdvance
  split <;> exact h

/-- The three writes of RxFill leave the transmit array, and WRAP and ADDR of every receive descriptor. -/
theorem ringsHold_rxFill {bs : List Byte} {w0 w1 : Word} (hs : RingsHold s) (hm : Memory.wf s.mem = true)
    (hw0 : w0 = readWord s.mem (s.rx.desc s.rx.ptr.toNat)) {buf : Word}
    (hbr : Apart s.rx.dbase (8 * s.rx.cap.toNat) buf bs.length)
    (hbt : Apart s.tx.dbase (8 * s.tx.cap.toNat) buf bs.length) :
    RingsHold ((s.withMem (writeWord (writeWord (writeBytes s.mem buf bs) (s.rx.desc s.rx.ptr.toNat + 4) w1)
      (s.rx.desc s.rx.ptr.toNat) (w0 ||| 1))).withRx { s.rx with ptr := nextPtr (rxWrap w0) s.rx.ptr }) := by
  obtain ⟨-, -, -, -, -, -, ha, -⟩ := ringRegions_facts hs.1
  obtain ⟨hres, hlay, c, hc⟩ := hs
  obtain ⟨-, htail, hptr, -, hwords⟩ := id hlay
  have hcap := s.rx.cap.isLt
  have hwf := writeBytes_wf (a := buf) (bs := bs) hm
  refine ⟨hres, rxLayout_of_words hlay rfl rfl rfl rfl rfl htail ?_ fun i hi => ?_, c, ?_⟩
  · rw [State.withRx_rx, (rxWord0_fields (hw0 ▸ hwords _ hptr)).2, nextPtr_toNat hptr]
    exact ringInc_lt (by omega)
  · have h1 := (descWords_written (base := s.rx.dbase) (v := w1) hwf (sameOn_writeBytes hbr) hcap hptr hi).1
    refine (congrArg (· &&& 0xFFFFFFFE) (readWord_writeFirst (writeWord_wf hwf) (by omega) (by omega))).trans ?_
    split
    · next he => rw [setOwn_masked, hw0, he]
    · exact congrArg (· &&& 0xFFFFFFFE) h1
  · refine txProtocol_congr hc rfl rfl rfl id ?_
    exact (sameOn_writeBytes hbt).trans ((sameOn_writeWord (ha.desc hptr).second_word.symm).trans
      (sameOn_writeWord (ha.desc hptr).first_word.symm))

/-- RXDMA's step ends: both the descriptor and the buffer it names can be accessed. -/
theorem rxdmaStep_protocol (hwf : s.params.wf = true) (hm : Memory.wf s.mem = true) (hs : RingsHold s) :
    ∃ u, rxdmaStep s = .ok () u ∧ RingsHold u := by
  obtain ⟨-, -, hb4, -, hvalid, -, -, -⟩ := ringRegions_facts hs.1
  obtain ⟨hres, hlay, -⟩ := id hs
  obtain ⟨-, -, hptr, hq, hwords⟩ := id hlay
  unfold rxdmaStep
  rw [Op.current_bind]
  cases hd : s.rx.dma with
  | idle => exact ⟨s, rfl, hs⟩
  | busy frame off =>
    have haddr : descAddr s.rx.qbase s.rx.ptr.toNat = s.rx.desc s.rx.ptr.toNat := by rw [hq]; rfl
    dsimp only
    rw [haddr, Op.bind_ok _ (memRead32_ok (hvalid _ hptr).first)]
    split
    · exact ⟨_, rfl, hs⟩
    · have hbuf : rxAddr (readWord s.mem (s.rx.desc s.rx.ptr.toNat))
          = bufferAddr s.rx.bbase s.params.rxUnit s.rx.ptr.toNat :=
        (rxWord0_fields (hwords _ hptr)).1.trans (rxAddr_bufferAddr hb4 (units_legal hwf).1)
      obtain ⟨hbv, hbr, hbt⟩ := rxBuffer_facts hres hptr (n := min s.params.rxUnit (frame.length - off))
        (Nat.min_le_left _ _)
      have hlen : ((frame.drop off).take (min s.params.rxUnit (frame.length - off))).length
          = min s.params.rxUnit (frame.length - off) := by
        rw [List.length_take, List.length_drop]; omega
      rw [← hbuf] at hbv hbr hbt
      exact ⟨_, rxFill_ok rfl hbv (hvalid _ hptr),
        ringsHold_rxAdvance (ringsHold_rxFill hs hm rfl (by rw [hlen]; exact hbr) (by rw [hlen]; exact hbt))⟩

theorem ringsKept_rxdma (hwf : s.params.wf = true) (hm : Memory.wf s.mem = true) (hf : s.eng.fault = false)
    (h : RingsKept s) (hx : runAgent .rxdma 0 rxdmaStep s = .next t) : RingsKept t := by
  intro _ hdone
  obtain ⟨-, -, -, -, -, -, -, -, -, he, -⟩ := rxdma_frame hx
  obtain ⟨u, hu, hrings⟩ := rxdmaStep_protocol hwf hm (h hf (he.symm.trans hdone))
  rw [runAgent, hu] at hx
  cases hx
  exact hrings

/-! ### TXDMA (R272, R273) -/

/-- The descriptor at TXPTR is USED exactly when every pending frame has been sent. -/
theorem txUsed_at_ptr (h : TxProtocol s c) :
    txUsed (readWord s.mem (s.tx.desc s.tx.ptr.toNat + 4)) = decide (s.tx.count ≤ c) := by
  obtain ⟨-, -, htail, -, -, hc, hptr, hused, -⟩ := h
  rw [hptr, hused c (Nat.lt_of_le_of_lt hc (count_lt htail)), decide_eq_false (Nat.lt_irrefl c), Bool.false_or]

/-- TXDMA stops at a USED descriptor: nothing was left to send. -/
theorem ringsHold_txStopUsed (hs : RingsHold s) (hu : txUsed (readWord s.mem (s.tx.desc s.tx.ptr.toNat + 4)) = true) :
    RingsHold s.txStopUsed := by
  obtain ⟨hres, hlay, c, hc⟩ := hs
  rw [txUsed_at_ptr hc, decide_eq_true_eq] at hu
  exact ⟨hres, hlay, c, txProtocol_stopped hc rfl rfl rfl (fun h => absurd h (by omega)) fun _ _ => ⟨rfl, rfl, rfl⟩⟩

/-- A failed attempt records RLE in the descriptor and RLEX in ISR (R272). -/
theorem ringsHold_txFailed (hs : RingsHold s) (hm : Memory.wf s.mem = true) : RingsHold (s.withMem (writeWord s.mem
    (s.tx.desc s.tx.ptr.toNat + 4) (readWord s.mem (s.tx.desc s.tx.ptr.toNat + 4) ||| 0x20000000))).txFailed := by
  obtain ⟨-, -, -, -, -, -, ha, -⟩ := ringRegions_facts hs.1
  obtain ⟨hres, hlay, c, hc⟩ := hs
  obtain ⟨hcap, -, htail, -, -, -, hptr, -⟩ := id hc
  have hptr : s.tx.ptr.toNat < s.tx.cap.toNat := by rw [hptr]; exact Nat.mod_lt _ (by omega)
  obtain ⟨-, htail, hrptr, -⟩ := id hlay
  refine ⟨hres, rxLayout_congr hlay rfl rfl rfl rfl rfl htail hrptr
    (sameOn_writeWord (ha.symm.desc hptr).second_word.symm), c, txProtocol_stopped hc rfl rfl rfl (fun _ => rfl)
    fun i hi => ?_⟩
  obtain ⟨h0, h1⟩ := descWords_written (base := s.tx.dbase) (i := s.tx.ptr.toNat)
    (v := readWord s.mem (s.tx.desc s.tx.ptr.toNat + 4) ||| 0x20000000) hm sameOn_refl s.tx.cap.isLt hptr hi
  have hword : readWord (writeWord s.mem (s.tx.desc s.tx.ptr.toNat + 4)
      (readWord s.mem (s.tx.desc s.tx.ptr.toNat + 4) ||| 0x20000000)) (s.tx.desc i + 4)
      = if i = s.tx.ptr.toNat then readWord s.mem (s.tx.desc i + 4) ||| 0x20000000
        else readWord s.mem (s.tx.desc i + 4) := by
    refine h1.trans ?_
    split
    · next he => rw [he]
    · rfl
  refine ⟨h0, ?_⟩
  change txUsed (readWord (writeWord _ _ _) _) = _ ∧ txWrap (readWord (writeWord _ _ _) _) = _
  rw [hword]
  split
  · exact txFailedWord_fields _
  · exact ⟨rfl, rfl⟩

/-- A sent frame's descriptor becomes software's, and TXPTR goes on (R272, R273). -/
theorem ringsHold_txSent {o : Outputs} (hs : RingsHold s) (hm : Memory.wf s.mem = true) (hgo : s.tx.go = true)
    (hu : txUsed (readWord s.mem (s.tx.desc s.tx.ptr.toNat + 4)) = false) :
    RingsHold (((s.withOut o).withMem (writeWord s.mem (s.tx.desc s.tx.ptr.toNat + 4)
      (readWord s.mem (s.tx.desc s.tx.ptr.toNat + 4) ||| 0x80000000))).txSent
      (readWord s.mem (s.tx.desc s.tx.ptr.toNat + 4))) := by
  obtain ⟨-, -, -, -, -, -, ha, -⟩ := ringRegions_facts hs.1
  obtain ⟨hres, hlay, c, hc⟩ := hs
  rw [txUsed_at_ptr hc, decide_eq_false_iff_not] at hu
  obtain ⟨hcap, -, -, -, -, -, hptr, -, -, htxen, -⟩ := id hc
  have hptr : s.tx.ptr.toNat < s.tx.cap.toNat := by rw [hptr]; exact Nat.mod_lt _ (by omega)
  obtain ⟨-, htail, hrptr, -⟩ := id hlay
  exact ⟨hres, rxLayout_congr hlay rfl rfl rfl rfl rfl htail hrptr
    (sameOn_writeWord (ha.symm.desc hptr).second_word.symm), c + 1,
    txProtocol_sent hc (by omega) hm rfl hgo rfl htxen rfl⟩

/-- TXDMA's step ends with the protocol kept, or faults at the frame's bytes. -/
theorem txdmaStep_protocol (hm : Memory.wf s.mem = true) (hs : RingsHold s) (hgo : s.tx.go = true) :
    (∃ u, txdmaStep s = .ok () u ∧ RingsHold u) ∨ ∃ a u, txdmaStep s = .error a u := by
  obtain ⟨-, -, -, -, -, hvalid, -, -⟩ := ringRegions_facts hs.1
  obtain ⟨-, -, c, hc⟩ := id hs
  obtain ⟨hcap, -, -, -, hq, -, hptr, -⟩ := id hc
  have hptr : s.tx.ptr.toNat < s.tx.cap.toNat := by rw [hptr]; exact Nat.mod_lt _ (by omega)
  have haddr : descAddr s.tx.qbase s.tx.ptr.toNat = s.tx.desc s.tx.ptr.toNat := by rw [hq]; rfl
  have hv := hvalid _ hptr
  unfold txdmaStep
  rw [Op.current_bind, haddr, Op.bind_ok _ (memRead32_ok hv.second)]
  split
  · next hu => exact .inl ⟨_, rfl, ringsHold_txStopUsed hs hu⟩
  next hu =>
  rw [Op.bind_ok _ (memRead32_ok hv.first), Op.bind_ok _ (drawTxOutcome_run s)]
  have hs' : RingsHold (s.withEnv s.env.drawTx.2) := hs
  cases s.env.drawTx.1 with
  | false =>
    exact .inl ⟨_, Op.bind_ok _ (memWrite32_ok (s := s.withEnv _) hv.second), ringsHold_txFailed hs' hm⟩
  | true =>
    rcases memRead_cases (s.withEnv s.env.drawTx.2) (readWord s.mem (s.tx.desc s.tx.ptr.toNat))
      (txLen (readWord s.mem (s.tx.desc s.tx.ptr.toNat + 4))) with ⟨_, hr⟩ | ⟨x, _, hr⟩
    · refine .inl ⟨_, (Op.bind_ok _ hr).trans ((Op.bind_ok _ (wireSend_run _ _)).trans
        (Op.bind_ok _ (memWrite32_ok (s := (s.withEnv _).withOut _) hv.second))), ?_⟩
      exact ringsHold_txSent hs' hm hgo (by simpa using hu)
    · exact .inr ⟨_, _, Op.bind_error _ hr⟩

theorem ringsKept_txdma (hm : Memory.wf s.mem = true) (hf : s.eng.fault = false) (h : RingsKept s)
    (hgo : s.tx.go = true) (hx : runAgent .txdma 0 txdmaStep s = .next t) : RingsKept t := by
  intro hft hdone
  obtain ⟨-, -, -, -, -, -, -, -, -, he, -⟩ := txdma_frame hx
  rcases txdmaStep_protocol hm (h hf (he.symm.trans hdone)) hgo with ⟨u, hu, hrings⟩ | ⟨a, u, hu⟩ <;>
    rw [runAgent, hu] at hx <;> cases hx
  · exact hrings
  · exact Bool.noConfusion hft

/-! ### The pending command's clause -/

/-- HOST's duty for a command depends on the parameters and on where the rings are. -/
theorem commandObeys_congr (hp : t.params = s.params) (hr : t.rx.cap = s.rx.cap ∧ t.rx.dbase = s.rx.dbase
    ∧ t.rx.bbase = s.rx.bbase) (ht : t.tx.cap = s.tx.cap ∧ t.tx.dbase = s.tx.dbase ∧ t.tx.bbase = s.tx.bbase)
    (w : Word) (a : Args) : commandObeys t w a = commandObeys s w a := by
  obtain ⟨hrc, hrd, hrb⟩ := hr
  obtain ⟨htc, htd, htb⟩ := ht
  simp only [commandObeys, State.ringRegions, State.descArrays, hp, hrc, hrd, hrb, htc, htd, htb]

/-- The places of the rings stay through an update that keeps them. -/
def SamePlaces (s t : State) : Prop :=
  t.params = s.params ∧ (t.rx.cap = s.rx.cap ∧ t.rx.dbase = s.rx.dbase ∧ t.rx.bbase = s.rx.bbase)
    ∧ t.tx.cap = s.tx.cap ∧ t.tx.dbase = s.tx.dbase ∧ t.tx.bbase = s.tx.bbase

theorem pendObeys_congr (h : PendObeys s) (hc : t.cmd.pend = s.cmd.pend) (hk : SamePlaces s t) : PendObeys t := by
  obtain ⟨hp, hr, ht⟩ := hk
  intro q hq
  rw [commandObeys_congr hp hr ht]
  exact h q (hc.symm.trans hq)

theorem pendObeys_of_none (h : s.cmd.pend = none) : PendObeys s := fun p hp => by
  rw [h] at hp
  cases hp

theorem samePlaces_serviceBody (s : State) : SamePlaces s (Op.final (serviceBody s)) := by
  have hk : KeptByService (SamePlaces s) s.rx.cap.toNat s.tx.cap.toNat fun _ => True :=
    { rxCap := fun u hu => by rw [hu.2.1.1], txCap := fun u hu => by rw [hu.2.2.1], closed := fun _ _ => trivial
      start := fun _ _ => trivial, clear := fun _ hu => hu, emit := fun _ _ hu => hu, rxStop := fun _ hu => hu
      rxDesc := fun _ _ _ _ hu => ⟨hu, hu⟩, rxStart := fun _ hu => hu, tail := fun _ _ _ hu => hu
      txStop := fun _ hu => hu, txDesc := fun _ _ _ _ hu => ⟨hu, hu⟩, tag := fun _ _ hu => hu
      txStart := fun _ hu => hu }
  exact preserves_serviceBody hk s ⟨rfl, ⟨rfl, rfl, rfl⟩, rfl, rfl, rfl⟩

/-- The DMA agents' steps keep the places of the rings, ended or faulted (R262, R272). -/
theorem samePlaces_rxdma (h : runAgent .rxdma 0 rxdmaStep s = .next t) : SamePlaces s t := by
  refine runAgent_final (I := SamePlaces s) (rxdmaStep_final ⟨rfl, ⟨rfl, rfl, rfl⟩, rfl, rfl, rfl⟩
    (fun _ _ _ _ _ _ _ hu => hu) (fun _ _ hu => ⟨hu, hu⟩) ⟨rfl, ⟨rfl, rfl, rfl⟩, rfl, rfl, rfl⟩ (fun _ _ hu => hu)
    fun u _ _ _ _ _ hu => ?_) (fun _ _ hu => hu) h
  unfold State.rxAdvance
  split <;> exact hu

theorem samePlaces_txdma (h : runAgent .txdma 0 txdmaStep s = .next t) : SamePlaces s t :=
  runAgent_final (I := SamePlaces s) (txdmaStep_final ⟨rfl, ⟨rfl, rfl, rfl⟩, rfl, rfl, rfl⟩ (fun _ _ hu => hu)
    ⟨rfl, ⟨rfl, rfl, rfl⟩, rfl, rfl, rfl⟩ (fun _ hu => hu) (fun _ _ hu => hu) (fun _ _ hu => hu) fun _ hu => hu)
    (fun _ _ hu => hu) h

/-! ### The command engine (R200) -/

theorem ringProtocol_autonomousService (hm : Memory.wf s.mem = true) (hf : s.eng.fault = false) (h : RingProtocol s)
    (hirq : s.irqPending = true) (hx : autonomousService s = .next t) : RingProtocol t := by
  obtain ⟨hpend, hrings⟩ := (ringProtocol_iff s).mp h
  have hdone : s.eng.initDone = true := (Bool.and_eq_true _ _ ▸ hirq : _ ∧ _).2
  obtain ⟨r, c, hr, hkept⟩ := serviceBody_protocol hm (hrings hf hdone)
  have hplaces := samePlaces_serviceBody s
  rw [hr] at hplaces
  rw [autonomousService, runAgent, Op.bind_ok _ hr] at hx
  cases hx
  exact (ringProtocol_iff _).mpr ⟨fun _ => pendObeys_congr (hpend hf) rfl hplaces, fun _ _ => hkept⟩

theorem ringProtocol_ce (hwf : s.params.wf = true) (hm : Memory.wf s.mem = true) (hf : s.eng.fault = false)
    (h : RingProtocol s) (hx : ceStep s = .next t) : RingProtocol t := by
  obtain ⟨hpend, hrings⟩ := (ringProtocol_iff s).mp h
  rcases ceStep_cases hx with ⟨hirq, h1⟩ | ⟨-, p, hp, ⟨i, hd, h1⟩ | ⟨e, -, rfl⟩⟩ | ⟨-, -, rfl⟩
  · exact ringProtocol_autonomousService hm hf h hirq h1
  · refine (ringProtocol_iff t).mpr ⟨fun hft => ?_,
      ringsKept_exec hwf hm hf hrings (operandsObey_of_decode (hpend hf p hp) hd) h1⟩
    obtain ⟨hnone, -⟩ := commandsCompleteThePort i s t hf h1 hft
    exact pendObeys_of_none hnone
  · exact (ringProtocol_iff _).mpr ⟨fun _ => pendObeys_of_none rfl, hrings⟩
  · exact h

theorem ringProtocol_turn {a : Agent} (hwf : s.params.wf = true) (hm : Memory.wf s.mem = true)
    (hf : s.eng.fault = false) (h : RingProtocol s) (hx : takeTurn a s = .next t) : RingProtocol t := by
  obtain ⟨hpend, hrings⟩ := (ringProtocol_iff s).mp h
  unfold takeTurn at hx
  split at hx
  · next he =>
    cases a with
    | ce => exact ringProtocol_ce hwf hm hf h hx
    | rxdma =>
      refine (ringProtocol_iff t).mpr ⟨fun _ => ?_, ringsKept_rxdma hwf hm hf hrings hx⟩
      exact pendObeys_congr (hpend hf) (congrArg CommandPort.pend (rxdma_frame hx).1) (samePlaces_rxdma hx)
    | txdma =>
      simp only [State.enabled, Bool.and_eq_true] at he
      refine (ringProtocol_iff t).mpr ⟨fun _ => ?_, ringsKept_txdma hm hf hrings he.1.2 hx⟩
      exact pendObeys_congr (hpend hf) (congrArg CommandPort.pend (txdma_frame hx).1) (samePlaces_txdma hx)
  · cases hx; exact h

/-! ### HOST's moves (R470 to R484) -/

/-- Another latched or withdrawn command leaves the rings as they are. -/
theorem ringProtocol_issue {w : Word} (h : RingProtocol s) (ho : commandObeys s w s.cmd.args = true) :
    RingProtocol (s.issue w) := by
  unfold State.issue
  split
  · split
    · exact h
    · refine fun hf => ⟨fun p hp => ?_, (h hf).2⟩
      cases hp
      exact ho
  · exact h

/-- An aligned base is written to a queue base register whole (R38, R39). -/
theorem aligned_masked {v : Word} (h : v.toNat % 4 = 0) : v &&& 0xFFFFFFFC = v := by
  have := rxAddr_bufferAddr (i := 0) (unit := 0) h rfl
  simpa [bufferAddr, rxAddr] using this

theorem ringProtocol_writeReg {v : Word} {r : Reg} (h : RingProtocol s) (ho : registerObeys s v r = true) :
    RingProtocol (writeReg s v r) := by
  cases r
  case ncr =>
    simp only [registerObeys, Bool.and_eq_true, beq_iff_eq] at ho
    obtain ⟨-, rfl⟩ := ho
    rw [writeReg, ncrWrite_eq]
    refine fun hf => ⟨(h hf).1, fun hdone => ?_⟩
    obtain ⟨hres, hlay, c, h1, h2, h3, h4, h5, h6, h7, h8, h9, -, -⟩ := (h hf).2 hdone
    exact ⟨hres, hlay, c, h1, h2, h3, h4, h5, h6, h7, h8, h9, rfl, fun _ => .inl (Bool.or_true _)⟩
  case rbqb =>
    simp only [registerObeys, Bool.and_eq_true, beq_iff_eq] at ho
    obtain ⟨-, rfl⟩ := ho
    refine fun hf => ⟨(h hf).1, fun hdone => ?_⟩
    obtain ⟨hres, ⟨h1, h2, h3, -, h5⟩, htx⟩ := (h hf).2 hdone
    exact ⟨hres, ⟨h1, h2, h3, aligned_masked (ringRegions_facts hres).1, h5⟩, htx⟩
  case tbqb =>
    simp only [registerObeys, Bool.and_eq_true, beq_iff_eq] at ho
    obtain ⟨-, rfl⟩ := ho
    refine fun hf => ⟨(h hf).1, fun hdone => ?_⟩
    obtain ⟨hres, hlay, c, h1, h2, h3, h4, -, h6⟩ := (h hf).2 hdone
    exact ⟨hres, hlay, c, h1, h2, h3, h4, aligned_masked (ringRegions_facts hres).2.1, h6⟩
  case cmd =>
    simp only [registerObeys, Bool.and_eq_true] at ho
    exact ringProtocol_issue h ho.2
  case rsr => exact absurd ho Bool.false_ne_true
  case tsr => exact absurd ho Bool.false_ne_true
  case isr => exact absurd ho Bool.false_ne_true
  all_goals exact h

/-- A memory write that avoids the ring regions leaves the protocol. -/
theorem ringProtocol_withMem (h : RingProtocol s) (hmr : SameOn s.mem m s.rx.dbase (8 * s.rx.cap.toNat))
    (hmt : SameOn s.mem m s.tx.dbase (8 * s.tx.cap.toNat)) : RingProtocol (s.withMem m) :=
  fun hf => ⟨(h hf).1, fun hdone => ringsHold_withMem ((h hf).2 hdone) hmr hmt⟩

/-- HOST's duty does not depend on the environment. -/
theorem hostObeys_withEnv (s : State) (e : Env) (i : Input) : hostObeys (s.withEnv e) i = hostObeys s i := by
  cases i with
  | hostWrite32 addr v =>
    simp only [hostObeys, State.withEnv_params]
    cases regOffset s.params addr with
    | none => rfl
    | some off =>
      dsimp only
      cases regAt s.params off with
      | none => rfl
      | some r => cases r <;> rfl
  | _ => rfl

theorem ringProtocol_input {i : Input} (hwf : s.params.wf = true) (hm : Memory.wf s.mem = true)
    (hf : s.eng.fault = false) (h : RingProtocol s) (ho : hostObeys s i = true) (hx : applyInput i s = .next t) :
    RingProtocol t := by
  have hturn : ∀ a t, takeTurn a s = .next t → RingProtocol t := fun _ _ => ringProtocol_turn hwf hm hf h
  by_cases hce : i = .turn .ce
  · subst hce; exact hturn .ce t hx
  refine applyInput_keeps (I := RingProtocol) hce h hx (fun _ hv => hv)
    (fun _ t he hr => hturn .rxdma t (by rw [takeTurn, if_pos he]; exact hr))
    (fun _ t he hr => hturn .txdma t (by rw [takeTurn, if_pos he]; exact hr)) ?reg ?word ?byte ?arr ?reset
  case reg =>
    rintro addr off v rfl hoff
    rcases writeOffset_cases s off v with ⟨r, hr, hw⟩ | ⟨-, hw⟩ <;> rw [hw]
    · simp only [hostObeys, hoff, hr] at ho
      exact ringProtocol_writeReg h ho
    · exact h
  case word =>
    rintro addr v rfl hoff
    simp only [hostObeys, hoff] at ho
    obtain ⟨hr, ht⟩ := apart_ringRegions ho
    exact ringProtocol_withMem h (sameOn_writeWord hr) (sameOn_writeWord ht)
  case byte =>
    rintro addr b rfl -
    obtain ⟨hr, ht⟩ := apart_ringRegions ho
    exact ringProtocol_withMem h (sameOn_writeCell hr) (sameOn_writeCell ht)
  case arr =>
    intro frame _
    rcases arrive_cases s frame with hr | hr | ⟨_, _, hr⟩ <;> rw [hr] <;> exact h
  case reset => exact fun _ _ => ⟨pendObeys_of_none rfl, fun hdone => Bool.noConfusion hdone⟩

/-! ### The step of the whole machine (R283) -/

/-- After reset the protocol asks nothing: no command is pending, and INIT is to come. -/
theorem ringProtocol_of_reset (hr : s.env.inputs.head? = some .reset) (h : step s = .next t) : RingProtocol t := by
  unfold step nextStep at h
  split at h
  · cases h
  split at h
  · next i rest hi =>
    rw [hi] at hr
    cases hr
    cases h
    exact fun _ => ⟨pendObeys_of_none rfl, fun hdone => Bool.noConfusion hdone⟩
  · next hi => rw [hi] at hr; cases hr

/-- Settles O55: a step is a turn or HOST's move, and on a faulted block the protocol asks nothing until reset. -/
theorem stepKeepsRingProtocol : Obligations.StepKeepsRingProtocol := by
  unfold Obligations.StepKeepsRingProtocol
  intro s t hm h ho hx
  cases hf : s.eng.fault with
  | true =>
    by_cases hr : s.env.inputs.head? = some .reset
    · exact ringProtocol_of_reset hr hx
    · intro hft
      rw [step_eng_of_fault hf hr hx, hf] at hft
      cases hft
  | false =>
    unfold step nextStep at hx
    split at hx
    · cases hx
    next hwf =>
    have hwf : s.params.wf = true := by simpa using hwf
    split at hx
    · next i rest hi =>
      have hobeys : hostObeys (s.withInputs rest) i = true :=
        (hostObeys_withEnv s _ i).trans (ho i (by rw [hi]; rfl))
      exact ringProtocol_input (s := s.withInputs rest) hwf hm hf h hobeys hx
    · unfold freeStep at hx
      split at hx
      · rw [hf] at hx; cases hx; exact h
      · exact ringProtocol_turn hwf hm hf h hx
      · exact ringProtocol_turn (s := s.withEnv { s.env with turns := s.env.turns + 1 }) hwf hm hf h hx

end Sys2Proof.Machine
end

section
/-! PROOF. System memory: its canonical form through every step (20_memory.md R101, log entry 7), and HOST's accesses of
it (41_dma_agents.md R282, 20_memory.md R104, R110). Memory changes only by writes of bytes and of words; each keeps the
canonical form, and every other update keeps it by leaving memory alone. -/

namespace Sys2Proof.Machine

variable {s t : State} {a v : Word} {b : Byte}

/-! ### The two writes -/

theorem MemoryCanonical.writeWord (h : MemoryCanonical s) : MemoryCanonical (s.withMem (writeWord s.mem a v)) :=
  writeWord_wf h

theorem MemoryCanonical.writeCell (h : MemoryCanonical s) : MemoryCanonical (s.withMem (writeCell s.mem a.toNat b)) :=
  writeCell_wf h a.isLt

theorem MemoryCanonical.tstart (h : MemoryCanonical s) : MemoryCanonical s.tstart := by
  unfold State.tstart; split <;> exact h

theorem memoryCanonical_keptByDesc (arr : State → Nat → Word) (i : Nat) : KeptByDesc MemoryCanonical arr i :=
  fun _ _ hu => ⟨hu.writeWord, hu.writeWord⟩

/-! ### The commands -/

theorem memoryCanonical_initBody {rc tc rd td rb tb : Word} (hs : MemoryCanonical s) :
    MemoryCanonical (Op.final (initBody rc tc rd td rb tb s)) := by
  have hstart : MemoryCanonical (s.initStart rc tc rd td rb tb) := hs
  rcases initBody_final hstart (fun i _ => memoryCanonical_keptByDesc _ i) (fun i _ => memoryCanonical_keptByDesc _ i)
    (fun _ hu => hu) with hr | ⟨-, -, hr⟩
  · rw [hr]; exact hs
  · exact hr

theorem memoryCanonical_readBody {dest maxLen : Word} (hs : MemoryCanonical s) :
    MemoryCanonical (Op.final (readBody dest maxLen s)) :=
  (preserves_readBody (I := fun u => MemoryCanonical u ∧ u.rx.cap = s.rx.cap) (P := fun _ => True)
    (fun _ hu => by rw [hu.2]) (fun _ _ _ => trivial) (fun _ _ => trivial)
    (fun _ _ _ _ hu => ⟨hu.1.writeWord, hu.2⟩) (fun _ _ _ _ hu => ⟨hu.1.writeCell, hu.2⟩) (fun _ _ _ hu => hu)
    s ⟨hs, rfl⟩).1

theorem memoryCanonical_writeBody {src len : Word} {tag : Half} (hs : MemoryCanonical s) :
    MemoryCanonical (Op.final (writeBody src len tag s)) :=
  writeBody_final hs (fun _ _ _ _ hu => hu.writeCell) (fun _ _ hu => hu.writeWord) (fun _ hu => hu) (fun _ hu => hu)
    fun _ hu => hu.tstart

/-- SERVICE writes memory only where a ring reset writes its descriptors (R245, R247). -/
theorem memoryCanonical_keptByService (s : State) :
    KeptByService (fun u => MemoryCanonical u ∧ u.rx.cap = s.rx.cap ∧ u.tx.cap = s.tx.cap) s.rx.cap.toNat
      s.tx.cap.toNat (fun _ => True) where
  rxCap _ hu := by rw [hu.2.1]
  txCap _ hu := by rw [hu.2.2]
  closed _ _ := trivial
  start _ _ := trivial
  clear _ hu := hu
  emit _ _ hu := hu
  rxStop _ hu := hu
  rxDesc _ _ _ _ hu := ⟨⟨hu.1.writeWord, hu.2⟩, ⟨hu.1.writeWord, hu.2⟩⟩
  rxStart _ hu := hu
  tail _ _ _ hu := hu
  txStop _ hu := hu
  txDesc _ _ _ _ hu := ⟨⟨hu.1.writeWord, hu.2⟩, ⟨hu.1.writeWord, hu.2⟩⟩
  tag _ _ hu := hu
  txStart _ hu := hu

theorem memoryCanonical_exec {i : Instr} (hs : MemoryCanonical s) (h : exec i s = .next t) : MemoryCanonical t :=
  exec_keeps h hs (fun _ _ _ _ hu => hu) (fun _ _ _ hu => hu) (fun _ _ _ _ _ _ _ => memoryCanonical_initBody hs)
    (fun _ _ _ => memoryCanonical_readBody hs) (fun _ _ _ _ => memoryCanonical_writeBody hs)
    (fun _ => (preserves_serviceCommand (memoryCanonical_keptByService s) s ⟨hs, rfl, rfl⟩).1) (fun _ _ _ hu => hu)
    (fun _ _ _ hu => hu) (fun _ _ hu => hu) (fun _ _ _ hu => hu) (fun _ _ _ hu => hu) (fun _ _ _ hu => hu)
    (fun _ hu => hu)

/-! ### The agents -/

theorem memoryCanonical_autonomousService (hs : MemoryCanonical s) (h : autonomousService s = .next t) :
    MemoryCanonical t :=
  (runAgent_preserves (preserves_bind (preserves_serviceBody (memoryCanonical_keptByService s)) fun _ =>
    preserves_pure ()) (fun _ _ hu => hu) ⟨hs, rfl, rfl⟩ h).1

theorem memoryCanonical_rxdmaStep (hs : MemoryCanonical s) : MemoryCanonical (Op.final (rxdmaStep s)) := by
  refine rxdmaStep_final hs (fun _ _ _ _ _ _ _ hu => hu.writeCell) (fun _ _ hu => ⟨hu.writeWord, hu.writeWord⟩) hs
    (fun _ _ hu => hu) fun u frame off n _ _ hu => ?_
  unfold State.rxAdvance; split <;> exact hu

theorem memoryCanonical_txdmaStep (hs : MemoryCanonical s) : MemoryCanonical (Op.final (txdmaStep s)) :=
  txdmaStep_final hs (fun _ _ hu => hu.writeWord) hs (fun _ hu => hu) (fun _ _ hu => hu) (fun _ _ hu => hu)
    fun _ hu => hu

/-- Settles O52: the commands, the agents and HOST write memory by bytes and words only; no register write, no frame's
arrival and no reset touches it (R460). -/
theorem stepKeepsMemoryCanonical : Obligations.StepKeepsMemoryCanonical := by
  unfold Obligations.StepKeepsMemoryCanonical
  intro s t hs h
  refine step_keeps hs h (fun _ _ hu => hu) (fun _ _ _ _ hu hx => memoryCanonical_exec hu hx) (fun _ _ _ _ hu => hu)
    (fun _ _ _ hu hx => memoryCanonical_autonomousService hu hx) ?rx ?tx ?reg (fun _ _ _ hu => hu.writeWord)
    (fun _ _ _ hu => hu.writeCell) ?arr (fun _ _ hu => hu)
  case rx => exact fun _ _ _ hu hx => runAgent_final (memoryCanonical_rxdmaStep hu) (fun _ _ hv => hv) hx
  case tx => exact fun _ _ _ hu hx => runAgent_final (memoryCanonical_txdmaStep hu) (fun _ _ hv => hv) hx
  case reg =>
    intro u off v hu
    obtain ⟨-, hmem, -⟩ := writeOffset_frame u off v
    exact (congrArg Memory.wf hmem).trans hu
  case arr =>
    intro u frame _ hu
    rcases arrive_cases u frame with h | h | ⟨_, _, h⟩ <;> rw [h] <;> exact hu

/-! ### HOST's accesses of memory (R104, R110, R282) -/

/-- An address outside the block's window has no register offset. -/
theorem regOffset_outside {p : Params} {addr : Word}
    (h : addr.toNat < p.blockBase.toNat ∨ p.blockBase.toNat + 4096 ≤ addr.toNat) : regOffset p addr = none := by
  rw [regOffset, if_neg (by omega)]

theorem byteOf_eq_setWidth (v : Word) (k : Nat) : byteOf v k = (v >>> (8 * k)).setWidth 8 :=
  BitVec.eq_of_toNat_eq (by simp [byteOf])

/-- A word written stands in memory little-endian (R104): its byte `j` is at `a + j`. -/
theorem readCell_writeWord_same {m : List Host.Cell} (hm : Memory.wf m = true) {j : Nat} (hj : j < 4) :
    readCell (writeWord m a v) (a + BitVec.ofNat 32 j).toNat = (v >>> (8 * j)).setWidth 8 := by
  rw [writeWord, readCell_writeBytes_same hm (by simp) (by simpa using hj), ← byteOf_eq_setWidth]
  interval_cases j <;> rfl

/-- Settles O49: outside the window the access is memory's, and the laws of memory say what it reads and writes. -/
theorem hostMemoryAccesses : Obligations.HostMemoryAccesses := by
  unfold Obligations.HostMemoryAccesses
  intro s rest addr hwf hm hout
  have hoff : regOffset (s.withInputs rest).params addr = none := regOffset_outside hout
  refine ⟨fun h4 hi => ?read32, fun hi => ?read8, fun v h4 hi => ?write32, fun b hi => ?write8, fun h4 hi => ?refuseRead,
    fun v h4 hi => ?refuseWrite⟩ <;> rw [step_input hwf hi, applyInput]
  case read32 => simp only [hostRead32, hoff, h4, if_true]; rfl
  case read8 => simp only [hostRead8, hoff]; rfl
  case write32 =>
    refine ⟨writeWord s.mem addr v, ?_, readWord_writeWord_same hm, ?_, readCell_writeWord_same hm (j := 1) (by omega),
      readCell_writeWord_same hm (j := 2) (by omega), readCell_writeWord_same hm (j := 3) (by omega),
      fun x hx => readCell_writeWord_other hx⟩
    · simp only [hostWrite32, hoff, h4, if_true]; rfl
    · simpa using readCell_writeWord_same (a := addr) (v := v) hm (j := 0) (by omega)
  case write8 =>
    refine ⟨writeCell s.mem addr.toNat b, ?_, readCell_writeCell_same hm, fun x hx =>
      readCell_writeCell_other fun he => hx (BitVec.eq_of_toNat_eq he)⟩
    simp only [hostWrite8, hoff]; rfl
  case refuseRead => simp only [hostRead32, hoff, h4, if_false]
  case refuseWrite => simp only [hostWrite32, hoff, h4, if_false]

end Sys2Proof.Machine
end

section
/-! PROOF. The encoding (30_encoding.md R141 to R144, R174, R175). The decoder takes a byte string apart into the words it
was laid out from, so what it answers on bytes is what it answers on the command word and its arguments, or on the
opcode; that those decode to the instruction is the family `Encodes`. -/

namespace Sys2Proof.Machine

variable {s : State} {i : Instr} {w : Word} {a : Args}

/-! ### Words in a byte string (20_memory.md R104) -/

/-- Past the bytes of one word, the words of a byte string are those of the rest. -/
theorem wordAt_wordBytes_add (v : Word) (bs : List Byte) (k : Nat) :
    wordAt (wordBytes v ++ bs) (k + 4) = wordAt bs k := by
  have hget (j : Nat) : (wordBytes v ++ bs).getD (j + 4) 0 = bs.getD j 0 := by
    rw [List.getD_append_right _ _ _ _ (by simp), wordBytes_length, Nat.add_sub_cancel]
  have hcomm (j : Nat) : k + 4 + j = k + j + 4 := Nat.add_right_comm k 4 j
  simp only [wordAt, hcomm, hget]

/-- The opcode is put together again from its two bytes (R174). -/
theorem half_of_byteOf (v : Word) :
    (byteOf v 0).setWidth 16 ||| ((byteOf v 1).setWidth 16 <<< 8) = v.setWidth 16 := by
  apply BitVec.eq_of_getLsbD_eq
  intro j hj
  simp only [BitVec.getLsbD_or, BitVec.getLsbD_setWidth, BitVec.getLsbD_shiftLeft, byteOf_getLsbD]
  interval_cases j <;> simp

/-! ### The decoder on laid out bytes -/

/-- Seven words laid out decode as the command word with its arguments (log entry 17). -/
theorem decode_command (w : Word) (a : Args) :
    Sys2Proof.decode (wordBytes w ++ argBytes a) = Sys2Proof.decodeCommand w a := by
  have hlen : (wordBytes w ++ argBytes a).length = 28 := rfl
  have h0 : wordAt (wordBytes w ++ argBytes a) 0 = w := wordAt_wordBytes w _
  have hnext (k : Nat) : wordAt (wordBytes w ++ argBytes a) (k + 4) = wordAt (argBytes a) k :=
    wordAt_wordBytes_add w _ k
  have ha5 : wordAt (wordBytes a.a5) 0 = a.a5 := by simpa using wordAt_wordBytes a.a5 []
  have hargs : (⟨wordAt (argBytes a) 0, wordAt (argBytes a) 4, wordAt (argBytes a) 8, wordAt (argBytes a) 12,
      wordAt (argBytes a) 16, wordAt (argBytes a) 20⟩ : Args) = a := by
    simp only [argBytes, List.append_assoc, wordAt_wordBytes, wordAt_wordBytes_add _ _ 0, wordAt_wordBytes_add _ _ 4,
      wordAt_wordBytes_add _ _ 8, wordAt_wordBytes_add _ _ 12, wordAt_wordBytes_add _ _ 16, ha5]
  rw [Sys2Proof.decode, if_neg (by omega), if_pos hlen, h0, hnext 0, hnext 4, hnext 8, hnext 12, hnext 16, hnext 20,
    hargs]

/-- Two bytes decode as the opcode they hold. -/
theorem decode_opcode (v : Word) :
    Sys2Proof.decode [byteOf v 0, byteOf v 1] = Sys2Proof.decodeOpcode (v.setWidth 16) := by
  rw [← half_of_byteOf v]; rfl

/-! ### Decoding after encoding -/

theorem encodes (i : Instr) : Laws.Encodes.Statement i := by
  cases i with
  | init rc tc rd td rb tb => exact Laws.Encodes.init rc tc rd td rb tb
  | read dest maxLen => exact Laws.Encodes.read dest maxLen
  | write src len tag => exact Laws.Encodes.write src len tag
  | setRxCb e => exact Laws.Encodes.setRxCb e
  | setTxWakeup e thr => exact Laws.Encodes.setTxWakeup e thr
  | service => exact Laws.Encodes.service
  | classify fr len => exact Laws.Encodes.classify fr len
  | decode fr len => exact Laws.Encodes.decode fr len
  | dispatch => exact Laws.Encodes.dispatch
  | opPoll => exact Laws.Encodes.opPoll
  | opDmx => exact Laws.Encodes.opDmx
  | opAddress => exact Laws.Encodes.opAddress

/-- A command's word and operands decode to it (R142, R144). -/
theorem decodeCommand_opWord (h : i.isOpcode = false) : Sys2Proof.decodeCommand i.opWord i.operandWords = .ok i := by
  simpa [h] using (encodes i).2

/-- An Art-Net opcode decodes to its instruction (R175). -/
theorem decodeOpcode_opWord (h : i.isOpcode = true) : Sys2Proof.decodeOpcode (i.opWord.setWidth 16) = .ok i := by
  simpa [h] using (encodes i).2

/-- Settles O1: the decoder on the encoder's bytes is the decoder on the word and the operands they were laid out
from. -/
theorem decodeAfterEncodeIsIdentity : Obligations.DecodeAfterEncodeIsIdentity := by
  unfold Obligations.DecodeAfterEncodeIsIdentity
  intro i
  rw [encode]
  split
  · next h => rw [decode_opcode, decodeOpcode_opWord h]
  · next h => rw [decode_command, decodeCommand_opWord (Bool.eq_false_of_not_eq_true h)]

/-! ### The words of the opcode table -/

theorem natBytes_toNat (w : Word) : natBytes 4 w.toNat = wordBytes w := by
  simp [natBytes, wordBytes, byteOf, Nat.shiftRight_eq_div_pow, Nat.div_div_eq_div_mul]

theorem natBytes_two_toNat (w : Word) : natBytes 2 w.toNat = [byteOf w 0, byteOf w 1] := by
  simp [natBytes, byteOf, Nat.shiftRight_eq_div_pow]

/-- A 32-bit row of the table stands for the command all of whose operand words are 0. -/
theorem decodeTableWord_command (i : Instr) (h : i.isOpcode = false) (hz : i.operandWords = Args.zero) :
    decodeTableWord 32 i.opWord.toNat = some i := by
  have hargs : List.replicate 24 0 = argBytes Args.zero := rfl
  rw [decodeTableWord, if_neg (Nat.not_le.mpr i.opWord.isLt), if_neg (by omega), if_pos rfl, natBytes_toNat, hargs,
    decode_command, ← hz, decodeCommand_opWord h]
  rfl

/-- A 16-bit row of the table stands for its Art-Net opcode. -/
theorem decodeTableWord_opcode (i : Instr) (h : i.isOpcode = true) (hlt : i.opWord.toNat < 2 ^ 16) :
    decodeTableWord 16 i.opWord.toNat = some i := by
  rw [decodeTableWord, if_neg (Nat.not_le.mpr hlt), if_pos rfl, natBytes_two_toNat, decode_opcode,
    decodeOpcode_opWord h]
  rfl

/-- Settles O2: each row is the word of its instruction, with operands of zero. -/
theorem tableWordsDecode : Obligations.TableWordsDecode := by
  unfold Obligations.TableWordsDecode
  exact ⟨decodeTableWord_command (.init 0 0 0 0 0 0) rfl rfl, decodeTableWord_command (.read 0 0) rfl rfl,
    decodeTableWord_command (.write 0 0 0) rfl rfl, decodeTableWord_command (.setRxCb false) rfl rfl,
    decodeTableWord_command (.setTxWakeup false 0) rfl rfl, decodeTableWord_command .service rfl rfl,
    decodeTableWord_command (.classify 0 0) rfl rfl, decodeTableWord_command (.decode 0 0) rfl rfl,
    decodeTableWord_command .dispatch rfl rfl, decodeTableWord_opcode .opPoll rfl (by decide),
    decodeTableWord_opcode .opDmx rfl (by decide), decodeTableWord_opcode .opAddress rfl (by decide)⟩

/-! ### Illegal command words (R141, R143) -/

/-- A word that decodes is the whole word of the command it decodes to, reserved bits included (R141). -/
theorem decodeCommand_ok (h : Sys2Proof.decodeCommand w a = .ok i) : w = i.opWord ∧ i.isOpcode = false := by
  unfold Sys2Proof.decodeCommand at h
  split_ifs at h <;> cases h <;> exact ⟨by assumption, rfl⟩

/-- Every command word of R142 is legal. -/
theorem opWord_wf (h : i.isOpcode = false) :
    CommandWord.wf ⟨i.opWord.setWidth 8, (i.opWord >>> 8).setWidth 24⟩ = true := by
  cases i with
  | opPoll | opDmx | opAddress => cases h
  | _ => simp [Instr.opWord, CommandWord.wf, commandOps]

/-- An illegal word is rejected, whatever its arguments. -/
theorem decodeCommand_error_of_not_wf (a : Args)
    (h : CommandWord.wf ⟨w.setWidth 8, (w >>> 8).setWidth 24⟩ = false) :
    ∃ e, Sys2Proof.decodeCommand w a = .error e := by
  cases hd : Sys2Proof.decodeCommand w a with
  | error e => exact ⟨e, rfl⟩
  | ok i =>
    obtain ⟨rfl, hi⟩ := decodeCommand_ok hd
    rw [opWord_wf hi] at h
    cases h

/-- The command engine's turn with no interrupt pending runs the pending command (R200, R201). -/
theorem step_runPending {rest : List Input} {p : Pending} (ht : TurnOf .ce s rest) (hirq : s.irqPending = false)
    (hp : s.cmd.pend = some p) : step s = runPending p (s.withInputs rest) := by
  obtain ⟨hwf, hfault, hin⟩ := ht
  have hp' : (s.withInputs rest).cmd.pend = some p := hp
  have hirq' : (s.withInputs rest).irqPending = false := hirq
  have hen : (s.withInputs rest).enabled .ce = true := by
    have hfault' : (s.withInputs rest).eng.fault = false := hfault
    simp [State.enabled, hfault', hp']
  rw [step_input hwf hin, applyInput, takeTurn, if_pos hen]
  simp only [agentStep, ceStep, hirq', hp', Bool.false_eq_true, if_false]

/-- Settles O3: an illegal word is rejected by the decoder, and a rejected word only completes. -/
theorem illegalWordOnlyCompletes : Obligations.IllegalWordOnlyCompletes := by
  unfold Obligations.IllegalWordOnlyCompletes
  intro s rest p ht hirq hp hill
  obtain ⟨e, he⟩ := decodeCommand_error_of_not_wf p.args hill
  rw [step_runPending ht hirq hp, runPending, he]
  rfl

end Sys2Proof.Machine
end

section
/-! PROOF. The command engine's turn (40_descriptor_ring.md R200, R201, R240), the commands that are turned away
(60_exceptions.md R423) and callback registration (R230 to R232). -/

namespace Sys2Proof.Machine

variable {s : State}

/-! ### The command engine's turn -/

/-- Settles O4. -/
theorem stepRunsPendingCommand : Obligations.StepRunsPendingCommand := by
  unfold Obligations.StepRunsPendingCommand
  intro s rest p i ht hirq hp hd
  rw [step_runPending ht hirq hp, runPending, hd]

/-- The command engine's turn with an interrupt pending is SERVICE on its own (R200, R240). -/
theorem step_autonomousService {rest : List Input} (ht : TurnOf .ce s rest) (hirq : s.irqPending = true) :
    step s = autonomousService (s.withInputs rest) := by
  obtain ⟨hwf, hfault, hin⟩ := ht
  have hirq' : (s.withInputs rest).irqPending = true := hirq
  have hen : (s.withInputs rest).enabled .ce = true := by
    have hfault' : (s.withInputs rest).eng.fault = false := hfault
    simp [State.enabled, hfault', hirq']
  rw [step_input hwf hin, applyInput, takeTurn, if_pos hen, agentStep, ceStep, if_pos hirq']

/-- Settles O6: the turn is SERVICE, whose frame leaves the command port alone and clears every captured condition. -/
theorem serviceRunsBeforeTheCommand : Obligations.ServiceRunsBeforeTheCommand := by
  unfold Obligations.ServiceRunsBeforeTheCommand
  intro s rest ht hirq
  refine ⟨step_autonomousService ht hirq, fun t h => ?_⟩
  rw [step_autonomousService ht hirq] at h
  obtain ⟨hcmd, -, -, -, -, hnone⟩ := autonomousService_frame h
  exact ⟨hcmd, hnone⟩

/-! ### Commands turned away (R423) -/

/-- INIT's two checks fail exactly outside the ranges of R203. -/
theorem initChecks_bad {p : Params} {rc tc rd td rb tb : Word} :
    (initCapsBad p rc tc = true ∨ initBasesBad rd td rb tb = true) ↔
      (rc.toNat ≤ 1 ∨ tc.toNat ≤ 1 ∨ p.ringMax < rc.toNat ∨ p.ringMax < tc.toNat
        ∨ rd.toNat % 4 ≠ 0 ∨ td.toNat % 4 ≠ 0 ∨ rb.toNat % 4 ≠ 0 ∨ tb.toNat % 4 ≠ 0) := by
  simp only [initCapsBad, initBasesBad, Bool.or_eq_true, decide_eq_true_eq, bne_iff_ne, or_assoc]

theorem initBody_param {rc tc rd td rb tb : Word}
    (h : initCapsBad s.params rc tc = true ∨ initBasesBad rd td rb tb = true) :
    initBody rc tc rd td rb tb s = .ok (.param, Results.zero) s := by
  rw [initBody, Op.current_bind]
  cases hc : initCapsBad s.params rc tc with
  | true => rfl
  | false => rw [h.resolve_left (by rw [hc]; decide)]; rfl

theorem readBody_param {dest : Word} (hdone : s.eng.initDone = true) :
    readBody dest 0 s = .ok (.param, Results.zero) s := by
  rw [readBody, Op.current_bind, if_neg (by rw [hdone]; decide), if_pos rfl]; rfl

theorem dispatchBody_param (h : s.params.maxNodes < s.cfg.count.toNat ∨ 512 < s.cfg.base.toNat + s.cfg.count.toNat) :
    dispatchBody s = .ok (.param, Results.zero) s := by
  have hbad : dispatchBad s.params s.cfg = true := by
    simp only [dispatchBad, Bool.or_eq_true, decide_eq_true_eq]
    exact h
  rw [dispatchBody, Op.current_bind, if_pos hbad]; rfl

theorem writeBody_invalidSize {src len : Word} {tag : Half} (hdone : s.eng.initDone = true)
    (h : len = 0 ∨ s.params.txUnit < len.toNat) :
    writeBody src len tag s = .ok (.invalidSize, Results.zero) s := by
  rw [writeBody, Op.current_bind, if_neg (by rw [hdone]; decide), if_pos h]; rfl

theorem writeBody_busy {src len : Word} {tag : Half} (hdone : s.eng.initDone = true) (hpos : len ≠ 0)
    (hle : len.toNat ≤ s.params.txUnit) (hfull : s.tx.count = s.tx.cap.toNat - 1) :
    writeBody src len tag s = .ok (.busy, Results.zero) s := by
  rw [writeBody, Op.current_bind, if_neg (by rw [hdone]; decide),
    if_neg (not_or.mpr ⟨hpos, Nat.not_lt.mpr hle⟩), if_pos hfull]
  rfl

/-- The body of each of the five ring commands starts with the check of INIT_DONE (R463). -/
theorem ringCommand_noInit {body : State → Op (Status × Results)} (h : s.eng.initDone = false) :
    (current >>= fun u => if u.eng.initDone = false then pure (.noInit, Results.zero) else body u) s
      = .ok (.noInit, Results.zero) s := by
  rw [Op.current_bind, if_pos h]; rfl

/-- Settles O8: each check stands before any update in its command's body. -/
theorem commandsTurnedAwayOnlyComplete : Obligations.CommandsTurnedAwayOnlyComplete := by
  unfold Obligations.CommandsTurnedAwayOnlyComplete
  refine ⟨fun s hdone => ⟨fun _ _ => ?_, fun _ _ _ => ?_, fun _ => ?_, fun _ _ => ?_, ?_⟩,
    fun s rc tc rd td rb tb hbad => runCommand_ok (initBody_param (initChecks_bad.mpr hbad)),
    fun s dest hdone => runCommand_ok (readBody_param hdone),
    fun s hbad => runCommand_ok (dispatchBody_param hbad),
    fun s src len tag hdone => ⟨fun hsize => runCommand_ok (writeBody_invalidSize hdone hsize),
      fun hpos hle hfull => runCommand_ok (writeBody_busy hdone hpos hle hfull)⟩⟩
  all_goals exact runCommand_ok (ringCommand_noInit hdone)

/-! ### Callback registration (R230 to R232) -/

/-- The check of INIT_DONE passes. -/
theorem ringCommand_init {body : State → Op (Status × Results)} (h : s.eng.initDone = true) :
    (current >>= fun u => if u.eng.initDone = false then pure (.noInit, Results.zero) else body u) s = body s s := by
  rw [Op.current_bind, if_neg (by rw [h]; decide)]

theorem setRxCbBody_ok (e : Bool) (hdone : s.eng.initDone = true) :
    setRxCbBody e s = .ok (.ok, Results.zero)
      { s with cb := { s.cb with rxCbEn := e }, net := { s.net with imr := { s.net.imr with rcomp := e } } } :=
  ringCommand_init hdone

/-- A legal threshold arms the wakeup, which is due at once when that many descriptors are free (R231). -/
theorem setTxWakeupBody_arm {thr : Word} (hdone : s.eng.initDone = true)
    (h : ¬ (thr = 0 ∨ s.tx.cap.toNat - 1 < thr.toNat)) :
    setTxWakeupBody true thr s = .ok (.ok, Results.zero) { s with
      cb := { s.cb with txwEn := true, txwThr := thr.setWidth 16 }
      ev := s.ev.pushAll s.params.evqDepth (if thr.toNat ≤ s.tx.free then [evTxWakeup s.tx.free] else []) } := by
  refine (ringCommand_init hdone).trans ?_
  rw [if_pos rfl, if_neg h, Op.update_bind]
  refine (Op.bind_ok _ (emitIf_ok _ _ _)).trans ?_
  simp only [decide_eq_true_eq]
  rfl

theorem setTxWakeupBody_param {thr : Word} (hdone : s.eng.initDone = true)
    (h : thr = 0 ∨ s.tx.cap.toNat - 1 < thr.toNat) :
    setTxWakeupBody true thr s = .ok (.param, Results.zero) s := by
  refine (ringCommand_init hdone).trans ?_
  rw [if_pos rfl, if_pos h]; rfl

theorem setTxWakeupBody_disarm (thr : Word) (hdone : s.eng.initDone = true) :
    setTxWakeupBody false thr s
      = .ok (.ok, Results.zero) { s with cb := { s.cb with txwEn := false, txwThr := 0 } } :=
  ringCommand_init hdone

/-- Settles O19. -/
theorem callbackRegistrationsTakeEffect : Obligations.CallbackRegistrationsTakeEffect := by
  unfold Obligations.CallbackRegistrationsTakeEffect
  refine ⟨fun s e hdone => runCommand_ok (setRxCbBody_ok e hdone), fun s thr hdone =>
    ⟨fun h1 h2 => runCommand_ok (setTxWakeupBody_arm hdone ?_),
      fun hbad => runCommand_ok (setTxWakeupBody_param hdone hbad),
      runCommand_ok (setTxWakeupBody_disarm thr hdone)⟩⟩
  rintro (rfl | h)
  · exact absurd h1 (by decide)
  · omega

end Sys2Proof.Machine
end

section
/-! PROOF. INIT (40_descriptor_ring.md R202 to R205) and WRITE (R220 to R222): the state each leaves when every access
is valid, and what WRITE leaves alone however it ends. -/

namespace Sys2Proof.Machine

variable {s t : State} {m : List Host.Cell} {n : Nat}

/-! ### INIT -/

/-- An array can be accessed when each of its descriptors can. -/
theorem accessValid_array {p : Params} {base : Word} (h : ∀ i, i < n → AccessValid p (descAddr base i) 8) :
    AccessValid p base (8 * n) := by
  intro j hj
  have hdesc := h (j / 8) (by omega) (j % 8) (by omega)
  rwa [descAddr_add, Nat.div_add_mod] at hdesc

/-- The parameters that INIT accepts (R203). -/
theorem initChecks_good {p : Params} {rc tc rd td rb tb : Word} (h1 : 1 < rc.toNat) (h2 : 1 < tc.toNat)
    (h3 : rc.toNat ≤ p.ringMax) (h4 : tc.toNat ≤ p.ringMax) (h5 : rd.toNat % 4 = 0) (h6 : td.toNat % 4 = 0)
    (h7 : rb.toNat % 4 = 0) (h8 : tb.toNat % 4 = 0) :
    initCapsBad p rc tc = false ∧ initBasesBad rd td rb tb = false := by
  have hgood := mt (initChecks_bad (p := p) (rc := rc) (tc := tc) (rd := rd) (td := td) (rb := rb) (tb := tb)).mp
    (by omega)
  simpa only [not_or, Bool.not_eq_true] using hgood

/-- Memory after INIT: the receive array, then the transmit array (R203, R205). -/
def initMem (p : Params) (rc tc rd td rb tb : Word) (m : List Host.Cell) : List Host.Cell :=
  initCells td (bufferAddr tb p.txUnit) (txInitWord1 (tc.setWidth 16).toNat) 0 tc.toNat
    (initCells rd (rxInitWord0 rb p.rxUnit (rc.setWidth 16).toNat) (fun _ => 0) 0 rc.toNat m)

/-- INIT writes no byte outside the two arrays. -/
theorem initMem_other {p : Params} {rc tc rd td rb tb x : Word}
    (hr : ∀ i, i < rc.toNat → Outside (descAddr rd i) 8 x)
    (ht : ∀ i, i < tc.toNat → Outside (descAddr td i) 8 x) :
    readCell (initMem p rc tc rd td rb tb m) x.toNat = readCell m x.toNat := by
  rw [initMem, initCells_other fun i _ hi => ht i (by omega), initCells_other fun i _ hi => hr i (by omega)]

/-- INIT writes both arrays when they lie apart. -/
theorem initMem_words {p : Params} {rc tc rd td rb tb : Word} (hm : Memory.wf m = true) (hrc : rc.toNat < 65536)
    (htc : tc.toNat < 65536) (hapart : Apart rd (8 * rc.toNat) td (8 * tc.toNat)) :
    (∀ i, i < rc.toNat → readWord (initMem p rc tc rd td rb tb m) (descAddr rd i)
          = rxInitWord0 rb p.rxUnit (rc.setWidth 16).toNat i
        ∧ readWord (initMem p rc tc rd td rb tb m) (descAddr rd i + 4) = 0)
      ∧ ∀ i, i < tc.toNat → readWord (initMem p rc tc rd td rb tb m) (descAddr td i) = bufferAddr tb p.txUnit i
        ∧ readWord (initMem p rc tc rd td rb tb m) (descAddr td i + 4) = txInitWord1 (tc.setWidth 16).toNat i := by
  refine ⟨fun i hi => ?_, fun i hi => initCells_words (initCells_wf hm) (by omega) (Nat.zero_le i) (by omega)⟩
  obtain ⟨h0, h1⟩ := descWords_congr hi (sameOn_initCells hapart)
  obtain ⟨w0, w1⟩ := initCells_words (base := rd) (w0 := rxInitWord0 rb p.rxUnit (rc.setWidth 16).toNat)
    (w1 := fun _ => 0) hm (i := 0) (n := rc.toNat) (by omega) (Nat.zero_le i) (by omega)
  exact ⟨h0.trans w0, h1.trans w1⟩

/-- INIT on good parameters with accessible arrays completes with OK, in the state of R203. -/
theorem exec_init_ok {rc tc rd td rb tb : Word} (hc : initCapsBad s.params rc tc = false)
    (hb : initBasesBad rd td rb tb = false) (hr : ∀ i, i < rc.toNat → AccessValid s.params (descAddr rd i) 8)
    (ht : ∀ i, i < tc.toNat → AccessValid s.params (descAddr td i) 8) :
    exec (.init rc tc rd td rb tb) s = .next
      ((((s.initStart rc tc rd td rb tb).withMem (initMem s.params rc tc rd td rb tb s.mem)).initFinish
        rc tc rd td rb tb).complete 0x01 .ok Results.zero) :=
  runCommand_ok (initBody_ok hc hb (accessValid_array hr) (accessValid_array ht))

/-- Settles O9. -/
theorem initCompletes : Obligations.InitCompletes := by
  unfold Obligations.InitCompletes
  intro s rc tc rd td rb tb _ h1 h2 h3 h4 h5 h6 h7 h8 hr ht
  obtain ⟨hc, hb⟩ := initChecks_good h1 h2 h3 h4 h5 h6 h7 h8
  exact ⟨_, exec_init_ok hc hb hr ht, fun x hxr hxt => initMem_other hxr hxt⟩

/-- The last descriptor of an array, counted from 0. -/
theorem succ_eq_iff_last {i : Nat} (h : i < n) : i + 1 = n ↔ i = n - 1 := by omega

/-- Word 0 of a fresh receive descriptor, as R205 writes it out. -/
theorem rxInitWord0_eq {bb : Word} {unit i : Nat} (h : i < n) :
    rxInitWord0 bb unit n i
      = ((bb + BitVec.ofNat 32 (i * unit)) &&& 0xFFFFFFFC) ||| (if i = n - 1 then 0x2 else 0) := by
  simp only [rxInitWord0, rxAddr, bufferAddr, succ_eq_iff_last h]

/-- Word 1 of a fresh transmit descriptor, as R205 writes it out. -/
theorem txInitWord1_eq {i : Nat} (h : i < n) :
    txInitWord1 n i = 0x80000000 ||| (if i = n - 1 then 0x40000000 else 0) := by
  simp only [txInitWord1, succ_eq_iff_last h]

/-- Settles O10. -/
theorem initWritesTheDescriptors : Obligations.InitWritesTheDescriptors := by
  unfold Obligations.InitWritesTheDescriptors
  intro s rc tc rd td rb tb hwf hm h1 h2 h3 h4 h5 h6 h7 h8 hr ht hapart
  obtain ⟨hc, hb⟩ := initChecks_good h1 h2 h3 h4 h5 h6 h7 h8
  obtain ⟨⟨-, -, hre⟩, -, -, hte⟩ := initCaps_legal hwf hc
  obtain ⟨hrx, htx⟩ := initMem_words (p := s.params) (rb := rb) (tb := tb) hm (hre ▸ (rc.setWidth 16).isLt)
    (hte ▸ (tc.setWidth 16).isLt) hapart
  refine ⟨_, exec_init_ok hc hb hr ht, rfl, fun i hi => ?_, fun i hi => ?_⟩
  · have hw := hrx i hi
    rw [hre, rxInitWord0_eq hi] at hw
    exact hw
  · have hw := htx i hi
    rw [hte, txInitWord1_eq hi] at hw
    exact hw

/-! ### WRITE -/

/-- WRITE's start of transmission: TXGO is set if TXEN is (R222). -/
theorem tstart_eq (s : State) : s.tstart = s.withTx { s.tx with go := s.tx.go || s.net.txen } := by
  cases he : s.net.txen with
  | true => rw [State.tstart, if_pos he, Bool.or_true]
  | false => rw [State.tstart, if_neg (by rw [he]; decide), Bool.or_false]; rfl

/-- Memory after WRITE fills descriptor `h`: the frame in its buffer, then its word 1 (R221). -/
def State.writtenMem (s : State) (src len : Word) (h : Nat) : List Host.Cell :=
  writeWord (copyCells s.mem (readWord s.mem (s.tx.desc h)) src len.toNat) (s.tx.desc h + 4)
    (txWriteWord1 len s.tx.cap.toNat h)

/-- WRITE after its checks, when every byte it touches can be accessed. -/
theorem writeFill_valid {src len : Word} {tag : Half} {h : Nat} (hv : AccessValid s.params (s.tx.desc h) 8)
    (hb : AccessValid s.params (readWord s.mem (s.tx.desc h)) len.toNat) (hs : AccessValid s.params src len.toNat) :
    writeFill src len tag h s = .ok (.ok, ⟨BitVec.ofNat 32 h, 0, 0, 0⟩) { s with
      mem := s.writtenMem src len h
      tx := { s.tx with
        head := BitVec.ofNat 16 (ringInc s.tx.cap.toNat h), tags := s.tx.tags.set h tag
        go := s.tx.go || s.net.txen } } := by
  unfold writeFill
  rw [Op.current_bind, Op.bind_ok _ (memRead32_ok hv.first)]
  refine (Op.bind_ok _ (copy_ok hb hs)).trans ?_
  rw [Op.update_bind]
  refine (Op.bind_ok _ (memWrite32_ok (s := (s.withMem (copyCells s.mem (readWord s.mem (s.tx.desc h)) src
    len.toNat)).withTx { s.tx with tags := s.tx.tags.set h tag }) hv.second)).trans ?_
  rw [Op.update_bind, Op.update_bind]
  exact congrArg (EStateM.Result.ok _) (tstart_eq _)

/-- The checks of R221 pass: WRITE fills the descriptor at TX_HEAD. -/
theorem writeBody_fill {src len : Word} {tag : Half} (hdone : s.eng.initDone = true) (hpos : len ≠ 0)
    (hle : len.toNat ≤ s.params.txUnit) (hroom : s.tx.count ≠ s.tx.cap.toNat - 1) :
    writeBody src len tag s = writeFill src len tag s.tx.head.toNat s := by
  rw [writeBody, Op.current_bind, if_neg (by rw [hdone]; decide),
    if_neg (not_or.mpr ⟨hpos, Nat.not_lt.mpr hle⟩), if_neg hroom]

/-- Settles O17. -/
theorem writeCompletes : Obligations.WriteCompletes := by
  unfold Obligations.WriteCompletes
  rintro s src len tag buf _ hm hdone hpos hle hhead hroom hv rfl hs hb hsrc hdesc
  have hbody := (writeBody_fill (tag := tag) (src := src) hdone hpos hle hroom).trans (writeFill_valid hv hb hs)
  have hcopied := copyCells_wf (n := len.toNat) (dst := readWord s.mem (s.tx.desc s.tx.head.toNat)) (src := src) hm
  refine ⟨s.writtenMem src len s.tx.head.toNat, ?_, fun j hj => ?_, ?_, fun x hx1 hx2 => ?_⟩
  · rw [show exec (.write src len tag) s = _ from runCommand_ok hbody, BitVec.ofNat_toNat]
    rfl
  · have hout := hdesc.outside hj
    rw [State.writtenMem, readCell_writeWord_other hout.second]
    exact copyCells_same hm (Nat.le_of_lt len.isLt) hsrc hj
  · rw [State.writtenMem, readWord_writeWord_same hcopied, txWriteWord1]
    simp only [succ_eq_iff_last hhead]
  · rw [State.writtenMem, readCell_writeWord_other hx2, copyCells_other hx1]
    rfl

/-- The registers that WRITE leaves alone. -/
def WriteKeeps (s u : State) : Prop :=
  u.params = s.params ∧ u.rx = s.rx ∧ u.net = s.net ∧ u.cb = s.cb ∧ u.ev = s.ev ∧ u.cfg = s.cfg ∧ u.dmx = s.dmx
    ∧ u.dispFail = s.dispFail ∧ u.out = s.out ∧ u.env = s.env
    ∧ u.tx = { s.tx with head := u.tx.head, tags := u.tx.tags, go := u.tx.go }
    ∧ u.cmd.args = s.cmd.args ∧ u.cmd.cmdOvr = s.cmd.cmdOvr ∧ u.eng.initDone = s.eng.initDone

/-- The bytes that WRITE leaves alone. -/
def WriteSpares (s : State) (len : Word) (u : State) : Prop :=
  ∀ x, Outside (readWord s.mem (s.tx.desc s.tx.head.toNat)) len.toNat x →
    Outside (s.tx.desc s.tx.head.toNat + 4) 4 x → u.byte x = s.byte x

/-- What holds while WRITE runs from `s`. -/
def Written (s : State) (len : Word) (u : State) : Prop := WriteKeeps s u ∧ WriteSpares s len u

/-- Another head, tag table or TXGO is within the frame. -/
theorem WriteKeeps.withTx {u : State} (h : WriteKeeps s u) (head : Half) (tags : List Half) (go : Bool) :
    WriteKeeps s (u.withTx { u.tx with head := head, tags := tags, go := go }) := by
  obtain ⟨h1, h2, h3, h4, h5, h6, h7, h8, h9, h10, htx, rest⟩ := h
  exact ⟨h1, h2, h3, h4, h5, h6, h7, h8, h9, h10, by rw [State.withTx_tx, htx], rest⟩

/-- Settles O18: each update of WRITE is within the frame, and its writes are to the buffer and to word 1. -/
theorem writeFrame : Obligations.WriteFrame := by
  unfold Obligations.WriteFrame
  intro s t src len tag hx
  suffices h : Written s len t by
    obtain ⟨⟨h1, h2, h3, h4, h5, h6, h7, h8, h9, h10, h11, h12, h13, h14⟩, h15⟩ := h
    exact ⟨h1, h2, h3, h4, h5, h6, h7, h8, h9, h10, h11, h12, h13, h14, h15⟩
  have hs : Written s len s :=
    ⟨⟨rfl, rfl, rfl, rfl, rfl, rfl, rfl, rfl, rfl, rfl, rfl, rfl, rfl, rfl⟩, fun _ _ _ => rfl⟩
  refine runCommand_final (I := Written s len)
    (writeBody_final (I := Written s len) hs ?copy ?word ?tag ?head ?go) (fun _ _ _ hu => hu) (fun _ _ hu => hu) hx
  case copy =>
    refine fun u j b hj hu => ⟨hu.1, fun x hx1 hx2 => ?_⟩
    exact (readCell_writeCell_other fun he => hx1 j hj (BitVec.eq_of_toNat_eq he)).trans (hu.2 x hx1 hx2)
  case word => exact fun u v hu => ⟨hu.1, fun x hx1 hx2 => (readCell_writeWord_other hx2).trans (hu.2 x hx1 hx2)⟩
  case tag => exact fun u hu => ⟨hu.1.withTx _ _ _, hu.2⟩
  case head => exact fun u hu => ⟨hu.1.withTx _ _ _, hu.2⟩
  case go => exact fun u hu => by rw [tstart_eq]; exact ⟨hu.1.withTx _ _ _, hu.2⟩

end Sys2Proof.Machine
end

section
/-! PROOF. SERVICE (40_descriptor_ring.md R240 to R249), as a command and on its own: the state it leaves when every
descriptor it touches can be accessed, and what it leaves alone however it ends. -/

namespace Sys2Proof.Machine

variable {s t u : State} {n : Nat} {r : Results}

/-! ### The two forms of SERVICE (R240) -/

/-- SERVICE that ends: the command completes with its results, and on its own it leaves its state. -/
theorem service_forms (hdone : s.eng.initDone = true) (h : serviceBody s = .ok r u) :
    exec .service s = .next (u.complete 0x06 .ok r) ∧ autonomousService s = .next u := by
  have hcommand : serviceCommand s = .ok (.ok, r) u := (ringCommand_init hdone).trans (Op.bind_ok _ h)
  refine ⟨runCommand_ok hcommand, ?_⟩
  rw [autonomousService, runAgent, Op.bind_ok _ h]
  rfl

/-- Whatever holds after the body of SERVICE, ended or faulted, holds after either form of it. -/
theorem service_final {I : State → Prop} (hb : I (Op.final (serviceBody s)))
    (hs : s.eng.initDone = false → I s) (hc : ∀ v op st q, I v → I (v.complete op st q))
    (he : ∀ v op a, I v → I (v.takeBusFault .ce op a))
    (h : exec .service s = .next t ∨ autonomousService s = .next t) : I t := by
  rcases h with h | h
  · refine runCommand_final (body := serviceCommand) ?_ (fun v st q => hc v _ st q) (fun v a => he v _ a) h
    cases hdone : s.eng.initDone with
    | false => rw [serviceCommand, ringCommand_noInit hdone]; exact hs hdone
    | true =>
      rw [serviceCommand, ringCommand_init hdone, Op.bind_run]
      cases hr : serviceBody s <;> rw [hr] at hb <;> exact hb
  · refine runAgent_final (body := serviceBody >>= fun _ => pure ()) ?_ (fun v a => he v _ a) h
    rw [Op.bind_run]
    cases hr : serviceBody s <;> rw [hr] at hb <;> exact hb

/-! ### SERVICE when every access is valid (R241) -/

/-- SERVICE in both forms, for the number of sent frames that its walk finds. -/
theorem service_serviced (hdone : s.eng.initDone = true) (hh : s.tx.head.toNat < s.tx.cap.toNat)
    (ht : s.tx.tail.toNat < s.tx.cap.toNat) (hrv : rxError s.net.isr s.net.rsr = true → RxArrayValid s)
    (hv : TxArrayValid s) (hl : txError s.net.isr s.net.tsr = true → s.tx.tags.length = s.tx.cap.toNat)
    (hr : SentRun (s.withMem s.rxResetMem) n) :
    exec .service s = .next ((s.serviced n).complete 0x06 .ok ⟨s.net.isr.word, s.net.rsr.word, s.net.tsr.word,
        BitVec.ofNat 32 (serviceEvents s n).length⟩)
      ∧ autonomousService s = .next (s.serviced n) :=
  service_forms hdone (serviceBody_ok hh ht hrv hv hl hr)

/-- Without a receive error memory stays until the transmit ring's turn. -/
theorem rxResetMem_of_noError (h : rxError s.net.isr s.net.rsr = false) : s.rxResetMem = s.mem := by
  rw [State.rxResetMem, if_neg (by rw [h]; decide)]

/-- A receive ring reset writes every receive descriptor as R205 says, and no other byte (R245). -/
theorem rxResetMem_words (h : rxError s.net.isr s.net.rsr = true) (hm : Memory.wf s.mem = true) :
    (∀ i, i < s.rx.cap.toNat →
      readWord s.rxResetMem (s.rx.desc i)
          = ((s.rx.bbase + BitVec.ofNat 32 (i * s.params.rxUnit)) &&& 0xFFFFFFFC)
            ||| (if i = s.rx.cap.toNat - 1 then 0x2 else 0)
        ∧ readWord s.rxResetMem (s.rx.desc i + 4) = 0)
      ∧ ∀ x, (∀ i, i < s.rx.cap.toNat → Outside (s.rx.desc i) 8 x) →
          readCell s.rxResetMem x.toNat = s.byte x := by
  rw [State.rxResetMem, if_pos h]
  refine ⟨fun i hi => ?_, fun x hx => initCells_other fun i _ hi => hx i (by omega)⟩
  have hlt := s.rx.cap.isLt
  have hw := initCells_words (base := s.rx.dbase) (w1 := fun _ => 0)
    (w0 := rxInitWord0 s.rx.bbase s.params.rxUnit s.rx.cap.toNat) (i := 0) (n := s.rx.cap.toNat) hm
    (by omega) (Nat.zero_le i) (by omega)
  rw [rxInitWord0_eq hi] at hw
  exact hw

/-- Without a transmit error the transmit array stays. -/
theorem servicedMem_of_noError (h : txError s.net.isr s.net.tsr = false) : s.servicedMem = s.rxResetMem := by
  rw [State.servicedMem, if_neg (by rw [h]; decide)]

/-- A transmit ring reset writes every transmit descriptor as R205 says, and no other byte (R247). -/
theorem servicedMem_words (h : txError s.net.isr s.net.tsr = true) (hm : Memory.wf s.mem = true) :
    (∀ i, i < s.tx.cap.toNat →
      readWord s.servicedMem (s.tx.desc i) = s.tx.bbase + BitVec.ofNat 32 (i * s.params.txUnit)
        ∧ readWord s.servicedMem (s.tx.desc i + 4)
            = 0x80000000 ||| (if i = s.tx.cap.toNat - 1 then 0x40000000 else 0))
      ∧ ∀ x, (∀ i, i < s.tx.cap.toNat → Outside (s.tx.desc i) 8 x) →
          readCell s.servicedMem x.toNat = readCell s.rxResetMem x.toNat := by
  rw [State.servicedMem, if_pos h]
  refine ⟨fun i hi => ?_, fun x hx => initCells_other fun i _ hi => hx i (by omega)⟩
  have hlt := s.tx.cap.isLt
  have hw := initCells_words (base := s.tx.dbase) (w0 := bufferAddr s.tx.bbase s.params.txUnit)
    (w1 := txInitWord1 s.tx.cap.toNat) (i := 0) (n := s.tx.cap.toNat) (rxResetMem_wf hm)
    (by omega) (Nat.zero_le i) (by omega)
  rw [txInitWord1_eq hi] at hw
  exact hw

/-- Settles O20: without an error both resets are skipped. -/
theorem serviceReportsSentFrames : Obligations.ServiceReportsSentFrames := by
  unfold Obligations.ServiceReportsSentFrames
  rintro s u n events hdone hh ht hv hrx htx hr rfl rfl
  have hrx : rxError s.net.isr s.net.rsr = false := hrx
  have htx : txError s.net.isr s.net.tsr = false := htx
  have hu : s.serviced n = { s with
      tx := { s.tx with tail := BitVec.ofNat 16 ((s.tx.tail.toNat + n) % s.tx.cap.toNat) }
      net := { s.net with rsr := Rsr.none, tsr := Tsr.none, isr := IrqBits.none }
      ev := s.ev.pushAll s.params.evqDepth (serviceEvents s n) } := by
    simp only [State.serviced, servicedMem_of_noError htx, rxResetMem_of_noError hrx, hrx, htx, Bool.false_eq_true,
      if_false, Bool.or_false]
  rw [← hu]
  refine service_serviced hdone hh ht (fun h => ?_) hv (fun h => ?_) (by rw [rxResetMem_of_noError hrx]; exact hr)
  · rw [hrx] at h; cases h
  · rw [htx] at h; cases h

/-- Settles O21: the receive ring is reset, and the walk then finds its run of sent frames. -/
theorem receiveErrorResetsReceiveRing : Obligations.ReceiveErrorResetsReceiveRing := by
  unfold Obligations.ReceiveErrorResetsReceiveRing
  intro s _ hm hdone hh ht hrv hv hrx htx
  have hrx : rxError s.net.isr s.net.rsr = true := hrx
  have htx : txError s.net.isr s.net.tsr = false := htx
  obtain ⟨n, hr⟩ := sentRun_exists (s.withMem s.rxResetMem)
  obtain ⟨hcommand, hown⟩ := service_serviced hdone hh ht (fun _ => hrv) hv (fun h => by rw [htx] at h; cases h) hr
  obtain ⟨hwords, hother⟩ := rxResetMem_words hrx hm
  refine ⟨s.rxResetMem, n, s.serviced n, ?_, hcommand, hown, hr, fun ha => (sentRun_rxResetMem ht ha).mp hr,
    hwords, hother⟩
  simp only [State.serviced, servicedMem_of_noError htx, hrx, htx, Bool.false_eq_true, if_false, if_true,
    Bool.or_false, Bool.or_true]

/-- Settles O22: the receive ring is reset if there was a receive error, and the transmit ring at the end. -/
theorem transmitErrorAbortsPendingFrames : Obligations.TransmitErrorAbortsPendingFrames := by
  unfold Obligations.TransmitErrorAbortsPendingFrames
  intro s rxErr _ hm hdone hh ht hl he hrv hv htx
  obtain rfl : rxErr = rxError s.net.isr s.net.rsr := he
  have htx : txError s.net.isr s.net.tsr = true := htx
  obtain ⟨n, hr⟩ := sentRun_exists (s.withMem s.rxResetMem)
  obtain ⟨hcommand, hown⟩ := service_serviced hdone hh ht hrv hv (fun _ => hl) hr
  obtain ⟨hwords, hother⟩ := servicedMem_words htx hm
  refine ⟨s.rxResetMem, s.servicedMem, n, s.serviced n, ?_, hcommand, hown, hr, fun h => ?_, rxResetMem_of_noError,
    fun hrx => rxResetMem_words hrx hm, hwords, hother⟩
  · simp only [State.serviced, htx, if_true, Bool.or_true]
  · rcases h with hrx | ha
    · rwa [rxResetMem_of_noError hrx] at hr
    · exact (sentRun_rxResetMem ht ha).mp hr

/-! ### What SERVICE leaves alone (R241, R242) -/

/-- The registers that SERVICE leaves alone. -/
def ServiceKeeps (s u : State) : Prop :=
  u.params = s.params ∧ u.cb = s.cb ∧ u.cfg = s.cfg ∧ u.dmx = s.dmx ∧ u.dispFail = s.dispFail ∧ u.out = s.out
    ∧ u.env = s.env ∧ u.cmd.args = s.cmd.args ∧ u.cmd.cmdOvr = s.cmd.cmdOvr ∧ u.eng.initDone = s.eng.initDone
    ∧ u.rx.cap = s.rx.cap ∧ u.rx.dbase = s.rx.dbase ∧ u.rx.bbase = s.rx.bbase
    ∧ u.tx.cap = s.tx.cap ∧ u.tx.dbase = s.tx.dbase ∧ u.tx.bbase = s.tx.bbase ∧ u.net.imr = s.net.imr

/-- Every byte outside the two descriptor arrays stays. -/
def ServiceSpares (s u : State) : Prop :=
  ∀ x, (∀ i, i < s.rx.cap.toNat → Outside (s.rx.desc i) 8 x) → (∀ i, i < s.tx.cap.toNat → Outside (s.tx.desc i) 8 x) →
    u.byte x = s.byte x

/-- Every captured condition is clear. -/
def StatusClear (u : State) : Prop := u.net.isr = IrqBits.none ∧ u.net.rsr = Rsr.none ∧ u.net.tsr = Tsr.none

theorem StatusClear.irqPending (h : StatusClear u) : u.irqPending = false := by
  rw [State.irqPending, h.1]; rfl

/-- A write inside a descriptor is within the frame. -/
theorem ServiceSpares.writeDesc {a v w : Word} (h : ServiceSpares s u)
    (ha : ∀ x, (∀ i, i < s.rx.cap.toNat → Outside (s.rx.desc i) 8 x) →
      (∀ i, i < s.tx.cap.toNat → Outside (s.tx.desc i) 8 x) → Outside a 8 x) :
    ServiceSpares s (u.withMem (writeWord u.mem a v)) ∧ ServiceSpares s (u.withMem (writeWord u.mem (a + 4) w)) :=
  ⟨fun x hr ht => (readCell_writeWord_other (ha x hr ht).first).trans (h x hr ht),
    fun x hr ht => (readCell_writeWord_other (ha x hr ht).second).trans (h x hr ht)⟩

/-- Every update of SERVICE after the status is cleared is within the frame. -/
theorem keptByService_frame (s : State) :
    KeptByService (fun u => ServiceKeeps s u ∧ ServiceSpares s u ∧ StatusClear u) s.rx.cap.toNat s.tx.cap.toNat
      (fun _ => True) where
  rxCap _ hu := by
    obtain ⟨⟨-, -, -, -, -, -, -, -, -, -, h, -⟩, -⟩ := hu
    rw [h]
  txCap _ hu := by
    obtain ⟨⟨-, -, -, -, -, -, -, -, -, -, -, -, -, h, -⟩, -⟩ := hu
    rw [h]
  closed _ _ := trivial
  start _ _ := trivial
  clear _ hu := ⟨hu.1, hu.2.1, rfl, rfl, rfl⟩
  emit _ _ hu := hu
  rxStop _ hu := hu
  rxDesc i hi u v hu := by
    obtain ⟨hk, hm, hc⟩ := hu
    obtain ⟨-, -, -, -, -, -, -, -, -, -, -, hd, -⟩ := id hk
    have hdesc : u.rx.desc i = s.rx.desc i := by rw [RxRing.desc, hd]; rfl
    obtain ⟨h0, h1⟩ := hm.writeDesc (a := u.rx.desc i) (v := v) (w := v) fun x hr _ => hdesc ▸ hr i hi
    exact ⟨⟨hk, h0, hc⟩, ⟨hk, h1, hc⟩⟩
  rxStart _ hu := hu
  tail _ _ _ hu := hu
  txStop _ hu := hu
  txDesc i hi u v hu := by
    obtain ⟨hk, hm, hc⟩ := hu
    obtain ⟨-, -, -, -, -, -, -, -, -, -, -, -, -, -, hd, -⟩ := id hk
    have hdesc : u.tx.desc i = s.tx.desc i := by rw [TxRing.desc, hd]; rfl
    obtain ⟨h0, h1⟩ := hm.writeDesc (a := u.tx.desc i) (v := v) (w := v) fun x _ ht => hdesc ▸ ht i hi
    exact ⟨⟨hk, h0, hc⟩, ⟨hk, h1, hc⟩⟩
  tag _ _ hu := hu
  txStart _ hu := hu

/-- Settles O23: before INIT nothing happens; after it the status is cleared first, and stays clear. -/
theorem serviceFrame : Obligations.ServiceFrame := by
  unfold Obligations.ServiceFrame
  intro s t hx
  have hself : ServiceKeeps s s :=
    ⟨rfl, rfl, rfl, rfl, rfl, rfl, rfl, rfl, rfl, rfl, rfl, rfl, rfl, rfl, rfl, rfl, rfl⟩
  obtain ⟨hk, hm, hc⟩ := service_final
    (I := fun u => ServiceKeeps s u ∧ ServiceSpares s u ∧ (s.eng.initDone = true → StatusClear u))
    (by
      obtain ⟨h1, h2, h3⟩ := serviceBody_final (keptByService_frame s) ⟨hself, fun _ _ _ => rfl, rfl, rfl, rfl⟩
      exact ⟨h1, h2, fun _ => h3⟩)
    (fun hno => ⟨hself, fun _ _ _ => rfl, fun hdone => by rw [hno] at hdone; cases hdone⟩)
    (fun _ _ _ _ hu => hu) (fun _ _ _ hu => hu) hx
  obtain ⟨h1, h2, h3, h4, h5, h6, h7, h8, h9, h10, h11, h12, h13, h14, h15, h16, h17⟩ := hk
  refine ⟨h1, h2, h3, h4, h5, h6, h7, h8, h9, h10, h11, h12, h13, h14, h15, h16, h17, fun hdone => ?_, hm⟩
  obtain ⟨hisr, hrsr, htsr⟩ := hc hdone
  exact ⟨hisr, hrsr, htsr, StatusClear.irqPending ⟨hisr, hrsr, htsr⟩⟩

end Sys2Proof.Machine
end

section
/-! SUPPORT. READ's scan by position (40_descriptor_ring.md R211, R212): position `k` is ring index
`(RX_TAIL + k) mod N_RX`. The scan's own counters follow from where the frame it holds starts and how many descriptors
it holds, so each rule below moves a scan from one position to the next. -/

namespace Sys2Proof.Machine

variable {s : State} {m : List Host.Cell} {r : RxRing} {dest w0 w1 x : Word} {maxLen a nf c n k i j : Nat} {held : Bool}

/-! ### Positions -/

/-- The descriptor at a position. -/
def RxRing.scanDesc (r : RxRing) (k : Nat) : Word := r.desc ((r.tail.toNat + k) % r.cap.toNat)

theorem ringInc_position (cap p k : Nat) : ringInc cap ((p + k) % cap) = (p + (k + 1)) % cap := by
  rw [ringInc, Nat.mod_add_mod, Nat.add_assoc]

theorem scanDesc_apart (hi : i < r.cap.toNat) (hj : j < r.cap.toNat) (h : i ≠ j) :
    Apart (r.scanDesc i) 8 (r.scanDesc j) 8 := by
  have hcap := r.cap.isLt
  have hlt := fun k => Nat.mod_lt (r.tail.toNat + k) (show 0 < r.cap.toNat by omega)
  exact apart_desc (by have := hlt i; omega) (by have := hlt j; omega) (ring_ne hi hj h)

/-- The positions of one traversal are the ring's indices. -/
theorem exists_position (ht : r.tail.toNat < r.cap.toNat) (hi : i < r.cap.toNat) :
    ∃ k, k < r.cap.toNat ∧ r.scanDesc k = r.desc i := by
  refine ⟨(i + r.cap.toNat - r.tail.toNat) % r.cap.toNat, Nat.mod_lt _ (by omega), ?_⟩
  rw [RxRing.scanDesc, Nat.add_mod_mod, show r.tail.toNat + (i + r.cap.toNat - r.tail.toNat) = i + r.cap.toNat by omega,
    Nat.add_mod_right, Nat.mod_eq_of_lt hi]

/-! ### Releases by position (R206) -/

/-- Memory after the descriptors at the positions `a .. a + n - 1` are released. -/
def RxRing.release (r : RxRing) (a n : Nat) (m : List Host.Cell) : List Host.Cell :=
  releaseCells r.dbase r.cap.toNat ((r.tail.toNat + a) % r.cap.toNat) n m

theorem release_succ : r.release a (n + 1) m = r.release (a + 1) n (r.release a 1 m) := by
  unfold RxRing.release
  rw [releaseCells, ringInc_position]
  rfl

theorem release_wf (h : Memory.wf m = true) : Memory.wf (r.release a n m) = true := releaseCells_wf h

theorem release_other (hn : a + n ≤ r.cap.toNat) (h : ∀ k, k < n → Outside (r.scanDesc (a + k)) 4 x) :
    readCell (r.release a n m) x.toNat = readCell m x.toNat := by
  cases n with
  | zero => rfl
  | succ n =>
    refine releaseCells_other (Nat.mod_lt _ (by omega)) fun k hk => ?_
    rw [Nat.mod_add_mod, Nat.add_assoc]
    exact h k hk

/-- Word 0 of every descriptor after a run of releases. -/
theorem release_word0 (hm : Memory.wf m = true) (hn : a + n ≤ r.cap.toNat) (hk : k < r.cap.toNat) :
    readWord (r.release a n m) (r.scanDesc k)
      = if a ≤ k ∧ k < a + n then readWord m (r.scanDesc k) &&& 0xFFFFFFFE else readWord m (r.scanDesc k) := by
  split
  · next hin =>
    have hpos : (r.tail.toNat + a) % r.cap.toNat < r.cap.toNat := Nat.mod_lt _ (by omega)
    have hword := releaseCells_word (base := r.dbase) (n := n) (k := k - a) hm hpos (Nat.le_of_lt r.cap.isLt) (by omega)
      (by omega)
    rwa [Nat.mod_add_mod, Nat.add_assoc, Nat.add_sub_cancel' hin.1] at hword
  · next hout =>
    exact readWord_congr fun j hj => release_other hn fun i hi =>
      (scanDesc_apart hk (by omega) (by omega)).first_words j hj

/-- Word 1 of every descriptor stays through a run of releases. -/
theorem release_word1 (hn : a + n ≤ r.cap.toNat) (hk : k < r.cap.toNat) :
    readWord (r.release a n m) (r.scanDesc k + 4) = readWord m (r.scanDesc k + 4) := by
  refine readWord_congr fun j hj => release_other hn fun i hi => ?_
  by_cases he : k = a + i
  · rw [he]; exact (apart_words _).symm j hj
  · exact (scanDesc_apart hk (by omega) he).second_word.symm.first_word.symm j hj

theorem releaseRun_position (hcap : 0 < s.rx.cap.toNat)
    (h : ∀ k, k < n → AccessValid s.params (s.rx.scanDesc (a + k)) 4) :
    releaseRun ((s.rx.tail.toNat + a) % s.rx.cap.toNat) n s = .ok () (s.withMem (s.rx.release a n s.mem)) := by
  refine releaseRun_ok (Nat.mod_lt _ hcap) fun k hk => ?_
  rw [Nat.mod_add_mod, Nat.add_assoc]
  exact h k hk

/-! ### The scan by position -/

/-- The scan that has released the `a` descriptors before the frame it holds, if it holds one, and holds `nf`
descriptors of that frame, with `c` bytes copied. -/
def scanAt (r : RxRing) (a : Nat) (held : Bool) (nf c : Nat) : Scan :=
  ⟨(r.tail.toNat + a) % r.cap.toNat, (r.tail.toNat + (a + nf)) % r.cap.toNat, held, nf, c, a⟩

theorem scanStart_eq (h : r.tail.toNat < r.cap.toNat) : scanStart r.tail.toNat = scanAt r 0 false 0 0 := by
  simp only [scanStart, scanAt, Nat.add_zero, Nat.mod_eq_of_lt h]

/-- READ after its checks is the scan from position 0. -/
theorem readBody_scan {maxLen : Word} (hdone : s.eng.initDone = true) (hmax : maxLen ≠ 0)
    (ht : s.rx.tail.toNat < s.rx.cap.toNat) :
    readBody dest maxLen s
      = readScan dest maxLen.toNat s.rx.cap.toNat s.rx.cap.toNat (scanAt s.rx 0 false 0 0) s := by
  rw [readBody, Op.current_bind, if_neg (by rw [hdone]; decide), if_neg hmax, scanStart_eq ht]

/-- What the scan does with a software-owned descriptor once a SOF has been dealt with. -/
def scanTake (dest : Word) (maxLen n k unit : Nat) (w0 w1 : Word) (sc : Scan) : Op (Status × Results) :=
  if sc.inFrame = false then do
    releaseRun sc.p 1
    readScan dest maxLen n k { sc with t := ringInc n sc.p, p := ringInc n sc.p, released := sc.released + 1 }
  else do
    let b := min (usedBytes unit w1 (sc.nf + 1)) (maxLen - sc.copied)
    copy (dest + BitVec.ofNat 32 sc.copied) (rxAddr w0) b
    if rxEof w1 then do
      releaseRun sc.t (sc.nf + 1)
      setRxTail (ringInc n sc.p)
      pure (if sc.copied + b = rxLen w1 then .ok else .tooSmall,
        readResults (sc.copied + b) (rxLen w1) (sc.released + (sc.nf + 1)))
    else
      readScan dest maxLen n k { sc with p := ringInc n sc.p, nf := sc.nf + 1, copied := sc.copied + b }

/-- The descriptor at the scan's place can be accessed, is software-owned, and holds `w0` and `w1`. -/
structure Owned (s : State) (k : Nat) (w0 w1 : Word) : Prop where
  valid : AccessValid s.params (s.rx.scanDesc k) 8
  word0 : readWord s.mem (s.rx.scanDesc k) = w0
  word1 : readWord s.mem (s.rx.scanDesc k + 4) = w1
  own : rxOwn w0 = true

/-- One pass of the scan at a software-owned descriptor. -/
theorem readScan_owned {t : State} {sc : Scan} (h : Owned s (a + nf) w0 w1)
    (hsof : scanSof w1 (scanAt s.rx a held nf c) s = .ok sc t) :
    readScan dest maxLen n (k + 1) (scanAt s.rx a held nf c) s
      = scanTake dest maxLen n k s.params.rxUnit w0 w1 sc t := by
  obtain ⟨hv, rfl, rfl, hown⟩ := h
  rw [readScan, Op.current_bind]
  refine (Op.bind_ok _ (memRead32_ok hv.first)).trans ?_
  rw [if_neg (show ¬ rxOwn (readWord s.mem (s.rx.scanDesc (a + nf))) = false by rw [hown]; decide)]
  exact (Op.bind_ok _ (memRead32_ok hv.second)).trans (Op.bind_ok _ hsof)

/-- A SOF changes nothing for a scan that has just begun its frame there, and no SOF changes nothing (R211). -/
theorem scanSof_stays (h : rxSof w1 = true → held = true ∧ nf = 0 ∧ c = 0) :
    scanSof w1 (scanAt s.rx a held nf c) s = .ok (scanAt s.rx a held nf c) s := by
  unfold scanSof
  split
  · next hsof => obtain ⟨rfl, rfl, rfl⟩ := h hsof; rfl
  · rfl

/-- An orphan is released, and the scan goes on behind it (R211). -/
theorem readScan_orphan (h : Owned s a w0 w1) (hsof : rxSof w1 = false) (hcap : 0 < s.rx.cap.toNat) :
    readScan dest maxLen s.rx.cap.toNat (k + 1) (scanAt s.rx a false 0 c) s
      = readScan dest maxLen s.rx.cap.toNat k (scanAt s.rx (a + 1) false 0 c) (s.withMem (s.rx.release a 1 s.mem)) := by
  rw [readScan_owned h (scanSof_stays fun h => by rw [hsof] at h; cases h), scanTake,
    if_pos (show (scanAt s.rx a false 0 c).inFrame = false from rfl)]
  have hrel := releaseRun_position (s := s) (a := a) (n := 1) hcap fun k hk => by
    obtain rfl : k = 0 := by omega
    exact h.valid.first
  refine (Op.bind_ok _ hrel).trans ?_
  simp only [scanAt, ringInc_position, Nat.add_zero]

/-- A SOF releases what the scan holds of a stale frame, and begins a frame at its descriptor (R211). -/
theorem readScan_sof (h : Owned s (a + nf) w0 w1) (hsof : rxSof w1 = true) (hm : Memory.wf s.mem = true)
    (hin : a + nf < s.rx.cap.toNat) (hv : ∀ j, j < nf → AccessValid s.params (s.rx.scanDesc (a + j)) 4) :
    readScan dest maxLen n (k + 1) (scanAt s.rx a held nf c) s
      = readScan dest maxLen n (k + 1) (scanAt s.rx (a + nf) true 0 0) (s.withMem (s.rx.release a nf s.mem)) := by
  have hbegin : scanSof w1 (scanAt s.rx a held nf c) s
      = .ok (scanAt s.rx (a + nf) true 0 0) (s.withMem (s.rx.release a nf s.mem)) := by
    rw [scanSof, if_pos hsof]
    exact Op.bind_ok _ (releaseRun_position (by omega) hv)
  have hsame : Owned (s.withMem (s.rx.release a nf s.mem)) (a + nf) w0 w1 := by
    refine ⟨h.valid, ?_, ?_, h.own⟩
    · exact (release_word0 hm (by omega) hin).trans ((if_neg (by omega)).trans h.word0)
    · exact (release_word1 (by omega) hin).trans h.word1
  rw [readScan_owned h hbegin]
  exact (readScan_owned (nf := 0) hsame (scanSof_stays fun _ => ⟨rfl, rfl, rfl⟩)).symm

/-- A descriptor of the frame that does not end it: its bytes are copied, and the scan goes on behind it (R211). -/
theorem readScan_fragment {b : Nat} (h : Owned s (a + nf) w0 w1) (hsof : rxSof w1 = true → nf = 0 ∧ c = 0)
    (heof : rxEof w1 = false) (hb : b = min s.params.rxUnit (maxLen - c))
    (hd : AccessValid s.params (dest + BitVec.ofNat 32 c) b) (hs : AccessValid s.params (rxAddr w0) b) :
    readScan dest maxLen s.rx.cap.toNat (k + 1) (scanAt s.rx a true nf c) s
      = readScan dest maxLen s.rx.cap.toNat k (scanAt s.rx a true (nf + 1) (c + b))
          (s.withMem (copyCells s.mem (dest + BitVec.ofNat 32 c) (rxAddr w0) b)) := by
  have hused : usedBytes s.params.rxUnit w1 (nf + 1) = s.params.rxUnit := by
    rw [usedBytes, if_neg (by rw [heof]; decide)]
  subst hb
  rw [readScan_owned h (scanSof_stays fun h => ⟨rfl, hsof h⟩), scanTake,
    if_neg (show ¬ (scanAt s.rx a true nf c).inFrame = false from Bool.noConfusion)]
  simp only [scanAt, hused, heof, ringInc_position, Bool.false_eq_true, if_false]
  exact Op.bind_ok _ (copy_ok hd hs)

/-- The descriptor that ends the frame: its bytes are copied, every descriptor of the frame is released, and RX_TAIL
passes them (R211, R213). -/
theorem readScan_end {b : Nat} (h : Owned s (a + nf) w0 w1) (hsof : rxSof w1 = true → nf = 0 ∧ c = 0)
    (heof : rxEof w1 = true) (hcap : 0 < s.rx.cap.toNat)
    (hb : b = min (usedBytes s.params.rxUnit w1 (nf + 1)) (maxLen - c))
    (hd : AccessValid s.params (dest + BitVec.ofNat 32 c) b) (hs : AccessValid s.params (rxAddr w0) b)
    (hv : ∀ j, j < nf + 1 → AccessValid s.params (s.rx.scanDesc (a + j)) 4) :
    readScan dest maxLen s.rx.cap.toNat (k + 1) (scanAt s.rx a true nf c) s
      = .ok (if c + b = rxLen w1 then .ok else .tooSmall, readResults (c + b) (rxLen w1) (a + (nf + 1)))
          ((s.withMem (s.rx.release a (nf + 1) (copyCells s.mem (dest + BitVec.ofNat 32 c) (rxAddr w0) b))).withRx
            { s.rx with tail := BitVec.ofNat 16 ((s.rx.tail.toNat + (a + (nf + 1))) % s.rx.cap.toNat) }) := by
  subst hb
  rw [readScan_owned h (scanSof_stays fun h => ⟨rfl, hsof h⟩), scanTake,
    if_neg (show ¬ (scanAt s.rx a true nf c).inFrame = false from Bool.noConfusion)]
  simp only [scanAt, heof, ringInc_position, if_true]
  refine (Op.bind_ok _ (copy_ok hd hs)).trans ?_
  exact Op.bind_ok _ (releaseRun_position (s := s.withMem (copyCells s.mem (dest + BitVec.ofNat 32 c) (rxAddr w0)
    (min (usedBytes s.params.rxUnit w1 (nf + 1)) (maxLen - c)))) (a := a) hcap hv)

/-- The scan meets a hardware-owned descriptor: EMPTY, with RX_TAIL at the frame it holds (R214). -/
theorem readScan_stop (hv : AccessValid s.params (s.rx.scanDesc (a + nf)) 4)
    (hown : rxOwn (readWord s.mem (s.rx.scanDesc (a + nf))) = false) :
    readScan dest maxLen n (k + 1) (scanAt s.rx a held nf c) s = .ok (.empty, readResults 0 0 a)
      (s.withRx { s.rx with tail := BitVec.ofNat 16 ((s.rx.tail.toNat + a) % s.rx.cap.toNat) }) :=
  readScan_empty (sc := scanAt s.rx a held nf c) hv hown

/-- The scan has examined every descriptor: RX_ERROR, and what it holds is released (R215). -/
theorem readScan_over (hcap : 0 < s.rx.cap.toNat) (hv : ∀ j, j < nf → AccessValid s.params (s.rx.scanDesc (a + j)) 4) :
    readScan dest maxLen s.rx.cap.toNat 0 (scanAt s.rx a held nf c) s = .ok (.rxError, readResults 0 0 (a + nf))
      ((s.withMem (s.rx.release a nf s.mem)).withRx
        { s.rx with tail := BitVec.ofNat 16 ((s.rx.tail.toNat + (a + nf)) % s.rx.cap.toNat) }) := by
  rw [readScan]
  refine (Op.bind_ok _ (releaseRun_position hcap hv)).trans ?_
  simp only [scanAt, Nat.mod_add_mod, Nat.add_assoc]
  rfl

end Sys2Proof.Machine
end

section
/-! PROOF. READ (40_descriptor_ring.md R210 to R216). A scan passes orphans, perhaps a stale frame, then a frame it
completes or one still arriving. The bytes a frame's descriptors bring to `dest` are one function of memory, whichever
of these the frame is; what READ leaves is read off from it and from the releases around it. -/

namespace Sys2Proof.Machine

variable {s t u : State} {m : List Host.Cell} {r : RxRing} {dest x : Word} {buf : Nat → Word}
  {unit lim maxLen a o h n k i j c f : Nat} {held : Bool}

/-! ### What the fragments of a frame bring to `dest` (R212) -/

/-- Memory after the buffers of `n` descriptors are copied to `dest` one behind the other, `lim` bytes at most. -/
def fragCells (dest : Word) (unit lim : Nat) (buf : Nat → Word) : Nat → List Host.Cell → List Host.Cell
  | 0, m => m
  | n + 1, m =>
    copyCells (fragCells dest unit lim buf n m) (dest + BitVec.ofNat 32 (min (unit * n) lim)) (buf n)
      (min (unit * (n + 1)) lim - min (unit * n) lim)

theorem fragCells_wf (hm : Memory.wf m = true) : Memory.wf (fragCells dest unit lim buf n m) = true := by
  induction n with
  | zero => exact hm
  | succ n ih => exact copyCells_wf ih

/-- Only the buffers of the fragments copied matter. -/
theorem fragCells_congr {buf' : Nat → Word} (hb : ∀ k, k < n → buf' k = buf k) :
    fragCells dest unit lim buf' n m = fragCells dest unit lim buf n m := by
  induction n with
  | zero => rfl
  | succ n ih => rw [fragCells, fragCells, ih fun k hk => hb k (by omega), hb n (Nat.lt_succ_self n)]

theorem min_mul_mono (hij : i ≤ j) : min (unit * i) lim ≤ min (unit * j) lim :=
  min_le_min_right lim (Nat.mul_le_mul_left unit hij)

/-- Part of a range lies outside what the whole lies outside of. -/
theorem Outside.part {a : Word} (hx : Outside a n x) (hjk : j + k ≤ n) : Outside (a + BitVec.ofNat 32 j) k x := by
  intro i hi
  rw [BitVec.add_assoc, ← BitVec.ofNat_add]
  exact hx (j + i) (by omega)

/-- No byte outside the copied part of `dest` changes. -/
theorem fragCells_other (hx : Outside dest (min (unit * n) lim) x) :
    readCell (fragCells dest unit lim buf n m) x.toNat = readCell m x.toNat := by
  induction n with
  | zero => rfl
  | succ n ih =>
    have hle : min (unit * n) lim ≤ min (unit * (n + 1)) lim := min_mul_mono (Nat.le_succ n)
    rw [fragCells, copyCells_other (hx.part (by omega)), ih fun i hi => hx i (by omega)]

/-- Words apart from the copied part of `dest` stay. -/
theorem readWord_fragCells {b : Word} (hb : Apart dest (min (unit * n) lim) b 4) :
    readWord (fragCells dest unit lim buf n m) b = readWord m b :=
  readWord_congr fun _ hj => fragCells_other (hb.symm.outside hj)

/-- Byte `j` of the `k`-th buffer stands at its place in the frame, when the buffers lie outside `dest`. -/
theorem fragCells_bytes (hm : Memory.wf m = true) (hlim : lim < 2 ^ 32)
    (hout : ∀ k j, k < n → j < unit → unit * k + j < lim →
      Outside dest (min (unit * n) lim) (buf k + BitVec.ofNat 32 j))
    (hk : k < n) (hj : j < unit) (hkj : unit * k + j < lim) :
    readCell (fragCells dest unit lim buf n m) (dest + BitVec.ofNat 32 (unit * k + j)).toNat
      = readCell m (buf k + BitVec.ofNat 32 j).toNat := by
  induction n with
  | zero => omega
  | succ n ih =>
    have hle : min (unit * n) lim ≤ min (unit * (n + 1)) lim := min_mul_mono (Nat.le_succ n)
    have hsucc : unit * (n + 1) = unit * n + unit := Nat.mul_succ unit n
    rw [fragCells]
    by_cases hlast : k = n
    · subst hlast
      have hmin : min (unit * k) lim = unit * k := by omega
      have hsrc : ∀ i, i < min (unit * (k + 1)) lim - unit * k →
          Outside dest (min (unit * (k + 1)) lim) (buf k + BitVec.ofNat 32 i) := fun i hi =>
        hout k i (Nat.lt_succ_self k) (by omega) (by omega)
      rw [hmin, BitVec.ofNat_add, ← BitVec.add_assoc, copyCells_same (fragCells_wf hm) (by omega) ?_ (by omega)]
      · exact fragCells_other fun i hi => hsrc j (by omega) i (by omega)
      · exact Apart.symm fun i hi => (hsrc i hi).part (by omega)
    · have hkn : unit * (k + 1) ≤ unit * n := Nat.mul_le_mul_left unit (by omega)
      have hkk : unit * (k + 1) = unit * k + unit := Nat.mul_succ unit k
      rw [copyCells_other, ih (fun k j hk hj hkj i hi => hout k j (by omega) hj hkj i (by omega)) (by omega)]
      intro i hi
      rw [BitVec.add_assoc, ← BitVec.ofNat_add]
      exact offset_ne (by omega) (by omega) (by omega)

/-! ### The descriptors a scan meets -/

/-- Word 0 of the descriptor at position `k`. -/
def State.word0 (s : State) (k : Nat) : Word := readWord s.mem (s.rx.scanDesc k)

/-- Word 1 of the descriptor at position `k`. -/
def State.word1 (s : State) (k : Nat) : Word := readWord s.mem (s.rx.scanDesc k + 4)

/-- The buffer of the `k`-th descriptor from position `a`. -/
def State.scanBuf (s : State) (a k : Nat) : Word := rxAddr (s.word0 (a + k))

/-- The descriptors at the positions `a .. a + n - 1` can be accessed and are software-owned. -/
structure Ready (s : State) (a n : Nat) : Prop where
  inRing : a + n ≤ s.rx.cap.toNat
  valid : ∀ k, k < n → AccessValid s.params (s.rx.scanDesc (a + k)) 8
  own : ∀ k, k < n → rxOwn (s.word0 (a + k)) = true

theorem Ready.owned (hr : Ready s a n) (hk : k < n) : Owned s (a + k) (s.word0 (a + k)) (s.word1 (a + k)) :=
  ⟨hr.valid k hk, rfl, rfl, hr.own k hk⟩

/-- The memory holds the descriptors of `s` at the positions `a .. i - 1`. -/
structure SameDescs (s : State) (m : List Host.Cell) (a i : Nat) : Prop where
  word0 : ∀ k, a ≤ k → k < i → readWord m (s.rx.scanDesc k) = s.word0 k
  word1 : ∀ k, a ≤ k → k < i → readWord m (s.rx.scanDesc k + 4) = s.word1 k

theorem SameDescs.mono (hs : SameDescs s m a i) (haj : a ≤ j) : SameDescs s m j i :=
  ⟨fun k hk => hs.word0 k (by omega), fun k hk => hs.word1 k (by omega)⟩

theorem Ready.withMem (hr : Ready s a n) (hs : SameDescs s m a (a + n)) : Ready (s.withMem m) a n :=
  ⟨hr.inRing, hr.valid, fun k hk => (congrArg rxOwn (hs.word0 (a + k) (by omega) (by omega))).trans (hr.own k hk)⟩

/-- Descriptors behind a run of releases stay. -/
theorem SameDescs.release (hm : Memory.wf m = true) (hs : SameDescs s m (a + n) i) (hn : a + n ≤ i)
    (hi : i ≤ s.rx.cap.toNat) : SameDescs s (s.rx.release a n m) (a + n) i where
  word0 k hk hki := (release_word0 hm (by omega) (by omega)).trans ((if_neg (by omega)).trans (hs.word0 k hk hki))
  word1 k hk hki := (release_word1 (by omega) (by omega)).trans (hs.word1 k hk hki)

theorem sameDescs_refl : SameDescs s s.mem a i := ⟨fun _ _ _ => rfl, fun _ _ _ => rfl⟩

/-! ### Orphans -/

/-- The scan releases `o` orphans and goes on behind them (R211). -/
theorem readScan_orphans (hr : Ready s a o) (hm : Memory.wf s.mem = true)
    (hsof : ∀ k, k < o → rxSof (s.word1 (a + k)) = false) :
    readScan dest maxLen s.rx.cap.toNat (f + o) (scanAt s.rx a false 0 0) s
      = readScan dest maxLen s.rx.cap.toNat f (scanAt s.rx (a + o) false 0 0)
          (s.withMem (s.rx.release a o s.mem)) := by
  induction o generalizing a s with
  | zero => rfl
  | succ o ih =>
    have hin := hr.inRing
    have hsame := SameDescs.release (s := s) (a := a) (n := 1) (i := a + 1 + o) hm sameDescs_refl (by omega) (by omega)
    have hshift : ∀ k, a + 1 + k = a + (k + 1) := fun k => by omega
    have hrest : Ready s (a + 1) o := ⟨by omega, fun k hk => by rw [hshift]; exact hr.valid (k + 1) (by omega),
      fun k hk => by rw [hshift]; exact hr.own (k + 1) (by omega)⟩
    have hnext := ih (hrest.withMem hsame) (release_wf hm) fun k hk =>
      (congrArg rxSof (hsame.word1 (a + 1 + k) (by omega) (by omega))).trans
        (by rw [hshift]; exact hsof (k + 1) (by omega))
    rw [← Nat.add_assoc, readScan_orphan (a := a) (hr.owned (k := 0) (by omega)) (hsof 0 (by omega)) (by omega)]
    refine hnext.trans ?_
    rw [release_succ (a := a) (n := o), Nat.add_assoc, Nat.add_comm 1 o]
    rfl

/-! ### The descriptors of one frame -/

/-- The `n` descriptors from position `a` hold fragments of one frame, its SOF on the first; `lim` bytes of them can be
copied to `dest`, which lies apart from the descriptors. -/
structure FrameAt (s : State) (dest : Word) (lim a n : Nat) : Prop where
  ready : Ready s a n
  sof : ∀ k, k < n → rxSof (s.word1 (a + k)) = decide (k = 0)
  dst : AccessValid s.params dest (min (s.params.rxUnit * n) lim)
  src : ∀ k j, k < n → j < s.params.rxUnit → s.params.rxUnit * k + j < lim →
    memValid s.params (s.scanBuf a k + BitVec.ofNat 32 j) = true
  apart : ∀ k, k < n → Apart dest (min (s.params.rxUnit * n) lim) (s.rx.scanDesc (a + k)) 8

/-- A memory after the bytes of the `n` descriptors from position `a` are copied to `dest`. -/
def State.gather (s : State) (dest : Word) (lim a n : Nat) (m : List Host.Cell) : List Host.Cell :=
  fragCells dest s.params.rxUnit lim (s.scanBuf a) n m

/-- What is copied depends on the descriptors only. -/
theorem gather_withMem (hs : SameDescs s m a (a + n)) :
    (s.withMem m).gather dest lim a n m = s.gather dest lim a n m := by
  unfold State.gather
  exact fragCells_congr fun k hk => congrArg rxAddr (hs.word0 (a + k) (by omega) (by omega))

theorem SameDescs.gather (hs : SameDescs s m a i) (hap : ∀ k, a ≤ k → k < i →
    Apart dest (min (s.params.rxUnit * n) lim) (s.rx.scanDesc k) 8) :
    SameDescs s (s.gather dest lim c n m) a i where
  word0 k hk hki := (readWord_fragCells (hap k hk hki).symm.first_word.symm).trans (hs.word0 k hk hki)
  word1 k hk hki := (readWord_fragCells (hap k hk hki).symm.second_word.symm).trans (hs.word1 k hk hki)

theorem FrameAt.withMem (hf : FrameAt s dest lim a n) (hs : SameDescs s m a (a + n)) :
    FrameAt (s.withMem m) dest lim a n where
  ready := hf.ready.withMem hs
  sof k hk := (congrArg rxSof (hs.word1 (a + k) (by omega) (by omega))).trans (hf.sof k hk)
  dst := hf.dst
  src k j hk hj hkj := by
    rw [show (s.withMem m).scanBuf a k = s.scanBuf a k from
      congrArg rxAddr (hs.word0 (a + k) (by omega) (by omega))]
    exact hf.src k j hk hj hkj
  apart := hf.apart

/-- While a frame is copied its descriptors stay. -/
theorem FrameAt.owned (hf : FrameAt s dest lim a n) (hk : k < n) :
    Owned (s.withMem (s.gather dest lim a k s.mem)) (a + k) (s.word0 (a + k)) (s.word1 (a + k)) := by
  have hle : min (s.params.rxUnit * k) lim ≤ min (s.params.rxUnit * n) lim := min_mul_mono (Nat.le_of_lt hk)
  have hap : Apart dest (min (s.params.rxUnit * k) lim) (s.rx.scanDesc (a + k)) 8 := fun i hi =>
    hf.apart k hk i (by omega)
  exact ⟨hf.ready.valid k hk, readWord_fragCells hap.symm.first_word.symm,
    readWord_fragCells hap.symm.second_word.symm, hf.ready.own k hk⟩

/-- The part of `dest` and the part of its buffer that one fragment needs. -/
theorem FrameAt.accesses (hf : FrameAt s dest lim a n) (hk : k < n) :
    AccessValid s.params (dest + BitVec.ofNat 32 (min (s.params.rxUnit * k) lim))
        (min (s.params.rxUnit * (k + 1)) lim - min (s.params.rxUnit * k) lim)
      ∧ AccessValid s.params (s.scanBuf a k) (min (s.params.rxUnit * (k + 1)) lim - min (s.params.rxUnit * k) lim) := by
  have hle : min (s.params.rxUnit * (k + 1)) lim ≤ min (s.params.rxUnit * n) lim := min_mul_mono hk
  have hle' : min (s.params.rxUnit * k) lim ≤ min (s.params.rxUnit * (k + 1)) lim := min_mul_mono (Nat.le_succ k)
  have hsucc : s.params.rxUnit * (k + 1) = s.params.rxUnit * k + s.params.rxUnit := Nat.mul_succ _ k
  exact ⟨hf.dst.sub (by omega), fun j hj => hf.src k j hk (by omega) (by omega)⟩

/-- A SOF stands where nothing of the frame has been copied. -/
theorem FrameAt.sofFirst (hf : FrameAt s dest lim a n) (hk : k < n) (h : rxSof (s.word1 (a + k)) = true) :
    k = 0 ∧ min (s.params.rxUnit * k) lim = 0 := by
  rw [hf.sof k hk] at h
  obtain rfl : k = 0 := by simpa using h
  simp

/-- The scan copies the bytes of descriptors that do not end the frame (R211). -/
theorem readScan_fragments (hf : FrameAt s dest lim a n) (hk : k ≤ n)
    (heof : ∀ i, i < k → rxEof (s.word1 (a + i)) = false)
    (hlim : ∀ i, i ≤ k → min (s.params.rxUnit * i) lim = min (s.params.rxUnit * i) maxLen) :
    readScan dest maxLen s.rx.cap.toNat (f + k) (scanAt s.rx a true 0 0) s
      = readScan dest maxLen s.rx.cap.toNat f (scanAt s.rx a true k (min (s.params.rxUnit * k) lim))
          (s.withMem (s.gather dest lim a k s.mem)) := by
  induction k generalizing f with
  | zero => simp only [Nat.mul_zero, Nat.zero_min]; rfl
  | succ k ih =>
    have hsucc : s.params.rxUnit * (k + 1) = s.params.rxUnit * k + s.params.rxUnit := Nat.mul_succ _ k
    have hle : min (s.params.rxUnit * k) lim ≤ min (s.params.rxUnit * (k + 1)) lim := min_mul_mono (Nat.le_succ k)
    obtain ⟨hdst, hsrc⟩ := hf.accesses (show k < n by omega)
    have hcopied : min (s.params.rxUnit * k) lim + (min (s.params.rxUnit * (k + 1)) lim - min (s.params.rxUnit * k) lim)
        = min (s.params.rxUnit * (k + 1)) lim := by omega
    rw [show f + (k + 1) = f + 1 + k by omega, ih (f := f + 1) (by omega) (fun i hi => heof i (by omega)) fun i hi =>
      hlim i (by omega)]
    refine (readScan_fragment (hf.owned (by omega)) (hf.sofFirst (by omega)) (heof k (by omega))
      (b := min (s.params.rxUnit * (k + 1)) lim - min (s.params.rxUnit * k) lim) ?_ hdst hsrc).trans ?_
    · have h1 := hlim k (by omega)
      have h2 := hlim (k + 1) (by omega)
      simp only [State.withMem_params]
      omega
    · rw [hcopied]; rfl

/-- The bytes that the descriptors of a frame whose EOF is on the `n`-th hold, as R212 counts them. -/
def frameUsed (unit len n : Nat) : Nat :=
  unit * (n - 1) + (if len ≤ unit * (n - 1) then 0 else min (len - unit * (n - 1)) unit)

/-- READ's scan of a frame, from its SOF to its EOF (R211 to R213). -/
theorem readScan_frame (hf : FrameAt s dest lim a n) (hn : 1 ≤ n)
    (heof : ∀ k, k < n → rxEof (s.word1 (a + k)) = decide (k = n - 1))
    (hlim : lim = min (frameUsed s.params.rxUnit (rxLen (s.word1 (a + (n - 1)))) n) maxLen) :
    readScan dest maxLen s.rx.cap.toNat (f + n) (scanAt s.rx a true 0 0) s
      = .ok (if lim = rxLen (s.word1 (a + (n - 1))) then .ok else .tooSmall,
          readResults lim (rxLen (s.word1 (a + (n - 1)))) (a + n))
        ((s.withMem (s.rx.release a n (s.gather dest lim a n s.mem))).withRx
          { s.rx with tail := BitVec.ofNat 16 ((s.rx.tail.toNat + (a + n)) % s.rx.cap.toNat) }) := by
  obtain ⟨n, rfl⟩ : ∃ k, n = k + 1 := ⟨n - 1, by omega⟩
  have hin := hf.ready.inRing
  rw [Nat.add_sub_cancel] at hlim ⊢
  unfold frameUsed at hlim
  rw [Nat.add_sub_cancel] at hlim
  have hsucc : s.params.rxUnit * (n + 1) = s.params.rxUnit * n + s.params.rxUnit := Nat.mul_succ _ n
  have hwhole : min (s.params.rxUnit * (n + 1)) lim = lim := by split at hlim <;> omega
  have hbegin : ∀ i, i ≤ n → min (s.params.rxUnit * i) lim = min (s.params.rxUnit * i) maxLen := fun i hi => by
    have hle : s.params.rxUnit * i ≤ s.params.rxUnit * n := Nat.mul_le_mul_left _ hi
    split at hlim <;> omega
  obtain ⟨hdst, hsrc⟩ := hf.accesses (Nat.lt_succ_self n)
  have hend : rxEof (s.word1 (a + n)) = true := by rw [heof n (Nat.lt_succ_self n)]; simp
  have hcopied : min (s.params.rxUnit * n) lim + (min (s.params.rxUnit * (n + 1)) lim - min (s.params.rxUnit * n) lim)
      = lim := by rw [hwhole]; omega
  rw [show f + (n + 1) = f + 1 + n by omega, readScan_fragments hf (Nat.le_succ n)
    (fun i hi => by rw [heof i (by omega)]; simpa using by omega) hbegin]
  refine (readScan_end (hf.owned (Nat.lt_succ_self n)) (hf.sofFirst (Nat.lt_succ_self n)) hend
    (show 0 < s.rx.cap.toNat by omega)
    (b := min (s.params.rxUnit * (n + 1)) lim - min (s.params.rxUnit * n) lim) ?_ hdst hsrc
    fun j hj => (hf.ready.valid j hj).first).trans ?_
  · have hprev := hbegin n (Nat.le_refl n)
    rw [hwhole]
    simp only [State.withMem_params, usedBytes, hend, if_true, Nat.add_sub_cancel]
    split at hlim <;> next h => simp only [h, if_true, if_false]; omega
  · rw [hcopied]; rfl

/-! ### A whole scan -/

/-- Memory when the scan has released `o` orphans and holds `h` descriptors of a frame behind them. -/
def State.heldMem (s : State) (dest : Word) (maxLen o h : Nat) : List Host.Cell :=
  s.gather dest maxLen o h (s.rx.release 0 o s.mem)

/-- Memory when a SOF has made the scan release the frame it held. -/
def State.freedMem (s : State) (dest : Word) (maxLen o h : Nat) : List Host.Cell :=
  s.rx.release o h (s.heldMem dest maxLen o h)

/-- Memory when the scan has completed a frame of `n` descriptors, `lim` bytes of it copied, behind `o` orphans and `h`
descriptors of a stale frame. -/
def State.readMem (s : State) (dest : Word) (maxLen lim o h n : Nat) : List Host.Cell :=
  s.rx.release (o + h) n (s.gather dest lim (o + h) n (s.freedMem dest maxLen o h))

theorem sameDescs_orphans (hm : Memory.wf s.mem = true) (ho : o ≤ i) (hi : i ≤ s.rx.cap.toNat) :
    SameDescs s (s.rx.release 0 o s.mem) o i := by
  have hs := SameDescs.release (s := s) (a := 0) (n := o) (i := i) hm sameDescs_refl (by omega) hi
  rwa [Nat.zero_add] at hs

theorem heldMem_wf (hm : Memory.wf s.mem = true) : Memory.wf (s.heldMem dest maxLen o h) = true :=
  fragCells_wf (release_wf hm)

theorem freedMem_wf (hm : Memory.wf s.mem = true) : Memory.wf (s.freedMem dest maxLen o h) = true :=
  release_wf (heldMem_wf hm)

/-- The scan passes `o` orphans and takes up `h` descriptors of a frame without its EOF (R211). -/
theorem readScan_held (hm : Memory.wf s.mem = true) (ho : Ready s 0 o) (hsof : ∀ k, k < o → rxSof (s.word1 k) = false)
    (hf : FrameAt s dest maxLen o h) (heof : ∀ k, k < h → rxEof (s.word1 (o + k)) = false) :
    readScan dest maxLen s.rx.cap.toNat (f + (o + h)) (scanAt s.rx 0 false 0 0) s
      = readScan dest maxLen s.rx.cap.toNat f (scanAt s.rx o (decide (0 < h)) h (min (s.params.rxUnit * h) maxLen))
          (s.withMem (s.heldMem dest maxLen o h)) := by
  have hin := hf.ready.inRing
  have hs := sameDescs_orphans (s := s) (o := o) (i := o + h) hm (by omega) hin
  have hf' := hf.withMem hs
  have horphans := readScan_orphans (dest := dest) (maxLen := maxLen) (f := f + h) ho hm fun k hk => by
    rw [Nat.zero_add]; exact hsof k hk
  rw [Nat.zero_add] at horphans
  rw [show f + (o + h) = f + h + o by omega, horphans]
  unfold State.heldMem
  rw [← gather_withMem hs]
  cases h with
  | zero => simp only [Nat.mul_zero, Nat.zero_min]; rfl
  | succ h =>
    have howned := hf'.ready.owned (k := 0) (by omega)
    have hbegin : rxSof ((s.withMem (s.rx.release 0 o s.mem)).word1 o) = true := hf'.sof 0 (by omega)
    refine (readScan_sof (nf := 0) howned hbegin (release_wf hm) (by simp only [State.withMem_rx]; omega) fun j hj =>
      absurd hj (Nat.not_lt_zero j)).trans ?_
    refine (readScan_fragments (k := h + 1) hf' (Nat.le_refl _)
      (fun k hk => (congrArg rxEof (hs.word1 (o + k) (by omega) (by omega))).trans (heof k hk)) fun _ _ => rfl).trans ?_
    rw [decide_eq_true (Nat.succ_pos h)]
    rfl

/-- The scan completes a frame of `n` descriptors behind `o` orphans and `h` descriptors of a stale frame, which the
frame's SOF releases (R211 to R213). -/
theorem readScan_complete (hm : Memory.wf s.mem = true) (ho : Ready s 0 o)
    (hsof : ∀ k, k < o → rxSof (s.word1 k) = false) (hf : FrameAt s dest maxLen o h)
    (heof : ∀ k, k < h → rxEof (s.word1 (o + k)) = false) (hg : FrameAt s dest lim (o + h) n) (hn : 1 ≤ n)
    (hend : ∀ k, k < n → rxEof (s.word1 (o + h + k)) = decide (k = n - 1))
    (hap : ∀ k, o + h ≤ k → k < o + h + n → Apart dest (min (s.params.rxUnit * h) maxLen) (s.rx.scanDesc k) 8)
    (hlim : lim = min (frameUsed s.params.rxUnit (rxLen (s.word1 (o + h + (n - 1)))) n) maxLen) :
    readScan dest maxLen s.rx.cap.toNat (f + (o + h + n)) (scanAt s.rx 0 false 0 0) s
      = .ok (if lim = rxLen (s.word1 (o + h + (n - 1))) then .ok else .tooSmall,
          readResults lim (rxLen (s.word1 (o + h + (n - 1)))) (o + h + n))
        ((s.withMem (s.readMem dest maxLen lim o h n)).withRx
          { s.rx with tail := BitVec.ofNat 16 ((s.rx.tail.toNat + (o + h + n)) % s.rx.cap.toNat) }) := by
  have hin := hg.ready.inRing
  have hheld : SameDescs s (s.heldMem dest maxLen o h) (o + h) (o + h + n) :=
    ((sameDescs_orphans hm (by omega) hin).mono (Nat.le_add_right o h)).gather hap
  have hfreed : SameDescs s (s.freedMem dest maxLen o h) (o + h) (o + h + n) :=
    hheld.release (heldMem_wf hm) (by omega) hin
  have howned := (hg.ready.withMem hheld).owned (k := 0) (by omega)
  have hbegin : rxSof ((s.withMem (s.heldMem dest maxLen o h)).word1 (o + h)) = true :=
    (congrArg rxSof (hheld.word1 (o + h) (by omega) (by omega))).trans (hg.sof 0 (by omega))
  rw [show f + (o + h + n) = f + n + (o + h) by omega, readScan_held hm ho hsof hf heof,
    show f + n = f + (n - 1) + 1 by omega]
  refine (readScan_sof (a := o) (nf := h) howned hbegin (heldMem_wf hm) (by simp only [State.withMem_rx]; omega)
    fun j hj => (hf.ready.valid j hj).first).trans ?_
  have hlen : (s.withMem (s.freedMem dest maxLen o h)).word1 (o + h + (n - 1)) = s.word1 (o + h + (n - 1)) :=
    hfreed.word1 _ (by omega) (by omega)
  rw [show f + (n - 1) + 1 = f + n by omega]
  refine (readScan_frame (s := s.withMem (s.freedMem dest maxLen o h)) (hg.withMem hfreed) hn
    (fun k hk => (congrArg rxEof (hfreed.word1 _ (by omega) (by omega))).trans (hend k hk))
    (by rw [hlen]; exact hlim)).trans ?_
  rw [hlen, State.withMem_mem, gather_withMem hfreed]
  rfl

end Sys2Proof.Machine
end

section
/-! PROOF. READ's claims (40_descriptor_ring.md R206, R210 to R216): the bytes and words of memory after a scan, the
traversal of a ring without EOF, and what READ leaves alone however it ends. -/

namespace Sys2Proof.Machine

variable {s t u : State} {m : List Host.Cell} {dest x : Word} {lim maxLen a o h n k i j c b : Nat} {held : Bool}

/-! ### Bytes and words after a scan -/

/-- The address lies in word 0 of none of the first `n` descriptors of the scan. -/
def ClearOf (s : State) (n : Nat) (x : Word) : Prop := ∀ k, k < n → Outside (s.rx.scanDesc k) 4 x

theorem ClearOf.release (hx : ClearOf s i x) (hi : a + n ≤ i) (hcap : i ≤ s.rx.cap.toNat) :
    readCell (s.rx.release a n m) x.toNat = readCell m x.toNat :=
  release_other (by omega) fun k hk => hx (a + k) (by omega)

theorem ClearOf.mono (hx : ClearOf s i x) (h : j ≤ i) : ClearOf s j x := fun k hk => hx k (by omega)

theorem heldMem_other (hcap : o ≤ s.rx.cap.toNat) (hx : Outside dest (min (s.params.rxUnit * h) maxLen) x)
    (hc : ClearOf s o x) : readCell (s.heldMem dest maxLen o h) x.toNat = s.byte x := by
  rw [State.heldMem, State.gather, fragCells_other hx, hc.release (by omega) hcap]
  rfl

theorem freedMem_other (hcap : o + h ≤ s.rx.cap.toNat) (hx : Outside dest (min (s.params.rxUnit * h) maxLen) x)
    (hc : ClearOf s (o + h) x) : readCell (s.freedMem dest maxLen o h) x.toNat = s.byte x := by
  rw [State.freedMem, hc.release (Nat.le_refl _) hcap, heldMem_other (by omega) hx (hc.mono (by omega))]

/-- The bytes of the frame that the scan holds stand at `dest`. -/
theorem heldMem_bytes (hm : Memory.wf s.mem = true) (hcap : o ≤ s.rx.cap.toNat) (hlim : maxLen < 2 ^ 32)
    (hbuf : ∀ k j, k < h → j < s.params.rxUnit →
      Outside dest (min (s.params.rxUnit * h) maxLen) (s.scanBuf o k + BitVec.ofNat 32 j)
        ∧ ClearOf s o (s.scanBuf o k + BitVec.ofNat 32 j))
    (hk : k < h) (hj : j < s.params.rxUnit) (hkj : s.params.rxUnit * k + j < maxLen) :
    readCell (s.heldMem dest maxLen o h) (dest + BitVec.ofNat 32 (s.params.rxUnit * k + j)).toNat
      = s.byte (s.scanBuf o k + BitVec.ofNat 32 j) := by
  rw [State.heldMem, State.gather,
    fragCells_bytes (release_wf hm) hlim (fun k j hk hj _ => (hbuf k j hk hj).1) hk hj hkj,
    (hbuf k j hk hj).2.release (by omega) hcap]
  rfl

/-- Word 0 of every descriptor that `dest` lies apart from, while the scan holds a frame. -/
theorem heldMem_word0 (hm : Memory.wf s.mem = true) (hcap : o ≤ s.rx.cap.toNat) (hk : k < s.rx.cap.toNat)
    (hap : Apart dest (min (s.params.rxUnit * h) maxLen) (s.rx.scanDesc k) 8) :
    readWord (s.heldMem dest maxLen o h) (s.rx.scanDesc k) = if k < o then s.word0 k &&& 0xFFFFFFFE else s.word0 k := by
  rw [State.heldMem, State.gather, readWord_fragCells hap.symm.first_word.symm, release_word0 hm (by omega) hk]
  simp only [Nat.zero_le, true_and, Nat.zero_add]
  rfl

theorem readMem_other (hcap : o + h + n ≤ s.rx.cap.toNat) (hx : Outside dest (min (s.params.rxUnit * h) maxLen) x)
    (hx' : Outside dest (min (s.params.rxUnit * n) lim) x) (hc : ClearOf s (o + h + n) x) :
    readCell (s.readMem dest maxLen lim o h n) x.toNat = s.byte x := by
  rw [State.readMem, hc.release (Nat.le_refl _) hcap, State.gather, fragCells_other hx',
    freedMem_other (by omega) hx (hc.mono (by omega))]

/-- The frame's bytes stand at `dest`. -/
theorem readMem_bytes (hm : Memory.wf s.mem = true) (hcap : o + h + n ≤ s.rx.cap.toNat) (hlim : lim < 2 ^ 32)
    (hbuf : ∀ k j, k < n → j < s.params.rxUnit → s.params.rxUnit * k + j < lim →
      Outside dest (min (s.params.rxUnit * n) lim) (s.scanBuf (o + h) k + BitVec.ofNat 32 j)
        ∧ Outside dest (min (s.params.rxUnit * h) maxLen) (s.scanBuf (o + h) k + BitVec.ofNat 32 j)
        ∧ ClearOf s (o + h) (s.scanBuf (o + h) k + BitVec.ofNat 32 j))
    (hk : k < n) (hj : j < s.params.rxUnit) (hkj : s.params.rxUnit * k + j < lim)
    (hc : ClearOf s (o + h + n) (dest + BitVec.ofNat 32 (s.params.rxUnit * k + j))) :
    readCell (s.readMem dest maxLen lim o h n) (dest + BitVec.ofNat 32 (s.params.rxUnit * k + j)).toNat
      = s.byte (s.scanBuf (o + h) k + BitVec.ofNat 32 j) := by
  obtain ⟨-, hstale, hclear⟩ := hbuf k j hk hj hkj
  rw [State.readMem, hc.release (Nat.le_refl _) hcap, State.gather,
    fragCells_bytes (freedMem_wf hm) hlim (fun k j hk hj hkj => (hbuf k j hk hj hkj).1) hk hj hkj,
    freedMem_other (by omega) hstale hclear]

/-- Beyond the frame's bytes `dest` holds what the scan held of the stale frame. -/
theorem readMem_stale (hcap : o + h + n ≤ s.rx.cap.toNat) (hx : Outside dest (min (s.params.rxUnit * n) lim) x)
    (hc : ClearOf s (o + h + n) x) :
    readCell (s.readMem dest maxLen lim o h n) x.toNat = readCell (s.heldMem dest maxLen o h) x.toNat := by
  rw [State.readMem, hc.release (Nat.le_refl _) hcap, State.gather, fragCells_other hx, State.freedMem,
    (hc.mono (Nat.le_add_right _ n)).release (Nat.le_refl _) (by omega)]

/-- Every descriptor the scan passed is released (R206). -/
theorem readMem_word0 (hm : Memory.wf s.mem = true) (hcap : o + h + n ≤ s.rx.cap.toNat) (hk : k < o + h + n)
    (hap : Apart dest (min (s.params.rxUnit * h) maxLen) (s.rx.scanDesc k) 8)
    (hap' : Apart dest (min (s.params.rxUnit * n) lim) (s.rx.scanDesc k) 8) :
    readWord (s.readMem dest maxLen lim o h n) (s.rx.scanDesc k) = s.word0 k &&& 0xFFFFFFFE := by
  have hgather : Memory.wf (s.gather dest lim (o + h) n (s.freedMem dest maxLen o h)) = true :=
    fragCells_wf (freedMem_wf hm)
  rw [State.readMem, release_word0 hgather hcap (by omega), State.gather,
    readWord_fragCells hap'.symm.first_word.symm, State.freedMem, release_word0 (heldMem_wf hm) (by omega) (by omega),
    heldMem_word0 hm (by omega) (by omega) hap]
  rcases Nat.lt_or_ge k o with horphan | hk1
  · rw [if_neg (by omega), if_neg (by omega), if_pos horphan]
  rcases Nat.lt_or_ge k (o + h) with hstale | hk2
  · rw [if_neg (by omega), if_pos ⟨hk1, hstale⟩, if_neg (by omega)]
  · rw [if_pos ⟨hk2, hk⟩, if_neg (by omega), if_neg (by omega)]

/-! ### From the scan to the command -/

/-- A READ whose scan ends completes with the scan's status and results. -/
theorem exec_read_of_scan {maxLen : Word} {r : Status × Results} (hdone : s.eng.initDone = true) (hmax : maxLen ≠ 0)
    (ht : s.rx.tail.toNat < s.rx.cap.toNat)
    (hscan : readScan dest maxLen.toNat s.rx.cap.toNat s.rx.cap.toNat (scanAt s.rx 0 false 0 0) s = .ok r t) :
    exec (.read dest maxLen) s = .next (t.complete 0x02 r.1 r.2) :=
  runCommand_ok ((readBody_scan hdone hmax ht).trans hscan)

theorem scanDesc_zero (ht : s.rx.tail.toNat < s.rx.cap.toNat) : s.rx.scanDesc 0 = s.rx.desc s.rx.tail.toNat := by
  rw [RxRing.scanDesc, Nat.add_zero, Nat.mod_eq_of_lt ht]

theorem Apart.shorten {p q : Word} (hp : Apart p n q k) (hi : i ≤ n) : Apart p i q k := fun j hj => hp j (by omega)

theorem AccessValid.shorten {p : Params} {q : Word} (hp : AccessValid p q n) (hi : i ≤ n) : AccessValid p q i :=
  fun j hj => hp j (by omega)

/-- No frame at all. -/
theorem frameAt_zero (ha : a ≤ s.rx.cap.toNat) : FrameAt s dest lim a 0 where
  ready := ⟨ha, fun _ hk => absurd hk (Nat.not_lt_zero _), fun _ hk => absurd hk (Nat.not_lt_zero _)⟩
  sof _ hk := absurd hk (Nat.not_lt_zero _)
  dst j hj := by omega
  src _ _ hk := absurd hk (Nat.not_lt_zero _)
  apart _ hk := absurd hk (Nat.not_lt_zero _)

theorem ready_zero : Ready s 0 0 :=
  ⟨Nat.zero_le _, fun _ hk => absurd hk (Nat.not_lt_zero _), fun _ hk => absurd hk (Nat.not_lt_zero _)⟩

/-- The bytes copied of a complete frame fit its descriptors. -/
theorem min_mul_frameUsed {unit len : Nat} (hn : 1 ≤ n) (hlim : lim = min (frameUsed unit len n) maxLen) :
    min (unit * n) lim = lim := by
  have hsucc : unit * n = unit * (n - 1) + unit := by rw [← Nat.mul_succ, Nat.succ_eq_add_one, Nat.sub_add_cancel hn]
  unfold frameUsed at hlim
  split at hlim <;> omega

/-- Settles O12: the scan stops at the descriptor behind what it holds. -/
theorem readStopsAtHardwareOwnedDescriptor : Obligations.ReadStopsAtHardwareOwnedDescriptor := by
  unfold Obligations.ReadStopsAtHardwareOwnedDescriptor
  constructor
  · intro s dest maxLen hdone hmax ht hv hown
    rw [← scanDesc_zero ht] at hv hown
    obtain ⟨f, hf⟩ : ∃ f, s.rx.cap.toNat = f + 1 := ⟨s.rx.cap.toNat - 1, by omega⟩
    have hscan := readScan_stop (s := s) (dest := dest) (maxLen := maxLen.toNat) (n := s.rx.cap.toNat) (k := f)
      (a := 0) (nf := 0) (held := false) (c := 0) hv hown
    rw [← hf] at hscan
    rw [exec_read_of_scan hdone hmax ht hscan, Nat.add_zero, Nat.mod_eq_of_lt ht, BitVec.ofNat_toNat]
    rfl
  · intro s dest maxLen o h c d w0 w1 _ hm hdone hmax ht hin hd hw0 hw1 hv hown hsof heof hc hdst hbuf hapbuf hap hrel
    obtain rfl : d = s.rx.scanDesc := funext hd
    obtain rfl : w0 = s.word0 := funext hw0
    obtain rfl : w1 = s.word1 := funext hw1
    have ho : Ready s 0 o := ⟨by omega, fun k hk => hv (0 + k) (by omega),
      fun k hk => (hown (0 + k) (by omega)).trans (by simpa using by omega)⟩
    have hframe : FrameAt s dest maxLen.toNat o h := {
      ready := ⟨by omega, fun k hk => hv (o + k) (by omega),
        fun k hk => (hown (o + k) (by omega)).trans (by simpa using hk)⟩
      sof := fun k hk => (hsof (o + k) (by omega)).trans (by simp)
      dst := hc ▸ hdst
      src := fun k j hk hj _ => hbuf (o + k) (by omega) (by omega) j hj
      apart := fun k hk => hc ▸ hap (o + k) (by omega) }
    have hscan := readScan_held (f := s.rx.cap.toNat - (o + h)) hm ho
      (fun k hk => (hsof k (by omega)).trans (by simpa using by omega)) hframe
      fun k hk => heof (o + k) (by omega) (by omega)
    obtain ⟨f, hf⟩ : ∃ f, s.rx.cap.toNat - (o + h) = f + 1 := ⟨s.rx.cap.toNat - (o + h) - 1, by omega⟩
    have hstop : rxOwn (readWord (s.heldMem dest maxLen.toNat o h) (s.rx.scanDesc (o + h))) = false := by
      rw [heldMem_word0 hm (by omega) hin (hc ▸ hap _ (Nat.le_refl _)), if_neg (by omega)]
      exact (hown (o + h) (Nat.le_refl _)).trans (by simp)
    rw [Nat.sub_add_cancel (by omega), hf] at hscan
    have hend := hscan.trans (readScan_stop (s := s.withMem (s.heldMem dest maxLen.toNat o h)) (a := o) (nf := h)
      (hv _ (Nat.le_refl _)).first hstop)
    refine ⟨s.heldMem dest maxLen.toNat o h, exec_read_of_scan hdone hmax ht hend, fun k j hk hj hkj => ?_,
      fun k hk => ?_, fun x hx hcx => heldMem_other (by omega) (hc ▸ hx) hcx⟩
    · refine heldMem_bytes hm (by omega) maxLen.isLt (fun k j hk hj => ⟨?_, fun i hi => ?_⟩) hk hj (by omega)
      · exact (hc ▸ hapbuf (o + k) (by omega) (by omega)).symm.outside hj
      · exact (hrel (o + k) i (by omega) (by omega) hi).outside hj
    · rw [heldMem_word0 hm (by omega) (by omega) (hc ▸ hap k (by omega)), if_pos hk]

/-- Settles O13: a frame of one descriptor, with nothing before it. -/
theorem readCompletesOneDescriptorFrame : Obligations.ReadCompletesOneDescriptorFrame := by
  unfold Obligations.ReadCompletesOneDescriptorFrame
  intro s dest maxLen w0 w1 len hm hdone ht hv hw0 hw1 hown hsof heof hlen hunit hmaxLen hmax hdst hbuf hapbuf hap
  rw [← scanDesc_zero ht] at hv hw0 hw1 hap
  obtain rfl : w0 = s.word0 0 := hw0
  obtain rfl : w1 = s.word1 0 := hw1
  have hpos : 0 < s.rx.cap.toNat := by omega
  have hzero : ∀ {k}, k < 1 → k = 0 := fun hk => by omega
  have hwhole : min (s.params.rxUnit * 1) len = len := by omega
  have hlim : len = min (frameUsed s.params.rxUnit (rxLen (s.word1 0)) 1) maxLen.toNat := by
    have hlen' : rxLen (s.word1 0) = len := hlen.symm
    rw [hlen', frameUsed]
    simp only [Nat.sub_self, Nat.mul_zero, Nat.zero_add, Nat.sub_zero]
    split <;> omega
  have hframe : FrameAt s dest len (0 + 0) 1 := {
    ready := ⟨hpos, fun k hk => by rw [hzero hk]; exact hv, fun k hk => by rw [hzero hk]; exact hown⟩
    sof := fun k hk => by rw [hzero hk]; exact hsof
    dst := by rw [hwhole]; exact hdst
    src := fun k j hk _ hkj => by rw [hzero hk, Nat.mul_zero, Nat.zero_add] at *; exact hbuf j hkj
    apart := fun k hk => by rw [hzero hk, hwhole]; exact hap }
  have hscan := readScan_complete (f := s.rx.cap.toNat - 1) (o := 0) (h := 0) (maxLen := maxLen.toNat) hm ready_zero
    (fun _ hk => absurd hk (Nat.not_lt_zero _)) (frameAt_zero (Nat.zero_le _))
    (fun _ hk => absurd hk (Nat.not_lt_zero _)) hframe (Nat.le_refl 1)
    (fun k hk => by rw [hzero hk]; exact heof) (fun k _ hk i hi => by omega) hlim
  have hlen' : len = rxLen (s.word1 (0 + 0 + (1 - 1))) := hlen
  rw [show s.rx.cap.toNat - 1 + (0 + 0 + 1) = s.rx.cap.toNat by omega, ← hlen', if_pos rfl] at hscan
  have hclear : ∀ j, j < len → ClearOf s 1 (dest + BitVec.ofNat 32 j) := fun j hj k hk => by
    rw [hzero hk]; exact (hap.outside hj).first
  have hnone : ∀ y, Outside dest (min (s.params.rxUnit * 0) maxLen.toNat) y := fun y i hi => by omega
  refine ⟨s.readMem dest maxLen.toNat len 0 0 1, exec_read_of_scan hdone hmax ht hscan, fun j hj => ?_, ?_,
    fun x hx hd => readMem_other hpos (hnone x) (hwhole.symm ▸ hx) fun k hk => ?_⟩
  · have hbytes := readMem_bytes (s := s) (dest := dest) (maxLen := maxLen.toNat) (lim := len) (o := 0) (h := 0)
      (n := 1) (k := 0) (j := j) hm hpos (by omega)
      (fun k i hk _ hki => by
        rw [hzero hk, Nat.mul_zero, Nat.zero_add] at *
        exact ⟨hwhole.symm ▸ hapbuf.symm.outside hki, hnone _, fun _ hk => absurd hk (Nat.not_lt_zero _)⟩)
      Nat.zero_lt_one (by omega) (by omega) (by simp only [Nat.mul_zero, Nat.zero_add]; exact hclear j hj)
    simp only [Nat.mul_zero, Nat.zero_add] at hbytes
    exact hbytes
  · rw [← scanDesc_zero ht]
    exact readMem_word0 hm hpos Nat.zero_lt_one (fun i hi => by omega) (hwhole.symm ▸ hap)
  · rw [hzero hk, scanDesc_zero ht]; exact hd

/-- Settles O14: orphans, a stale frame, the frame; every byte is followed back through the releases and copies that
leave it alone. -/
theorem readReassemblesFrameByteForByte : Obligations.ReadReassemblesFrameByteForByte := by
  unfold Obligations.ReadReassemblesFrameByteForByte
  intro s dest maxLen o h n len used copied touched d w0 w1 _ hm hdone hmax ht hn hin hd hw0 hw1 hv hown hsof heof hlen
    hused hcopied htouched hdst hstale hnew hapbuf hap hrel
  obtain rfl : d = s.rx.scanDesc := funext hd
  obtain rfl : w0 = s.word0 := funext hw0
  obtain rfl : w1 = s.word1 := funext hw1
  have hlast : o + h + n - 1 = o + h + (n - 1) := by omega
  rw [hlast] at hlen heof
  have hlim : copied = min (frameUsed s.params.rxUnit (rxLen (s.word1 (o + h + (n - 1)))) n) maxLen.toNat := by
    rw [hcopied, hused, hlen]; rfl
  have hwhole := min_mul_frameUsed hn hlim
  have hnewPart : min (s.params.rxUnit * n) copied ≤ touched := by omega
  have hstalePart : min (s.params.rxUnit * h) maxLen.toNat ≤ touched := by omega
  have hbound : touched < 2 ^ 32 := by have := maxLen.isLt; omega
  have ho : Ready s 0 o := ⟨by omega, fun k hk => hv (0 + k) (by omega), fun k hk => hown (0 + k) (by omega)⟩
  have hheld : FrameAt s dest maxLen.toNat o h := {
    ready := ⟨by omega, fun k hk => hv (o + k) (by omega), fun k hk => hown (o + k) (by omega)⟩
    sof := fun k hk => (hsof (o + k) (by omega)).trans (by
      rw [decide_eq_false (by omega : ¬ o + k = o + h), Bool.or_false]
      exact decide_eq_decide.mpr (by omega))
    dst := hdst.shorten hstalePart
    src := fun k j hk hj _ => hstale (o + k) (by omega) (by omega) j hj
    apart := fun k hk => (hap (o + k) (by omega)).shorten hstalePart }
  have hframe : FrameAt s dest copied (o + h) n := {
    ready := ⟨hin, fun k hk => hv (o + h + k) (by omega), fun k hk => hown (o + h + k) (by omega)⟩
    sof := fun k hk => (hsof (o + h + k) (by omega)).trans (by
      rw [decide_eq_false (by omega : ¬ (0 < h ∧ o + h + k = o)), Bool.false_or]
      exact decide_eq_decide.mpr (by omega))
    dst := hdst.shorten hnewPart
    src := hnew
    apart := fun k hk => (hap (o + h + k) (by omega)).shorten hnewPart }
  have hscan := readScan_complete (f := s.rx.cap.toNat - (o + h + n)) hm ho
    (fun k hk => (hsof k (by omega)).trans (by simpa using by omega)) hheld
    (fun k hk => (heof (o + k) (by omega) (by omega)).trans (by simpa using by omega)) hframe hn
    (fun k hk => (heof (o + h + k) (by omega) (by omega)).trans (by simp))
    (fun k _ hk => (hap k hk).shorten hstalePart) hlim
  have hlen' : rxLen (s.word1 (o + h + (n - 1))) = len := hlen.symm
  rw [Nat.sub_add_cancel hin, hlen'] at hscan
  have hclear : ∀ i, i < touched → ClearOf s (o + h + n) (dest + BitVec.ofNat 32 i) := fun i hi k hk =>
    ((hap k hk).outside hi).first
  have hbuf : ∀ k j, o ≤ k → k < o + h + n → j < s.params.rxUnit →
      Outside dest touched ((s.word0 k &&& 0xFFFFFFFC) + BitVec.ofNat 32 j)
        ∧ ClearOf s (o + h) ((s.word0 k &&& 0xFFFFFFFC) + BitVec.ofNat 32 j) := fun k j h1 h2 hj =>
    ⟨(hapbuf k h1 h2).symm.outside hj, fun i hi => (hrel k i h1 h2 hi).outside hj⟩
  refine ⟨s.readMem dest maxLen.toNat copied o h n, exec_read_of_scan hdone hmax ht hscan, fun k j hk hj hkj => ?new,
    fun k j hk hj hlo hhi => ?stale, fun k hk => ?words, fun x hx hc => ?other⟩
  case new =>
    refine readMem_bytes hm hin (by omega) (fun k j hk hj _ => ?_) hk hj hkj (hclear _ (by omega))
    obtain ⟨hout, hc⟩ := hbuf (o + h + k) j (by omega) (by omega) hj
    exact ⟨fun i hi => hout i (by omega), fun i hi => hout i (by omega), hc⟩
  case stale =>
    rw [readMem_stale hin (fun i hi => offset_ne (by omega) (by omega) (by omega)) (hclear _ hhi)]
    have hkh : s.params.rxUnit * (k + 1) ≤ s.params.rxUnit * h := Nat.mul_le_mul_left _ hk
    refine heldMem_bytes hm (by omega) maxLen.isLt (fun k j hk hj => ?_) hk hj (by omega)
    obtain ⟨hout, hc⟩ := hbuf (o + k) j (by omega) (by omega) hj
    exact ⟨fun i hi => hout i (by omega), hc.mono (by omega)⟩
  case words =>
    exact readMem_word0 hm hin hk ((hap k hk).shorten hstalePart) ((hap k hk).shorten hnewPart)
  case other =>
    exact readMem_other hin (fun i hi => hx i (by omega)) (fun i hi => hx i (by omega)) hc

/-! ### A ring without EOF (R215) -/

/-- Every descriptor is software-owned and none ends a frame; every access the traversal makes is valid. -/
structure NoFrameEnds (s : State) (dest : Word) (maxLen : Nat) : Prop where
  ready : Ready s 0 s.rx.cap.toNat
  eof : ∀ k, k < s.rx.cap.toNat → rxEof (s.word1 k) = false
  dst : AccessValid s.params dest maxLen
  src : ∀ k, k < s.rx.cap.toNat → AccessValid s.params (rxAddr (s.word0 k)) s.params.rxUnit
  apart : ∀ k, k < s.rx.cap.toNat → Apart dest maxLen (s.rx.scanDesc k) 8

/-- Memory in a traversal that has released the first `a` descriptors: no other descriptor has changed, and no byte
outside `dest` and the descriptors. -/
structure Traversed (s : State) (dest : Word) (maxLen a : Nat) (m : List Host.Cell) : Prop where
  wf : Memory.wf m = true
  word0 : ∀ k, k < s.rx.cap.toNat →
    readWord m (s.rx.scanDesc k) = if k < a then s.word0 k &&& 0xFFFFFFFE else s.word0 k
  word1 : ∀ k, k < s.rx.cap.toNat → readWord m (s.rx.scanDesc k + 4) = s.word1 k
  other : ∀ x, Outside dest maxLen x → ClearOf s s.rx.cap.toNat x → readCell m x.toNat = s.byte x

theorem Traversed.release (ht : Traversed s dest maxLen a m) (hn : a + n ≤ s.rx.cap.toNat) :
    Traversed s dest maxLen (a + n) (s.rx.release a n m) where
  wf := release_wf ht.wf
  word0 k hk := by
    rw [release_word0 ht.wf hn hk, ht.word0 k hk]
    rcases Nat.lt_or_ge k a with h1 | h1
    · rw [if_neg (by omega), if_pos h1, if_pos (by omega)]
    · by_cases h2 : k < a + n
      · rw [if_pos ⟨h1, h2⟩, if_neg (by omega), if_pos h2]
      · rw [if_neg (by omega), if_neg (by omega), if_neg h2]
  word1 k hk := (release_word1 hn hk).trans (ht.word1 k hk)
  other x hx hc := (hc.release hn (Nat.le_refl _)).trans (ht.other x hx hc)

theorem Traversed.copy {src : Word} (ht : Traversed s dest maxLen a m) (hs : NoFrameEnds s dest maxLen)
    (hcb : c + b ≤ maxLen) : Traversed s dest maxLen a (copyCells m (dest + BitVec.ofNat 32 c) src b) where
  wf := copyCells_wf ht.wf
  word0 k hk := (readWord_copyCells_other ((hs.apart k hk).sub_left hcb).symm.first_word).trans (ht.word0 k hk)
  word1 k hk := (readWord_copyCells_other ((hs.apart k hk).sub_left hcb).symm.second_word).trans (ht.word1 k hk)
  other x hx hc := (copyCells_other (hx.part hcb)).trans (ht.other x hx hc)

/-- A descriptor that the traversal has not released. -/
theorem Traversed.owned (ht : Traversed s dest maxLen a m) (hs : NoFrameEnds s dest maxLen) (ha : a ≤ k)
    (hk : k < s.rx.cap.toNat) : Owned (s.withMem m) k (s.word0 k) (s.word1 k) := by
  have hv := hs.ready.valid k hk
  have hown := hs.ready.own k hk
  rw [Nat.zero_add] at hv hown
  exact ⟨hv, (ht.word0 k hk).trans (if_neg (by omega)), ht.word1 k hk, hown⟩

/-- The traversal takes up one descriptor of the frame it holds. -/
theorem readScan_traverse_fragment {n : Nat} (ht : Traversed s dest maxLen a m) (hs : NoFrameEnds s dest maxLen)
    (hin : a + n < s.rx.cap.toNat) (hc : c ≤ maxLen) (hsof : rxSof (s.word1 (a + n)) = true → n = 0 ∧ c = 0) :
    ∃ c' m', c' ≤ maxLen ∧ Traversed s dest maxLen a m' ∧
      readScan dest maxLen s.rx.cap.toNat (k + 1) (scanAt s.rx a true n c) (s.withMem m)
        = readScan dest maxLen s.rx.cap.toNat k (scanAt s.rx a true (n + 1) c') (s.withMem m') :=
  ⟨c + min s.params.rxUnit (maxLen - c), _, by omega, ht.copy hs (b := min s.params.rxUnit (maxLen - c)) (by omega),
    readScan_fragment (ht.owned hs (Nat.le_add_right a n) hin) hsof (hs.eof _ hin) rfl (hs.dst.sub (by omega))
      ((hs.src _ hin).shorten (Nat.min_le_left _ _))⟩

/-- The rest of a traversal: whatever the scan holds, it ends with every descriptor released. -/
theorem readScan_traverse (hs : NoFrameEnds s dest maxLen) (ht : Traversed s dest maxLen a m)
    (hk : a + n + k = s.rx.cap.toNat) (hpos : 0 < s.rx.cap.toNat) (hc : c ≤ maxLen)
    (hheld : held = false → n = 0 ∧ c = 0) :
    ∃ m', Traversed s dest maxLen s.rx.cap.toNat m' ∧
      readScan dest maxLen s.rx.cap.toNat k (scanAt s.rx a held n c) (s.withMem m)
        = .ok (.rxError, readResults 0 0 s.rx.cap.toNat) ((s.withMem m').withRx
            { s.rx with tail := BitVec.ofNat 16 ((s.rx.tail.toNat + s.rx.cap.toNat) % s.rx.cap.toNat) }) := by
  have hvalid : ∀ a n, a + n ≤ s.rx.cap.toNat → ∀ j, j < n → AccessValid s.params (s.rx.scanDesc (a + j)) 4 :=
    fun a n hn j hj => by
      have hv := hs.ready.valid (a + j) (by omega)
      rw [Nat.zero_add] at hv
      exact hv.first
  induction k generalizing a n c m held with
  | zero =>
    have hall : a + n = s.rx.cap.toNat := hk
    refine ⟨s.rx.release a n m, hall ▸ ht.release (by omega), ?_⟩
    refine (readScan_over (s := s.withMem m) hpos (hvalid a n (by omega))).trans ?_
    rw [hall]
    rfl
  | succ k ih =>
    have hin : a + n < s.rx.cap.toNat := by omega
    have howned := ht.owned hs (Nat.le_add_right a n) hin
    cases hsof : rxSof (s.word1 (a + n)) with
    | true =>
      have hrel := ht.release (n := n) (by omega)
      obtain ⟨c', m', hc', ht', hstep⟩ := readScan_traverse_fragment (k := k) (n := 0) hrel hs hin (Nat.zero_le _)
        fun _ => ⟨rfl, rfl⟩
      obtain ⟨m'', ht'', hrest⟩ := ih (n := 1) (held := true) ht' (by omega) hc' Bool.noConfusion
      exact ⟨m'', ht'', (readScan_sof howned hsof ht.wf hin (hvalid a n (by omega))).trans (hstep.trans hrest)⟩
    | false =>
      cases held with
      | true =>
        obtain ⟨c', m', hc', ht', hstep⟩ := readScan_traverse_fragment (k := k) ht hs hin hc fun h => by
          rw [hsof] at h; cases h
        obtain ⟨m'', ht'', hrest⟩ := ih (n := n + 1) (held := true) ht' (by omega) hc' Bool.noConfusion
        exact ⟨m'', ht'', hstep.trans hrest⟩
      | false =>
        obtain ⟨rfl, rfl⟩ := hheld rfl
        obtain ⟨m'', ht'', hrest⟩ := ih (n := 0) (held := false) (ht.release (n := 1) (by omega)) (by omega)
          (Nat.zero_le _) fun _ => ⟨rfl, rfl⟩
        exact ⟨m'', ht'', (readScan_orphan howned hsof hpos).trans hrest⟩

/-- Settles O15: the traversal from RX_TAIL, once around the ring. -/
theorem readTraversalErrorReleasesEveryDescriptor : Obligations.ReadTraversalErrorReleasesEveryDescriptor := by
  unfold Obligations.ReadTraversalErrorReleasesEveryDescriptor
  intro s dest maxLen _ hm hdone ht hmax hv hdst hown heof hbuf hap
  have hpos : 0 < s.rx.cap.toNat := by omega
  have hidx : ∀ k, (s.rx.tail.toNat + k) % s.rx.cap.toNat < s.rx.cap.toNat := fun k => Nat.mod_lt _ hpos
  have hs : NoFrameEnds s dest maxLen.toNat := {
    ready := ⟨by omega, fun k _ => hv _ (hidx _), fun k _ => hown _ (hidx _)⟩
    eof := fun k _ => heof _ (hidx k)
    dst := hdst
    src := fun k _ => hbuf _ (hidx k)
    apart := fun k _ => hap _ (hidx k) }
  have hstart : Traversed s dest maxLen.toNat 0 s.mem :=
    ⟨hm, fun _ _ => rfl, fun _ _ => rfl, fun _ _ _ => rfl⟩
  obtain ⟨m, hend, hscan⟩ := readScan_traverse (k := s.rx.cap.toNat) (n := 0) (c := 0) (held := false) hs hstart
    (by omega) hpos (Nat.zero_le _) fun _ => ⟨rfl, rfl⟩
  refine ⟨m, ?_, fun i hi => ?_, fun x hx hc => hend.other x hx fun k _ => hc _ (hidx k)⟩
  · rw [exec_read_of_scan hdone hmax ht hscan, Nat.add_mod_right, Nat.mod_eq_of_lt ht, BitVec.ofNat_toNat,
      readResults, BitVec.ofNat_toNat]
    rfl
  · obtain ⟨k, hk, hdesc⟩ := exists_position ht hi
    have hword := hend.word0 k hk
    rw [if_pos hk, State.word0, hdesc] at hword
    exact hword

/-! ### What READ leaves alone -/

/-- The registers that READ leaves alone. -/
def ReadKeeps (s u : State) : Prop :=
  u.params = s.params ∧ u.tx = s.tx ∧ u.net = s.net ∧ u.cb = s.cb ∧ u.ev = s.ev ∧ u.cfg = s.cfg ∧ u.dmx = s.dmx
    ∧ u.dispFail = s.dispFail ∧ u.out = s.out ∧ u.env = s.env ∧ u.rx = { s.rx with tail := u.rx.tail }
    ∧ u.cmd.args = s.cmd.args ∧ u.cmd.cmdOvr = s.cmd.cmdOvr ∧ u.eng.initDone = s.eng.initDone

/-- The bytes that READ leaves alone. -/
def ReadSpares (s : State) (dest : Word) (maxLen : Nat) (u : State) : Prop :=
  ∀ x, Outside dest maxLen x → (∀ i, i < s.rx.cap.toNat → Outside (s.rx.desc i) 4 x) → u.byte x = s.byte x

/-- An index of the ring, for a READ that starts inside it. -/
def InRing (s : State) (i : Nat) : Prop := s.rx.tail.toNat < s.rx.cap.toNat → i < s.rx.cap.toNat

/-- What holds while READ runs from `s`: its scan stays inside the ring. -/
def ReadFrom (s : State) (dest : Word) (maxLen : Nat) (u : State) : Prop :=
  ReadKeeps s u ∧ InRing s u.rx.tail.toNat ∧ (s.rx.tail.toNat < s.rx.cap.toNat → ReadSpares s dest maxLen u)

theorem ReadKeeps.rx (hk : ReadKeeps s u) : u.rx = { s.rx with tail := u.rx.tail } := by
  obtain ⟨-, -, -, -, -, -, -, -, -, -, h, -⟩ := hk
  exact h

/-- Settles O16: each update of READ is within the frame, and its writes are to `dest` and to words 0 of the ring. -/
theorem readFrame : Obligations.ReadFrame := by
  unfold Obligations.ReadFrame
  intro s t dest maxLen hx
  suffices h : ReadFrom s dest maxLen.toNat t by
    obtain ⟨⟨h1, h2, h3, h4, h5, h6, h7, h8, h9, h10, h11, h12, h13, h14⟩, -, h15⟩ := h
    exact ⟨h1, h2, h3, h4, h5, h6, h7, h8, h9, h10, h11, h12, h13, h14, h15⟩
  have hs : ReadFrom s dest maxLen.toNat s :=
    ⟨⟨rfl, rfl, rfl, rfl, rfl, rfl, rfl, rfl, rfl, rfl, rfl, rfl, rfl, rfl⟩, fun h => h, fun _ _ _ _ => rfl⟩
  refine runCommand_final (I := ReadFrom s dest maxLen.toNat)
    (preserves_readBody (I := ReadFrom s dest maxLen.toNat) (cap := s.rx.cap.toNat) (P := InRing s) ?cap ?closed
      (fun _ hu => hu.2.1) ?release ?copy ?tail s hs) (fun _ _ _ hu => hu) (fun _ _ hu => hu) hx
  case cap => exact fun u hu => by rw [hu.1.rx]
  case closed => exact fun i j _ hin => Nat.mod_lt _ (by omega)
  case release =>
    rintro i hi u v ⟨hkeeps, htail, hspares⟩
    refine ⟨hkeeps, htail, fun hin x hx hout => ?_⟩
    have hdesc : u.rx.desc i = s.rx.desc i := by rw [hkeeps.rx]; rfl
    exact (readCell_writeWord_other (hdesc ▸ hout i (hi hin))).trans (hspares hin x hx hout)
  case copy =>
    rintro u j b hj ⟨hkeeps, htail, hspares⟩
    refine ⟨hkeeps, htail, fun hin x hx hout => ?_⟩
    exact (readCell_writeCell_other fun he => hx j hj (BitVec.eq_of_toNat_eq he)).trans (hspares hin x hx hout)
  case tail =>
    rintro u i hi ⟨hkeeps, -, hspares⟩
    refine ⟨?_, fun hin => ?_, hspares⟩
    · obtain ⟨h1, h2, h3, h4, h5, h6, h7, h8, h9, h10, h11, rest⟩ := hkeeps
      exact ⟨h1, h2, h3, h4, h5, h6, h7, h8, h9, h10, by rw [State.withRx_rx, h11], rest⟩
    · rw [State.withRx_rx, index_toNat (hi hin)]; exact hi hin

end Sys2Proof.Machine
end

section
/-! PROOF. The wire and the DMA agents (41_dma_agents.md R260 to R264, R272 to R276): an agent's turn, what a frame's
arrival does, and the state RXDMA and TXDMA leave when every access they make is valid. -/

namespace Sys2Proof.Machine

variable {s : State} {rest : List Input} {frame : List Byte} {bs : List Byte} {m : List Host.Cell}
  {a w0 w1 x : Word} {off n : Nat}

/-! ### An agent's turn (R283) -/

/-- Whose step is enabled does not depend on the moves still listed. -/
theorem enabled_withInputs (s : State) (rest : List Input) (ag : Agent) :
    (s.withInputs rest).enabled ag = s.enabled ag := by
  cases ag <;> rfl

/-- The turn of an agent whose step is enabled is that step, on the state without the move. -/
theorem step_turn {ag : Agent} (ht : TurnOf ag s rest) (hen : s.enabled ag = true) :
    step s = agentStep ag (s.withInputs rest) := by
  obtain ⟨hwf, -, hin⟩ := ht
  rw [step_input hwf hin, applyInput, takeTurn, if_pos ((enabled_withInputs s rest ag).trans hen)]

/-- An agent's step ended: the step is the state it left. -/
theorem runAgent_ok {src : FaultSource} {fop : Byte} {body : Op Unit} {t : State} (h : body s = .ok () t) :
    runAgent src fop body s = .next t := by
  rw [runAgent, h]

/-- RXDMA's turn while it receives a frame. -/
theorem step_rxdma {t : State} (ht : TurnOf .rxdma s rest) (hd : s.rx.dma = .busy frame off)
    (h : rxdmaStep (s.withInputs rest) = .ok () t) : step s = .next t := by
  have hen : s.enabled .rxdma = true := by
    obtain ⟨-, hfault, -⟩ := ht
    simp [State.enabled, hfault, hd]
  rw [step_turn ht hen, agentStep, runAgent_ok h]

/-- TXDMA's turn while it is started and enabled. -/
theorem step_txdma {t : State} (ht : TurnOf .txdma s rest) (hgo : s.tx.go = true) (hen : s.net.txen = true)
    (h : txdmaStep (s.withInputs rest) = .ok () t) : step s = .next t := by
  have hen : s.enabled .txdma = true := by
    obtain ⟨-, hfault, -⟩ := ht
    simp [State.enabled, hfault, hgo, hen]
  rw [step_turn ht hen, agentStep, runAgent_ok h]

/-! ### Frame arrival (R260, R261) -/

theorem arrive_dropped (h : s.eng.fault = true ∨ s.net.rxen = false) : s.arrive frame = s := by
  unfold State.arrive
  rw [if_pos (by simpa using h)]

theorem arrive_overrun (hf : s.eng.fault = false) (hen : s.net.rxen = true) (hd : s.rx.dma ≠ .idle) :
    s.arrive frame
      = s.withNet { s.net with rsr := { s.net.rsr with rxovr := true }, isr := { s.net.isr with rovr := true } } := by
  unfold State.arrive
  rw [if_neg (by simp [hf, hen]), if_pos hd]

theorem arrive_received (hf : s.eng.fault = false) (hen : s.net.rxen = true) (hd : s.rx.dma = .idle) :
    s.arrive frame = s.withRx { s.rx with dma := .busy frame 0 } := by
  unfold State.arrive
  rw [if_neg (by simp [hf, hen]), if_neg (not_not.mpr hd)]

/-- A listed arrival of a legal frame is the next step. -/
theorem step_arrive (hwf : s.params.wf = true) (hin : s.env.inputs = .arrive frame :: rest) (hfr : frameWf frame = true) :
    step s = .next ((s.withInputs rest).arrive frame) := by
  rw [step_input hwf hin, applyInput, if_pos hfr]

/-- Settles O33: the arrival's three cases, on the state without the move. -/
theorem frameArrival : Obligations.FrameArrival := by
  unfold Obligations.FrameArrival
  intro s frame rest hwf hin hpos hlen
  rw [step_arrive hwf hin (by simp [frameWf, hpos, hlen])]
  refine ⟨fun hdrop => ?_, fun hf hen hd => ?_, fun hf hen hd => ?_⟩
  · exact congrArg _ (arrive_dropped (s := s.withInputs rest) hdrop)
  · exact congrArg _ (arrive_overrun (s := s.withInputs rest) hf hen hd)
  · exact congrArg _ (arrive_received (s := s.withInputs rest) hf hen hd)

/-! ### RXDMA (R262 to R264) -/

/-- RXDMA at a hardware-owned descriptor fills it (R262). -/
theorem rxdmaStep_fill (hd : s.rx.dma = .busy frame off)
    (ha : AccessValid s.params (descAddr s.rx.qbase s.rx.ptr.toNat) 4)
    (hown : rxOwn (readWord s.mem (descAddr s.rx.qbase s.rx.ptr.toNat)) = false) :
    rxdmaStep s = rxFill (descAddr s.rx.qbase s.rx.ptr.toNat)
      (readWord s.mem (descAddr s.rx.qbase s.rx.ptr.toNat)) frame off s := by
  unfold rxdmaStep
  rw [Op.current_bind, hd]
  dsimp only
  rw [Op.bind_ok _ (memRead32_ok ha), if_neg (by rw [hown]; decide)]

/-- RXDMA at a software-owned descriptor stops: the buffer is not available (R262). -/
theorem rxdmaStep_stop (hd : s.rx.dma = .busy frame off)
    (ha : AccessValid s.params (descAddr s.rx.qbase s.rx.ptr.toNat) 4)
    (hown : rxOwn (readWord s.mem (descAddr s.rx.qbase s.rx.ptr.toNat)) = true) :
    rxdmaStep s = .ok () s.bufferNotAvailable := by
  unfold rxdmaStep
  rw [Op.current_bind, hd]
  dsimp only
  rw [Op.bind_ok _ (memRead32_ok ha), if_pos hown, update_run]

/-- Memory after RxFill's three writes, in its order: the buffer's bytes, word 1, word 0 (R263). -/
def fillCells (m : List Host.Cell) (buf : Word) (bs : List Byte) (a w0 w1 : Word) : List Host.Cell :=
  writeWord (writeWord (writeBytes m buf bs) (a + 4) w1) a w0

theorem fillCells_other {buf : Word} (hbuf : Outside buf bs.length x) (ha : Outside a 8 x) :
    readCell (fillCells m buf bs a w0 w1) x.toNat = readCell m x.toNat := by
  rw [fillCells, readCell_writeWord_other ha.first, readCell_writeWord_other ha.second, readCell_writeBytes_other hbuf]

/-- Both words of the descriptor are those written last, wherever the buffer lies. -/
theorem fillCells_words {buf : Word} (hm : Memory.wf m = true) :
    readWord (fillCells m buf bs a w0 w1) a = w0 ∧ readWord (fillCells m buf bs a w0 w1) (a + 4) = w1 := by
  have hwf := writeBytes_wf (a := buf) (bs := bs) hm
  refine ⟨readWord_writeWord_same (writeWord_wf hwf), ?_⟩
  rw [fillCells, readWord_writeWord_other (apart_words a).symm, readWord_writeWord_same hwf]

/-- A buffer apart from its descriptor holds the bytes written to it. -/
theorem fillCells_bytes {buf : Word} (hm : Memory.wf m = true) (hlen : bs.length ≤ 2 ^ 32)
    (hap : Apart buf bs.length a 8) : readBytes (fillCells m buf bs a w0 w1) buf bs.length = bs := by
  refine (readBytes_congr fun j hj => ?_).trans (readBytes_writeBytes_same (a := buf) hm hlen)
  have hout := hap.outside hj
  rw [fillCells, readCell_writeWord_other hout.first, readCell_writeWord_other hout.second]

/-- The bytes of the frame that one descriptor takes (R263). -/
theorem length_fragment {unit : Nat} (hn : n = min unit (frame.length - off)) :
    ((frame.drop off).take n).length = n := by
  rw [List.length_take, List.length_drop]; omega

/-- The end of RxFill, field by field (R263, R264). -/
theorem rxAdvance_eq (s : State) (frame : List Byte) (next : Nat) (eof : Bool) :
    s.rxAdvance frame next eof = { s with
      rx := { s.rx with dma := if eof then .idle else .busy frame next }
      net := if eof then
          { s.net with rsr := { s.net.rsr with received := true }, isr := { s.net.isr with rcomp := true } }
        else s.net } := by
  cases eof <;> rfl

/-- Word 1 as RXDMA writes it, with its bits as numbers (R263). -/
theorem rxFillWord1_eq (len off : Nat) (eof : Bool) :
    rxFillWord1 len (off == 0) eof = (if eof then BitVec.ofNat 32 len else 0)
      ||| (if off = 0 then 0x4000 else 0) ||| (if eof then 0x8000 else 0) := by
  unfold rxFillWord1 bitAt
  simp only [beq_iff_eq]
  rfl

/-- What one descriptor takes of a frame is less than the address space (R9). -/
theorem fragment_le {p : Params} (hp : p.wf = true) (hn : n = min p.rxUnit (frame.length - off)) : n ≤ 2 ^ 32 := by
  simp only [Params.wf, Bool.and_eq_true, decide_eq_true_eq] at hp
  have hunit : p.rxUnit ≤ 8188 := by tauto
  omega

/-- Settles O34: at a hardware-owned descriptor the three writes of RxFill, at a software-owned one its stop. -/
theorem rxdmaTakesOneDescriptor : Obligations.RxdmaTakesOneDescriptor := by
  unfold Obligations.RxdmaTakesOneDescriptor
  constructor
  · intro s rest frame off n a w0 eof ht hm hd _ ha hw0 hown hn heof hav hbuf hap
    have hlen := length_fragment (frame := frame) (off := off) hn
    have hstep : rxdmaStep (s.withInputs rest) = rxFill a w0 frame off (s.withInputs rest) := by
      subst hw0 ha
      exact rxdmaStep_fill (s := s.withInputs rest) hd hav.first hown
    have hfill := rxFill_ok (s := s.withInputs rest) (a := a) (w0 := w0) (frame := frame) (off := off) hn hbuf hav
    obtain ⟨hword0, hword1⟩ := fillCells_words (a := a) (buf := rxAddr w0) (bs := (frame.drop off).take n)
      (w0 := w0 ||| 1) (w1 := rxFillWord1 frame.length (off == 0) eof) hm
    have hbytes := fillCells_bytes (a := a) (buf := rxAddr w0) (bs := (frame.drop off).take n) (w0 := w0 ||| 1)
      (w1 := rxFillWord1 frame.length (off == 0) eof) hm (hlen.symm ▸ fragment_le ht.1 hn) (hlen.symm ▸ hap)
    rw [hlen] at hbytes
    rw [← heof, rxAdvance_eq] at hfill
    refine ⟨_, step_rxdma ht hd (hstep.trans hfill), hbytes, hword1.trans (rxFillWord1_eq _ _ _), hword0,
      fun x hxb hxa => fillCells_other (hlen.symm ▸ hxb) hxa⟩
  · intro s rest frame off a ht hd ha hav hown
    subst ha
    exact step_rxdma ht hd (rxdmaStep_stop (s := s.withInputs rest) hd hav hown)

/-! ### TXDMA (R272 to R276) -/

/-- A draw does not look at the moves still listed. -/
theorem drawTx_withInputs (e : Env) (rest : List Input) :
    ({ e with inputs := rest } : Env).drawTx = (e.drawTx.1, { e.drawTx.2 with inputs := rest }) := by
  obtain ⟨inputs, outcomes, acks, draws, radioDraws, turns, hostData⟩ := e
  cases outcomes <;> rfl

/-- TXDMA at a USED descriptor stops (R272). -/
theorem txdmaStep_stop (ha : AccessValid s.params (descAddr s.tx.qbase s.tx.ptr.toNat + 4) 4)
    (hused : txUsed (readWord s.mem (descAddr s.tx.qbase s.tx.ptr.toNat + 4)) = true) :
    txdmaStep s = .ok () s.txStopUsed := by
  unfold txdmaStep
  rw [Op.current_bind, Op.bind_ok _ (memRead32_ok ha), if_pos hused, update_run]

/-- TXDMA at a hardware-owned descriptor draws one outcome and attempts the frame (R272, R274). -/
theorem txdmaStep_attempt (ha : AccessValid s.params (descAddr s.tx.qbase s.tx.ptr.toNat) 8)
    (hused : txUsed (readWord s.mem (descAddr s.tx.qbase s.tx.ptr.toNat + 4)) = false) :
    txdmaStep s = txAttempt (descAddr s.tx.qbase s.tx.ptr.toNat)
      (readWord s.mem (descAddr s.tx.qbase s.tx.ptr.toNat + 4)) (readWord s.mem (descAddr s.tx.qbase s.tx.ptr.toNat))
      s.env.drawTx.1 (s.withEnv s.env.drawTx.2) := by
  unfold txdmaStep
  rw [Op.current_bind, Op.bind_ok _ (memRead32_ok ha.second), if_neg (by rw [hused]; decide),
    Op.bind_ok _ (memRead32_ok ha.first), Op.bind_ok _ (drawTxOutcome_run s)]

/-- A frame is sent: its bytes join WIRE_TX, then USED is written (R272, R273). -/
theorem txAttempt_sent {buf : Word} (ha : AccessValid s.params (a + 4) 4) (hbuf : AccessValid s.params buf (txLen w1)) :
    txAttempt a w1 buf true s = .ok () (((s.withOut { s.out with
        wireTx := s.out.wireTx ++ [readBytes s.mem buf (txLen w1)] }).withMem
      (writeWord s.mem (a + 4) (w1 ||| 0x80000000))).txSent w1) :=
  (Op.bind_ok _ (memRead_ok hbuf)).trans ((Op.bind_ok _ (wireSend_run _ _)).trans
    (Op.bind_ok _ (memWrite32_ok (s := s.withOut _) ha)))

/-- The retry limit is exceeded: RLE is written, and no byte of the buffer is read (R272). -/
theorem txAttempt_failed {buf : Word} (ha : AccessValid s.params (a + 4) 4) :
    txAttempt a w1 buf false s = .ok () (s.withMem (writeWord s.mem (a + 4) (w1 ||| 0x20000000))).txFailed :=
  Op.bind_ok _ (memWrite32_ok ha)

/-- Settles O35: TXDMA's attempt ends by the outcome drawn, and its only write is to word 1. -/
theorem txdmaTakesOneDescriptor : Obligations.TxdmaTakesOneDescriptor := by
  unfold Obligations.TxdmaTakesOneDescriptor
  constructor
  · intro s rest a w1 buf ht hm hgo hen ha hav hw1 hused hb hbuf
    have hdraw : (s.withInputs rest).env.drawTx = _ := drawTx_withInputs s.env rest
    have hstep : txdmaStep (s.withInputs rest) = txAttempt a w1 buf s.env.drawTx.1
        (s.withEnv { s.env.drawTx.2 with inputs := rest }) := by
      subst hw1 hb ha
      refine (txdmaStep_attempt (s := s.withInputs rest) hav hused).trans ?_
      rw [hdraw]; rfl
    cases hsent : s.env.drawTx.1 with
    | true =>
      rw [hsent] at hstep
      have hok := hstep.trans (txAttempt_sent (s := s.withEnv _) hav.second hbuf)
      exact ⟨_, fun _ => ⟨step_txdma ht hgo hen hok, readWord_writeWord_same hm⟩, nofun,
        fun x hx => readCell_writeWord_other hx⟩
    | false =>
      rw [hsent] at hstep
      have hok := hstep.trans (txAttempt_failed (s := s.withEnv _) hav.second)
      exact ⟨_, nofun, fun _ => ⟨step_txdma ht hgo hen hok, readWord_writeWord_same hm⟩,
        fun x hx => readCell_writeWord_other hx⟩
  · intro s rest a ht hgo hen ha hav hused
    subst ha
    exact step_txdma ht hgo hen (txdmaStep_stop (s := s.withInputs rest) hav hused)

end Sys2Proof.Machine
end

section
/-! PROOF. DISPATCH (44_channel_dispatcher.md R380 to R388): the loop over the nodes sends the records of those that
have one, in order, and each send draws one of RADIO's answers (41_dma_agents.md R280). -/

namespace Sys2Proof.Machine

variable {s : State}

/-! ### RADIO's answers (R280) -/

/-- The next `n` answers, and the environment after them. -/
def Env.drawAcks : Nat → Env → List Bool × Env
  | 0, e => ([], e)
  | n + 1, e => (e.drawAck.1 :: (Env.drawAcks n e.drawAck.2).1, (Env.drawAcks n e.drawAck.2).2)

theorem drawAcks_length (n : Nat) (e : Env) : (e.drawAcks n).1.length = n := by
  induction n generalizing e with
  | zero => rfl
  | succ n ih => rw [Env.drawAcks, List.length_cons, ih]

/-- One answer: the first one supplied, while there is one; the rest of the environment stays. -/
theorem drawAck_eq (e : Env) : e.drawAck.2 = { e with
    radioAcks := e.radioAcks.drop 1, radioDraws := e.radioDraws + (1 - e.radioAcks.length) } := by
  obtain ⟨inputs, outcomes, acks, draws, radioDraws, turns, hostData⟩ := e
  cases acks with
  | nil => rfl
  | cons b bs => simp [Env.drawAck]

/-- The supplied answers come first, in order. -/
theorem drawAcks_supplied {n k : Nat} {e : Env} (hk : k < n) (hs : k < e.radioAcks.length) :
    (e.drawAcks n).1[k]? = e.radioAcks[k]? := by
  induction n generalizing k e with
  | zero => omega
  | succ n ih =>
    obtain ⟨inputs, outcomes, acks, draws, radioDraws, turns, hostData⟩ := e
    cases acks with
    | nil => simp at hs
    | cons b bs =>
      cases k with
      | zero => rfl
      | succ k =>
        simp only [Env.drawAcks, List.getElem?_cons_succ]
        exact ih (e := ⟨inputs, outcomes, bs, draws, radioDraws, turns, hostData⟩) (by omega) (by simpa using hs)

/-- `n` answers drop as many of the supplied ones, and the free draws count the rest. -/
theorem drawAcks_env (n : Nat) (e : Env) : (e.drawAcks n).2 = { e with
    radioAcks := e.radioAcks.drop n, radioDraws := e.radioDraws + (n - e.radioAcks.length) } := by
  induction n generalizing e with
  | zero => simp [Env.drawAcks]
  | succ n ih =>
    have hdraws : 1 - e.radioAcks.length + (n - (e.radioAcks.length - 1)) = n + 1 - e.radioAcks.length := by omega
    rw [Env.drawAcks, ih, drawAck_eq]
    simp only [List.drop_drop, List.length_drop, Nat.add_assoc, Nat.add_comm 1 n, hdraws]

/-! ### The records sent (R382, R386) -/

/-- The pipe and the record of node `i`, if it has one (R382, R383). -/
def State.nodeSend (s : State) (i : Nat) : Option (Word × Word) :=
  (mapValue (s.cfg.fwdOf i) i (s.dmx.channel (s.cfg.base.toNat + i)).toNat).map fun record => (s.cfg.pipeOf i, record)

/-- One record sent, and its failure counted if RADIO answers so. -/
def State.sendOne (s : State) (p : Word × Word) : State :=
  (s.radioSent p.1 p.2).withDispFail (s.dispFail + if s.env.drawAck.1 then 0 else 1)

/-- Several records sent in order: RADIO_OUT, DISP_FAIL and the draws. -/
def State.sendAll (s : State) (sends : List (Word × Word)) : State :=
  { s with
    out := { s.out with
      radioOut := s.out.radioOut ++
        List.zipWith (fun p a => ⟨p.1, p.2, a⟩) sends (s.env.drawAcks sends.length).1 }
    dispFail := s.dispFail + BitVec.ofNat 32 ((s.env.drawAcks sends.length).1.count false)
    env := (s.env.drawAcks sends.length).2 }

theorem sendAll_nil (s : State) : s.sendAll [] = s := by
  simp [State.sendAll, Env.drawAcks]

/-- The failures of one more answer. -/
theorem count_false_cons (b : Bool) (bs : List Bool) : (b :: bs).count false = (if b then 0 else 1) + bs.count false := by
  cases b
  · rw [List.count_cons_self, Nat.add_comm]; rfl
  · simp

theorem sendAll_cons (s : State) (p : Word × Word) (ps : List (Word × Word)) :
    s.sendAll (p :: ps) = (s.sendOne p).sendAll ps := by
  have hfail : s.dispFail + BitVec.ofNat 32 ((s.env.drawAcks (ps.length + 1)).1.count false)
      = s.dispFail + (if s.env.drawAck.1 then 0 else 1)
        + BitVec.ofNat 32 ((s.env.drawAck.2.drawAcks ps.length).1.count false) := by
    rw [Env.drawAcks, count_false_cons, BitVec.ofNat_add, ← BitVec.add_assoc]
    cases s.env.drawAck.1 <;> rfl
  have hout : s.out.radioOut ++ List.zipWith (fun p a => (⟨p.1, p.2, a⟩ : RadioEntry)) (p :: ps)
        (s.env.drawAcks (ps.length + 1)).1
      = s.out.radioOut ++ [⟨p.1, p.2, s.env.drawAck.1⟩]
        ++ List.zipWith (fun p a => ⟨p.1, p.2, a⟩) ps (s.env.drawAck.2.drawAcks ps.length).1 := by
    rw [Env.drawAcks, List.zipWith_cons_cons, List.append_assoc]; rfl
  unfold State.sendAll
  rw [List.length_cons, hfail, hout]
  rfl

/-! ### The loop over the nodes (R382) -/

theorem dispatchNode_none {i : Nat} (h : s.nodeSend i = none) : dispatchNode i s = .ok (0, 0) s := by
  rw [State.nodeSend, Option.map_eq_none_iff] at h
  rw [dispatchNode, Op.current_bind, h]; rfl

theorem countFailure_run (ack : Bool) (s : State) :
    countFailure ack s = .ok () (s.withDispFail (s.dispFail + if ack then 0 else 1)) := by
  cases ack
  · rfl
  · exact congrArg (fun v => EStateM.Result.ok () (s.withDispFail v)) (BitVec.add_zero _).symm

/-- A node with a record: the record is sent, and RADIO's answer is counted. -/
theorem dispatchNode_some {i : Nat} {p : Word × Word} (h : s.nodeSend i = some p) :
    dispatchNode i s = .ok (1, if s.env.drawAck.1 then 0 else 1) (s.sendOne p) := by
  obtain ⟨record, hrecord, rfl⟩ := Option.map_eq_some_iff.mp h
  rw [dispatchNode, Op.current_bind, hrecord]
  dsimp only
  rw [Op.bind_ok _ (radioSend_run _ _ _), Op.bind_ok _ (countFailure_run _ _)]
  rfl

/-- The loop sends the records of its nodes, in order, and counts them and their failures. -/
theorem dispatchNodes_ok (n i : Nat) (s : State) :
    dispatchNodes i n s = .ok (((List.range' i n).filterMap s.nodeSend).length,
        (s.env.drawAcks ((List.range' i n).filterMap s.nodeSend).length).1.count false)
      (s.sendAll ((List.range' i n).filterMap s.nodeSend)) := by
  induction n generalizing i s with
  | zero => rw [List.range'_zero, List.filterMap_nil, sendAll_nil]; rfl
  | succ n ih =>
    rw [dispatchNodes, List.range'_succ]
    cases hp : s.nodeSend i with
    | none =>
      rw [List.filterMap_cons_none hp, Op.bind_ok _ (dispatchNode_none hp), Op.bind_ok _ (ih (i + 1) s)]
      simp
    | some p =>
      have hsends : (s.sendOne p).nodeSend = s.nodeSend := rfl
      rw [List.filterMap_cons_some hp, sendAll_cons, List.length_cons, Env.drawAcks, count_false_cons,
        Op.bind_ok _ (dispatchNode_some hp), Op.bind_ok _ (ih (i + 1) (s.sendOne p)), hsends]
      exact congrArg (fun k => EStateM.Result.ok (k, _) _) (Nat.add_comm 1 _)

/-- DISPATCH within its ranges runs the loop over all its nodes (R382). -/
theorem dispatchBody_ok (hcount : s.cfg.count.toNat ≤ s.params.maxNodes)
    (hrange : s.cfg.base.toNat + s.cfg.count.toNat ≤ 512) {r : Nat × Nat} {t : State}
    (h : dispatchNodes 0 s.cfg.count.toNat s = .ok r t) :
    dispatchBody s = .ok (.ok, ⟨BitVec.ofNat 32 r.1, BitVec.ofNat 32 r.2, 0, 0⟩) t := by
  have hgood : dispatchBad s.params s.cfg = false := by
    simp only [dispatchBad, Bool.or_eq_false_iff, decide_eq_false_iff_not]
    exact ⟨Nat.not_lt.mpr hcount, Nat.not_lt.mpr hrange⟩
  rw [dispatchBody, Op.current_bind, if_neg (by rw [hgood]; decide), Op.bind_ok _ h]; rfl

/-- Settles O32: the answers and the environment after them are those the loop's sends draw. -/
theorem dispatchSendsTheRecords : Obligations.DispatchSendsTheRecords := by
  unfold Obligations.DispatchSendsTheRecords
  intro s sends hcount hrange hsends
  have hloop := dispatchNodes_ok s.cfg.count.toNat 0 s
  rw [← List.range_eq_range', show (List.range s.cfg.count.toNat).filterMap s.nodeSend = sends from hsends.symm] at hloop
  have henv := drawAcks_env sends.length s.env
  refine ⟨(s.env.drawAcks sends.length).1, (s.env.drawAcks sends.length).2, drawAcks_length _ _,
    fun k hk hs => drawAcks_supplied hk hs, ?_, ?_, ?_, ?_, ?_, ?_, ?_,
    runCommand_ok (dispatchBody_ok hcount hrange hloop)⟩ <;> rw [henv]

end Sys2Proof.Machine
end

section
/-! PROOF. CLASSIFY (42_frame_classifier.md R300 to R312), what CLASSIFY, DECODE and the Art-Net opcodes leave alone, and
the opcode a DECODE runs (43_artnet_decoder.md R342). The law `classifyFrame_ok` says what the classifier answers when its
bytes can be read; here it is shown that it answers nothing else, for it reads each byte before it decides on it. -/

namespace Sys2Proof.Machine

variable {s t : State} {I : State → Prop} {fr : Word} {len : Nat} {α β : Type}

/-- Settles O24: the classifier's answer, as the command's results. -/
theorem classifyGivesTheThreeLevels : Obligations.ClassifyGivesTheThreeLevels := by
  unfold Obligations.ClassifyGivesTheThreeLevels
  intro s fr len hv
  have hbody : classifyBody fr len s = .ok (.ok, classResults ⟨headerEth (s.frame fr) len.toNat,
      headerIp (s.frame fr) len.toNat, headerOpcode (s.frame fr) len.toNat⟩) s := by
    rw [classifyBody, Op.bind_ok _ (classifyFrame_ok hv), Op.pure_run]
  exact runCommand_ok hbody

/-! ### Parts that only read -/

/-- Whenever the part ends from `s`, it has changed nothing and its answer satisfies `P`. -/
def Op.Answers (s : State) (op : Op α) (P : α → Prop) : Prop := ∀ a t, op s = .ok a t → t = s ∧ P a

theorem answers_pure {P : α → Prop} {a : α} (h : P a) : Op.Answers s (pure a) P := by
  intro b t hr; cases hr; exact ⟨rfl, h⟩

theorem answers_bind {x : Op α} {f : α → Op β} {Q : α → Prop} {P : β → Prop} (hx : Op.Answers s x Q)
    (hf : ∀ a, Q a → Op.Answers s (f a) P) : Op.Answers s (x >>= f) P := by
  intro b t hr
  obtain ⟨a, u, hxa, hfa⟩ := Op.bind_eq_ok hr
  obtain ⟨rfl, ha⟩ := hx a u hxa
  exact hf a ha b t hfa

theorem answers_ite {c : Prop} [Decidable c] {x y : Op α} {P : α → Prop} (hx : c → Op.Answers s x P)
    (hy : ¬ c → Op.Answers s y P) : Op.Answers s (if c then x else y) P := by
  split
  · next h => exact hx h
  · next h => exact hy h

theorem answers_frameByte (k : Nat) : Op.Answers s (frameByte fr k) (· = s.frame fr k) := by
  intro b t hr
  rcases memReadByte_cases s (fr + BitVec.ofNat 32 k) with ⟨-, h⟩ | ⟨-, h⟩ <;> rw [frameByte, h] at hr <;> cases hr
  exact ⟨rfl, rfl⟩

/-! ### The classifier, whenever it ends -/

/-- The comparison answers whether every byte is the identifier's (R307). -/
theorem answers_matchId (bs : List Byte) (k : Nat) :
    Op.Answers s (matchId fr k bs) (fun b => b = true ↔ ∀ j < bs.length, s.frame fr (k + j) = bs.getD j 0) := by
  induction bs generalizing k with
  | nil => exact answers_pure (by simp)
  | cons b bs ih =>
    have hsplit : (∀ j < (b :: bs).length, s.frame fr (k + j) = (b :: bs).getD j 0) ↔
        s.frame fr k = b ∧ ∀ j < bs.length, s.frame fr (k + 1 + j) = bs.getD j 0 := by
      rw [List.length_cons, Nat.forall_lt_succ_left]
      simp [Nat.add_assoc, Nat.add_comm 1]
    simp only [hsplit]
    refine answers_bind (answers_frameByte k) fun x hx => hx ▸ answers_ite (fun heq => ?_) fun hne => ?_
    · intro r t hr
      obtain ⟨ht, hiff⟩ := ih (k + 1) r t hr
      exact ⟨ht, hiff.trans (and_iff_right heq).symm⟩
    · exact answers_pure (by simp [hne])

theorem hasArtNetId_iff (f : Nat → Byte) :
    hasArtNetId f = true ↔ ∀ j < artNetId.length, f (42 + j) = artNetId.getD j 0 := by
  simp only [artNetId, List.length_cons, List.length_nil, Nat.forall_lt_succ_left]
  simp [hasArtNetId, and_assoc]

/-- The opcode of a frame with a UDP payload (R305). -/
theorem answers_artNetOpcode : Op.Answers s (artNetOpcode fr len) (fun o =>
    o = if 52 ≤ len ∧ hasArtNetId (s.frame fr) = true then some (opcodeOf (s.frame fr 50) (s.frame fr 51)) else none) := by
  refine answers_ite (fun h52 => answers_pure (by rw [if_neg (by omega)])) fun h52 => ?_
  refine answers_bind (answers_matchId artNetId 42) fun same hsame => ?_
  rw [← hasArtNetId_iff] at hsame
  refine answers_ite (fun h => ?_) fun h => answers_pure (by rw [if_neg (by rw [← hsame]; exact fun hc => h hc.2)])
  refine answers_bind (answers_frameByte 50) fun lo hlo => answers_bind (answers_frameByte 51) fun hi hhi => ?_
  exact answers_pure (by rw [if_pos ⟨by omega, hsame.mp h⟩, hlo, hhi])

/-- Whenever the classifier ends, its answer is that of the frame's bytes (R302, R303, R305). -/
theorem answers_classifyFrame : Op.Answers s (classifyFrame fr len)
    (· = ⟨headerEth (s.frame fr) len, headerIp (s.frame fr) len, headerOpcode (s.frame fr) len⟩) := by
  unfold classifyFrame headerOpcode
  refine answers_ite (fun h14 => answers_pure (by simp [headerIp, headerEth, h14])) fun h14 => ?_
  refine answers_bind (answers_frameByte 12) fun hi hhi => answers_bind (answers_frameByte 13) fun lo hlo => ?_
  have heth : headerEth (s.frame fr) len = ethernetKind hi lo := by rw [headerEth, if_neg h14, hhi, hlo]
  refine answers_ite (fun he => answers_pure (by simp [headerIp, heth, he])) fun he => ?_
  rw [not_not.mp he] at heth
  refine answers_ite (fun h24 => answers_pure (by simp [headerIp, heth, h24])) fun h24 => ?_
  refine answers_bind (answers_frameByte 23) fun pr hpr => ?_
  have hip : headerIp (s.frame fr) len = ipProto pr := by simp [headerIp, heth, h24, hpr]
  refine answers_ite (fun hp => answers_pure ?_) fun hp => ?_
  · rw [heth, hip, if_neg]
    rintro ⟨hudp, h52, -⟩
    exact hp.elim (fun hne => hne hudp) (by omega)
  · obtain ⟨hudp, -⟩ := not_or.mp hp
    refine answers_bind answers_artNetOpcode fun op hop => answers_pure ?_
    rw [heth, hip, not_not.mp hudp, hop]
    simp

/-- Settles O25: the answer is that of the frame's bytes, and without the identifier it holds no opcode. -/
theorem wrongIdentifierGivesNoOpcode : Obligations.WrongIdentifierGivesNoOpcode := by
  unfold Obligations.WrongIdentifierGivesNoOpcode
  intro s t fr len _ _ hid h hf
  have hno : headerOpcode (s.frame fr) len.toNat = none := by
    rw [headerOpcode, if_neg]
    rintro ⟨-, -, hmatch⟩
    exact hid (by simpa [hasArtNetId, and_assoc] using hmatch)
  rcases exec_cases h with ⟨r, u, hbody, rfl⟩ | ⟨a, u, -, rfl⟩
  · obtain ⟨c, v, hc, hr⟩ := Op.bind_eq_ok hbody
    obtain ⟨-, rfl⟩ := answers_classifyFrame c v hc
    cases hr
    rw [hno]
    exact ⟨rfl, rfl⟩
  · exact Bool.noConfusion hf

/-! ### What the frame commands leave alone (R300, R340, R354) -/

/-- CLASSIFY, DECODE and the Art-Net opcodes. -/
def IsFrameCommand (i : Instr) : Prop :=
  (∃ fr len, i = .classify fr len) ∨ (∃ fr len, i = .decode fr len) ∨ i = .opPoll ∨ i = .opDmx ∨ i = .opAddress

/-- The frame commands that do not touch the canonical buffer. -/
def LeavesBuffer (i : Instr) : Prop := (∃ fr len, i = .classify fr len) ∨ i = .opPoll ∨ i = .opAddress

/-- The frame commands that emit no event. -/
def LeavesQueue (i : Instr) : Prop := (∃ fr len, i = .classify fr len) ∨ i = .opDmx

/-- What a frame command keeps: whatever its completion or fault keeps, the buffer's updates if it may apply a DMX frame,
and an event if it may ask for a reply. -/
theorem exec_frameCommand_keeps {i : Instr} (hi : IsFrameCommand i) (h : exec i s = .next t) (hs : I s)
    (hc : ∀ u op st r, I u → I (u.complete op st r)) (he : ∀ u op a, I u → I (u.takeBusFault .ce op a))
    (hset : ¬ LeavesBuffer i → ∀ u j b, I u → I (u.withDmx { u.dmx with buf := u.dmx.buf.set j b }))
    (hlen : ¬ LeavesBuffer i → ∀ u n, I u → I (u.withDmx { u.dmx with len := BitVec.ofNat 10 n }))
    (hev : ¬ LeavesQueue i → ∀ u e, I u → I (u.withEv (u.ev.push u.params.evqDepth e))) : I t := by
  rw [exec_eq_runCommand] at h
  refine runCommand_final ?_ (fun u => hc u _) (fun u => he u _) h
  rcases hi with ⟨fr, len, rfl⟩ | ⟨fr, len, rfl⟩ | rfl | rfl | rfl
  case inl => exact preserves_classifyBody s hs
  case inr.inl =>
    have hb : ¬ LeavesBuffer (.decode fr len) := by simp [LeavesBuffer]
    have hq : ¬ LeavesQueue (.decode fr len) := by simp [LeavesQueue]
    exact preserves_okBody (preserves_decodeFrame (hset hb) (fun u n _ => hlen hb u n) (hev hq)) s hs
  case inr.inr.inl =>
    exact preserves_okBody (preserves_decodePoll (hev (by simp [LeavesQueue]))) s hs
  case inr.inr.inr.inl =>
    have hb : ¬ LeavesBuffer .opDmx := by simp [LeavesBuffer]
    exact preserves_okBody (preserves_decodeDmx (hset hb) fun u n _ => hlen hb u n) s hs
  case inr.inr.inr.inr =>
    exact preserves_okBody (preserves_decodeAddress (hev (by simp [LeavesQueue]))) s hs

/-- The registers that every frame command leaves alone, and all of memory. -/
def FrameCommandKeeps (s u : State) : Prop :=
  u.mem = s.mem ∧ u.params = s.params ∧ u.rx = s.rx ∧ u.tx = s.tx ∧ u.net = s.net ∧ u.cb = s.cb ∧ u.cfg = s.cfg
    ∧ u.dispFail = s.dispFail ∧ u.out = s.out ∧ u.env = s.env ∧ u.cmd.args = s.cmd.args
    ∧ u.cmd.cmdOvr = s.cmd.cmdOvr ∧ u.eng.initDone = s.eng.initDone

/-- Settles O30: only the buffer and the queue are ever updated, each by the commands that may do so. -/
theorem frameCommandsFrame : Obligations.FrameCommandsFrame := by
  unfold Obligations.FrameCommandsFrame
  intro i s t hi h
  have hself : FrameCommandKeeps s s := ⟨rfl, rfl, rfl, rfl, rfl, rfl, rfl, rfl, rfl, rfl, rfl, rfl, rfl⟩
  obtain ⟨hk, hbuf, hq⟩ := exec_frameCommand_keeps
    (I := fun u => FrameCommandKeeps s u ∧ (LeavesBuffer i → u.dmx = s.dmx) ∧ (LeavesQueue i → u.ev = s.ev))
    hi h ⟨hself, fun _ => rfl, fun _ => rfl⟩ (fun _ _ _ _ hu => hu) (fun _ _ _ hu => hu)
    (fun hn _ _ _ hu => ⟨hu.1, fun hb => absurd hb hn, hu.2.2⟩) (fun hn _ _ hu => ⟨hu.1, fun hb => absurd hb hn, hu.2.2⟩)
    (fun hn _ _ hu => ⟨hu.1, hu.2.1, fun hq => absurd hq hn⟩)
  obtain ⟨h1, h2, h3, h4, h5, h6, h7, h8, h9, h10, h11, h12, h13⟩ := hk
  exact ⟨h1, h2, h3, h4, h5, h6, h7, h8, h9, h10, h11, h12, h13, hbuf, hq⟩

/-! ### The opcode a DECODE runs (R305, R306, R342) -/

/-- The opcodes of R175. -/
theorem decodeOpcode_ok {op : Half} {i : Instr} (h : Sys2Proof.decodeOpcode op = .ok i) :
    (op = 0x2000 ∧ i = .opPoll) ∨ (op = 0x5000 ∧ i = .opDmx) ∨ (op = 0x6000 ∧ i = .opAddress) := by
  unfold Sys2Proof.decodeOpcode at h
  split_ifs at h <;> cases h <;> simp [*]

/-- A frame that holds an opcode has a UDP payload (R304). -/
theorem headerIp_of_headerOpcode {f : Nat → Byte} {op : Half} (h : headerOpcode f len = some op) :
    headerIp f len = .udp ∧ 52 ≤ len := by
  unfold headerOpcode at h
  split_ifs at h with hc
  exact ⟨hc.1, hc.2.1⟩

/-- DECODE takes the path of the frame's opcode. -/
theorem decodeFrame_eq_decodeBy {op : Half} (hv : HeaderValid s fr len)
    (hop : headerOpcode (s.frame fr) len = some op) :
    decodeFrame fr len s = decodeBy ⟨headerEth (s.frame fr) len, .udp, some op⟩ fr len s := by
  rw [decodeFrame, Op.bind_ok _ (classifyFrame_ok hv), hop, (headerIp_of_headerOpcode hop).1]

/-- DECODE's path of a frame that holds a known opcode is that opcode, run on the frame that DECODE names. -/
theorem okBody_decodeFrame_eq_commandBody {op : Half} {i : Instr} {fr len : Word} (hv : HeaderValid s fr len.toNat)
    (hop : headerOpcode (s.frame fr) len.toNat = some op) (hi : Sys2Proof.decodeOpcode op = .ok i)
    (hframe : s.frameOf = (fr, len.toNat)) : okBody (decodeFrame fr len.toNat) s = commandBody i s s := by
  obtain ⟨-, h52⟩ := headerIp_of_headerOpcode hop
  have hguard : ¬ (IpProto.udp ≠ .udp ∨ len.toNat ≤ 42) := by simp; omega
  have hrun : ∀ path : Op Results, decodeBy ⟨headerEth (s.frame fr) len.toNat, .udp, some op⟩ fr len.toNat = path →
      okBody (decodeFrame fr len.toNat) s = okBody path s := by
    rintro path rfl
    rw [okBody, Op.bind_run, decodeFrame_eq_decodeBy hv hop, ← Op.bind_run, okBody]
  rcases decodeOpcode_ok hi with ⟨rfl, rfl⟩ | ⟨rfl, rfl⟩ | ⟨rfl, rfl⟩
  case inl =>
    rw [commandBody, hframe]
    exact hrun _ (if_neg hguard)
  case inr.inl =>
    rw [commandBody, hframe]
    exact hrun _ (if_neg hguard)
  case inr.inr => exact hrun _ (if_neg hguard)

/-- DECODE of a frame that holds a known opcode is the instruction of that opcode (log entry 13). -/
theorem exec_decode_eq_exec_opcode {op : Half} {i : Instr} {fr len : Word} (hv : HeaderValid s fr len.toNat)
    (hop : headerOpcode (s.frame fr) len.toNat = some op) (hi : Sys2Proof.decodeOpcode op = .ok i)
    (hframe : s.frameOf = (fr, len.toNat)) : exec (.decode fr len) s = exec i s := by
  have hcode : commandOp i = 0x11 := by
    rcases decodeOpcode_ok hi with ⟨-, rfl⟩ | ⟨-, rfl⟩ | ⟨-, rfl⟩ <;> rfl
  rw [exec_eq_runCommand i, hcode, runCommand, ← okBody_decodeFrame_eq_commandBody hv hop hi hframe]
  rfl

/-- Settles O5: the turn runs DECODE on the frame that the pending command names. -/
theorem stepRunsArtNetOpcode : Obligations.StepRunsArtNetOpcode := by
  unfold Obligations.StepRunsArtNetOpcode
  intro s rest p op i ht hirq hp hw hv hop hi
  have hdecode : Sys2Proof.decodeCommand p.word p.args = .ok (.decode p.args.a0 p.args.a1) := by rw [hw]; rfl
  have hframe : (s.withInputs rest).frameOf = (p.args.a0, p.args.a1.toNat) := by
    have hp' : (s.withInputs rest).cmd.pend = some p := hp
    rw [State.frameOf, State.latched, hp']
  rw [stepRunsPendingCommand s rest p _ ht hirq hp hdecode]
  exact exec_decode_eq_exec_opcode hv hop hi hframe

end Sys2Proof.Machine
end

section
/-! PROOF. DECODE and the Art-Net opcodes as instructions (43_artnet_decoder.md R342 to R354). What each path of the
decoder does is said once, for the frame it is given; DECODE takes the path its classification selects, and an opcode
as an instruction is its path on the frame the latched arguments name (log entry 13). -/

namespace Sys2Proof.Machine

variable {s t : State} {fr : Word} {r : Results}

section Completion

variable {len : Word}

/-! ### Completion (R341) -/

/-- A path of DECODE that ended completes with OK and the path's results. -/
theorem runCommand_okBody {op : Byte} {body : Op Results} (h : body s = .ok r t) :
    runCommand op (okBody body) s = .next (t.complete op .ok r) := by
  have hbody : okBody body s = .ok (.ok, r) t := by rw [okBody, Op.bind_ok _ h]; rfl
  exact runCommand_ok hbody

/-- A path on the frame the latched arguments name (log entry 13). -/
theorem runCommand_okBody_frameOf {op : Byte} (path : Word → Nat → Op Results) (ha0 : s.latched.a0 = fr)
    (ha1 : s.latched.a1 = len) (h : path fr len.toNat s = .ok r t) :
    runCommand op (okBody (path s.frameOf.1 s.frameOf.2)) s = .next (t.complete op .ok r) := by
  have hframe : s.frameOf = (fr, len.toNat) := by rw [State.frameOf, ha0, ha1]
  rw [hframe]
  exact runCommand_okBody h

theorem exec_opDmx_ok (ha0 : s.latched.a0 = fr) (ha1 : s.latched.a1 = len)
    (h : decodeDmx fr len.toNat s = .ok r t) : exec .opDmx s = .next (t.complete 0x11 .ok r) :=
  runCommand_okBody_frameOf decodeDmx ha0 ha1 h

theorem exec_opPoll_ok (ha0 : s.latched.a0 = fr) (ha1 : s.latched.a1 = len)
    (h : decodePoll fr len.toNat s = .ok r t) : exec .opPoll s = .next (t.complete 0x11 .ok r) :=
  runCommand_okBody_frameOf decodePoll ha0 ha1 h

theorem exec_opAddress_ok (h : decodeAddress s = .ok r t) : exec .opAddress s = .next (t.complete 0x11 .ok r) :=
  runCommand_okBody h

/-- DECODE completes as the path that its classification selects (R342). -/
theorem exec_decode_ok (hv : HeaderValid s fr len.toNat)
    (h : decodeBy ⟨headerEth (s.frame fr) len.toNat, headerIp (s.frame fr) len.toNat,
      headerOpcode (s.frame fr) len.toNat⟩ fr len.toNat s = .ok r t) :
    exec (.decode fr len) s = .next (t.complete 0x11 .ok r) :=
  runCommand_okBody ((Op.bind_ok _ (classifyFrame_ok hv)).trans h)

end Completion

section Paths

variable {len : Nat} {eth : EthernetKind} {ip : IpProto}

/-! ### The path a classification selects (R342, R343) -/

theorem decodeBy_notArtNet {opcode : Option Half} (h : ip ≠ .udp ∨ len ≤ 42) :
    decodeBy ⟨eth, ip, opcode⟩ fr len = pure ⟨0, 0, 0, 0⟩ := if_pos h

/-- A UDP frame with a payload passes the first check of R342. -/
theorem not_notArtNet_of_udp (h : 42 < len) : ¬ (IpProto.udp ≠ .udp ∨ len ≤ 42) :=
  not_or.mpr ⟨not_not.mpr rfl, Nat.not_le.mpr h⟩

theorem decodeBy_noOpcode (h : 42 < len) : decodeBy ⟨eth, .udp, none⟩ fr len = pure ⟨1, 0, 0, 0⟩ :=
  if_neg (not_notArtNet_of_udp h)

theorem decodeBy_opDmx (h : 42 < len) : decodeBy ⟨eth, .udp, some 0x5000⟩ fr len = decodeDmx fr len :=
  if_neg (not_notArtNet_of_udp h)

/-- An opcode that R175 does not name is of kind OTHER (R306). -/
theorem artNetKind_other {op : Half} (hpoll : op ≠ 0x2000) (hdmx : op ≠ 0x5000) (haddr : op ≠ 0x6000) :
    artNetKind (some op) = .other := by
  have hdec : Sys2Proof.decodeOpcode op = .error .unknownOpcode := by
    rw [Sys2Proof.decodeOpcode, if_neg hpoll, if_neg hdmx, if_neg haddr]
  rw [artNetKind, hdec]

theorem decodeBy_otherOpcode {op : Half} (h : 42 < len) (hpoll : op ≠ 0x2000) (hdmx : op ≠ 0x5000)
    (haddr : op ≠ 0x6000) : decodeBy ⟨eth, .udp, some op⟩ fr len = pure ⟨6, 0, 0, 4⟩ := by
  rw [decodeBy, if_neg (not_notArtNet_of_udp h), if_neg (Option.some_ne_none op), artNetKind_other hpoll hdmx haddr]
  rfl

/-! ### The DMX path (R344 to R347) -/

theorem decodeDmx_short (h : len < 60) : decodeDmx fr len s = .ok ⟨1, 0, 0, 1⟩ s := by
  rw [decodeDmx, if_pos h]; rfl

theorem decodeDmx_otherUniverse (h60 : 60 ≤ len) (hv : memValid s.params (fr + 56) = true)
    (huni : s.frame fr 56 ≠ s.cfg.subuni) : decodeDmx fr len s = .ok ⟨3, 0, 0, 1⟩ s := by
  rw [decodeDmx, if_neg (Nat.not_lt.mpr h60), Op.bind_ok _ (frameByte_ok hv), Op.current_bind, if_pos huni]; rfl

/-- In this node's universe the declared length decides (R344, R346). -/
theorem decodeDmx_thisUniverse (h60 : 60 ≤ len)
    (hv : ∀ k ∈ [56, 58, 59], memValid s.params (fr + BitVec.ofNat 32 k) = true)
    (huni : s.frame fr 56 = s.cfg.subuni) {n : Nat} (hn : n = dmxCount (s.frame fr 58) (s.frame fr 59)) :
    decodeDmx fr len s = (if len < 60 + n then pure (decodeResults .malformed 0 false .dmx)
      else do dmxApply fr n; pure (decodeResults .dmxApplied n false .dmx) : Op Results) s := by
  rw [decodeDmx, if_neg (Nat.not_lt.mpr h60), Op.bind_ok _ (frameByte_ok (hv 56 (by simp))), Op.current_bind,
    if_neg (not_not.mpr huni), Op.bind_ok _ (frameByte_ok (hv 58 (by simp))),
    Op.bind_ok _ (frameByte_ok (hv 59 (by simp))), hn]

theorem applyChannel_ok {j : Nat} (h : memValid s.params (fr + BitVec.ofNat 32 (60 + j)) = true) :
    applyChannel fr j s = .ok () (s.withDmx { s.dmx with buf := s.dmx.buf.set j (s.frame fr (60 + j)) }) := by
  rw [applyChannel, Op.bind_ok _ (frameByte_ok h)]; rfl

/-- The loop of R345 from channel `pre.length`: the `n` channels from there are the frame's, the rest stay. -/
theorem applyChannels_ok {n : Nat} {pre rest : List Byte} (hbuf : s.dmx.buf = pre ++ rest) (hn : n ≤ rest.length)
    (hv : AccessValid s.params (fr + BitVec.ofNat 32 (60 + pre.length)) n) :
    forRange (applyChannel fr) pre.length n s = .ok () (s.withDmx { s.dmx with
      buf := pre ++ (readBytes s.mem (fr + BitVec.ofNat 32 (60 + pre.length)) n ++ rest.drop n) }) := by
  induction n generalizing s pre rest with
  | zero => rw [readBytes_zero, List.nil_append, List.drop_zero, ← hbuf]; rfl
  | succ n ih =>
    cases rest with
    | nil => cases hn
    | cons old rest =>
      rw [accessValid_succ] at hv
      obtain ⟨hfirst, hrest⟩ := hv
      have hnext : fr + BitVec.ofNat 32 (60 + pre.length) + 1
          = fr + BitVec.ofNat 32 (60 + (pre ++ [s.frame fr (60 + pre.length)]).length) := by
        rw [List.length_append, BitVec.add_assoc]; exact congrArg _ (BitVec.ofNat_add ..).symm
      have hset : s.dmx.buf.set pre.length (s.frame fr (60 + pre.length))
          = (pre ++ [s.frame fr (60 + pre.length)]) ++ rest := by
        rw [hbuf, List.set_append_right _ _ (Nat.le_refl _), Nat.sub_self, List.append_assoc]; rfl
      rw [hnext] at hrest
      have hloop := ih (s := s.withDmx { s.dmx with buf := s.dmx.buf.set pre.length (s.frame fr (60 + pre.length)) })
        hset (Nat.le_of_succ_le_succ hn) hrest
      rw [List.length_append] at hloop
      rw [forRange, Op.bind_ok _ (applyChannel_ok hfirst)]
      refine hloop.trans ?_
      rw [readBytes_succ, hnext, List.append_assoc, List.length_append]
      rfl

/-- `DmxApply` (R345): the first `n` channels are the frame's, the others keep their values, DMXLEN is `n`. -/
theorem dmxApply_ok {n : Nat} (hn : n ≤ s.dmx.buf.length) (hv : AccessValid s.params (fr + 60) n) :
    dmxApply fr n s = .ok () (s.withDmx ⟨readBytes s.mem (fr + 60) n ++ s.dmx.buf.drop n, BitVec.ofNat 10 n⟩) := by
  have hloop : forRange (applyChannel fr) 0 n s = _ := applyChannels_ok (pre := []) rfl hn hv
  rw [dmxApply, Op.bind_ok _ hloop]; rfl

theorem decodeDmx_truncated (h60 : 60 ≤ len)
    (hv : ∀ k ∈ [56, 58, 59], memValid s.params (fr + BitVec.ofNat 32 k) = true)
    (huni : s.frame fr 56 = s.cfg.subuni) (hlen : len < 60 + dmxCount (s.frame fr 58) (s.frame fr 59)) :
    decodeDmx fr len s = .ok ⟨1, 0, 0, 1⟩ s := by
  rw [decodeDmx_thisUniverse h60 hv huni rfl, if_pos hlen]; rfl

theorem decodeDmx_applied (h60 : 60 ≤ len)
    (hv : ∀ k ∈ [56, 58, 59], memValid s.params (fr + BitVec.ofNat 32 k) = true)
    (huni : s.frame fr 56 = s.cfg.subuni) {n : Nat} (hn : n = dmxCount (s.frame fr 58) (s.frame fr 59))
    (hlen : 60 + n ≤ len) (hbuf : n ≤ s.dmx.buf.length) (hdata : AccessValid s.params (fr + 60) n) :
    decodeDmx fr len s = .ok ⟨2, BitVec.ofNat 32 n, 0, 1⟩
      (s.withDmx ⟨readBytes s.mem (fr + 60) n ++ s.dmx.buf.drop n, BitVec.ofNat 10 n⟩) := by
  rw [decodeDmx_thisUniverse h60 hv huni hn, if_neg (Nat.not_lt.mpr hlen), Op.bind_ok _ (dmxApply_ok hbuf hdata)]; rfl

/-! ### The Poll path (R350, R353) -/

theorem decodePoll_short (h : len < 55) : decodePoll fr len s = .ok ⟨1, 0, 0, 2⟩ s := by
  rw [decodePoll, if_pos h]; rfl

/-- The reply request of a Poll and its report in RES2, by the flags that UNICAST_MASK selects. -/
theorem decodePoll_ok (h55 : 55 ≤ len) (hv : memValid s.params (fr + 54) = true) :
    decodePoll fr len s = .ok ⟨4, 0, if s.frame fr 54 &&& s.cfg.unicastMask ≠ 0 then 1 else 0, 2⟩
      (s.withEv (s.ev.push s.params.evqDepth
        (if s.frame fr 54 &&& s.cfg.unicastMask ≠ 0 then 0x14 else 0x04))) := by
  rw [decodePoll, if_neg (Nat.not_lt.mpr h55), Op.bind_ok _ (frameByte_ok hv), Op.current_bind,
    Op.bind_ok _ (emit_run _ s), Op.pure_run]
  by_cases hflag : s.frame fr 54 &&& s.cfg.unicastMask = 0
  · have huni : pollUnicast (s.frame fr 54) s.cfg.unicastMask = false := bne_eq_false_iff_eq.mpr hflag
    rw [huni, if_neg (not_not.mpr hflag), if_neg (not_not.mpr hflag)]; rfl
  · have huni : pollUnicast (s.frame fr 54) s.cfg.unicastMask = true := bne_iff_ne.mpr hflag
    rw [huni, if_pos hflag, if_pos hflag]; rfl

end Paths

/-! ### The Address path (R351) -/

theorem decodeAddress_ok : decodeAddress s = .ok ⟨5, 0, 1, 3⟩ (s.withEv (s.ev.push s.params.evqDepth 0x34)) := by
  rw [decodeAddress, Op.bind_ok _ (emit_run _ s)]; rfl

/-! ### The statements -/

/-- Settles O26: each discard is a path that reads nothing more. -/
theorem decodeDiscardsSilently : Obligations.DecodeDiscardsSilently := by
  unfold Obligations.DecodeDiscardsSilently
  intro s fr len hv
  refine ⟨fun hnot => exec_decode_ok hv ?_, fun hip h42 hno => exec_decode_ok hv ?_,
    fun op hop hpoll hdmx haddr => exec_decode_ok hv ?_⟩
  · rw [decodeBy_notArtNet hnot]; rfl
  · rw [hip, hno, decodeBy_noOpcode h42]; rfl
  · obtain ⟨hip, h52⟩ := headerIp_of_headerOpcode hop
    rw [hip, hop, decodeBy_otherOpcode (by omega) hpoll hdmx haddr]; rfl

/-- Settles O27: the DMX path applies the frame, and both instructions take that path. -/
theorem dmxFrameFillsTheBuffer : Obligations.DmxFrameFillsTheBuffer := by
  unfold Obligations.DmxFrameFillsTheBuffer
  rintro s t fr len n hbuf h60 hv huni hn hlen hdata rfl
  have hfits : n ≤ s.dmx.buf.length := by omega
  have hpath := decodeDmx_applied h60 hv huni hn hlen hfits hdata
  refine ⟨fun ha0 ha1 => exec_opDmx_ok ha0 ha1 hpath, fun hhdr hop => exec_decode_ok hhdr ?_⟩
  rw [(headerIp_of_headerOpcode hop).1, hop, decodeBy_opDmx (by omega)]
  exact hpath

/-- Settles O28: the three discards of the DMX path. -/
theorem dmxFrameDiscarded : Obligations.DmxFrameDiscarded := by
  unfold Obligations.DmxFrameDiscarded
  intro s fr len ha0 ha1
  refine ⟨fun hshort => exec_opDmx_ok ha0 ha1 (decodeDmx_short hshort),
    fun h60 hv huni => exec_opDmx_ok ha0 ha1 (decodeDmx_otherUniverse h60 hv huni),
    fun h60 h56 h58 h59 huni hlen => exec_opDmx_ok ha0 ha1 (decodeDmx_truncated h60 ?_ huni hlen)⟩
  simpa using ⟨h56, h58, h59⟩

/-- Settles O29: the Poll path on either side of 55 bytes; the Address path emits whatever the frame holds. -/
theorem pollAndAddressRequestReplies : Obligations.PollAndAddressRequestReplies := by
  unfold Obligations.PollAndAddressRequestReplies
  refine ⟨fun s fr len ha0 ha1 => ⟨fun h55 hv => ?_, fun hshort => ?_⟩, fun s => ?_⟩
  · exact exec_opPoll_ok ha0 ha1 (decodePoll_ok h55 hv)
  · exact exec_opPoll_ok ha0 ha1 (decodePoll_short hshort)
  · exact exec_opAddress_ok decodeAddress_ok

end Sys2Proof.Machine
end

section
/-! PROOF. The channel dispatcher's range table (44_channel_dispatcher.md R383 to R385): one equation of `mapValue` per
range, with the FWD byte and the rescaled value in the spec's own arithmetic. -/

namespace Sys2Proof.Machine

variable {v : Nat}

/-! ### The operands of the records -/

/-- Target `k` of FWD[n] is byte `k` of the word (R72, R385). -/
theorem forwardTarget_eq_shiftRight (fwd : Word) (k : Nat) : forwardTarget fwd k = (fwd >>> (8 * k)).toNat % 256 := by
  rw [forwardTarget, byteOf_eq_setWidth, BitVec.toNat_setWidth]

/-- The ten values from `21 + 10 * k` are band `k` of FWD (R385). -/
theorem forwardBand_eq {k : Nat} (hlo : 21 + 10 * k ≤ v) (hhi : v ≤ 30 + 10 * k) : (v - 21) / 10 = k := by omega

/-- The rescale of R384 from 0..129 onto 0..255. -/
theorem rescale_onto_byte (x : Nat) : rescale x 0 129 0 255 = x * 255 / 129 := rfl

/-- A value of the rescaled range fits in 8 bits (R384). -/
theorem rescaled_fits_byte (h : v ≤ 230) : (v - 101) * 255 / 129 ≤ 255 := by omega

/-! ### The range table (R383) -/

section Table

variable (fwd : Word) (i : Nat)

theorem mapValue_upTo10 (h : v ≤ 10) : mapValue fwd i v = some (recordWord 0 i 0) := if_pos h

theorem mapValue_11_20 (hlo : 11 ≤ v) (hhi : v ≤ 20) : mapValue fwd i v = some (recordWord 1 i 0) := by
  rw [mapValue, if_neg (by omega), if_pos hhi]

theorem mapValue_21_60 (hlo : 21 ≤ v) (hhi : v ≤ 60) :
    mapValue fwd i v = some (recordWord 2 i (forwardTarget fwd ((v - 21) / 10))) := by
  rw [mapValue, if_neg (by omega), if_neg (by omega), if_pos hhi]

theorem mapValue_61_100 (hlo : 61 ≤ v) (hhi : v ≤ 100) : mapValue fwd i v = none := by
  rw [mapValue, if_neg (by omega), if_neg (by omega), if_neg (by omega), if_pos hhi]

theorem mapValue_101_230 (hlo : 101 ≤ v) (hhi : v ≤ 230) :
    mapValue fwd i v = some (recordWord 3 i (rescale (v - 101) 0 129 0 255)) := by
  rw [mapValue, if_neg (by omega), if_neg (by omega), if_neg (by omega), if_neg (by omega), if_pos hhi]

theorem mapValue_from231 (hlo : 231 ≤ v) : mapValue fwd i v = some (recordWord 4 i 0) := by
  rw [mapValue, if_neg (by omega), if_neg (by omega), if_neg (by omega), if_neg (by omega), if_neg (by omega)]

end Table

/-! ### The statement -/

/-- Settles O31: the ranges are the branches of `mapValue`; a FWD band fixes the target byte. -/
theorem rangeTableMapsEveryValue : Obligations.RangeTableMapsEveryValue := by
  unfold Obligations.RangeTableMapsEveryValue
  intro fwd i v
  refine ⟨mapValue_upTo10 fwd i, mapValue_11_20 fwd i, fun k hk hlo hhi => ?band, mapValue_61_100 fwd i,
    fun hlo hhi => ⟨?rescaled, rescaled_fits_byte hhi⟩, fun hlo _ => mapValue_from231 fwd i hlo⟩
  case band =>
    rw [mapValue_21_60 fwd i (by omega) (by omega), forwardBand_eq hlo hhi, forwardTarget_eq_shiftRight]
  case rescaled => rw [mapValue_101_230 fwd i hlo hhi, rescale_onto_byte]

end Sys2Proof.Machine
end

section
/-! PROOF. BusFaults of every agent (60_exceptions.md R425, 10_state.md R53, R83). Every body is clean and leaves the
command port alone, so a step that leaves FAULT set has ended in its own BusFault, and its record is all it adds. -/

namespace Sys2Proof.Machine

variable {s t u : State} {rest : List Input} {a x : Word} {src : FaultSource} {fop : Byte}

/-! ### What the body of a command keeps -/

/-- What the body of an instruction keeps, before completion or a fault, that says nothing of memory and the rings. -/
theorem IgnoresRings.after_commandBody {I : State → Prop} (h : IgnoresRings I) (i : Instr) (hs : I s)
    (hcb : ∀ u c, I u → I (u.withCb c)) (heng : ∀ u e, I u → I (u.withEng e)) (hdmx : ∀ u d, I u → I (u.withDmx d))
    (hsend : ∀ u pipe record, I u → I (u.radioSent pipe record)) (hfail : ∀ u v, I u → I (u.withDispFail v)) :
    I (Op.final (commandBody i s s)) := by
  have hev : ∀ u e, I u → I (u.withEv (u.ev.push u.params.evqDepth e)) := fun u _ hu => h.ev u _ hu
  have hset : ∀ u j b, I u → I (u.withDmx { u.dmx with buf := u.dmx.buf.set j b }) := fun u _ _ hu => hdmx u _ hu
  have hlen : ∀ u n, n ≤ Config.dmxChannels → I u → I (u.withDmx { u.dmx with len := BitVec.ofNat 10 n }) :=
    fun u _ _ hu => hdmx u _ hu
  cases i with
  | init rc tc rd td rb tb => exact h.after_initBody hcb heng hs _ _ _ _ _ _
  | read dest maxLen => exact h.after_readBody hs _ _
  | write src len tag => exact h.after_writeBody hs _ _ _
  | setRxCb enable => exact preserves_setRxCbBody (fun u hu => h.net _ _ (hcb u _ hu)) s hs
  | setTxWakeup enable thr => exact preserves_setTxWakeupBody (fun u _ _ hu => hcb u _ hu) hev s hs
  | service => exact h.after_serviceCommand hs
  | classify fr len => exact preserves_classifyBody s hs
  | decode fr len => exact preserves_okBody (preserves_decodeFrame hset hlen hev) s hs
  | dispatch => exact preserves_dispatchBody hsend (fun u hu => hfail u _ hu) s hs
  | opPoll => exact preserves_okBody (preserves_decodePoll hev) s hs
  | opDmx => exact preserves_okBody (preserves_decodeDmx hset hlen) s hs
  | opAddress => exact preserves_okBody (preserves_decodeAddress hev) s hs

/-- The command port changes only at completion (R61). -/
theorem commandBody_cmd (i : Instr) (s : State) : (Op.final (commandBody i s s)).cmd = s.cmd := by
  have hi : IgnoresRings fun u => u.cmd = s.cmd :=
    ⟨fun _ _ hu => hu, fun _ _ hu => hu, fun _ _ hu => hu, fun _ _ hu => hu, fun _ _ hu => hu⟩
  exact hi.after_commandBody i rfl (fun _ _ hu => hu) (fun _ _ hu => hu) (fun _ _ hu => hu) (fun _ _ _ hu => hu)
    fun _ _ hu => hu

/-! ### The record of a BusFault -/

/-- ENGSTAT and FAULTADDR name the agent, the command and an address that fails MEM_VALID (R425). -/
def FaultRecorded (p : Params) (src : FaultSource) (fop : Byte) (t : State) : Prop :=
  t.eng = ⟨t.eng.initDone, true, src, fop, t.eng.faultAddr⟩ ∧ memValid p t.eng.faultAddr = false

theorem faultRecorded_takeBusFault {p : Params} (h : memValid p a = false) :
    FaultRecorded p src fop (u.takeBusFault src fop a) := ⟨rfl, h⟩

/-- A clean part that ends raises no FAULT. -/
theorem Op.Clean.ok_fault {α : Type} {op : Op α} {r : α} (hc : Op.Clean op) (h : op s = .ok r t) :
    t.eng.fault = s.eng.fault := (congrArg Engine.fault (hc.ok h).2 :)

/-- A command that leaves FAULT set ended in its own BusFault, before completion. -/
theorem exec_faultRecorded {i : Instr} (hf : s.eng.fault = false) (h : exec i s = .next t) (ht : t.eng.fault = true) :
    FaultRecorded s.params .ce (commandOp i) t ∧ t.cmd = s.cmd := by
  have hc := clean_commandBody i s
  have hcmd := commandBody_cmd i s
  rcases exec_cases h with ⟨r, u, hu, rfl⟩ | ⟨a, u, hu, rfl⟩
  · have hfu : u.eng.fault = true := ht
    rw [hc.ok_fault hu, hf] at hfu
    cases hfu
  · rw [hu] at hcmd
    exact ⟨faultRecorded_takeBusFault (hc.error hu).1, hcmd⟩

/-- An agent's step that leaves FAULT set ended in its own BusFault. -/
theorem runAgent_faultRecorded {body : Op Unit} (hc : Op.Clean body) (hf : s.eng.fault = false)
    (h : runAgent src fop body s = .next t) (ht : t.eng.fault = true) : FaultRecorded s.params src fop t := by
  rcases runAgent_cases src fop body s with ⟨u, hu, hn⟩ | ⟨a, u, hu, hn⟩ <;> rw [hn] at h <;> cases h
  · rw [hc.ok_fault hu, hf] at ht
    cases ht
  · exact faultRecorded_takeBusFault (hc.error hu).1

/-- The record in full, for a step that keeps INIT_DONE and the command port. -/
theorem FaultRecorded.withFrame {p : Params} (h : FaultRecorded p src fop t) (hdone : t.eng.initDone = s.eng.initDone)
    (hcmd : t.cmd = s.cmd) :
    t.eng = ⟨s.eng.initDone, true, src, fop, t.eng.faultAddr⟩ ∧ memValid p t.eng.faultAddr = false ∧ t.cmd = s.cmd :=
  ⟨hdone ▸ h.1, h.2, hcmd⟩

/-! ### An agent's turn that faults -/

theorem TurnOf.noFault {ag : Agent} (ht : TurnOf ag s rest) : s.eng.fault = false := ht.2.1

/-- A turn that leaves FAULT set was the agent's step: a turn of an agent that is not enabled changes nothing. -/
theorem agentStep_of_fault {ag : Agent} (ht : TurnOf ag s rest) (h : step s = .next t) (hft : t.eng.fault = true) :
    agentStep ag (s.withInputs rest) = .next t := by
  obtain ⟨hwf, hf, hin⟩ := ht
  rw [step_input hwf hin, applyInput, takeTurn] at h
  split at h
  · exact h
  · cases h
    exact absurd (hf.symm.trans hft) Bool.false_ne_true

/-- RXDMA cannot read its descriptor: it ends at the first access (R262). -/
theorem rxdmaStep_fault {frame : List Byte} {off : Nat} (hd : s.rx.dma = .busy frame off)
    (h : memRead32 (descAddr s.rx.qbase s.rx.ptr.toNat) s = .error x s) : rxdmaStep s = .error x s := by
  unfold rxdmaStep
  rw [Op.current_bind, hd]
  exact Op.bind_error _ h

/-- TXDMA cannot read word 1 of its descriptor: it ends at the first access (R272). -/
theorem txdmaStep_fault (h : memRead32 (descAddr s.tx.qbase s.tx.ptr.toNat + 4) s = .error x s) :
    txdmaStep s = .error x s := by
  unfold txdmaStep
  rw [Op.current_bind]
  exact Op.bind_error _ h

/-- An agent's step that faults before any update adds the record to its state, and nothing else. -/
theorem runAgent_error {body : Op Unit} (h : body s = .error x s) :
    runAgent src fop body s = .next (s.withEng ⟨s.eng.initDone, true, src, fop, x⟩) := by
  rw [runAgent, h]; rfl

/-- Settles O37: a body's BusFault is recorded with the agent that ran it; a DMA agent's first access comes before any
of its updates. -/
theorem busFaultIsRecorded : Obligations.BusFaultIsRecorded := by
  unfold Obligations.BusFaultIsRecorded
  refine ⟨?exec, ?service, ?rxdma, ?txdma, ?rxdmaFirst, ?txdmaFirst⟩
  case exec =>
    intro i s t hf h ht
    obtain ⟨⟨heng, haddr⟩, hcmd⟩ := exec_faultRecorded hf h ht
    exact ⟨heng, haddr, hcmd⟩
  case service =>
    intro s t rest ht hirq h hft
    rw [step_autonomousService ht hirq] at h
    obtain ⟨hcmd, -, hdone, -⟩ := autonomousService_frame h
    have hc : Op.Clean (serviceBody >>= fun _ => pure ()) := clean_bind clean_serviceBody fun _ => clean_pure ()
    exact (runAgent_faultRecorded (s := s.withInputs rest) hc ht.noFault h hft).withFrame hdone hcmd
  case rxdma =>
    intro s t rest ht h hft
    have hx := agentStep_of_fault ht h hft
    obtain ⟨hcmd, -, -, -, -, -, -, -, -, hdone, -⟩ := rxdma_frame hx
    exact (runAgent_faultRecorded (s := s.withInputs rest) clean_rxdmaStep ht.noFault hx hft).withFrame hdone hcmd
  case txdma =>
    intro s t rest ht h hft
    have hx := agentStep_of_fault ht h hft
    obtain ⟨hcmd, -, -, -, -, -, -, -, -, hdone, -⟩ := txdma_frame hx
    exact (runAgent_faultRecorded (s := s.withInputs rest) clean_txdmaStep ht.noFault hx hft).withFrame hdone hcmd
  case rxdmaFirst =>
    intro s rest frame off a ht hd ha hav
    subst ha
    obtain ⟨x, hx, hread⟩ := memRead32_fault (s := s.withInputs rest) hav
    have hen : s.enabled .rxdma = true := by simp [State.enabled, ht.noFault, hd]
    exact ⟨x, hx, (step_turn ht hen).trans (runAgent_error (rxdmaStep_fault (s := s.withInputs rest) hd hread))⟩
  case txdmaFirst =>
    intro s rest a ht hgo hten ha hav
    subst ha
    obtain ⟨x, hx, hread⟩ := memRead32_fault (s := s.withInputs rest) hav
    have hen : s.enabled .txdma = true := by simp [State.enabled, ht.noFault, hgo, hten]
    exact ⟨x, hx, (step_turn ht hen).trans (runAgent_error (txdmaStep_fault (s := s.withInputs rest) hread))⟩

end Sys2Proof.Machine
end

section
/-! PROOF. The interrupt mask (60_exceptions.md R431, 10_state.md R43 to R45): who writes it. The frames of the commands
and of the agents leave it alone; of HOST's writes two reach it, each at the one offset of its register. -/

namespace Sys2Proof.Machine

variable {s t : State}

/-! ### The commands -/

/-- Every instruction but INIT and SET_RX_CB leaves IMR, completed or faulted. -/
theorem exec_imr {i : Instr} (hinit : ∀ rc tc rd td rb tb, i ≠ .init rc tc rd td rb tb) (hcb : ∀ e, i ≠ .setRxCb e)
    (h : exec i s = .next t) : t.net.imr = s.net.imr := by
  have hframe : IsFrameCommand i → t.net.imr = s.net.imr := fun hi => by
    obtain ⟨-, -, -, -, hnet, -⟩ := frameCommandsFrame i s t hi h
    rw [hnet]
  have run : ∀ {op body}, Op.Preserves (fun u => u.net.imr = s.net.imr) body → runCommand op body s = .next t →
      t.net.imr = s.net.imr := fun hb hr =>
    runCommand_preserves (I := fun u => u.net.imr = s.net.imr) hb (fun _ _ hu => hu) (fun _ _ hu => hu) rfl hr
  cases i with
  | init rc tc rd td rb tb => exact absurd rfl (hinit rc tc rd td rb tb)
  | setRxCb e => exact absurd rfl (hcb e)
  | read dest maxLen =>
    obtain ⟨-, -, hnet, -⟩ := readFrame s t dest maxLen h
    rw [hnet]
  | write src len tag =>
    obtain ⟨-, -, hnet, -⟩ := writeFrame s t src len tag h
    rw [hnet]
  | service =>
    obtain ⟨-, -, -, -, -, -, -, -, -, -, -, -, -, -, -, -, himr, -⟩ := serviceFrame s t (.inl h)
    exact himr
  | setTxWakeup e thr => exact run (preserves_setTxWakeupBody (fun _ _ _ hu => hu) fun _ _ hu => hu) h
  | dispatch => exact run (preserves_dispatchBody (fun _ _ _ hu => hu) fun _ hu => hu) h
  | classify fr len => exact hframe (.inl ⟨fr, len, rfl⟩)
  | decode fr len => exact hframe (.inr (.inl ⟨fr, len, rfl⟩))
  | opPoll => exact hframe (.inr (.inr (.inl rfl)))
  | opDmx => exact hframe (.inr (.inr (.inr (.inl rfl))))
  | opAddress => exact hframe (.inr (.inr (.inr (.inr rfl))))

/-! ### The agents' turns -/

/-- The command engine's step leaves IMR if SERVICE is due, or the pending word is neither INIT's nor SET_RX_CB's. -/
theorem ceStep_imr (hok : s.irqPending = true ∨ ∀ p, s.cmd.pend = some p → p.word ≠ 0x01 ∧ p.word ≠ 0x04)
    (h : ceStep s = .next t) : t.net.imr = s.net.imr := by
  rcases ceStep_cases h with ⟨-, hx⟩ | ⟨hirq, p, hp, ⟨i, hd, hx⟩ | ⟨e, -, rfl⟩⟩ | ⟨-, -, rfl⟩
  · obtain ⟨-, -, -, himr, -⟩ := autonomousService_frame hx
    exact himr
  · obtain ⟨hinit, hcb⟩ := (hok.resolve_left (by rw [hirq]; decide)) p hp
    obtain ⟨hword, -⟩ := decodeCommand_ok hd
    exact exec_imr (fun _ _ _ _ _ _ he => hinit (by rw [hword, he]; rfl)) (fun _ he => hcb (by rw [hword, he]; rfl)) hx
  · rfl
  · rfl

/-- A turn leaves IMR, if the command engine's step would. -/
theorem takeTurn_imr {ag : Agent}
    (hok : s.irqPending = true ∨ ag ≠ .ce ∨ ∀ p, s.cmd.pend = some p → p.word ≠ 0x01 ∧ p.word ≠ 0x04)
    (h : takeTurn ag s = .next t) : t.net.imr = s.net.imr := by
  unfold takeTurn at h
  split at h
  · cases ag with
    | ce => exact ceStep_imr (hok.imp_right fun hr => hr.resolve_left (not_not.mpr rfl)) h
    | rxdma =>
      obtain ⟨-, -, -, -, -, -, himr, -⟩ := rxdma_frame h
      exact himr
    | txdma =>
      obtain ⟨-, -, -, -, -, himr, -⟩ := txdma_frame h
      exact himr
  · cases h; rfl

/-! ### HOST's writes -/

/-- IER and IDR are the only registers through which HOST writes IMR (R43, R44). -/
theorem writeReg_imr {r : Reg} (v : Word) (hier : r ≠ .ier) (hidr : r ≠ .idr) :
    (writeReg s v r).net.imr = s.net.imr := by
  cases r
  case ier => exact absurd rfl hier
  case idr => exact absurd rfl hidr
  case ncr => rw [writeReg, ncrWrite_eq]
  case cmd =>
    simp only [writeReg, State.issue]
    split
    · split <;> rfl
    · rfl
  all_goals rfl

/-- IER and IDR have one offset each (R33). -/
theorem regAt_maskWriter {p : Params} {off : Nat} {r : Reg} (h : regAt p off = some r) (hr : r = .ier ∨ r = .idr) :
    off = 0x024 ∨ off = 0x028 := by
  have hfixed : ∀ e ∈ fixedRegs, e.2 = .ier ∨ e.2 = .idr → e.1 = 0x024 ∨ e.1 = 0x028 := by decide
  unfold regAt at h
  split at h
  · next e he =>
    cases h
    have hoff : e.1 = off := by simpa using List.find?_some he
    exact hoff ▸ hfixed e (List.mem_of_find?_eq_some he) hr
  · split_ifs at h <;> cases h <;> simp at hr

theorem writeOffset_imr {off : Nat} (v : Word) (hier : off ≠ 0x024) (hidr : off ≠ 0x028) :
    (writeOffset s off v).net.imr = s.net.imr := by
  rcases writeOffset_cases s off v with ⟨r, hr, h⟩ | ⟨-, h⟩ <;> rw [h]
  have hnot : ¬ (r = .ier ∨ r = .idr) := fun hw => (regAt_maskWriter hr hw).elim hier hidr
  exact writeReg_imr v (fun he => hnot (.inl he)) fun he => hnot (.inr he)

/-- A move of the environment or of a DMA agent leaves IMR, but for reset and HOST's writes to IER and IDR. -/
theorem applyInput_imr {i : Input} (hce : i ≠ .turn .ce) (hreset : i ≠ .reset)
    (hwrite : ∀ addr v, i = .hostWrite32 addr v →
      regOffset s.params addr ≠ some 0x024 ∧ regOffset s.params addr ≠ some 0x028)
    (h : applyInput i s = .next t) : t.net.imr = s.net.imr := by
  refine applyInput_keeps (I := fun u => u.net.imr = s.net.imr) hce rfl h (fun _ hu => hu) ?rxdma ?txdma ?reg
    (fun _ _ _ _ => rfl) (fun _ _ _ _ => rfl) ?arrive fun hi => absurd hi hreset
  case rxdma =>
    intro _ u _ hx
    obtain ⟨-, -, -, -, -, -, himr, -⟩ := rxdma_frame hx
    exact himr
  case txdma =>
    intro _ u _ hx
    obtain ⟨-, -, -, -, -, himr, -⟩ := txdma_frame hx
    exact himr
  case reg =>
    intro addr off v hi ha
    obtain ⟨hier, hidr⟩ := hwrite addr v hi
    exact writeOffset_imr v (fun he => hier (he ▸ ha)) fun he => hidr (he ▸ ha)
  case arrive =>
    intro frame _
    rcases arrive_cases s frame with hx | hx | ⟨-, -, hx⟩ <;> rw [hx] <;> rfl

/-! ### The step of the whole machine (R283) -/

/-- Everything a step can be: the first listed move, or, with none listed, a turn of the block's own choice or none. -/
theorem step_cases (h : step s = .next t) :
    (∃ i rest, s.env.inputs = i :: rest ∧ applyInput i (s.withInputs rest) = .next t)
      ∨ (s.env.inputs = [] ∧ (t = s ∨ ∃ ag e, takeTurn ag (s.withEnv e) = .next t)) := by
  unfold step nextStep at h
  split at h
  · cases h
  split at h
  · next i rest hi => exact .inl ⟨i, rest, hi, h⟩
  · next hi =>
    refine .inr ⟨hi, ?_⟩
    unfold freeStep at h
    split at h
    · split at h <;> cases h
      exact .inl rfl
    · exact .inr ⟨_, s.env, h⟩
    · exact .inr ⟨_, _, h⟩

/-- Settles O50: the move is a turn, whose step is the frame of its agent or command, or an access of HOST's, an arrival,
or a step of the block's own. -/
theorem imrChangesOnlyThroughItsWriters : Obligations.ImrChangesOnlyThroughItsWriters := by
  unfold Obligations.ImrChangesOnlyThroughItsWriters
  refine ⟨fun s t hreset hwrite hok h => ?_, fun i s t hinit hcb h => exec_imr hinit hcb h⟩
  rcases step_cases h with ⟨i, rest, hin, hx⟩ | ⟨hin, rfl | ⟨ag, e, hx⟩⟩
  · have hhead : s.env.inputs.head? = some i := by rw [hin]; rfl
    by_cases hi : i = .turn .ce
    · subst hi
      refine takeTurn_imr (s := s.withInputs rest) (hok.imp_right fun hr => .inr (hr.resolve_left ?_)) hx
      rintro ⟨j, rest', hj, hne⟩
      rw [hin] at hj
      cases hj
      exact hne rfl
    · exact applyInput_imr (s := s.withInputs rest) hi (fun he => hreset (he ▸ hhead))
        (fun addr v he => hwrite addr v (he ▸ hhead)) hx
  · rfl
  · refine takeTurn_imr (s := s.withEnv e) (hok.imp_right fun hr => .inr (hr.resolve_left ?_)) hx
    rintro ⟨j, rest, hj, -⟩
    rw [hin] at hj
    cases hj

end Sys2Proof.Machine
end

section
/-! PROOF. Reset (70_reset_and_hazards.md R460, R461) and what INIT leaves alone (R464). Each register reads 0 of the reset
values; INIT is taken apart into its updates, each within the frame. -/

namespace Sys2Proof.Machine

variable {s u : State}

/-! ### Reset (R460, R461) -/

theorem getD_replicate_zero {w : Nat} (n k : Nat) : (List.replicate n (0 : BitVec w)).getD k 0 = 0 := by
  rw [List.getD_eq_getElem?_getD, List.getElem?_replicate]
  split <;> rfl

/-- Every register reads 0 of the reset values (R461). -/
theorem readReg_resetWith (p : Params) (mem : List Host.Cell) (env : Env) (r : Reg) :
    readReg (State.resetWith p mem env) r = 0 := by
  cases r
  case arg k => change argOf Args.zero k = 0; unfold argOf; split <;> rfl
  case res k => change resOf Results.zero k = 0; unfold resOf; split <;> rfl
  case fwd n => exact getD_replicate_zero _ _
  case pipe n => exact getD_replicate_zero _ _
  case dmxbuf j =>
    change wordAt (List.replicate Config.dmxChannels (0 : Byte)) (4 * j) = 0
    simp only [wordAt, getD_replicate_zero]
    decide
  all_goals simp [readReg, State.resetWith, ncrWord, Rsr.word, Rsr.none, tsrWord, Tsr.word, Tsr.none, IrqBits.word,
    IrqBits.none, Callbacks.word, Engine.word, FaultSource.code, CommandPort.statusWord, Status.code,
    Events.statusWord, dispcfgWord, bitAt]

/-- Settles O39: the step of a reset is the state of R461, whatever register an offset names. -/
theorem resetZeroesEveryRegister : Obligations.ResetZeroesEveryRegister := by
  unfold Obligations.ResetZeroesEveryRegister
  intro s rest hwf hin
  have hstep : step s = .next (State.resetWith s.params s.mem { s.env with inputs := rest }) := step_input hwf hin
  refine ⟨_, hstep, rfl, rfl, rfl, fun off => ?_, rfl, rfl, rfl, rfl, rfl, rfl, rfl, rfl, rfl, rfl⟩
  unfold readOffset
  split
  · exact readReg_resetWith _ _ _ _
  · rfl

/-- Settles O57: nothing is pending, both rings await INIT, and the tables have their sizes. -/
theorem resetStateSatisfiesTheInvariants : Obligations.ResetStateSatisfiesTheInvariants := by
  unfold Obligations.ResetStateSatisfiesTheInvariants
  refine ⟨rfl, ⟨rfl, rfl, rfl, rfl, rfl, rfl, List.length_replicate, List.length_replicate, List.length_replicate,
    Nat.zero_le _, rfl, Nat.zero_le _⟩, trivial, fun _ hdone => Bool.noConfusion hdone,
    fun _ => ⟨pendObeys_of_none rfl, fun hdone => Bool.noConfusion hdone⟩,
    ⟨fun _ => ⟨rfl, rfl, rfl⟩, fun hf => Bool.noConfusion hf⟩, rfl⟩

/-! ### INIT (R464) -/

/-- The registers that INIT leaves alone. -/
def InitKeeps (s u : State) : Prop :=
  u.cfg = s.cfg ∧ u.dmx = s.dmx ∧ u.dispFail = s.dispFail ∧ u.out = s.out ∧ u.params = s.params ∧ u.env = s.env
    ∧ u.cmd.cmdOvr = s.cmd.cmdOvr ∧ u.cmd.args = s.cmd.args

/-- Every byte outside the two arrays that INIT is given stays. -/
def InitSpares (s : State) (rc tc rd td : Word) (u : State) : Prop :=
  ∀ x, (∀ i, i < rc.toNat → Outside (descAddr rd i) 8 x) → (∀ i, i < tc.toNat → Outside (descAddr td i) 8 x) →
    u.byte x = s.byte x

/-- What holds while INIT runs from `s`: it is within the frame, INIT_DONE is all it changes of the engine's status, and
the arrays it writes are those it was given. -/
structure Initialising (s : State) (rc tc rd td : Word) (u : State) : Prop where
  keeps : InitKeeps s u
  spares : InitSpares s rc tc rd td u
  eng : u.eng = { s.eng with initDone := u.eng.initDone }
  rxBase : u.rx.dbase = rd
  txBase : u.tx.dbase = td

/-- A write inside a descriptor of one of the two arrays is within the frame. -/
theorem InitSpares.writeDesc {rc tc rd td a : Word} (h : InitSpares s rc tc rd td u) (v : Word)
    (ha : ∀ x, (∀ i, i < rc.toNat → Outside (descAddr rd i) 8 x) → (∀ i, i < tc.toNat → Outside (descAddr td i) 8 x) →
      Outside a 8 x) :
    InitSpares s rc tc rd td (u.withMem (writeWord u.mem a v))
      ∧ InitSpares s rc tc rd td (u.withMem (writeWord u.mem (a + 4) v)) :=
  ⟨fun x hr ht => (readCell_writeWord_other (ha x hr ht).first).trans (h x hr ht),
    fun x hr ht => (readCell_writeWord_other (ha x hr ht).second).trans (h x hr ht)⟩

theorem initialising_rxDesc {rc tc rd td : Word} {i : Nat} (hi : i < rc.toNat) :
    KeptByDesc (Initialising s rc tc rd td) (fun u => u.rx.desc) i := by
  rintro u v ⟨hk, hm, he, hr, ht⟩
  have hdesc : u.rx.desc i = descAddr rd i := by rw [RxRing.desc, hr]
  obtain ⟨h0, h1⟩ := hm.writeDesc (a := u.rx.desc i) v fun x hx _ => hdesc ▸ hx i hi
  exact ⟨⟨hk, h0, he, hr, ht⟩, ⟨hk, h1, he, hr, ht⟩⟩

theorem initialising_txDesc {rc tc rd td : Word} {i : Nat} (hi : i < tc.toNat) :
    KeptByDesc (Initialising s rc tc rd td) (fun u => u.tx.desc) i := by
  rintro u v ⟨hk, hm, he, hr, ht⟩
  have hdesc : u.tx.desc i = descAddr td i := by rw [TxRing.desc, ht]
  obtain ⟨h0, h1⟩ := hm.writeDesc (a := u.tx.desc i) v fun x _ hx => hdesc ▸ hx i hi
  exact ⟨⟨hk, h0, he, hr, ht⟩, ⟨hk, h1, he, hr, ht⟩⟩

/-- The frame of INIT: with no fault recorded, INIT_DONE is all that changes of the engine's status. -/
def InitFrame (s : State) (rc tc rd td : Word) (u : State) : Prop :=
  InitKeeps s u ∧ InitSpares s rc tc rd td u
    ∧ (s.eng.fault = false → u.eng.fault = false → u.eng = { s.eng with initDone := u.eng.initDone })

theorem initFrame_initBody (s : State) (rc tc rd td rb tb : Word) :
    InitFrame s rc tc rd td (Op.final (initBody rc tc rd td rb tb s)) := by
  have hself : InitKeeps s s := ⟨rfl, rfl, rfl, rfl, rfl, rfl, rfl, rfl⟩
  have hstart : Initialising s rc tc rd td (s.initStart rc tc rd td rb tb) :=
    ⟨hself, fun _ _ _ => rfl, rfl, rfl, rfl⟩
  have hfinish : ∀ u, Initialising s rc tc rd td u → Initialising s rc tc rd td (u.initFinish rc tc rd td rb tb) :=
    fun u ⟨hk, hm, he, _, _⟩ => ⟨hk, hm, congrArg (fun e : Engine => { e with initDone := true }) he, rfl, rfl⟩
  rcases initBody_final (rb := rb) (tb := tb) hstart (fun _ => initialising_rxDesc) (fun _ => initialising_txDesc)
    hfinish with hr | ⟨-, -, hr⟩
  · rw [hr]
    exact ⟨hself, fun _ _ _ => rfl, fun _ _ => rfl⟩
  · exact ⟨hr.keeps, hr.spares, fun _ _ => hr.eng⟩

/-- Settles O11: completion and a recorded fault add to INIT's frame nothing but the port and the fault record. -/
theorem initKeepsTheConfiguration : Obligations.InitKeepsTheConfiguration := by
  unfold Obligations.InitKeepsTheConfiguration
  intro s t rc tc rd td rb tb hx
  obtain ⟨⟨h1, h2, h3, h4, h5, h6, h7, h8⟩, hm, he⟩ := runCommand_final (I := InitFrame s rc tc rd td)
    (initFrame_initBody s rc tc rd td rb tb) (fun _ _ _ hu => hu)
    (fun _ _ ⟨hk, hm, _⟩ => ⟨hk, hm, fun _ hf => Bool.noConfusion hf⟩) hx
  exact ⟨h1, h2, h3, h4, h5, h6, h7, h8, he, hm⟩

end Sys2Proof.Machine
end

section
/-! PROOF. Fair runs (70_reset_and_hazards.md R492): commands and interrupts. A pending command waits for a turn of the
command engine that is not SERVICE, and each SERVICE leaves a state in which it would run; a pending interrupt only
gains conditions until the engine's turn, since HOST clears none and disables none (R483). -/

namespace Sys2Proof.Machine

variable {s t : State} {states : Nat → State} {moves : Nat → Input} {n m : Nat} {p : Pending}

/-! ### Commands (R61, R200) -/

/-- A command that runs without a fault completes: PEND is empty and BUSY 0, legal word or not (R61, R143). -/
theorem runPending_completes (hf : s.eng.fault = false) (h : runPending p s = .next t) (ht : t.eng.fault = false) :
    t.cmd.pend = none ∧ t.cmd.busy = false := by
  unfold runPending at h
  split at h
  · next i _ =>
    obtain ⟨hpend, hbusy, -⟩ := commandsCompleteThePort i s t hf h ht
    exact ⟨hpend, hbusy⟩
  · cases h; exact ⟨rfl, rfl⟩

/-- A pending command stays latched through every move but reset and the turn that runs it. -/
theorem pend_stays_until_run (hr : IsRun states moves) (hp : (states n).cmd.pend = some p)
    (hf : (states n).eng.fault = false) (hz : moves n ≠ .reset)
    (hrun : moves n = .turn .ce → (states n).irqPending = true) : (states (n + 1)).cmd.pend = some p := by
  by_cases hce : moves n = .turn .ce
  · rcases ceTurn_cases hr hp hf hce with ⟨-, hx⟩ | ⟨hirq, -⟩
    · exact (congrArg CommandPort.pend (autonomousService_frame hx).1).trans hp
    · rw [hrun hce] at hirq; cases hirq
  · exact pend_stays hr hp hce hz

/-- While a command waits, SERVICE runs again and again, and each leaves IRQ_PENDING false (R435). -/
theorem quiet_recurs (hr : IsRun states moves) (hfair : WeaklyFair states moves)
    (hf : ∀ m, n ≤ m → (states m).eng.fault = false) (hp : ∀ m, n ≤ m → (states m).cmd.pend = some p) (hm : n ≤ m) :
    ∃ k, m ≤ k ∧ (states k).irqPending = false := by
  obtain ⟨k, hk, hce⟩ := hfair .ce m fun k hk => by
    simp [State.enabled, hf k (hm.trans hk), hp k (hm.trans hk)]
  have hnk := hm.trans hk
  rcases ceTurn_cases hr (hp k hnk) (hf k hnk) hce with ⟨-, hx⟩ | ⟨hirq, -⟩
  · obtain ⟨-, -, -, -, -, hquiet⟩ := autonomousService_frame hx
    exact ⟨k + 1, by omega, hquiet⟩
  · exact ⟨k, hk, hirq⟩

/-- A pending command meets a turn of the command engine that is not SERVICE, under either premise of log entry 21. -/
theorem command_turn_comes (hr : IsRun states moves) (hfair : WeaklyFair states moves)
    (hpremise : CommandStepFair states moves ∨ InterruptsCease states)
    (hf : ∀ m, n ≤ m → (states m).eng.fault = false) (hz : ∀ m, n ≤ m → moves m ≠ .reset)
    (hp : (states n).cmd.pend = some p) :
    ∃ m, n ≤ m ∧ moves m = .turn .ce ∧ (states m).cmd.pend = some p ∧ (states m).irqPending = false := by
  by_contra hno
  have hpend : ∀ m, n ≤ m → (states m).cmd.pend = some p := fun m hm => by
    induction m, hm using Nat.le_induction with
    | base => exact hp
    | succ m hm ih =>
      refine pend_stays_until_run hr ih (hf m hm) (hz m hm) fun hce => ?_
      exact Bool.eq_true_of_not_eq_false fun hirq => hno ⟨m, hm, hce, ih, hirq⟩
  have hrun : ∀ m, n ≤ m → moves m = .turn .ce → (states m).irqPending = true := fun m hm hce =>
    Bool.eq_true_of_not_eq_false fun hirq => hno ⟨m, hm, hce, hpend m hm, hirq⟩
  have hquiet := fun m (hm : n ≤ m) => quiet_recurs hr hfair hf hpend hm
  rcases hpremise with hstep | ⟨N, hcease⟩
  · obtain ⟨m, hm, hce, hready⟩ := hstep n fun m hm => by
      obtain ⟨k, hk, hirq⟩ := hquiet m hm
      exact ⟨k, hk, by simp [State.commandReady, hf k (hm.trans hk), hirq, hpend k (hm.trans hk)]⟩
    simp [State.commandReady, hrun m hm hce] at hready
  · obtain ⟨k, hk, hirq⟩ := hquiet (max n N) (Nat.le_max_left n N)
    have hstays : ∀ m, k ≤ m → (states m).irqPending = false := fun m hm => by
      induction m, hm using Nat.le_induction with
      | base => exact hirq
      | succ m hm ih => exact hcease m (by omega) ih
    obtain ⟨m, hm, hce⟩ := hfair .ce k fun m hm => by
      simp [State.enabled, hf m (by omega), hpend m (by omega)]
    have h := hrun m (by omega) hce
    rw [hstays m hm] at h
    cases h

/-- Settles O58: the turn that is not SERVICE runs the command, which completes. -/
theorem fairRunCompletesEveryCommand : Obligations.FairRunCompletesEveryCommand := by
  unfold Obligations.FairRunCompletesEveryCommand
  intro states moves n p hr hfair hpremise hz hp
  refine or_iff_not_imp_left.mpr fun hfault => ?_
  have hf : ∀ m, n ≤ m → (states m).eng.fault = false := fun m hm =>
    Bool.eq_false_of_not_eq_true fun h => hfault ⟨m, hm, h⟩
  obtain ⟨m, hm, hce, hpm, hirq⟩ := command_turn_comes hr hfair hpremise hf hz hp
  rcases ceTurn_cases hr hpm (hf m hm) hce with ⟨h, -⟩ | ⟨-, hx⟩
  · rw [hirq] at h; cases h
  · exact ⟨m, hm, hce, hpm, hx, runPending_completes (s := (states m).withInputs []) (hf m hm) hx (hf _ (by omega))⟩

/-! ### Interrupt bits that only gain (R42 to R45) -/

theorem irqOr_assoc (a b c : IrqBits) : (a.or b).or c = a.or (b.or c) := by simp [IrqBits.or, Bool.or_assoc]

theorem irqOr_trans {a b c : IrqBits} (h : a.or b = b) (h' : b.or c = c) : a.or c = c := by
  rw [← h', ← irqOr_assoc, h]

/-- A source that is set and enabled stays so when no bit of either is lost. -/
theorem meets_mono {a a' b b' : IrqBits} (ha : a.or a' = a') (hb : b.or b' = b') (h : a.meets b = true) :
    a'.meets b' = true := by
  have hand : ∀ {x x' y y' : Bool}, (x && y) = true → ((x || x') && (y || y')) = true := by decide
  rw [← ha, ← hb]
  simp only [IrqBits.meets, Bool.or_eq_true] at h ⊢
  exact h.imp (·.imp (·.imp (·.imp hand hand) hand) hand) hand

/-- From one state to the other ISR and IMR lose no bit, and INIT_DONE stays. -/
def IrqGains (s t : State) : Prop :=
  s.net.isr.or t.net.isr = t.net.isr ∧ s.net.imr.or t.net.imr = t.net.imr ∧ t.eng.initDone = s.eng.initDone

theorem irqGains_of_eq (hi : t.net.isr = s.net.isr) (hm : t.net.imr = s.net.imr)
    (hd : t.eng.initDone = s.eng.initDone) : IrqGains s t :=
  ⟨by rw [hi]; exact irqOr_self _, by rw [hm]; exact irqOr_self _, hd⟩

theorem IrqGains.irqPending (h : IrqGains s t) (hs : s.irqPending = true) : t.irqPending = true := by
  obtain ⟨hisr, himr, hdone⟩ := h
  simp only [State.irqPending, Bool.and_eq_true] at hs ⊢
  exact ⟨meets_mono hisr himr hs.1, hdone.trans hs.2⟩

/-! ### Moves within HOST's duties (R470 to R488) -/

/-- The move is within HOST's duties, is no reset, and disables no source (R492). -/
def Dutiful (s : State) (i : Input) : Prop :=
  i ≠ .reset ∧ hostObeys s i = true ∧ ∀ addr v, i = .hostWrite32 addr v → regOffset s.params addr ≠ some 0x028

theorem Dutiful.withInputs {i : Input} (h : Dutiful s i) (rest : List Input) : Dutiful (s.withInputs rest) i := by
  obtain ⟨hz, ho, hi⟩ := h
  exact ⟨hz, (hostObeys_withEnv s _ i).trans ho, hi⟩

/-- A register write within HOST's duties, and not to IDR, clears and disables no source (R483). -/
theorem irqGains_writeReg {v : Word} {r : Reg} (ho : registerObeys s v r = true) (hidr : r ≠ .idr) :
    IrqGains s (writeReg s v r) := by
  cases r
  case isr => exact absurd ho Bool.false_ne_true
  case idr => exact absurd rfl hidr
  case ier => exact ⟨irqOr_self _, by simp only [writeReg, State.withNet_net, ← irqOr_assoc, irqOr_self], rfl⟩
  case ncr => rw [writeReg, ncrWrite_eq]; exact irqGains_of_eq rfl rfl rfl
  case cmd =>
    simp only [writeReg, State.issue]
    split
    · split <;> exact irqGains_of_eq rfl rfl rfl
    · exact irqGains_of_eq rfl rfl rfl
  all_goals exact irqGains_of_eq rfl rfl rfl

/-- The register a dutiful write reaches: one that HOST's duties allow, and not IDR. -/
theorem Dutiful.register {addr v : Word} {off : Nat} {r : Reg} (h : Dutiful s (.hostWrite32 addr v))
    (hoff : regOffset s.params addr = some off) (hr : regAt s.params off = some r) :
    registerObeys s v r = true ∧ r ≠ .idr := by
  obtain ⟨-, ho, hidr⟩ := h
  simp only [hostObeys, hoff, hr] at ho
  refine ⟨ho, fun he => ?_⟩
  subst he
  rcases regAt_maskWriter hr (.inr rfl) with rfl | rfl
  · cases hr
  · exact hidr addr v rfl hoff

/-- A dutiful move other than the command engine's turn clears and disables no source. -/
theorem irqGains_applyInput {i : Input} (hce : i ≠ .turn .ce) (hd : Dutiful s i) (h : applyInput i s = .next t) :
    IrqGains s t := by
  have hself : IrqGains s s := irqGains_of_eq rfl rfl rfl
  refine applyInput_keeps (I := IrqGains s) hce hself h (fun _ _ => hself) ?rxdma ?txdma ?reg (fun _ _ _ _ => hself)
    (fun _ _ _ _ => hself) ?arrive fun hi => absurd hi hd.1
  case rxdma =>
    intro _ u _ hx
    obtain ⟨-, -, -, -, -, -, himr, -, -, hdone, hisr, -⟩ := rxdma_frame hx
    exact ⟨hisr, by rw [himr]; exact irqOr_self _, hdone⟩
  case txdma =>
    intro _ u _ hx
    obtain ⟨-, -, -, -, -, himr, -, -, -, hdone, hisr⟩ := txdma_frame hx
    exact ⟨hisr, by rw [himr]; exact irqOr_self _, hdone⟩
  case reg =>
    rintro addr off v rfl hoff
    rcases writeOffset_cases s off v with ⟨r, hr, hw⟩ | ⟨-, hw⟩ <;> rw [hw]
    · obtain ⟨ho, hidr⟩ := hd.register hoff hr
      exact irqGains_writeReg ho hidr
    · exact hself
  case arrive =>
    intro frame _
    rcases arrive_cases s frame with hx | hx | ⟨-, -, hx⟩ <;> rw [hx]
    · exact hself
    · exact ⟨by simp [IrqBits.or], irqOr_self _, rfl⟩
    · exact hself

theorem irqGains_move (hr : IsRun states moves) (hce : moves m ≠ .turn .ce) (hd : Dutiful (states m) (moves m)) :
    IrqGains (states m) (states (m + 1)) :=
  irqGains_applyInput (s := (states m).withInputs []) hce (hd.withInputs []) (isRun_applied hr m)

/-- With IRQ_PENDING the command engine's turn is SERVICE (R200, R240). -/
theorem isRun_service (hr : IsRun states moves) (hf : (states m).eng.fault = false)
    (hirq : (states m).irqPending = true) (hce : moves m = .turn .ce) :
    autonomousService ((states m).withInputs []) = .next (states (m + 1)) := by
  have hx := isRun_turn hr hce (by simp [State.enabled, hf, hirq])
  have hirq' : ((states m).withInputs []).irqPending = true := hirq
  rwa [agentStep, ceStep, if_pos hirq'] at hx

/-- Settles O59: until the command engine's turn IRQ_PENDING stays and its conditions with it; the turn is SERVICE. -/
theorem fairRunServicesEveryInterrupt : Obligations.FairRunServicesEveryInterrupt := by
  unfold Obligations.FairRunServicesEveryInterrupt
  intro states moves n hr hfair hduty hirq
  refine or_iff_not_imp_left.mpr fun hfault => ?_
  have hf : ∀ m, n ≤ m → (states m).eng.fault = false := fun m hm =>
    Bool.eq_false_of_not_eq_true fun h => hfault ⟨m, hm, h⟩
  obtain ⟨m, hm, ⟨hirqm, hisr⟩, hce⟩ := weaklyFair_leads (a := .ce) (n := n) hfair
    (P := fun m => (states m).irqPending = true ∧ (states n).net.isr.or (states m).net.isr = (states m).net.isr)
    ⟨hirq, irqOr_self _⟩ (fun m hm hp => by simp [State.enabled, hf m hm, hp.1]) fun m hm hp hce => by
      have hgain := irqGains_move hr hce (hduty m hm)
      exact ⟨hgain.irqPending hp.1, irqOr_trans hp.2 hgain.1⟩
  have hx := isRun_service hr (hf m hm) hirqm hce
  obtain ⟨-, -, -, -, -, hquiet⟩ := autonomousService_frame hx
  exact ⟨m, hm, hce, hirqm, hisr, hx, hquiet⟩

end Sys2Proof.Machine
end

section
/-! PROOF. A frame handed to TXDMA, move by move (70_reset_and_hazards.md R492, R471). Where TXDMA stands in the ring is
told by TXPTR, so a move that keeps the registers keeps the frame's place; TXDMA moves one frame on, and SERVICE moves
TX_TAIL past the sent frames. -/

namespace Sys2Proof.Machine

variable {s t u : State} {states : Nat → State} {moves : Nat → Input} {m i c d q : Nat} {g : Half}

/-! ### The block between INIT and a fault -/

/-- The block has run INIT and not faulted, its rings are as the protocol has them, and TCOMP and RLEX are enabled. -/
structure Serving (s : State) : Prop where
  wf : s.params.wf = true
  canonical : MemoryCanonical s
  rings : RingProtocol s
  running : s.eng.fault = false
  done : s.eng.initDone = true
  tcomp : s.net.imr.tcomp = true
  rlex : s.net.imr.rlex = true

theorem Serving.withInputs (h : Serving s) (rest : List Input) : Serving (s.withInputs rest) := by
  obtain ⟨h1, h2, h3, h4, h5, h6, h7⟩ := h
  exact ⟨h1, h2, h3, h4, h5, h6, h7⟩

theorem Serving.ringsHold (h : Serving s) : RingsHold s := ((ringProtocol_iff s).mp h.rings).2 h.running h.done

theorem Serving.irqPending_of_rlex (h : Serving s) (hi : s.net.isr.rlex = true) : s.irqPending = true := by
  simp [State.irqPending, IrqBits.meets, h.done, h.rlex, hi]

theorem Serving.irqPending_of_tcomp (h : Serving s) (hi : s.net.isr.tcomp = true) : s.irqPending = true := by
  simp [State.irqPending, IrqBits.meets, h.done, h.tcomp, hi]

/-- INIT_DONE and the two transmit sources of IMR are as they were. -/
def SourcesKept (s u : State) : Prop :=
  u.eng.initDone = s.eng.initDone ∧ u.net.imr.tcomp = s.net.imr.tcomp ∧ u.net.imr.rlex = s.net.imr.rlex

/-- The commands other than INIT, WRITE and SERVICE leave the transmit ring's registers, ISR and the transmit sources. -/
theorem exec_txSide {j : Instr} (hinit : ∀ rc tc rd td rb tb, j ≠ .init rc tc rd td rb tb)
    (hwrite : ∀ src len tag, j ≠ .write src len tag) (hservice : j ≠ .service) (h : exec j s = .next t) :
    t.tx = s.tx ∧ t.net.isr = s.net.isr ∧ SourcesKept s t := by
  have hs : s.tx = s.tx ∧ s.net.isr = s.net.isr ∧ SourcesKept s s := ⟨rfl, rfl, rfl, rfl, rfl⟩
  have hread : ∀ dest maxLen, Op.Preserves (fun u => (u.tx = s.tx ∧ u.net.isr = s.net.isr ∧ SourcesKept s u)
      ∧ u.rx.cap = s.rx.cap) (readBody dest maxLen) := fun dest maxLen =>
    preserves_readBody (cap := s.rx.cap.toNat) (P := fun _ => True) (fun _ hu => by rw [hu.2]) (fun _ _ _ => trivial)
      (fun _ _ => trivial) (fun _ _ _ _ hu => hu) (fun _ _ _ _ hu => hu) (fun _ _ _ hu => hu)
  exact exec_keeps (I := fun u => u.tx = s.tx ∧ u.net.isr = s.net.isr ∧ SourcesKept s u) h hs (fun _ _ _ _ hu => hu)
    (fun _ _ _ hu => hu) (fun rc tc rd td rb tb hj => absurd hj (hinit rc tc rd td rb tb))
    (fun dest maxLen _ => (hread dest maxLen s ⟨hs, rfl⟩).1)
    (fun src len tag hj => absurd hj (hwrite src len tag)) (fun hj => absurd hj hservice) (fun _ _ _ hu => hu)
    (fun _ _ _ hu => hu) (fun _ _ hu => hu) (fun _ _ _ hu => hu) (fun _ _ _ hu => hu) (fun _ _ _ hu => hu)
    (fun _ hu => hu)

/-- Every command but INIT leaves the transmit sources. -/
theorem exec_sourcesKept {j : Instr} (hinit : ∀ rc tc rd td rb tb, j ≠ .init rc tc rd td rb tb)
    (h : exec j s = .next t) : SourcesKept s t := by
  by_cases hwrite : ∃ src len tag, j = .write src len tag
  · obtain ⟨src, len, tag, rfl⟩ := hwrite
    obtain ⟨-, -, hnet, -, -, -, -, -, -, -, -, -, -, hdone, -⟩ := writeFrame s t src len tag h
    exact ⟨hdone, by rw [hnet], by rw [hnet]⟩
  by_cases hservice : j = .service
  · subst hservice
    obtain ⟨-, -, -, -, -, -, -, -, -, hdone, -, -, -, -, -, -, himr, -⟩ := serviceFrame s t (.inl h)
    exact ⟨hdone, by rw [himr], by rw [himr]⟩
  obtain ⟨-, -, hkept⟩ := exec_txSide hinit (fun src len tag hj => hwrite ⟨src, len, tag, hj⟩) hservice h
  exact hkept

/-- No pending command is INIT. -/
def NoInit (s : State) : Prop := ∀ p, s.cmd.pend = some p → p.word ≠ 0x01

/-- Everything the command engine's step can be while no INIT is pending. -/
theorem ceStep_noInit (hn : NoInit s) (h : ceStep s = .next t) :
    (s.irqPending = true ∧ autonomousService s = .next t)
      ∨ (∃ j, (∀ rc tc rd td rb tb, j ≠ .init rc tc rd td rb tb) ∧ exec j s = .next t)
      ∨ t = s ∨ ∃ op st r, t = s.complete op st r := by
  rcases ceStep_cases h with hx | ⟨-, p, hp, ⟨j, hd, hx⟩ | ⟨e, -, rfl⟩⟩ | ⟨-, -, rfl⟩
  · exact .inl hx
  · refine .inr (.inl ⟨j, ?_, hx⟩)
    rintro rc tc rd td rb tb rfl
    exact hn p hp (decodeCommand_init hd).1
  · exact .inr (.inr (.inr ⟨_, _, _, rfl⟩))
  · exact .inr (.inr (.inl rfl))

theorem ceStep_sourcesKept (hn : NoInit s) (h : ceStep s = .next t) : SourcesKept s t := by
  rcases ceStep_noInit hn h with ⟨-, hx⟩ | ⟨j, hinit, hx⟩ | rfl | ⟨op, st, r, rfl⟩
  · obtain ⟨-, -, hdone, himr, -⟩ := autonomousService_frame hx
    exact ⟨hdone, by rw [himr], by rw [himr]⟩
  · exact exec_sourcesKept hinit hx
  · exact ⟨rfl, rfl, rfl⟩
  · exact ⟨rfl, rfl, rfl⟩

/-- The command engine's turn in a run is its step, or nothing when it is not enabled. -/
theorem isRun_ceTurn (hr : IsRun states moves) (hce : moves m = .turn .ce) :
    ceStep ((states m).withInputs []) = .next (states (m + 1)) ∨ states (m + 1) = (states m).withInputs [] := by
  have hx := isRun_applied hr m
  rw [hce, applyInput, takeTurn] at hx
  split at hx
  · exact .inl hx
  · injection hx with hx
    exact .inr hx.symm

/-- A run has legal parameters in every state, since its every step is one (R9). -/
theorem isRun_wf (hr : IsRun states moves) (m : Nat) : (states m).params.wf = true := by
  have hstep := hr m
  unfold step nextStep at hstep
  split at hstep
  · cases hstep
  · next hwf =>
    have hwf : ((states m).withInputs [moves m]).params.wf = true := by simpa using hwf
    exact hwf

/-- A move of a run within HOST's duties, with no INIT pending and no fault, keeps the block serving. -/
theorem serving_next (hr : IsRun states moves) (hs : Serving (states m)) (hd : Dutiful (states m) (moves m))
    (hn : NoInit (states m)) (hf : (states (m + 1)).eng.fault = false) : Serving (states (m + 1)) := by
  have hstep := hr m
  obtain ⟨-, hobeys, -⟩ := hd.withInputs [moves m]
  have hrings := stepKeepsRingProtocol ((states m).withInputs [moves m]) _ hs.canonical hs.rings
    (fun i hi => by cases hi; exact hobeys) hstep
  have hmem := stepKeepsMemoryCanonical ((states m).withInputs [moves m]) _ hs.canonical hstep
  have hkept : (states (m + 1)).eng.initDone = true ∧ (states (m + 1)).net.imr.tcomp = true
      ∧ (states (m + 1)).net.imr.rlex = true := by
    by_cases hce : moves m = .turn .ce
    · rcases isRun_ceTurn hr hce with hx | hx
      · obtain ⟨h1, h2, h3⟩ := ceStep_sourcesKept (s := (states m).withInputs []) hn hx
        exact ⟨h1.trans hs.done, h2.trans hs.tcomp, h3.trans hs.rlex⟩
      · rw [hx]; exact ⟨hs.done, hs.tcomp, hs.rlex⟩
    · obtain ⟨-, himr, hdone⟩ := irqGains_move hr hce hd
      rw [← himr]
      exact ⟨hdone.trans hs.done, by simp [IrqBits.or, hs.tcomp], by simp [IrqBits.or, hs.rlex]⟩
  obtain ⟨hdone, htcomp, hrlex⟩ := hkept
  exact ⟨isRun_wf hr _, hmem, hrings, hf, hdone, htcomp, hrlex⟩

/-! ### The frame's place in the ring -/

/-- The frame at ring index `i`, with tag `g`, is the `q`-th pending one, and the first `c` pending ones are sent. -/
structure FrameHeld (s : State) (i c q : Nat) (g : Half) : Prop where
  protocol : TxProtocol s c
  pending : q < s.tx.count
  place : i = (s.tx.tail.toNat + q) % s.tx.cap.toNat
  tag : s.tx.tag i = g

/-- How many pending frames are sent is the offset of TXPTR from TX_TAIL. -/
theorem TxProtocol.sent_eq (h : TxProtocol t c) (hd : d < t.tx.cap.toNat)
    (hp : t.tx.ptr.toNat = (t.tx.tail.toNat + d) % t.tx.cap.toNat) : c = d := by
  obtain ⟨-, -, htail, -, -, hc, hptr, -⟩ := h
  have hlt := count_lt htail
  exact ring_offset_unique (by omega) hd (hptr.symm.trans hp)

/-- The number of sent frames stays below the capacity. -/
theorem TxProtocol.lt_cap (h : TxProtocol s c) : c < s.tx.cap.toNat := by
  obtain ⟨-, -, htail, -, -, hc, -⟩ := h
  have hlt := count_lt htail
  omega

/-- A move that keeps TX_TAIL and the frame's tag and withdraws no frame leaves the frame where it is, and TXPTR says how
many frames are sent. -/
theorem FrameHeld.move (h : FrameHeld s i c q g) (ht : RingsHold t) (hcap : t.tx.cap = s.tx.cap)
    (htail : t.tx.tail = s.tx.tail) (hcount : s.tx.count ≤ t.tx.count) (htag : t.tx.tag i = s.tx.tag i)
    (hd : d < s.tx.cap.toNat) (hptr : t.tx.ptr.toNat = (s.tx.tail.toNat + d) % s.tx.cap.toNat) :
    FrameHeld t i d q g := by
  obtain ⟨-, -, c', hc'⟩ := ht
  obtain rfl : c' = d := hc'.sent_eq (by rw [hcap]; exact hd) (by rw [htail, hcap]; exact hptr)
  exact ⟨hc', h.pending.trans_le hcount, by rw [htail, hcap]; exact h.place, htag.trans h.tag⟩

/-- A move that keeps TXPTR too keeps the frame as it is. -/
theorem FrameHeld.stay (h : FrameHeld s i c q g) (ht : RingsHold t) (hcap : t.tx.cap = s.tx.cap)
    (htail : t.tx.tail = s.tx.tail) (hptr : t.tx.ptr = s.tx.ptr) (hcount : s.tx.count ≤ t.tx.count)
    (htag : t.tx.tag i = s.tx.tag i) : FrameHeld t i c q g := by
  obtain ⟨-, -, -, -, -, -, hplace, -⟩ := id h.protocol
  exact h.move ht hcap htail hcount htag h.protocol.lt_cap (by rw [hptr]; exact hplace)

/-- Another queue base or TXGO leaves the frame as it is. -/
theorem FrameHeld.stay_of_tx (h : FrameHeld s i c q g) (ht : RingsHold t) {b : Word} {go : Bool}
    (htx : t.tx = { s.tx with qbase := b, go := go }) : FrameHeld t i c q g :=
  h.stay ht (by rw [htx]) (by rw [htx]) (by rw [htx]) (by rw [htx]; exact Nat.le_refl _) (by rw [htx]; rfl)

/-! ### HOST's moves, arrivals and RXDMA -/

/-- The transmit ring's registers are as they were, but for TBQB, and TXGO is not cleared. -/
def TxRingKept (s t : State) : Prop :=
  ∃ b go, t.tx = { s.tx with qbase := b, go := go } ∧ (s.tx.go = true → go = true)

theorem txRingKept_of_eq (h : t.tx = s.tx) : TxRingKept s t := ⟨s.tx.qbase, s.tx.go, h, id⟩

theorem txRingKept_writeReg {v : Word} {r : Reg} (ho : registerObeys s v r = true) : TxRingKept s (writeReg s v r) := by
  cases r
  case ncr =>
    simp only [registerObeys, Bool.and_eq_true, beq_iff_eq] at ho
    obtain ⟨-, rfl⟩ := ho
    rw [writeReg, ncrWrite_eq]
    exact ⟨_, _, rfl, fun _ => Bool.or_true _⟩
  case tbqb => exact ⟨_, _, rfl, id⟩
  case cmd =>
    simp only [writeReg, State.issue]
    split
    · split <;> exact txRingKept_of_eq rfl
    · exact txRingKept_of_eq rfl
  all_goals exact txRingKept_of_eq rfl

/-- A dutiful move that is no turn of the command engine or of TXDMA leaves the transmit ring's registers. -/
theorem txRingKept_applyInput {j : Input} (hce : j ≠ .turn .ce) (htx : j ≠ .turn .txdma) (hd : Dutiful s j)
    (h : applyInput j s = .next t) : TxRingKept s t := by
  have hself : TxRingKept s s := txRingKept_of_eq rfl
  refine applyInput_keeps (I := TxRingKept s) hce hself h (fun _ _ => hself) ?rxdma (fun hj => absurd hj htx) ?reg
    (fun _ _ _ _ => hself) (fun _ _ _ _ => hself) ?arrive fun hj => absurd hj hd.1
  case rxdma =>
    intro _ u _ hx
    obtain ⟨-, -, hkept, -⟩ := rxdma_frame hx
    exact txRingKept_of_eq hkept
  case reg =>
    rintro addr off v rfl hoff
    rcases writeOffset_cases s off v with ⟨r, hr, hw⟩ | ⟨-, hw⟩ <;> rw [hw]
    · exact txRingKept_writeReg (hd.register hoff hr).1
    · exact hself
  case arrive =>
    intro frame _
    rcases arrive_cases s frame with hx | hx | ⟨-, -, hx⟩ <;> rw [hx] <;> exact hself

/-! ### TXDMA (R272, R273) -/

/-- A read of a word that ends gives the word and changes nothing. -/
theorem memRead32_eq_ok {a w : Word} (h : memRead32 a s = .ok w t) : w = readWord s.mem a ∧ s = t := by
  rcases memRead32_cases s a with ⟨-, hr⟩ | ⟨x, -, hr⟩ <;> rw [hr] at h <;> cases h
  exact ⟨rfl, rfl⟩

theorem memRead_eq_ok {a : Word} {n : Nat} {bs : List Byte} (h : memRead a n s = .ok bs t) :
    bs = readBytes s.mem a n ∧ s = t := by
  rcases memRead_cases s a n with ⟨-, hr⟩ | ⟨x, -, hr⟩ <;> rw [hr] at h <;> cases h
  exact ⟨rfl, rfl⟩

/-- A write of a word that ends changes memory only. -/
theorem memWrite32_eq_ok {a v : Word} (h : memWrite32 a v s = .ok () t) : t = s.withMem (writeWord s.mem a v) := by
  rcases memWrite32_cases s a v with ⟨-, hr⟩ | ⟨x, -, hr⟩ <;> rw [hr] at h <;> cases h
  rfl

/-- Word 1 of the descriptor that TXDMA's next step takes, at TBQB + 8*TXPTR (R272). -/
def State.txWord1 (s : State) : Word := readWord s.mem (descAddr s.tx.qbase s.tx.ptr.toNat + 4)

/-- The bytes of the frame that descriptor names. -/
def State.txBytes (s : State) : List Byte :=
  readBytes s.mem (readWord s.mem (descAddr s.tx.qbase s.tx.ptr.toNat)) (txLen s.txWord1)

/-- Everything a TXDMA step that ends can do: it stops at a USED descriptor, sends the frame, or fails (R272). -/
theorem txdma_cases (h : runAgent .txdma 0 txdmaStep s = .next t) (hf : t.eng.fault = false) :
    (txUsed s.txWord1 = true ∧ t = s.txStopUsed)
      ∨ (txUsed s.txWord1 = false ∧ t.out.wireTx = s.out.wireTx ++ [s.txBytes]
          ∧ t.tx = { s.tx with ptr := nextPtr (txWrap s.txWord1) s.tx.ptr }
          ∧ t.net.isr = { s.net.isr with tcomp := true })
      ∨ (txUsed s.txWord1 = false ∧ t.tx = { s.tx with go := false }
          ∧ t.net.isr = { s.net.isr with rlex := true }) := by
  rcases runAgent_cases .txdma 0 txdmaStep s with ⟨u, hr, hn⟩ | ⟨a, u, hr, hn⟩ <;> rw [hn] at h <;> cases h
  swap
  · exact Bool.noConfusion hf
  unfold txdmaStep at hr
  rw [Op.current_bind] at hr
  obtain ⟨w1, v, h1, hr⟩ := Op.bind_eq_ok hr
  obtain ⟨rfl, rfl⟩ := memRead32_eq_ok h1
  split at hr
  · next hu => cases hr; exact .inl ⟨hu, rfl⟩
  next hu =>
  have hu : txUsed s.txWord1 = false := Bool.eq_false_of_not_eq_true hu
  obtain ⟨buf, v, h1, hr⟩ := Op.bind_eq_ok hr
  obtain ⟨rfl, rfl⟩ := memRead32_eq_ok h1
  rw [Op.bind_ok _ (drawTxOutcome_run _)] at hr
  cases hsent : s.env.drawTx.1 with
  | true =>
    rw [hsent, txAttempt, if_pos rfl] at hr
    obtain ⟨bs, v, h1, hr⟩ := Op.bind_eq_ok hr
    obtain ⟨rfl, rfl⟩ := memRead_eq_ok h1
    rw [Op.bind_ok _ (wireSend_run _ _)] at hr
    obtain ⟨_, v, h1, hr⟩ := Op.bind_eq_ok hr
    obtain rfl := memWrite32_eq_ok h1
    cases hr
    exact .inr (.inl ⟨hu, rfl, rfl, rfl⟩)
  | false =>
    rw [hsent, txAttempt, if_neg Bool.false_ne_true] at hr
    obtain ⟨_, v, h1, hr⟩ := Op.bind_eq_ok hr
    obtain rfl := memWrite32_eq_ok h1
    cases hr
    exact .inr (.inr ⟨hu, rfl, rfl⟩)

end Sys2Proof.Machine
end

section
/-! PROOF. A frame handed to TXDMA, to its report (70_reset_and_hazards.md R492). The command engine's turns: WRITE adds a
frame behind it, SERVICE reports it or moves TX_TAIL towards it. Then progress: while the frame waits, TXDMA's next turn
sends a frame or fails; once the frame is out, or an attempt has failed, an interrupt is pending, and the SERVICE that
must come reports the frame. -/

namespace Sys2Proof.Machine

variable {s t u : State} {states : Nat → State} {moves : Nat → Input} {n m i c d q : Nat} {g : Half}

/-! ### WRITE (R221, R222) -/

theorem copy_mem_only (dst src : Word) (n : Nat) (s : State) : ∃ m, Op.final (copy dst src n s) = s.withMem m :=
  preserves_copy (I := fun u => ∃ m, u = s.withMem m) (fun _ _ _ _ hu => by obtain ⟨m, rfl⟩ := hu; exact ⟨_, rfl⟩) s
    ⟨s.mem, rfl⟩

/-- What a WRITE that ends does to the transmit ring's registers: nothing, or it hands over the descriptor at TX_HEAD. -/
theorem write_txRing {src len : Word} {tag : Half} (hv : AccessValid s.params (s.tx.desc s.tx.head.toNat) 8)
    (htxen : s.net.txen = true) (h : exec (.write src len tag) s = .next t) (hf : t.eng.fault = false) :
    t.tx = s.tx ∨ (s.tx.count ≠ s.tx.cap.toNat - 1 ∧ t.tx = { s.tx with
      tags := s.tx.tags.set s.tx.head.toNat tag
      head := BitVec.ofNat 16 (ringInc s.tx.cap.toNat s.tx.head.toNat), go := true }) := by
  have h : runCommand 0x03 (writeBody src len tag) s = .next t := h
  rcases runCommand_cases 0x03 (writeBody src len tag) s with ⟨r, u, hr, hn⟩ | ⟨a, u, hr, hn⟩ <;> rw [hn] at h <;> cases h
  swap
  · exact Bool.noConfusion hf
  unfold writeBody at hr
  rw [Op.current_bind] at hr
  split at hr
  · cases hr; exact .inl rfl
  split at hr
  · cases hr; exact .inl rfl
  split at hr
  · cases hr; exact .inl rfl
  next hroom =>
  refine .inr ⟨hroom, ?_⟩
  obtain ⟨m, hmem⟩ := copy_mem_only (readWord s.mem (s.tx.desc s.tx.head.toNat)) src len.toNat s
  cases hcopy : copy (readWord s.mem (s.tx.desc s.tx.head.toNat)) src len.toNat s with
  | ok _ v =>
    rw [hcopy] at hmem
    obtain rfl : v = s.withMem m := hmem
    rw [writeFill_ok hv htxen hcopy] at hr
    cases hr
    rfl
  | error e v =>
    rw [writeFill, Op.current_bind, Op.bind_ok _ (memRead32_ok hv.first), Op.bind_error _ hcopy] at hr
    cases hr

/-- One more frame is pending when TX_HEAD advances and the ring was not full. -/
theorem count_written {r : TxRing} (hh : r.head.toNat < r.cap.toNat) (ht : r.tail.toNat < r.cap.toNat)
    (hroom : r.count ≠ r.cap.toNat - 1) (tags : List Half) (go : Bool) :
    ({ r with tags := tags, head := BitVec.ofNat 16 (ringInc r.cap.toNat r.head.toNat), go := go } : TxRing).count
      = r.count + 1 := by
  have hlt := count_lt ht
  have hinc : ringInc r.cap.toNat r.head.toNat < r.cap.toNat := ringInc_lt (by omega)
  refine count_unique (by dsimp only; rw [index_toNat hinc]; exact hinc) ht (by dsimp only; omega) ?_
  dsimp only
  rw [index_toNat hinc, ringInc, ← tail_add_count hh ht, Nat.mod_add_mod, Nat.add_assoc]

/-- WRITE leaves a pending frame as it is, and does not stop TXDMA. -/
theorem FrameHeld.write {src len : Word} {tag : Half} (h : FrameHeld s i c q g) (hs : Serving s) (ht : Serving t)
    (hx : exec (.write src len tag) s = .next t) : FrameHeld t i c q g ∧ (s.tx.go = true → t.tx.go = true) := by
  obtain ⟨-, -, -, -, -, hvalid, -, -⟩ := ringRegions_facts hs.ringsHold.1
  obtain ⟨-, hhead, htail, -, -, -, -, -, -, htxen, -⟩ := id h.protocol
  rcases write_txRing (hvalid _ hhead) htxen hx ht.running with htx | ⟨hroom, htx⟩
  · exact ⟨h.stay_of_tx ht.ringsHold htx, fun hgo => by rw [htx]; exact hgo⟩
  · have hne : s.tx.head.toNat ≠ i := by
      rw [h.place]
      exact (tail_add_ne_head hhead htail h.pending).symm
    have htag : t.tx.tag i = s.tx.tag i := by
      simp only [htx, TxRing.tag, List.getD_eq_getElem?_getD, List.getElem?_set_ne hne]
    refine ⟨h.stay ht.ringsHold (by rw [htx]) (by rw [htx]) (by rw [htx]) ?_ htag, fun _ => by rw [htx]⟩
    rw [htx, count_written hhead htail hroom]
    exact Nat.le_succ _

/-! ### SERVICE (R241, R244, R247) -/

/-- SERVICE in both forms, for the number of frames that TXDMA has sent. -/
theorem Serving.service (hs : Serving s) (hc : TxProtocol s c) :
    (∃ r, exec .service s = .next ((s.serviced c).complete 0x06 .ok r)) ∧ autonomousService s = .next (s.serviced c) := by
  obtain ⟨-, -, -, -, hrv, htv, ha, -⟩ := ringRegions_facts hs.ringsHold.1
  obtain ⟨-, hhead, htail, hl, -⟩ := id hc
  obtain ⟨hcommand, hown⟩ := service_serviced hs.done hhead htail (fun _ => hrv) htv (fun _ => hl)
    ((sentRun_rxResetMem htail ha).mpr (sentRun_of_protocol hc))
  exact ⟨⟨_, hcommand⟩, hown⟩

/-- A SERVICE without a transmit error brings TX_TAIL to the first frame that is not sent. -/
theorem FrameHeld.serviced (h : FrameHeld s i c q g) (hs : Serving s) (hcq : c ≤ q)
    (he : txError s.net.isr s.net.tsr = false) :
    FrameHeld (s.serviced c) i 0 (q - c) g ∧ (s.serviced c).tx.go = s.tx.go := by
  obtain ⟨-, -, -, -, -, -, ha, -⟩ := ringRegions_facts hs.ringsHold.1
  obtain ⟨-, hhead, htail, -, -, hc, -⟩ := id h.protocol
  have htx : (s.serviced c).tx
      = { s.tx with tail := BitVec.ofNat 16 ((s.tx.tail.toNat + c) % s.tx.cap.toNat) } := by
    simp only [State.serviced, he, Bool.false_eq_true, if_false]
  have hplace := index_toNat (Nat.mod_lt (s.tx.tail.toNat + c) (Nat.lt_of_le_of_lt (Nat.zero_le _) htail))
  have hpending := h.pending
  refine ⟨⟨txProtocol_serviced hs.canonical h.protocol ha, ?_, ?_, ?_⟩, by rw [htx]⟩
  · rw [htx, (free_advance hhead htail hc).1]
    omega
  · rw [htx]
    dsimp only
    rw [hplace, Nat.mod_add_mod, Nat.add_assoc, Nat.add_sub_cancel' hcq]
    exact h.place
  · rw [htx]
    exact h.tag

/-! ### The command engine's turn -/

/-- The command engine's step either is a SERVICE, whose events are those of the sent frames, or leaves the frame. -/
theorem FrameHeld.ceStep (h : FrameHeld s i c q g) (hs : Serving s) (ht : Serving t) (hn : NoInit s)
    (hx : ceStep s = .next t) :
    (t.ev = s.ev.pushAll s.params.evqDepth (serviceEvents s c)
        ∧ (c ≤ q → txError s.net.isr s.net.tsr = false → FrameHeld t i 0 (q - c) g ∧ t.tx.go = s.tx.go))
      ∨ FrameHeld t i c q g ∧ (s.tx.go = true → t.tx.go = true) := by
  obtain ⟨⟨r, hcommand⟩, hown⟩ := hs.service h.protocol
  rcases ceStep_noInit hn hx with ⟨-, hx⟩ | ⟨j, hinit, hx⟩ | rfl | ⟨op, st, r, rfl⟩
  · rw [hown] at hx
    cases hx
    exact .inl ⟨rfl, h.serviced hs⟩
  · by_cases hservice : j = .service
    · subst hservice
      rw [hcommand] at hx
      cases hx
      refine .inl ⟨rfl, fun hcq he => ?_⟩
      obtain ⟨⟨h1, h2, h3, h4⟩, hgo⟩ := h.serviced hs hcq he
      exact ⟨⟨h1, h2, h3, h4⟩, hgo⟩
    by_cases hwrite : ∃ src len tag, j = .write src len tag
    · obtain ⟨src, len, tag, rfl⟩ := hwrite
      exact .inr (h.write hs ht hx)
    · obtain ⟨htx, -⟩ := exec_txSide hinit (fun src len tag hj => hwrite ⟨src, len, tag, hj⟩) hservice hx
      exact .inr ⟨h.stay_of_tx ht.ringsHold htx, fun hgo => by rw [htx]; exact hgo⟩
  · exact .inr ⟨h, id⟩
  · exact .inr ⟨h.stay_of_tx ht.ringsHold rfl, id⟩

/-! ### A fair run without a fault -/

/-- From state `n` on the run is fair, HOST obeys its duties and disables no source, no INIT is pending, no fault stops
the block; and the block serves in state `n`. -/
structure Watched (states : Nat → State) (moves : Nat → Input) (n : Nat) : Prop where
  run : IsRun states moves
  fair : WeaklyFair states moves
  duty : ∀ m, n ≤ m → Dutiful (states m) (moves m)
  noInit : ∀ m, n ≤ m → NoInit (states m)
  running : ∀ m, n ≤ m → (states m).eng.fault = false
  start : Serving (states n)

theorem Watched.serving (w : Watched states moves n) (hm : n ≤ m) : Serving (states m) := by
  induction m, hm using Nat.le_induction with
  | base => exact w.start
  | succ m hm ih => exact serving_next w.run ih (w.duty m hm) (w.noInit m hm) (w.running _ (by omega))

theorem Watched.next (w : Watched states moves n) (hm : n ≤ m) : Serving (states (m + 1)) := w.serving (by omega)

/-- A move that is neither the command engine's nor TXDMA's turn leaves the frame, and does not stop TXDMA. -/
theorem FrameHeld.otherMove (h : FrameHeld (states m) i c q g) (w : Watched states moves n) (hm : n ≤ m)
    (hce : moves m ≠ .turn .ce) (htx : moves m ≠ .turn .txdma) :
    FrameHeld (states (m + 1)) i c q g ∧ ((states m).tx.go = true → (states (m + 1)).tx.go = true) := by
  obtain ⟨b, go, hkept, hgo⟩ := txRingKept_applyInput (s := (states m).withInputs []) hce htx
    ((w.duty m hm).withInputs []) (isRun_applied w.run m)
  exact ⟨h.stay_of_tx (w.next hm).ringsHold hkept, fun hs => by rw [hkept]; exact hgo hs⟩

/-- TXDMA put the bytes of the frame at index `i` on the wire, in state `n` or later and before state `m`. -/
def WentOut (states : Nat → State) (moves : Nat → Input) (n i m : Nat) : Prop :=
  ∃ j, n ≤ j ∧ j < m ∧ moves j = .turn .txdma ∧ (states j).tx.ptr.toNat = i
    ∧ (states (j + 1)).out.wireTx = (states j).out.wireTx
      ++ [readBytes (states j).mem (readWord (states j).mem ((states j).tx.desc i))
        ((readWord (states j).mem ((states j).tx.desc i + 4)).toNat % 2 ^ 14)]

theorem WentOut.later (h : WentOut states moves n i m) : WentOut states moves n i (m + 1) := by
  obtain ⟨j, hn, hj, rest⟩ := h
  exact ⟨j, hn, by omega, rest⟩

/-- TXDMA's descriptor is the one at TXPTR in the ring (R273). -/
theorem TxProtocol.ptr_desc (h : TxProtocol s c) :
    descAddr s.tx.qbase s.tx.ptr.toNat = s.tx.desc s.tx.ptr.toNat ∧ s.tx.ptr.toNat < s.tx.cap.toNat
      ∧ txUsed s.txWord1 = decide (s.tx.count ≤ c)
      ∧ txWrap s.txWord1 = decide (s.tx.ptr.toNat + 1 = s.tx.cap.toNat) := by
  have hused := txUsed_at_ptr h
  obtain ⟨hcap, -, -, -, hq, -, hptr, -, hwords, -⟩ := h
  have hdesc : descAddr s.tx.qbase s.tx.ptr.toNat = s.tx.desc s.tx.ptr.toNat := by rw [hq]; rfl
  have hlt : s.tx.ptr.toNat < s.tx.cap.toNat := by rw [hptr]; exact Nat.mod_lt _ (by omega)
  refine ⟨hdesc, hlt, ?_⟩
  rw [State.txWord1, hdesc]
  exact ⟨hused, (hwords _ hlt).1⟩

/-- TXDMA's turn: one more frame is sent, and it is ours if it is next; or nothing is, and a frame that was to be sent has
met a failure (R272). -/
theorem FrameHeld.txdmaTurn (h : FrameHeld (states m) i c q g) (w : Watched states moves n) (hm : n ≤ m)
    (htx : moves m = .turn .txdma) :
    (FrameHeld (states (m + 1)) i c q g
        ∧ ((states m).tx.go = true → c ≤ q → (states (m + 1)).net.isr.rlex = true))
      ∨ (FrameHeld (states (m + 1)) i (c + 1) q g ∧ (states (m + 1)).net.isr.tcomp = true
        ∧ ((states m).tx.go = true → (states (m + 1)).tx.go = true) ∧ (c = q → WentOut states moves n i (m + 1))) := by
  have hrings := (w.next hm).ringsHold
  have hpending := h.pending
  obtain ⟨hdesc, hlt, hused, hwrap⟩ := h.protocol.ptr_desc
  obtain ⟨-, -, htail, -, -, -, hplace, -, -, htxen, -⟩ := id h.protocol
  have hcount := count_lt htail
  cases hen : (states m).enabled .txdma with
  | false =>
    have hx := isRun_applied w.run m
    rw [htx, applyInput, takeTurn, enabled_withInputs, hen] at hx
    injection hx with hx
    refine .inl ⟨h.stay_of_tx hrings (by rw [← hx]; rfl), fun hgo _ => ?_⟩
    simp [State.enabled, w.running m hm, hgo, htxen] at hen
  | true =>
    rcases txdma_cases (s := (states m).withInputs []) (isRun_turn w.run htx hen) (w.running _ (by omega)) with
      ⟨hu, hx⟩ | ⟨hu, hwire, hx, hisr⟩ | ⟨-, hx, hisr⟩
    · refine .inl ⟨h.stay_of_tx hrings (by rw [hx]; rfl), fun _ hcq => ?_⟩
      have hdone := of_decide_eq_true (hused.symm.trans hu)
      omega
    · have hleft := of_decide_eq_false (hused.symm.trans hu)
      have hx : (states (m + 1)).tx
          = { (states m).tx with ptr := nextPtr (txWrap (states m).txWord1) (states m).tx.ptr } := hx
      refine .inr ⟨h.move hrings (by rw [hx]) (by rw [hx]) (by rw [hx]; exact Nat.le_refl _) (by rw [hx]; rfl)
        (by omega) ?_, by rw [hisr], fun hgo => by rw [hx]; exact hgo, fun hcq => ?_⟩
      · rw [hx]
        dsimp only
        rw [hwrap, nextPtr_toNat hlt, ringInc, hplace, Nat.mod_add_mod, Nat.add_assoc]
      · have hi : (states m).tx.ptr.toNat = i := by rw [hplace, hcq]; exact h.place.symm
        refine ⟨m, hm, by omega, htx, hi, ?_⟩
        rw [← hi, ← hdesc]
        exact hwire
    · exact .inl ⟨h.stay_of_tx hrings hx, fun _ _ => by rw [hisr]⟩

/-! ### The report -/

/-- Some turn of the command engine is a SERVICE whose events report the frame (R244, R247, R492). -/
def Reported (states : Nat → State) (moves : Nat → Input) (n i : Nat) : Prop :=
  ∃ m sent q, n ≤ m ∧ moves m = .turn .ce
    ∧ SentRun (states m) sent ∧ q < (states m).tx.count
    ∧ i = ((states m).tx.tail.toNat + q) % (states m).tx.cap.toNat
    ∧ (states m).tx.tag i = (states n).tx.tag i
    ∧ (states (m + 1)).ev = (states m).ev.pushAll (states m).params.evqDepth (serviceEvents (states m) sent)
    ∧ (sent ≤ q → ((states m).net.isr.rlex || (states m).net.tsr.rle) = true)
    ∧ (q < sent → WentOut states moves n i m)

/-- A SERVICE reports a frame that is sent, and with a transmit error every other pending one. -/
theorem FrameHeld.reported (h : FrameHeld (states m) i c q ((states n).tx.tag i)) (hm : n ≤ m)
    (hce : moves m = .turn .ce)
    (hev : (states (m + 1)).ev = (states m).ev.pushAll (states m).params.evqDepth (serviceEvents (states m) c))
    (he : c ≤ q → txError (states m).net.isr (states m).net.tsr = true) (hout : q < c → WentOut states moves n i m) :
    Reported states moves n i :=
  ⟨m, c, q, hm, hce, sentRun_of_protocol h.protocol, h.pending, h.place, h.tag, hev, he, hout⟩

/-- The next SERVICE must report the frame: it is out and TCOMP set, or it waits behind a failure and RLEX is set. -/
def ReportDue (states : Nat → State) (moves : Nat → Input) (n i m : Nat) : Prop :=
  ∃ c q, FrameHeld (states m) i c q ((states n).tx.tag i)
    ∧ ((c ≤ q ∧ (states m).net.isr.rlex = true)
      ∨ (q < c ∧ (states m).net.isr.tcomp = true ∧ WentOut states moves n i m))

theorem ReportDue.irqPending (h : ReportDue states moves n i m) (w : Watched states moves n) (hm : n ≤ m) :
    (states m).irqPending = true := by
  obtain ⟨c, q, -, ⟨-, hrlex⟩ | ⟨-, htcomp, -⟩⟩ := h
  · exact (w.serving hm).irqPending_of_rlex hrlex
  · exact (w.serving hm).irqPending_of_tcomp htcomp

/-- A report that is due stays due until the command engine's turn. -/
theorem ReportDue.next (h : ReportDue states moves n i m) (w : Watched states moves n) (hm : n ≤ m)
    (hce : moves m ≠ .turn .ce) : ReportDue states moves n i (m + 1) := by
  obtain ⟨hisr, -, -⟩ := irqGains_move w.run hce (w.duty m hm)
  have hrlex : (states m).net.isr.rlex = true → (states (m + 1)).net.isr.rlex = true := fun h => by
    rw [← hisr]; simp [IrqBits.or, h]
  have htcomp : (states m).net.isr.tcomp = true → (states (m + 1)).net.isr.tcomp = true := fun h => by
    rw [← hisr]; simp [IrqBits.or, h]
  obtain ⟨c, q, hheld, hdue⟩ := h
  have hstay : FrameHeld (states (m + 1)) i c q ((states n).tx.tag i) → ReportDue states moves n i (m + 1) := fun h =>
    ⟨c, q, h, hdue.imp (fun ⟨hcq, hr⟩ => ⟨hcq, hrlex hr⟩) fun ⟨hqc, ht, hout⟩ => ⟨hqc, htcomp ht, hout.later⟩⟩
  by_cases htx : moves m = .turn .txdma
  · rcases hheld.txdmaTurn w hm htx with ⟨h, -⟩ | ⟨h, ht, -, hsent⟩
    · exact hstay h
    · refine ⟨c + 1, q, h, ?_⟩
      rcases hdue with ⟨hcq, hr⟩ | ⟨hqc, -, hout⟩
      · rcases Nat.eq_or_lt_of_le hcq with heq | hlt
        · exact .inr ⟨by omega, ht, hsent heq⟩
        · exact .inl ⟨hlt, hrlex hr⟩
      · exact .inr ⟨by omega, ht, hout.later⟩
  · exact hstay (hheld.otherMove w hm hce htx).1

/-- A report that is due is made: the command engine's turn comes, and is SERVICE. -/
theorem ReportDue.reported (h : ReportDue states moves n i m) (w : Watched states moves n) (hm : n ≤ m) :
    Reported states moves n i := by
  obtain ⟨k, hk, hdue, hce⟩ := weaklyFair_leads (a := .ce) (n := m) w.fair (P := ReportDue states moves n i) h
    (fun k hk hd => by simp [State.enabled, w.running k (by omega), hd.irqPending w (by omega)])
    fun k hk hd hce => hd.next w (by omega) hce
  have hnk : n ≤ k := hm.trans hk
  have hx := isRun_service w.run (w.running k hnk) (hdue.irqPending w hnk) hce
  obtain ⟨c, q, hheld, hcases⟩ := hdue
  have hprotocol : TxProtocol ((states k).withInputs []) c := hheld.protocol
  rw [(((w.serving hnk).withInputs []).service hprotocol).2] at hx
  injection hx with hx
  refine hheld.reported hnk hce (by rw [← hx]; rfl) (fun hcq => ?_) fun hqc => ?_
  · obtain ⟨-, hrlex⟩ := hcases.resolve_right fun h => absurd h.1 (by omega)
    simp [txError, hrlex]
  · obtain ⟨-, -, hout⟩ := hcases.resolve_left fun h => absurd h.1 (by omega)
    exact hout

/-- The frame waits with `d` frames to be sent before it, and TXDMA is running. -/
def Queued (states : Nat → State) (n i d m : Nat) : Prop :=
  ∃ c q, FrameHeld (states m) i c q ((states n).tx.tag i) ∧ c ≤ q ∧ q - c = d ∧ (states m).tx.go = true

/-- A queued frame stays queued until TXDMA's turn, if it is not reported. -/
theorem Queued.next (h : Queued states n i d m) (w : Watched states moves n) (hm : n ≤ m)
    (hno : ¬ Reported states moves n i) (htx : moves m ≠ .turn .txdma) : Queued states n i d (m + 1) := by
  obtain ⟨c, q, hheld, hcq, hd, hgo⟩ := h
  by_cases hce : moves m = .turn .ce
  · rcases isRun_ceTurn w.run hce with hx | hx
    · have hheld' : FrameHeld ((states m).withInputs []) i c q ((states n).tx.tag i) :=
        ⟨hheld.protocol, hheld.pending, hheld.place, hheld.tag⟩
      rcases hheld'.ceStep ((w.serving hm).withInputs []) (w.next hm) (w.noInit m hm) hx with ⟨hev, hnext⟩ | ⟨h, hgo'⟩
      · cases he : txError (states m).net.isr (states m).net.tsr with
        | true => exact absurd (hheld.reported hm hce hev (fun _ => he) fun hqc => absurd hqc (by omega)) hno
        | false =>
          obtain ⟨h, hgo'⟩ := hnext hcq he
          exact ⟨0, q - c, h, Nat.zero_le _, hd, hgo'.trans hgo⟩
      · exact ⟨c, q, h, hcq, hd, hgo' hgo⟩
    · exact ⟨c, q, hheld.stay_of_tx (w.next hm).ringsHold (by rw [hx]; rfl), hcq, hd, by rw [hx]; exact hgo⟩
  · obtain ⟨h, hgo'⟩ := hheld.otherMove w hm hce htx
    exact ⟨c, q, h, hcq, hd, hgo' hgo⟩

/-- A frame that is not sent is reported: TXDMA's turns bring it nearer, and its own is sent or fails. -/
theorem FrameHeld.leads (w : Watched states moves n) (d : Nat) : ∀ {m c q}, n ≤ m →
    FrameHeld (states m) i c q ((states n).tx.tag i) → c ≤ q → q - c = d → Reported states moves n i := by
  induction d using Nat.strong_induction_on with
  | _ d ih =>
    intro m c q hm h hcq hd
    by_contra hno
    have hrlex : ∀ {k c q}, n ≤ k → FrameHeld (states k) i c q ((states n).tx.tag i) → c ≤ q →
        (states k).net.isr.rlex ≠ true := fun hk hh hcq hr =>
      hno (ReportDue.reported ⟨_, _, hh, .inl ⟨hcq, hr⟩⟩ w hk)
    obtain ⟨-, -, -, -, -, -, -, -, -, -, hruns⟩ := id h.protocol
    have hgo : (states m).tx.go = true := (hruns (hcq.trans_lt h.pending)).resolve_right (hrlex hm h hcq)
    obtain ⟨k, hk, ⟨c, q, h, hcq, hd, hgo⟩, htx⟩ := weaklyFair_leads (a := .txdma) (n := m) w.fair
      (P := Queued states n i d) ⟨c, q, h, hcq, hd, hgo⟩
      (fun k hk ⟨c, q, h, _, _, hgo⟩ => by
        obtain ⟨-, -, -, -, -, -, -, -, -, htxen, -⟩ := id h.protocol
        simp [State.enabled, w.running k (by omega), hgo, htxen])
      fun k hk hq htx => hq.next w (by omega) hno htx
    have hnk : n ≤ k + 1 := by omega
    rcases h.txdmaTurn w (by omega) htx with ⟨h', hfail⟩ | ⟨h', htcomp, -, hsent⟩
    · exact hrlex hnk h' hcq (hfail hgo hcq)
    · rcases Nat.eq_or_lt_of_le hcq with heq | hlt
      · exact hno (ReportDue.reported ⟨_, _, h', .inr ⟨by omega, htcomp, hsent heq⟩⟩ w hnk)
      · exact hno (ih (q - (c + 1)) (by omega) hnk h' hlt rfl)

/-- Settles O60: the frame is held in state `n` and not sent, and the run is watched from there on. -/
theorem fairRunReportsEveryFrame : Obligations.FairRunReportsEveryFrame := by
  unfold Obligations.FairRunReportsEveryFrame
  intro states moves n c k i hr hfair hduty hmem hrings hdone htcomp hrlex hc hck hk hi
  refine or_iff_not_imp_left.mpr fun hfault => ?_
  have hf : ∀ m, n ≤ m → (states m).eng.fault = false := fun m hm =>
    Bool.eq_false_of_not_eq_true fun h => hfault ⟨m, hm, h⟩
  have w : Watched states moves n :=
    { run := hr, fair := hfair, running := hf
      duty := fun m hm => by
        obtain ⟨hreset, hobeys, hidr, -⟩ := hduty m hm
        exact ⟨hreset, hobeys, hidr⟩
      noInit := fun m hm => by
        obtain ⟨-, -, -, hinit⟩ := hduty m hm
        exact hinit
      start := ⟨isRun_wf hr n, hmem, hrings, hf n (Nat.le_refl n), hdone, htcomp, hrlex⟩ }
  exact FrameHeld.leads w (k - c) (Nat.le_refl n) ⟨hc, hk, hi, rfl⟩ hck rfl

end Sys2Proof.Machine
end
